-- ==== Sys2Proof/Word.lean ====
section
/-!
DEFINITION. The word types of the Nimosia S8 and their plainest arithmetic (R5, R6).
-/
namespace Sys2Proof

/-- A byte of memory (R5). -/
abbrev Byte := BitVec 8
/-- A 32-bit instruction, literal or parameter word (R96). -/
abbrev Word32 := BitVec 32
/-- A 64-bit scalar register, CSR or address (R139). -/
abbrev Word64 := BitVec 64

end Sys2Proof
end

