-- ==== Sys2Proof/Syntax.lean ====
section
/-!
DEFINITION. The instructions and the device steps of the Nimosia S8: one constructor of `Instr` for every row of
spec/opcode_table.json, and the small types of their operands. The C bit (R97) is not part of an instruction's
meaning; the decoder and the encoder carry it beside the instruction.
-/
namespace Sys2Proof

/-- A five-bit register field (R98). -/
abbrev Reg := BitVec 5

/-- Integer width W of format T (R99): `.d` 64, `.w` 32, `.h` 16, `.b` 8 bits. -/
inductive IWidth | w64 | w32 | w16 | w8
  deriving DecidableEq, Repr
/-- Floating width of format T (R99): `.s` FP32 (W = 01), `.bf` BF16 (W = 10). -/
inductive FWidth | f32 | bf16
  deriving DecidableEq, Repr
/-- Operand b of format T: a register, or the literal word of L = 1 (R99). -/
inductive Src
  | reg (b : Reg)
  | lit (w : Word32)
  deriving DecidableEq, Repr
/-- Operand b of an element-wise instruction, by kind (R102). -/
inductive EwSrc
  | arr (b : Reg)
  | sca (b : Reg)
  | lit (w : Word32)
  | con (b : Reg)
  deriving DecidableEq, Repr
/-- The count source of `arot`, `atake`, `adrop`, `aiota` (R131): k = 0 a scalar, k = 1 an array register. -/
inductive CountSrc
  | sca (b : Reg)
  | arr (b : Reg)
  deriving DecidableEq, Repr
/-- Variants of `cnt` (R129). -/
inductive CntOp | pop | clz | ctz
  deriving DecidableEq, Repr
/-- Variants of `fcmp` (R129). -/
inductive FCmpOp | eq | lt | le | un
  deriving DecidableEq, Repr
/-- Variants of `fcvt` (R129). -/
inductive FCvtOp | i2s | s2i | s2b | b2s
  deriving DecidableEq, Repr
/-- Operations of `amo` and `amoa` (R129). -/
inductive AtomOp | add | min | max | and | or | xor | xchg | cas
  deriving DecidableEq, Repr
/-- Scopes of `fence`, `pub` and `spub` (R99, R366). -/
inductive Scope | thr | core | sq | die | pkg | sys
  deriving DecidableEq, Repr
/-- Kinds of `fence` (R99). -/
inductive FenceKind | acq | rel | ar
  deriving DecidableEq, Repr
/-- Dataflows of `mmul` (R106). -/
inductive Dataflow | ip | op | rw
  deriving DecidableEq, Repr
/-- The mode of `erun` (R324). -/
inductive ErunMode | auto | push | pull
  deriving DecidableEq, Repr
/-- Operations of `xslot` (R350). -/
inductive XslotOp | acq | rel
  deriving DecidableEq, Repr
/-- Kinds of `xstep` (R207). -/
inductive XstepKind | rotate | gather | scatter
  deriving DecidableEq, Repr

/-- The parameter block of an AP instruction, words P0 to P3 (R104). -/
structure PBlock where
  rank : BitVec 4
  ty : BitVec 4
  bl : BitVec 2
  boff : BitVec 3
  pb : Bool
  nt : Bool
  x0 : BitVec 16
  x1 : BitVec 16
  x2 : BitVec 16
  x3 : BitVec 16
  pn : BitVec 16
  pu : BitVec 16
  deriving DecidableEq, Repr

/-- A region, named by its RCB's virtual address in the address space of its world (R71, R265). -/
structure RegionId where
  sec : Bool
  rcb : Word64
  deriving DecidableEq, Repr
/-- A control thread: its region and its index (R79). -/
structure Tid where
  region : RegionId
  idx : Nat
  deriving DecidableEq, Repr

/-- The header flit of a command message (R417); `rsv` says that some reserved byte of the message is not zero. -/
structure MsgHdr where
  dst : BitVec 16
  src : BitVec 16
  tag : BitVec 16
  world : Byte
  wcnt : Word32
  rsv : Bool
  deriving DecidableEq, Repr
/-- What a link request asks of the home of its address (R415). -/
inductive LinkReq
  | read (pa : Nat) (n : Nat)
  /-- A write, and the granules (address / 32) that it writes poisoned (R286). -/
  | write (pa : Nat) (bytes : List Byte) (bad : List Nat)
  /-- A write of several runs of bytes of one line, each at its address; `pa` is the first (R283). -/
  | writes (pa : Nat) (runs : List (Nat × List Byte)) (bad : List Nat)
  /-- An atomic on `n` bytes: `ty` is 15 for FP32 and 8 for unsigned integers, signed integers otherwise (R353, R355). -/
  | atomic (op : AtomOp) (pa : Nat) (n : Nat) (x cmp : Word64) (ty : BitVec 4)
  /-- A top-k insert (R341): the score, the expert, and how many entries stay. -/
  | insert (pa : Nat) (score id : BitVec 16) (k : Nat)
  /-- A command message whose TYPE the firmware does not know, to the node its header names (R417). -/
  | message (type : Nat) (h : MsgHdr)
  deriving DecidableEq, Repr
/-- How a remote request ends (R415): with the bytes and the granules (address / 32) among them that are poisoned, or with
an error. -/
inductive LinkReply
  | data (bytes : List Byte) (poison : List Nat)
  | error
  deriving DecidableEq, Repr
/-- Where an error was detected (R402): the unit kinds of the error log. -/
inductive UnitKind | core | channel | lane | l2 | wslice | bank
  deriving DecidableEq, Repr

/-- One constructor per row of the opcode table. -/
inductive Instr
  -- scalar integer (R128, R140, R142)
  | nop
  | add (w : IWidth) (d a : Reg) (b : Src)
  | sub (w : IWidth) (d a : Reg) (b : Src)
  | mul (w : IWidth) (d a : Reg) (b : Src)
  | mulh (u : Bool) (w : IWidth) (d a : Reg) (b : Src)
  | div (u : Bool) (w : IWidth) (d a : Reg) (b : Src)
  | rem (u : Bool) (w : IWidth) (d a : Reg) (b : Src)
  | and (w : IWidth) (d a : Reg) (b : Src)
  | or (w : IWidth) (d a : Reg) (b : Src)
  | xor (w : IWidth) (d a : Reg) (b : Src)
  | shl (w : IWidth) (d a : Reg) (b : Src)
  | shr (ar : Bool) (w : IWidth) (d a : Reg) (b : Src)
  | min (u : Bool) (w : IWidth) (d a : Reg) (b : Src)
  | max (u : Bool) (w : IWidth) (d a : Reg) (b : Src)
  | slt (u : Bool) (w : IWidth) (d a : Reg) (b : Src)
  | cnt (f : CntOp) (w : IWidth) (d a : Reg)
  | addi (d a : Reg) (i : BitVec 11)
  | andi (d a : Reg) (i : BitVec 11)
  | ori (d a : Reg) (i : BitVec 11)
  | xori (d a : Reg) (i : BitVec 11)
  | shli (d a : Reg) (i : BitVec 6)
  | shri (h : Bool) (d a : Reg) (i : BitVec 6)
  | slti (d a : Reg) (i : BitVec 11)
  | lui (d : Reg) (i : BitVec 16)
  | lpc (d : Reg) (i : BitVec 16)
  -- scalar memory (R143)
  | ldd (d a : Reg) (i : BitVec 11)
  | ldw (d a : Reg) (i : BitVec 11)
  | ldh (d a : Reg) (i : BitVec 11)
  | ldb (d a : Reg) (i : BitVec 11)
  | std (d a : Reg) (i : BitVec 11)
  | stw (d a : Reg) (i : BitVec 11)
  | sth (d a : Reg) (i : BitVec 11)
  | stb (d a : Reg) (i : BitVec 11)
  -- scalar floating (R145 to R147)
  | fadd (w : FWidth) (d a : Reg) (b : Src)
  | fsub (w : FWidth) (d a : Reg) (b : Src)
  | fmul (w : FWidth) (d a : Reg) (b : Src)
  | fdiv (w : FWidth) (d a : Reg) (b : Src)
  | fma (w : FWidth) (d a : Reg) (b : Src)
  | fmin (w : FWidth) (d a : Reg) (b : Src)
  | fmax (w : FWidth) (d a : Reg) (b : Src)
  | fcmp (f : FCmpOp) (w : FWidth) (d a : Reg) (b : Src)
  | fcvt (f : FCvtOp) (d a : Reg)
  -- branches and jumps (R148)
  | beq (a b : Reg) (o : BitVec 11)
  | bne (a b : Reg) (o : BitVec 11)
  | blt (a b : Reg) (o : BitVec 11)
  | bge (a b : Reg) (o : BitVec 11)
  | bltu (a b : Reg) (o : BitVec 11)
  | bgeu (a b : Reg) (o : BitVec 11)
  | jal (o : BitVec 21)
  | jr (d a : Reg)
  | fli (d : Reg) (i : BitVec 20)
  -- element-wise (R162 to R186); m is the mask field, r is RK
  | aadd (k : EwSrc) (d a : Reg) (m r : BitVec 3)
  | asub (k : EwSrc) (d a : Reg) (m r : BitVec 3)
  | amul (k : EwSrc) (d a : Reg) (m r : BitVec 3)
  | afma (k : EwSrc) (d a : Reg) (m r : BitVec 3)
  | amin (k : EwSrc) (d a : Reg) (m r : BitVec 3)
  | amax (k : EwSrc) (d a : Reg) (m r : BitVec 3)
  | adiv (k : EwSrc) (d a : Reg) (m r : BitVec 3)
  | aand (k : EwSrc) (d a : Reg) (m r : BitVec 3)
  | aor (k : EwSrc) (d a : Reg) (m r : BitVec 3)
  | axor (k : EwSrc) (d a : Reg) (m r : BitVec 3)
  | ashl (k : EwSrc) (d a : Reg) (m r : BitVec 3)
  | ashr (k : EwSrc) (d a : Reg) (m r : BitVec 3)
  | aceq (k : EwSrc) (d a : Reg) (m r : BitVec 3)
  | acne (k : EwSrc) (d a : Reg) (m r : BitVec 3)
  | aclt (k : EwSrc) (d a : Reg) (m r : BitVec 3)
  | acle (k : EwSrc) (d a : Reg) (m r : BitVec 3)
  | asel (k : EwSrc) (d a : Reg) (m r : BitVec 3)
  | aabs (d a : Reg) (m r : BitVec 3)
  | aneg (d a : Reg) (m r : BitVec 3)
  | anot (d a : Reg) (m r : BitVec 3)
  | asqrt (d a : Reg) (m r : BitVec 3)
  | arcp (d a : Reg) (m r : BitVec 3)
  | aexp2 (d a : Reg) (m r : BitVec 3)
  | alog2 (d a : Reg) (m r : BitVec 3)
  | acvt (k : EwSrc) (d a : Reg) (m r : BitVec 3)
  | amov (d a : Reg) (m r : BitVec 3)
  | asplat (k : EwSrc) (d a : Reg) (m r : BitVec 3)
  | ascl (k : EwSrc) (d a : Reg) (m r : BitVec 3)
  | agscl (d a : Reg) (m r : BitVec 3)
  -- structural (R187 to R207)
  | atype (d : Reg) (t : BitVec 4) (l : BitVec 2)
  | ashp (d a b : Reg)
  | aiota (d : Reg) (b : CountSrc)
  | ashape (d a b : Reg)
  | ashapep (d a : Reg) (p : PBlock)
  | aredsum (d a : Reg) (m r : BitVec 3)
  | aredmax (d a : Reg) (m r : BitVec 3)
  | aredmin (d a : Reg) (m r : BitVec 3)
  | aredand (d a : Reg) (m r : BitVec 3)
  | aredor (d a : Reg) (m r : BitVec 3)
  | aredxor (d a : Reg) (m r : BitVec 3)
  | acount (d a : Reg) (m r : BitVec 3)
  | ascansum (d a : Reg) (m r : BitVec 3)
  | ascanmax (d a : Reg) (m r : BitVec 3)
  | ascanmin (d a : Reg) (m r : BitVec 3)
  | agrade (d a : Reg) (r : BitVec 3)
  | agraded (d a : Reg) (r : BitVec 3)
  | arot (d a : Reg) (b : CountSrc) (r : BitVec 3)
  | atake (d a : Reg) (b : CountSrc) (r : BitVec 3)
  | adrop (d a : Reg) (b : CountSrc) (r : BitVec 3)
  | arev (d a : Reg) (m r : BitVec 3)
  | atrans (d a : Reg) (m r : BitVec 3)
  | acat (d a b : Reg) (m r : BitVec 3)
  | aoutmul (d a b : Reg) (m r : BitVec 3)
  | aoutadd (d a b : Reg) (m r : BitVec 3)
  | aouteq (d a b : Reg) (m r : BitVec 3)
  | acomp (d a b : Reg) (r : BitVec 3)
  | aexpd (d a b : Reg) (r : BitVec 3)
  | afrom (d a b : Reg) (m r : BitVec 3)
  | aidxof (d a b : Reg) (m r : BitVec 3)
  | amembr (d a b : Reg) (m r : BitVec 3)
  -- each and its blocks (R208 to R214)
  | each (d a b : Reg) (r : BitVec 3)
  | vnext (o : BitVec 21)
  | vpend
  | vget (d : Reg)
  | vput (a : Reg)
  | xstep (k : XstepKind) (d a b : Reg)
  | amoviFrom (d a : Reg)
  | amoviTo (a b : Reg)
  -- matrix (R229 to R246)
  | mbld (s : Bool) (a : Reg)
  | mbwl (s : Bool) (a : Reg)
  | mmul (f : Dataflow) (w z : Bool) (t : BitVec 2) (a b : Reg)
  | mzero (t : BitVec 2)
  | mrd (t : BitVec 2) (a : Reg)
  | mwr (t : BitVec 2) (a : Reg)
  | mwait
  | mspa (a : Reg)
  | mqry (t : BitVec 2) (a b : Reg)
  -- memory arrays (R271 to R288)
  | ald (d a b : Reg) (m : BitVec 3) (p : PBlock)
  | ast (d a b : Reg) (m : BitVec 3) (p : PBlock)
  | agat (d a b : Reg) (m : BitVec 3)
  | asct (d a b : Reg) (m : BitVec 3)
  | wsld (d a b : Reg) (m : BitVec 3) (p : PBlock)
  | wsst (d a b : Reg) (m : BitVec 3) (p : PBlock)
  | wsstImage (d a b : Reg) (m : BitVec 3) (p : PBlock)
  | apf (a : Reg) (p : PBlock)
  | cbld (a : Reg) (i : BitVec 11)
  -- stream fabric (R300)
  | sgraph (ev : Bool) (d a : Reg)
  | srun (ev s : Bool) (d a : Reg)
  | spub (p : Scope) (d a : Reg)
  | sdisc (d a : Reg)
  -- edge engine (R322, R324)
  | egraph (d a : Reg)
  | eprog (d a b : Reg)
  | erun (m : ErunMode) (ev : Bool) (d a b : Reg)
  | emode (d a : Reg)
  | ecomb (a : Reg)
  | eact
  -- experts (R341 to R351) and the copy engine (R314)
  | topk (k : BitVec 2) (d a b : Reg)
  | ttbld (ev : Bool) (d a : Reg)
  | tseq (ev : Bool) (d a : Reg)
  | xslot (o : XslotOp) (d a : Reg)
  | cpy (ev s : Bool) (d a b : Reg)
  -- synchronisation (R352 to R365)
  | amo (f : AtomOp) (w : IWidth) (d a : Reg) (b : Src)
  | amoa (o : AtomOp) (d a b : Reg) (m : BitVec 3)
  | mredadd (a b : Reg) (m : BitVec 3)
  | mredmin (a b : Reg) (m : BitVec 3)
  | mredmax (a b : Reg) (m : BitVec 3)
  | mredor (a b : Reg) (m : BitVec 3)
  | fence (k : FenceKind) (s : Scope)
  | semtas (a : Reg) (i : BitVec 11)
  | semtry (d a : Reg) (i : BitVec 11)
  | semclr (a : Reg) (i : BitVec 11)
  | crld (d a : Reg) (i : BitVec 11)
  | crst (d a : Reg) (i : BitVec 11)
  | evwait (d a : Reg)
  | evget (d a : Reg)
  | evpost (a b : Reg)
  | pub (f : Scope) (a : Reg)
  | mon (w : IWidth) (d a : Reg) (b : Src)
  -- system (R149, R156 to R161, R251, R262, R389 to R397)
  | csrr (d : Reg) (i : BitVec 16)
  | csrw (d : Reg) (i : BitVec 16)
  | csrs (d : Reg) (i : BitVec 16)
  | csrc (d : Reg) (i : BitVec 16)
  | ecall
  | ebreak
  | tret
  | yield
  | quota (d a : Reg)
  | spawn (d a : Reg)
  | done
  | asave (a : Reg)
  | arest (a : Reg)
  | dmap (a : Reg)
  | tlbinv (a b : Reg)
  | fqret (a : Reg)
  | wsph (a : Reg)
  -- steps of the device that no word encodes
  | seedWrite (v : Word64)
  | convoyStart
  | unknownSizeComplete (t : Tid)
  | powerUp
  | reset (h : MsgHdr) (m secHost : BitVec 16) (routes part patches : Word64)
  | enum (h : MsgHdr) (pa : Word64)
  | negotiate (h : MsgHdr) (req : Word64)
  | map (h : MsgHdr) (world : Byte) (pa : Word64)
  | spawnMessage (h : MsgHdr) (rcb : Word64) (die : Byte)
  | abort (h : MsgHdr) (kind : Byte) (key : Word64)
  | health (h : MsgHdr) (pa : Word64)
  | retireRead (h : MsgHdr) (pa : Word64)
  | attest (h : MsgHdr) (nonce : BitVec 256) (pa : Word64)
  | wsphase (h : MsgHdr) (dies phase : Byte)
  | faultReply (h : MsgHdr) (status : Byte)
  | remoteRequest (src tag : BitVec 16) (world : Byte) (q : LinkReq)
  | linkRequestTimeout (tag : Nat)
  | placeRegion (die : Nat)
  | threadDispatch (t : Tid)
  | yieldDeadlineExpiry (t : Tid)
  | yieldDeadlineTrap (t : Tid)
  | preEmption (t : Tid)
  | thermalStop (die : Nat)
  | thermalResume (die : Nat)
  | refreshWindowStart (slice : BitVec 4)
  | refreshWindowEnd (slice : BitVec 4)
  | copyExpiry (die line : Nat)
  | beacon (die : Nat)
  | crossDieWriteApply (src home : Nat)
  | topkInsert (n : Nat)
  | wsphApply (die : Nat)
  | matrixEntryStart (die core n : Nat)
  | matrixEntryComplete (die core n : Nat)
  | sgraphConfig (die : Nat)
  | srunChunkDone (die run chunk : Nat)
  | srunComplete (die run : Nat)
  | spubApply (die : Nat)
  | sdiscApply (die : Nat)
  | cpyComplete (die : Nat)
  | edgeChunkDone (die core : Nat)
  | edgeSuperstepEnd (die core : Nat)
  | ttbldComplete (die : Nat)
  | tseqBufferStart (die job : Nat)
  | tseqComplete (die job : Nat)
  | henFaultService (die seq : Nat)
  | faultEntryAct (die seq : Nat)
  | correctedError (die : Nat) (kind : UnitKind) (unit pa : Nat)
  | uncorrectableError (die : Nat) (kind : UnitKind) (unit pa : Nat)
  | coreFailure (die core : Nat)
  | powerLoss (midWrite : Bool)
  | remoteReply (tag : Nat) (r : LinkReply)
  | linkTrainingFailure (port lane : Nat)
  deriving DecidableEq, Repr

end Sys2Proof
end

