-- ==== Sys2Proof/WellFormed.lean ====
section
/-!
DEFINITION. Which terms of `Instr` are instructions an encoding exists for: the checks R107 and R117 make on fields
that the operand types do not already exclude. A device step has no encoding, and is well formed as it stands.
-/
namespace Sys2Proof

/-- The type codes that may carry BL ≠ 0 (R26, R47): I4, I8, E2M1, E2M3, L6, E4M3, E5M2. -/
def scaledCode (t : BitVec 4) : Bool :=
  t == 2#4 || t == 3#4 || t == 9#4 || t == 10#4 || t == 11#4 || t == 12#4 || t == 13#4

/-- BL ≠ 0 only with a scaled type (R26). -/
def blOk (t : BitVec 4) (bl : BitVec 2) : Bool := bl == 0#2 || scaledCode t

/-- The checks R104 makes on a parameter block. -/
def PBlock.wf (p : PBlock) : Bool :=
  decide (1 ≤ p.rank.toNat) && decide (p.rank.toNat ≤ 4) && blOk p.ty p.bl &&
  (decide (2 ≤ p.rank.toNat) || p.x1 == 0#16) &&
  (decide (3 ≤ p.rank.toNat) || p.x2 == 0#16) &&
  (decide (4 ≤ p.rank.toNat) || p.x3 == 0#16) &&
  (decide (2 ≤ p.rank.toNat) || p.pn == 0#16) &&
  (decide (3 ≤ p.rank.toNat) || p.pu == 0#16)

/-- `ashapep`: P0 bits 27 to 16 and P3 are zero (R194). -/
def PBlock.wfShape (p : PBlock) : Bool :=
  p.wf && p.ty == 0#4 && p.bl == 0#2 && p.boff == 0#3 && !p.pb && !p.nt && p.pn == 0#16 && p.pu == 0#16

/-- Whether an instruction obeys every encoding rule the operand types leave to check. -/
def Instr.wf : Instr → Bool
  | .acvt (.arr b) _ _ _ _ => b == 0#5
  | .asplat (.arr _) _ _ _ _ => false
  | .atype _ t l => blOk t l
  | .ashp _ _ b => decide (b.toNat < 8)
  | .ashapep _ _ p => p.wfShape
  | .vget d => decide (d.toNat < 16)
  | .vput a => decide (a.toNat < 16)
  | .ecomb a => decide (a.toNat < 16)
  | .xstep .gather _ _ b => b == 0#5
  | .xstep .scatter _ _ b => b == 0#5
  | .mmul .ip _ _ _ _ b => b == 0#5
  | .mspa a => decide (a.toNat < 30)
  | .mqry t _ b => decide (b.toNat < 6) && (b == 4#5 || t == 0#2)
  | .ald _ _ _ _ p => p.wf
  | .ast _ _ _ _ p => p.wf
  | .wsld _ _ _ _ p => p.wf
  | .wsst _ _ _ _ p => p.wf
  | .wsstImage _ _ _ _ p => p.wf
  | .apf _ p => p.wf
  | _ => true

/-- Whether the row is an instruction word (R96), or a step of the device that no word encodes. -/
def Instr.isWord : Instr → Bool
  | .seedWrite _ | .convoyStart | .unknownSizeComplete _ | .powerUp | .reset _ _ _ _ _ _ | .enum _ _
  | .negotiate _ _ | .map _ _ _ | .spawnMessage _ _ _ | .abort _ _ _ | .health _ _ | .retireRead _ _
  | .attest _ _ _ | .wsphase _ _ _ | .faultReply _ _ | .remoteRequest _ _ _ _ | .linkRequestTimeout _
  | .placeRegion _ | .threadDispatch _ | .yieldDeadlineExpiry _ | .yieldDeadlineTrap _ | .preEmption _
  | .thermalStop _ | .thermalResume _ | .refreshWindowStart _ | .refreshWindowEnd _ | .copyExpiry _ _
  | .beacon _ | .crossDieWriteApply _ _ | .topkInsert _ | .wsphApply _ | .matrixEntryStart _ _ _
  | .matrixEntryComplete _ _ _ | .sgraphConfig _ | .srunChunkDone _ _ _ | .srunComplete _ _ | .spubApply _
  | .sdiscApply _ | .cpyComplete _ | .edgeChunkDone _ _ | .edgeSuperstepEnd _ _ | .ttbldComplete _
  | .tseqBufferStart _ _ | .tseqComplete _ _ | .henFaultService _ _ | .faultEntryAct _ _
  | .correctedError _ _ _ _ | .uncorrectableError _ _ _ _ | .coreFailure _ _ | .powerLoss _
  | .remoteReply _ _ | .linkTrainingFailure _ _ => false
  | _ => true

end Sys2Proof
end

