-- ==== Sys2Proof/Decode.lean ====
section
/-!
DEFINITION. The decoder (R96 to R107, R113 to R117), total on any words and rejecting by name, and after it the
encoder, written from the same tables. A decode map turns the OP field into the opcode of default map 0 whose
operation it takes (R113); `decodeTarget` then reads that operation's fields.
-/
namespace Sys2Proof

/-- Why a word is no legal instruction (R117); every one of these traps ILLOP. -/
inductive RejectWhy
  /-- OP reserved in the map in force, or an invalid map entry. -/
  | reservedOpcode
  /-- A must-be-zero field is not zero. -/
  | mustBeZero
  /-- An operand kind the opcode does not accept. -/
  | operandKind
  /-- A field value that the instruction does not define. -/
  | illegalField
  deriving DecidableEq, Repr
/-- A rejection, and the index of the faulting word within the instruction (R117). -/
structure Reject where
  why : RejectWhy
  idx : Nat
  deriving DecidableEq, Repr

/-- A decoded instruction, its C bit and its length in words (R96, R97). -/
structure Decoded where
  c : Bool
  instr : Instr
  len : Nat
  deriving DecidableEq, Repr

/-- Field extraction: `n` bits of `w` from bit `lo` up. -/
abbrev fieldOf {m : Nat} (w : BitVec m) (lo n : Nat) : BitVec n := w.extractLsb' lo n

/-- The C bit of a word (R97). -/
def cBit (w : Word32) : Bool := w.getLsbD 31
/-- The OP field of a word (R97). -/
def opField (w : Word32) : Nat := (fieldOf w 21 10).toNat

/-- Bits 20 to 0 of an instruction word, laid out by its format (R98). -/
abbrev Body := BitVec 21

namespace Body
def d (f : Body) : Reg := fieldOf f 16 5
def a (f : Body) : Reg := fieldOf f 11 5
def b (f : Body) : Reg := fieldOf f 6 5
def w (f : Body) : BitVec 2 := fieldOf f 4 2
def l (f : Body) : Bool := f.getLsbD 3
def v (f : Body) : BitVec 3 := fieldOf f 0 3
def k (f : Body) : BitVec 3 := fieldOf f 3 3
def imm11 (f : Body) : BitVec 11 := fieldOf f 0 11
def imm16 (f : Body) : BitVec 16 := fieldOf f 0 16
def fl (f : Body) : BitVec 6 := fieldOf f 0 6
def t (f : Body) : BitVec 2 := fieldOf f 19 2
def df (f : Body) : BitVec 2 := fieldOf f 17 2
end Body

/-- Refuse unless a condition holds. -/
def need (c : Bool) (why : RejectWhy) (idx : Nat := 0) : Except Reject Unit :=
  if c then .ok () else .error { why := why, idx := idx }
/-- Refuse by name. -/
def reject {α : Type} (why : RejectWhy) (idx : Nat := 0) : Except Reject α :=
  .error { why := why, idx := idx }

/-- Extension word `n` of an instruction (0 is the first after the instruction word); absent words read zero. -/
def extWord (ext : List Word32) (n : Nat) : Word32 := ext.getD n 0#32

/-- The integer width a W field selects (R99). -/
def iwidth (w : BitVec 2) : IWidth :=
  if w = 0#2 then .w64 else if w = 1#2 then .w32 else if w = 2#2 then .w16 else .w8
/-- The W field of an integer width (R99). -/
def iwidthCode : IWidth → BitVec 2
  | .w64 => 0#2 | .w32 => 1#2 | .w16 => 2#2 | .w8 => 3#2
/-- The floating width a W field selects; 00 and 11 are illegal (R99). -/
def fwidth (w : BitVec 2) : Except Reject FWidth :=
  if w = 1#2 then .ok .f32 else if w = 2#2 then .ok .bf16 else reject .illegalField
/-- The W field of a floating width (R99). -/
def fwidthCode : FWidth → BitVec 2
  | .f32 => 1#2 | .bf16 => 2#2
/-- Operand b of format T: a register, or the literal word when L = 1 and b = 0 (R99). -/
def srcOf (f : Body) (ext : List Word32) : Except Reject Src := do
  if f.l then
    need (f.b == 0#5) .mustBeZero
    return .lit (extWord ext 0)
  else return .reg f.b
/-- The atomic operation of an F or RK field (R129). -/
def atomOf (v : BitVec 3) : AtomOp :=
  match v.toNat with
  | 0 => .add | 1 => .min | 2 => .max | 3 => .and | 4 => .or | 5 => .xor | 6 => .xchg | _ => .cas
/-- The field of an atomic operation (R129). -/
def atomCode : AtomOp → BitVec 3
  | .add => 0#3 | .min => 1#3 | .max => 2#3 | .and => 3#3 | .or => 4#3 | .xor => 5#3 | .xchg => 6#3 | .cas => 7#3
/-- The scope of a scope number (R99); 6 and above are illegal. -/
def scopeOf (n : Nat) : Except Reject Scope :=
  match n with
  | 0 => .ok .thr | 1 => .ok .core | 2 => .ok .sq | 3 => .ok .die | 4 => .ok .pkg | 5 => .ok .sys
  | _ => reject .illegalField
/-- The number of a scope (R99). -/
def scopeCode : Scope → Nat
  | .thr => 0 | .core => 1 | .sq => 2 | .die => 3 | .pkg => 4 | .sys => 5
/-- The count source of `aiota`, `arot`, `atake` and `adrop` (R131). -/
def countOf (k : BitVec 3) (b : Reg) : Except Reject CountSrc :=
  if k = 0#3 then .ok (.sca b) else if k = 1#3 then .ok (.arr b) else reject .illegalField

/-- The parameter block of the four extension words P0 to P3, with R104's checks in address order. -/
def blockOf (ext : List Word32) : Except Reject PBlock := do
  let p0 := extWord ext 0
  let p1 := extWord ext 1
  let p2 := extWord ext 2
  let p3 := extWord ext 3
  let p : PBlock :=
    { rank := fieldOf p0 28 4, ty := fieldOf p0 24 4, bl := fieldOf p0 22 2, boff := fieldOf p0 19 3
      pb := p0.getLsbD 17, nt := p0.getLsbD 16
      x0 := fieldOf p1 16 16, x1 := fieldOf p1 0 16, x2 := fieldOf p2 16 16, x3 := fieldOf p2 0 16
      pn := fieldOf p3 16 16, pu := fieldOf p3 0 16 }
  need (decide (1 ≤ p.rank.toNat) && decide (p.rank.toNat ≤ 4) && blOk p.ty p.bl) .illegalField 1
  need (!p0.getLsbD 18 && fieldOf p0 0 16 == 0#16) .mustBeZero 1
  need (decide (2 ≤ p.rank.toNat) || p.x1 == 0#16) .mustBeZero 2
  need ((decide (3 ≤ p.rank.toNat) || p.x2 == 0#16) && (decide (4 ≤ p.rank.toNat) || p.x3 == 0#16)) .mustBeZero 3
  need ((decide (2 ≤ p.rank.toNat) || p.pn == 0#16) && (decide (3 ≤ p.rank.toNat) || p.pu == 0#16)) .mustBeZero 4
  return p

/-- Format T with F = 0: d, a and b. -/
def decT (mk : IWidth → Reg → Reg → Src → Instr) (f : Body) (ext : List Word32) : Except Reject Instr := do
  need (f.v == 0#3) .illegalField
  return mk (iwidth f.w) f.d f.a (← srcOf f ext)
/-- Format T with a one-bit variant in F[0]. -/
def decTu (mk : Bool → IWidth → Reg → Reg → Src → Instr) (f : Body) (ext : List Word32) : Except Reject Instr := do
  need (decide (f.v.toNat < 2)) .illegalField
  return mk (f.v == 1#3) (iwidth f.w) f.d f.a (← srcOf f ext)
/-- Floating format T with F = 0. -/
def decTf (mk : FWidth → Reg → Reg → Src → Instr) (f : Body) (ext : List Word32) : Except Reject Instr := do
  need (f.v == 0#3) .illegalField
  return mk (← fwidth f.w) f.d f.a (← srcOf f ext)
/-- Format T with only d and a: b, W, L and F zero. -/
def decTda (mk : Reg → Reg → Instr) (f : Body) : Except Reject Instr := do
  need (fieldOf f 0 11 == 0#11) .mustBeZero
  return mk f.d f.a
/-- Format T with only a: d, b, W, L and F zero. -/
def decTa (mk : Reg → Instr) (f : Body) : Except Reject Instr := do
  need (f.d == 0#5 && fieldOf f 0 11 == 0#11) .mustBeZero
  return mk f.a
/-- Format T with only a and b. -/
def decTab (mk : Reg → Reg → Instr) (f : Body) : Except Reject Instr := do
  need (f.d == 0#5 && fieldOf f 0 6 == 0#6) .mustBeZero
  return mk f.a f.b
/-- Format N: every field zero. -/
def decN (i : Instr) (f : Body) : Except Reject Instr := do
  need (f == 0#21) .mustBeZero
  return i
/-- An element-wise word of kind `kind` (R102). -/
def ewSrcOf (kind : Nat) (f : Body) (ext : List Word32) : Except Reject EwSrc :=
  match kind with
  | 0 => .ok (.arr f.b)
  | 1 => .ok (.sca f.b)
  | 2 => do
    need (f.b == 0#5) .mustBeZero
    return .lit (extWord ext 0)
  | _ => .ok (.con f.b)
/-- A two-operand element-wise word. -/
def decEw (mk : EwSrc → Reg → Reg → BitVec 3 → BitVec 3 → Instr) (kind : Nat) (f : Body) (ext : List Word32) :
    Except Reject Instr := do
  return mk (← ewSrcOf kind f ext) f.d f.a f.k f.v
/-- A one-operand element-wise word: kind 00 with b = 0 (R102). -/
def decEw1 (mk : Reg → Reg → BitVec 3 → BitVec 3 → Instr) (kind : Nat) (f : Body) : Except Reject Instr := do
  need (kind == 0) .operandKind
  need (f.b == 0#5) .mustBeZero
  return mk f.d f.a f.k f.v
/-- Format A with d, a, k and RK. -/
def decAdak (mk : Reg → Reg → BitVec 3 → BitVec 3 → Instr) (f : Body) : Except Reject Instr := do
  need (f.b == 0#5) .mustBeZero
  return mk f.d f.a f.k f.v
/-- Format A with d, a, b and RK, and k = 0. -/
def decAdabr (mk : Reg → Reg → Reg → BitVec 3 → Instr) (f : Body) : Except Reject Instr := do
  need (f.k == 0#3) .mustBeZero
  return mk f.d f.a f.b f.v
/-- Format A with d, a, b and k, and RK = 0. -/
def decAdabk (mk : Reg → Reg → Reg → BitVec 3 → Instr) (f : Body) : Except Reject Instr := do
  need (f.v == 0#3) .illegalField
  return mk f.d f.a f.b f.k
/-- Format A with d, a and a count (R131). -/
def decCount (mk : Reg → Reg → CountSrc → BitVec 3 → Instr) (f : Body) : Except Reject Instr := do
  return mk f.d f.a (← countOf f.k f.b) f.v
/-- Format A with a, b and k only. -/
def decAabk (mk : Reg → Reg → BitVec 3 → Instr) (f : Body) : Except Reject Instr := do
  need (f.d == 0#5) .mustBeZero
  need (f.v == 0#3) .illegalField
  return mk f.a f.b f.k
/-- Format M naming a tile and one array register. -/
def decMta (mk : BitVec 2 → Reg → Instr) (f : Body) : Except Reject Instr := do
  need (f.df == 0#2 && !f.getLsbD 16 && fieldOf f 0 11 == 0#11) .mustBeZero
  return mk f.t f.a
/-- Format M naming a macro set, 0 or 1 (R229). -/
def decMset (mk : Bool → Reg → Instr) (f : Body) : Except Reject Instr := do
  need (decide (f.t.toNat < 2)) .illegalField
  need (f.df == 0#2 && !f.getLsbD 16 && fieldOf f 0 11 == 0#11) .mustBeZero
  return mk (f.t == 1#2) f.a
/-- Format E with d and a, b = 0, and the command bits that `ok` admits. -/
def decE (ok : BitVec 6 → Bool) (mk : BitVec 6 → Reg → Reg → Instr) (f : Body) : Except Reject Instr := do
  need (f.b == 0#5) .mustBeZero
  need (ok f.fl) .illegalField
  return mk f.fl f.d f.a
/-- Format I without d. -/
def decIa (mk : Reg → BitVec 11 → Instr) (f : Body) : Except Reject Instr := do
  need (f.d == 0#5) .mustBeZero
  return mk f.a f.imm11
/-- `cnt`: b = 0, L = 0, F at most 2 (R140). -/
def decCnt (f : Body) : Except Reject Instr := do
  need (f.b == 0#5 && !f.l) .mustBeZero
  let op ← match f.v.toNat with
    | 0 => .ok CntOp.pop
    | 1 => .ok CntOp.clz
    | 2 => .ok CntOp.ctz
    | _ => reject .illegalField
  return .cnt op (iwidth f.w) f.d f.a
/-- `shli`: imm11[10:6] is zero (R100). -/
def decShli (f : Body) : Except Reject Instr := do
  need (fieldOf f 6 5 == 0#5) .mustBeZero
  return .shli f.d f.a f.fl
/-- `shri`: imm11[10:7] is zero, imm11[6] says arithmetic (R100, R142). -/
def decShri (f : Body) : Except Reject Instr := do
  need (fieldOf f 7 4 == 0#4) .mustBeZero
  return .shri (f.getLsbD 6) f.d f.a f.fl
/-- `fcmp`: F 0 to 3 (R129). -/
def decFcmp (f : Body) (ext : List Word32) : Except Reject Instr := do
  let op ← match f.v.toNat with
    | 0 => .ok FCmpOp.eq
    | 1 => .ok FCmpOp.lt
    | 2 => .ok FCmpOp.le
    | 3 => .ok FCmpOp.un
    | _ => reject .illegalField
  return .fcmp op (← fwidth f.w) f.d f.a (← srcOf f ext)
/-- `fcvt`: W = 01, b = 0, L = 0, F 0 to 3 (R146). -/
def decFcvt (f : Body) : Except Reject Instr := do
  need (f.b == 0#5 && !f.l) .mustBeZero
  need (f.w == 1#2) .illegalField
  let op ← match f.v.toNat with
    | 0 => .ok FCvtOp.i2s
    | 1 => .ok FCvtOp.s2i
    | 2 => .ok FCvtOp.s2b
    | 3 => .ok FCvtOp.b2s
    | _ => reject .illegalField
  return .fcvt op f.d f.a
/-- `acvt` of kind 00: b = 0 (R102). -/
def decAcvt0 (f : Body) : Except Reject Instr := do
  need (f.b == 0#5) .mustBeZero
  return .acvt (.arr 0#5) f.d f.a f.k f.v
/-- `atype`: type in b[10:7], BL in RK[1:0] (R187, R26). -/
def decAtype (f : Body) : Except Reject Instr := do
  need (f.a == 0#5 && !f.getLsbD 6 && f.k == 0#3 && !f.getLsbD 2) .mustBeZero
  need (blOk (fieldOf f 7 4) (fieldOf f 0 2)) .illegalField
  return .atype f.d (fieldOf f 7 4) (fieldOf f 0 2)
/-- `ashp`: axis 0 to 7 in b (R192). -/
def decAshp (f : Body) : Except Reject Instr := do
  need (f.fl == 0#6) .mustBeZero
  need (decide (f.b.toNat < 8)) .illegalField
  return .ashp f.d f.a f.b
/-- `aiota`: a = 0, RK = 7 (R187). -/
def decAiota (f : Body) : Except Reject Instr := do
  need (f.a == 0#5) .mustBeZero
  need (f.v == 7#3) .illegalField
  return .aiota f.d (← countOf f.k f.b)
/-- `ashape`: k = 0, RK = 7 (R187). -/
def decAshape (f : Body) : Except Reject Instr := do
  need (f.k == 0#3) .mustBeZero
  need (f.v == 7#3) .illegalField
  return .ashape f.d f.a f.b
/-- `ashapep`: b = 0, k = 0, RK = 7; P0[27:16] and P3 are zero (R194). -/
def decAshapep (f : Body) (ext : List Word32) : Except Reject Instr := do
  need (f.b == 0#5 && f.k == 0#3) .mustBeZero
  need (f.v == 7#3) .illegalField
  need (fieldOf (extWord ext 0) 16 12 == 0#12) .mustBeZero 1
  let p ← blockOf ext
  need (extWord ext 3 == 0#32) .mustBeZero 4
  return .ashapep f.d f.a p
/-- `agrade`, `agraded`: b = 0, k = 0 (R187). -/
def decGrade (mk : Reg → Reg → BitVec 3 → Instr) (f : Body) : Except Reject Instr := do
  need (f.b == 0#5 && f.k == 0#3) .mustBeZero
  return mk f.d f.a f.v
/-- `vget`: d names v0 to v15 (R187). -/
def decVget (f : Body) : Except Reject Instr := do
  need (fieldOf f 0 16 == 0#16) .mustBeZero
  need (decide (f.d.toNat < 16)) .illegalField
  return .vget f.d
/-- `vput`: a names v0 to v15 (R187). -/
def decVput (f : Body) : Except Reject Instr := do
  need (f.d == 0#5 && fieldOf f 0 11 == 0#11) .mustBeZero
  need (decide (f.a.toNat < 16)) .illegalField
  return .vput f.a
/-- `xstep`: kinds 0 to 2; b = 0 but for Rotate (R207). -/
def decXstep (f : Body) : Except Reject Instr := do
  need (f.k == 0#3) .mustBeZero
  match f.v.toNat with
  | 0 => return .xstep .rotate f.d f.a f.b
  | 1 => do
    need (f.b == 0#5) .mustBeZero
    return .xstep .gather f.d f.a f.b
  | 2 => do
    need (f.b == 0#5) .mustBeZero
    return .xstep .scatter f.d f.a f.b
  | _ => reject .illegalField
/-- `amovi`: RK 0 `.from`, 1 `.to` (R187, R206). -/
def decAmovi (f : Body) : Except Reject Instr := do
  need (f.k == 0#3) .mustBeZero
  match f.v.toNat with
  | 0 => do
    need (f.b == 0#5) .mustBeZero
    return .amoviFrom f.d f.a
  | 1 => do
    need (f.d == 0#5) .mustBeZero
    return .amoviTo f.a f.b
  | _ => reject .illegalField
/-- `mmul`: DF 00, 01 or 10; b = 0 for DF = 00; bits 4 to 0 zero (R229). -/
def decMmul (f : Body) : Except Reject Instr := do
  need (fieldOf f 0 5 == 0#5) .mustBeZero
  let df ← match f.df.toNat with
    | 0 => .ok Dataflow.ip
    | 1 => .ok Dataflow.op
    | 2 => .ok Dataflow.rw
    | _ => reject .illegalField
  need (df != .ip || f.b == 0#5) .mustBeZero
  return .mmul df (f.getLsbD 16) (f.getLsbD 5) f.t f.a f.b
/-- `mzero`: only the tile (R229). -/
def decMzero (f : Body) : Except Reject Instr := do
  need (fieldOf f 0 19 == 0#19) .mustBeZero
  return .mzero f.t
/-- `mspa`: a at most 29 (R229). -/
def decMspa (f : Body) : Except Reject Instr := do
  need (f.d == 0#5 && fieldOf f 0 11 == 0#11) .mustBeZero
  need (decide (f.a.toNat < 30)) .illegalField
  return .mspa f.a
/-- `mqry`: selectors 0 to 5; the tile only for selector 4 (R229, R242). -/
def decMqry (f : Body) : Except Reject Instr := do
  need (f.df == 0#2 && !f.getLsbD 16 && f.fl == 0#6) .mustBeZero
  need (decide (f.b.toNat < 6)) .illegalField
  need (f.b == 4#5 || f.t == 0#2) .mustBeZero
  return .mqry f.t f.a f.b
/-- `ald`, `ast`, `wsld`: RK = 0, then the block (R271). -/
def decAp (mk : Reg → Reg → Reg → BitVec 3 → PBlock → Instr) (f : Body) (ext : List Word32) :
    Except Reject Instr := do
  need (f.v == 0#3) .illegalField
  return mk f.d f.a f.b f.k (← blockOf ext)
/-- `wsst`: RK 0 plain, 1 image (R271). -/
def decWsst (f : Body) (ext : List Word32) : Except Reject Instr := do
  need (decide (f.v.toNat < 2)) .illegalField
  let p ← blockOf ext
  if f.v == 0#3 then return .wsst f.d f.a f.b f.k p
  else return .wsstImage f.d f.a f.b f.k p
/-- `apf`: only the base and the block (R271). -/
def decApf (f : Body) (ext : List Word32) : Except Reject Instr := do
  need (f.d == 0#5 && f.b == 0#5 && f.k == 0#3) .mustBeZero
  need (f.v == 0#3) .illegalField
  return .apf f.a (← blockOf ext)
/-- `spub`: S and EV zero, the scope in FL[5:2] (R300, R312). -/
def decSpub (f : Body) : Except Reject Instr := do
  need (f.b == 0#5 && fieldOf f 0 2 == 0#2) .mustBeZero
  return .spub (← scopeOf (fieldOf f 2 4).toNat) f.d f.a
/-- `eprog`: FL zero (R324). -/
def decEprog (f : Body) : Except Reject Instr := do
  need (f.fl == 0#6) .mustBeZero
  return .eprog f.d f.a f.b
/-- `erun`: S zero, FL[5:2] 0 to 2 (R324). -/
def decErun (f : Body) : Except Reject Instr := do
  need (!f.getLsbD 0) .mustBeZero
  let m ← match (fieldOf f 2 4).toNat with
    | 0 => .ok ErunMode.auto
    | 1 => .ok ErunMode.push
    | 2 => .ok ErunMode.pull
    | _ => reject .illegalField
  return .erun m (f.getLsbD 1) f.d f.a f.b
/-- `ecomb`: a names v0 to v15 (R322). -/
def decEcomb (f : Body) : Except Reject Instr := do
  need (f.d == 0#5 && fieldOf f 0 11 == 0#11) .mustBeZero
  need (decide (f.a.toNat < 16)) .illegalField
  return .ecomb f.a
/-- `topk`: EV, S and bits 5 to 4 zero (R341). -/
def decTopk (f : Body) : Except Reject Instr := do
  need (fieldOf f 4 2 == 0#2 && fieldOf f 0 2 == 0#2) .mustBeZero
  return .topk (fieldOf f 2 2) f.d f.a f.b
/-- `xslot`: b, EV and S zero, OPN 0 or 1 (R350). -/
def decXslot (f : Body) : Except Reject Instr := do
  need (f.b == 0#5 && fieldOf f 0 2 == 0#2) .mustBeZero
  match (fieldOf f 2 4).toNat with
  | 0 => return .xslot .acq f.d f.a
  | 1 => return .xslot .rel f.d f.a
  | _ => reject .illegalField
/-- `cpy`: FL[5:2] zero (R300). -/
def decCpy (f : Body) : Except Reject Instr := do
  need (fieldOf f 2 4 == 0#4) .illegalField
  return .cpy (f.getLsbD 1) (f.getLsbD 0) f.d f.a f.b
/-- `amo`: every F value is an operation (R353). -/
def decAmo (f : Body) (ext : List Word32) : Except Reject Instr := do
  return .amo (atomOf f.v) (iwidth f.w) f.d f.a (← srcOf f ext)
/-- `fence`: scope in bits 20 to 18, kind in 17 to 16 (R99). -/
def decFence (f : Body) : Except Reject Instr := do
  need (fieldOf f 0 16 == 0#16) .mustBeZero
  let s ← scopeOf (fieldOf f 18 3).toNat
  let k ← match (fieldOf f 16 2).toNat with
    | 1 => .ok FenceKind.acq
    | 2 => .ok FenceKind.rel
    | 3 => .ok FenceKind.ar
    | _ => reject .illegalField
  return .fence k s
/-- `pub`: the scope in F; d, b, W and L zero (R365). -/
def decPub (f : Body) : Except Reject Instr := do
  need (f.d == 0#5 && fieldOf f 3 8 == 0#8) .mustBeZero
  return .pub (← scopeOf f.v.toNat) f.a

/-- The instruction of an opcode of default map 0 (R115), given bits 20 to 0 and the words that follow. -/
def decodeTarget (op : Nat) (f : Body) (ext : List Word32) : Except Reject Instr :=
  match op with
  | 0x000 => decN .nop f
  | 0x001 => decT .add f ext
  | 0x002 => decT .sub f ext
  | 0x003 => decT .mul f ext
  | 0x004 => decTu .mulh f ext
  | 0x005 => decTu .div f ext
  | 0x006 => decTu .rem f ext
  | 0x007 => decT .and f ext
  | 0x008 => decT .or f ext
  | 0x009 => decT .xor f ext
  | 0x00A => decT .shl f ext
  | 0x00B => decTu .shr f ext
  | 0x00C => decTu .min f ext
  | 0x00D => decTu .max f ext
  | 0x00E => decTu .slt f ext
  | 0x00F => decCnt f
  | 0x010 => .ok (.addi f.d f.a f.imm11)
  | 0x011 => .ok (.andi f.d f.a f.imm11)
  | 0x012 => .ok (.ori f.d f.a f.imm11)
  | 0x013 => .ok (.xori f.d f.a f.imm11)
  | 0x014 => decShli f
  | 0x015 => decShri f
  | 0x016 => .ok (.slti f.d f.a f.imm11)
  | 0x017 => .ok (.lui f.d f.imm16)
  | 0x018 => .ok (.lpc f.d f.imm16)
  | 0x019 => .ok (.ldd f.d f.a f.imm11)
  | 0x01A => .ok (.ldw f.d f.a f.imm11)
  | 0x01B => .ok (.ldh f.d f.a f.imm11)
  | 0x01C => .ok (.ldb f.d f.a f.imm11)
  | 0x01D => .ok (.std f.d f.a f.imm11)
  | 0x01E => .ok (.stw f.d f.a f.imm11)
  | 0x01F => .ok (.sth f.d f.a f.imm11)
  | 0x020 => .ok (.stb f.d f.a f.imm11)
  | 0x021 => decTf .fadd f ext
  | 0x022 => decTf .fsub f ext
  | 0x023 => decTf .fmul f ext
  | 0x024 => decTf .fdiv f ext
  | 0x025 => decTf .fma f ext
  | 0x026 => decTf .fmin f ext
  | 0x027 => decTf .fmax f ext
  | 0x028 => decFcmp f ext
  | 0x029 => decFcvt f
  | 0x02A => .ok (.beq f.d f.a f.imm11)
  | 0x02B => .ok (.bne f.d f.a f.imm11)
  | 0x02C => .ok (.blt f.d f.a f.imm11)
  | 0x02D => .ok (.bge f.d f.a f.imm11)
  | 0x02E => .ok (.bltu f.d f.a f.imm11)
  | 0x02F => .ok (.bgeu f.d f.a f.imm11)
  | 0x030 => .ok (.jal f)
  | 0x031 => decTda .jr f
  | 0x080 => decEw .aadd 0 f ext
  | 0x081 => decEw .aadd 1 f ext
  | 0x082 => decEw .aadd 2 f ext
  | 0x083 => decEw .aadd 3 f ext
  | 0x084 => decEw .asub 0 f ext
  | 0x085 => decEw .asub 1 f ext
  | 0x086 => decEw .asub 2 f ext
  | 0x087 => decEw .asub 3 f ext
  | 0x088 => decEw .amul 0 f ext
  | 0x089 => decEw .amul 1 f ext
  | 0x08A => decEw .amul 2 f ext
  | 0x08B => decEw .amul 3 f ext
  | 0x08C => decEw .afma 0 f ext
  | 0x08D => decEw .afma 1 f ext
  | 0x08E => decEw .afma 2 f ext
  | 0x08F => decEw .afma 3 f ext
  | 0x090 => decEw .amin 0 f ext
  | 0x091 => decEw .amin 1 f ext
  | 0x092 => decEw .amin 2 f ext
  | 0x093 => decEw .amin 3 f ext
  | 0x094 => decEw .amax 0 f ext
  | 0x095 => decEw .amax 1 f ext
  | 0x096 => decEw .amax 2 f ext
  | 0x097 => decEw .amax 3 f ext
  | 0x098 => decEw .adiv 0 f ext
  | 0x099 => decEw .adiv 1 f ext
  | 0x09A => decEw .adiv 2 f ext
  | 0x09B => decEw .adiv 3 f ext
  | 0x09C => decEw .aand 0 f ext
  | 0x09D => decEw .aand 1 f ext
  | 0x09E => decEw .aand 2 f ext
  | 0x09F => decEw .aand 3 f ext
  | 0x0A0 => decEw .aor 0 f ext
  | 0x0A1 => decEw .aor 1 f ext
  | 0x0A2 => decEw .aor 2 f ext
  | 0x0A3 => decEw .aor 3 f ext
  | 0x0A4 => decEw .axor 0 f ext
  | 0x0A5 => decEw .axor 1 f ext
  | 0x0A6 => decEw .axor 2 f ext
  | 0x0A7 => decEw .axor 3 f ext
  | 0x0A8 => decEw .ashl 0 f ext
  | 0x0A9 => decEw .ashl 1 f ext
  | 0x0AA => decEw .ashl 2 f ext
  | 0x0AB => decEw .ashl 3 f ext
  | 0x0AC => decEw .ashr 0 f ext
  | 0x0AD => decEw .ashr 1 f ext
  | 0x0AE => decEw .ashr 2 f ext
  | 0x0AF => decEw .ashr 3 f ext
  | 0x0B0 => decEw .aceq 0 f ext
  | 0x0B1 => decEw .aceq 1 f ext
  | 0x0B2 => decEw .aceq 2 f ext
  | 0x0B3 => decEw .aceq 3 f ext
  | 0x0B4 => decEw .acne 0 f ext
  | 0x0B5 => decEw .acne 1 f ext
  | 0x0B6 => decEw .acne 2 f ext
  | 0x0B7 => decEw .acne 3 f ext
  | 0x0B8 => decEw .aclt 0 f ext
  | 0x0B9 => decEw .aclt 1 f ext
  | 0x0BA => decEw .aclt 2 f ext
  | 0x0BB => decEw .aclt 3 f ext
  | 0x0BC => decEw .acle 0 f ext
  | 0x0BD => decEw .acle 1 f ext
  | 0x0BE => decEw .acle 2 f ext
  | 0x0BF => decEw .acle 3 f ext
  | 0x0C0 => decEw .asel 0 f ext
  | 0x0C1 => decEw .asel 1 f ext
  | 0x0C2 => decEw .asel 2 f ext
  | 0x0C3 => decEw .asel 3 f ext
  | 0x0C4 => decEw1 .aabs 0 f
  | 0x0C5 => decEw1 .aabs 1 f
  | 0x0C6 => decEw1 .aabs 2 f
  | 0x0C7 => decEw1 .aabs 3 f
  | 0x0C8 => decEw1 .aneg 0 f
  | 0x0C9 => decEw1 .aneg 1 f
  | 0x0CA => decEw1 .aneg 2 f
  | 0x0CB => decEw1 .aneg 3 f
  | 0x0CC => decEw1 .anot 0 f
  | 0x0CD => decEw1 .anot 1 f
  | 0x0CE => decEw1 .anot 2 f
  | 0x0CF => decEw1 .anot 3 f
  | 0x0D0 => decEw1 .asqrt 0 f
  | 0x0D1 => decEw1 .asqrt 1 f
  | 0x0D2 => decEw1 .asqrt 2 f
  | 0x0D3 => decEw1 .asqrt 3 f
  | 0x0D4 => decEw1 .arcp 0 f
  | 0x0D5 => decEw1 .arcp 1 f
  | 0x0D6 => decEw1 .arcp 2 f
  | 0x0D7 => decEw1 .arcp 3 f
  | 0x0D8 => decEw1 .aexp2 0 f
  | 0x0D9 => decEw1 .aexp2 1 f
  | 0x0DA => decEw1 .aexp2 2 f
  | 0x0DB => decEw1 .aexp2 3 f
  | 0x0DC => decEw1 .alog2 0 f
  | 0x0DD => decEw1 .alog2 1 f
  | 0x0DE => decEw1 .alog2 2 f
  | 0x0DF => decEw1 .alog2 3 f
  | 0x0E0 => decAcvt0 f
  | 0x0E1 => decEw .acvt 1 f ext
  | 0x0E2 => decEw .acvt 2 f ext
  | 0x0E3 => decEw .acvt 3 f ext
  | 0x0E4 => decEw1 .amov 0 f
  | 0x0E5 => decEw1 .amov 1 f
  | 0x0E6 => decEw1 .amov 2 f
  | 0x0E7 => decEw1 .amov 3 f
  | 0x0E8 => reject .operandKind
  | 0x0E9 => decEw .asplat 1 f ext
  | 0x0EA => decEw .asplat 2 f ext
  | 0x0EB => decEw .asplat 3 f ext
  | 0x0EC => decEw .ascl 0 f ext
  | 0x0ED => decEw .ascl 1 f ext
  | 0x0EE => decEw .ascl 2 f ext
  | 0x0EF => decEw .ascl 3 f ext
  | 0x0F0 => decEw1 .agscl 0 f
  | 0x0F1 => decEw1 .agscl 1 f
  | 0x0F2 => decEw1 .agscl 2 f
  | 0x0F3 => decEw1 .agscl 3 f
  | 0x100 => decAtype f
  | 0x101 => decAshp f
  | 0x102 => decAiota f
  | 0x103 => decAshape f
  | 0x104 => decAshapep f ext
  | 0x105 => decAdak .aredsum f
  | 0x106 => decAdak .aredmax f
  | 0x107 => decAdak .aredmin f
  | 0x108 => decAdak .aredand f
  | 0x109 => decAdak .aredor f
  | 0x10A => decAdak .aredxor f
  | 0x10B => decAdak .acount f
  | 0x10C => decAdak .ascansum f
  | 0x10D => decAdak .ascanmax f
  | 0x10E => decAdak .ascanmin f
  | 0x10F => decGrade .agrade f
  | 0x110 => decGrade .agraded f
  | 0x111 => decCount .arot f
  | 0x112 => decCount .atake f
  | 0x113 => decCount .adrop f
  | 0x114 => decAdak .arev f
  | 0x115 => decAdak .atrans f
  | 0x116 => .ok (.acat f.d f.a f.b f.k f.v)
  | 0x117 => .ok (.aoutmul f.d f.a f.b f.k f.v)
  | 0x118 => .ok (.aoutadd f.d f.a f.b f.k f.v)
  | 0x119 => .ok (.aouteq f.d f.a f.b f.k f.v)
  | 0x11A => decAdabr .acomp f
  | 0x11B => decAdabr .aexpd f
  | 0x11C => .ok (.afrom f.d f.a f.b f.k f.v)
  | 0x11D => .ok (.aidxof f.d f.a f.b f.k f.v)
  | 0x11E => .ok (.amembr f.d f.a f.b f.k f.v)
  | 0x11F => decAdabr .each f
  | 0x120 => .ok (.vnext f)
  | 0x121 => decN .vpend f
  | 0x122 => decVget f
  | 0x123 => decVput f
  | 0x124 => decXstep f
  | 0x125 => decAmovi f
  | 0x180 => decMset .mbld f
  | 0x181 => decMset .mbwl f
  | 0x182 => decMmul f
  | 0x183 => decMzero f
  | 0x184 => decMta .mrd f
  | 0x185 => decMta .mwr f
  | 0x186 => decN .mwait f
  | 0x187 => decMspa f
  | 0x188 => decMqry f
  | 0x200 => decAp .ald f ext
  | 0x201 => decAp .ast f ext
  | 0x202 => decAdabk .agat f
  | 0x203 => decAdabk .asct f
  | 0x204 => decAp .wsld f ext
  | 0x205 => decWsst f ext
  | 0x206 => decApf f ext
  | 0x207 => decIa .cbld f
  | 0x280 => decE (fun x => x &&& 61#6 == 0#6) (fun x => .sgraph (x.getLsbD 1)) f
  | 0x281 => decE (fun x => x &&& 60#6 == 0#6) (fun x => .srun (x.getLsbD 1) (x.getLsbD 0)) f
  | 0x282 => decSpub f
  | 0x283 => decE (fun x => x == 0#6) (fun _ => .sdisc) f
  | 0x284 => decE (fun x => x == 0#6) (fun _ => .egraph) f
  | 0x285 => decEprog f
  | 0x286 => decErun f
  | 0x287 => decE (fun x => x == 0#6) (fun _ => .emode) f
  | 0x288 => decEcomb f
  | 0x289 => decN .eact f
  | 0x28A => decTopk f
  | 0x28B => decE (fun x => x &&& 61#6 == 0#6) (fun x => .ttbld (x.getLsbD 1)) f
  | 0x28C => decE (fun x => x &&& 61#6 == 0#6) (fun x => .tseq (x.getLsbD 1)) f
  | 0x28D => decXslot f
  | 0x28E => decCpy f
  | 0x2C0 => decAmo f ext
  | 0x2C1 => .ok (.amoa (atomOf f.v) f.d f.a f.b f.k)
  | 0x2C2 => decAabk .mredadd f
  | 0x2C3 => decAabk .mredmin f
  | 0x2C4 => decAabk .mredmax f
  | 0x2C5 => decAabk .mredor f
  | 0x2C6 => decFence f
  | 0x2C7 => decIa .semtas f
  | 0x2C8 => .ok (.semtry f.d f.a f.imm11)
  | 0x2C9 => decIa .semclr f
  | 0x2CA => .ok (.crld f.d f.a f.imm11)
  | 0x2CB => .ok (.crst f.d f.a f.imm11)
  | 0x2CC => decTda .evwait f
  | 0x2CD => decTda .evget f
  | 0x2CE => decTab .evpost f
  | 0x2CF => decPub f
  | 0x2D0 => decT .mon f ext
  | 0x300 => .ok (.csrr f.d f.imm16)
  | 0x301 => .ok (.csrw f.d f.imm16)
  | 0x302 => .ok (.csrs f.d f.imm16)
  | 0x303 => .ok (.csrc f.d f.imm16)
  | 0x304 => decN .ecall f
  | 0x305 => decN .ebreak f
  | 0x306 => decN .tret f
  | 0x307 => decN .yield f
  | 0x308 => decTda .quota f
  | 0x309 => decTda .spawn f
  | 0x30A => decN .done f
  | 0x30B => decTa .asave f
  | 0x30C => decTa .arest f
  | 0x30D => decTa .dmap f
  | 0x30E => decTab .tlbinv f
  | 0x30F => decTa .fqret f
  | 0x310 => decTa .wsph f
  | _ => reject .reservedOpcode

/-- The number of extension words of an opcode of default map 0 (R96). -/
def extCount (op : Nat) (f : Body) : Nat :=
  if op = 0x104 ∨ op = 0x200 ∨ op = 0x201 ∨ op = 0x204 ∨ op = 0x205 ∨ op = 0x206 then 4
  else if 0x080 ≤ op ∧ op < 0x100 then if op % 4 = 2 then 1 else 0
  else if ((1 ≤ op ∧ op < 0x00F) ∨ (0x021 ≤ op ∧ op ≤ 0x028) ∨ op = 0x2C0 ∨ op = 0x2D0) then (if f.l then 1 else 0)
  else 0

/-- A decode map: what OP = i performs, or none where the entry is invalid (R113). -/
abbrev OpMap := Nat → Option Nat

/-- Whether default map 0 leaves an opcode reserved (R115). -/
def reservedOp (op : Nat) : Bool :=
  !(decide (op ≤ 0x031) || (decide (0x080 ≤ op) && decide (op ≤ 0x0F3)) || (decide (0x100 ≤ op) && decide (op ≤ 0x125)) ||
    (decide (0x180 ≤ op) && decide (op ≤ 0x188)) || (decide (0x200 ≤ op) && decide (op ≤ 0x207)) ||
    (decide (0x280 ≤ op) && decide (op ≤ 0x28E)) || (decide (0x2C0 ≤ op) && decide (op ≤ 0x2D0)) ||
    (decide (0x300 ≤ op) && decide (op ≤ 0x310)))

/-- Default map 0 (R114, R115). -/
def map0 : OpMap := fun op => if reservedOp op then none else some op

/-- A decode map read from memory: 1024 entries of 32 bits; V in bit 31, TARGET in bits 9 to 0, the rest zero (R113). -/
def mapOf (entries : List Word32) : OpMap := fun op =>
  let e := entries.getD op 0#32
  let target := (fieldOf e 0 10).toNat
  if e.getLsbD 31 && fieldOf e 10 21 == 0#21 && !reservedOp target then some target else none

/-- How many words the instruction that a word begins takes, 1 where the word is no legal instruction (R96). -/
def lengthOf (m : OpMap) (w : Word32) : Nat :=
  if 0x3E0 ≤ opField w then 1
  else match m (opField w) with
    | none => 1
    | some op => 1 + extCount op (fieldOf w 0 21)

/-- Decode an instruction word and the words that follow it through a decode map (R96 to R117). -/
def decodeWith (m : OpMap) (w : Word32) (ext : List Word32) : Except Reject Decoded := do
  if 0x3E0 ≤ opField w then
    need (!w.getLsbD 20) .illegalField
    return { c := cBit w, instr := .fli (fieldOf w 21 5) (fieldOf w 0 20), len := 1 }
  else match m (opField w) with
    | none => reject .reservedOpcode
    | some op => do
      let i ← decodeTarget op (fieldOf w 0 21) ext
      return { c := cBit w, instr := i, len := 1 + extCount op (fieldOf w 0 21) }

/-- Decode under default map 0. -/
def decode (w : Word32) (ext : List Word32) : Except Reject Decoded := decodeWith map0 w ext

/-- Little-endian words of a byte string (R5, R96). -/
def wordOfBytes (b : List Byte) : Word32 :=
  b.getD 3 0#8 ++ b.getD 2 0#8 ++ b.getD 1 0#8 ++ b.getD 0 0#8

/-- The bytes of a word, lowest address first (R5). -/
def bytesOfWord (w : Word32) : List Byte :=
  [fieldOf w 0 8, fieldOf w 8 8, fieldOf w 16 8, fieldOf w 24 8]

/-- Decode the instruction at the front of a byte string under default map 0. -/
def decodeBytes (b : List Byte) : Except Reject Decoded :=
  decode (wordOfBytes b)
    [wordOfBytes (b.drop 4), wordOfBytes (b.drop 8), wordOfBytes (b.drop 12), wordOfBytes (b.drop 16)]

/-- The five words of an instruction whose bits are `w`, the first word in bits 31 to 0; bits from `nbits` up are zero. -/
def tableWords (nbits w : Nat) : List Word32 :=
  let v := w % 2 ^ nbits
  [BitVec.ofNat 32 v, BitVec.ofNat 32 (v / 2 ^ 32), BitVec.ofNat 32 (v / 2 ^ 64), BitVec.ofNat 32 (v / 2 ^ 96),
   BitVec.ofNat 32 (v / 2 ^ 128)]

/-- The instruction this decoder reads from an instruction whose bits are `w`, numbered as the opcode table numbers
them: its words are laid out as memory holds them (R5) and read back by the decoder. -/
def decodeTableWord (nbits w : Nat) : Option Instr :=
  match decodeBytes ((tableWords nbits w).flatMap bytesOfWord) with
  | .ok d => some d.instr
  | .error _ => none

/-- Format T (R98). -/
def bodyT (d a b : Reg) (w : BitVec 2) (l : Bool) (f : BitVec 3) : Body := d ++ a ++ b ++ w ++ BitVec.ofBool l ++ f
/-- Formats I and B (R98). -/
def bodyI (d a : Reg) (i : BitVec 11) : Body := d ++ a ++ i
/-- Format U (R98). -/
def bodyU (d : Reg) (i : BitVec 16) : Body := d ++ i
/-- Format A (R98). -/
def bodyA (d a b : Reg) (k r : BitVec 3) : Body := d ++ a ++ b ++ k ++ r
/-- Format M (R98). -/
def bodyM (t df : BitVec 2) (sw : Bool) (a b : Reg) (z : Bool) : Body :=
  t ++ df ++ BitVec.ofBool sw ++ a ++ b ++ BitVec.ofBool z ++ 0#5
/-- Format E, with FL[5:2], EV and S (R98, R106). -/
def bodyE (d a b : Reg) (x : BitVec 4) (ev s : Bool) : Body :=
  d ++ a ++ b ++ x ++ BitVec.ofBool ev ++ BitVec.ofBool s
/-- A one-bit variant as an F field (R129). -/
def bitF (u : Bool) : BitVec 3 := if u then 1#3 else 0#3
/-- The b field of a T-format operand. -/
def srcB : Src → Reg
  | .reg b => b
  | .lit _ => 0#5
/-- The L bit of a T-format operand. -/
def srcL : Src → Bool
  | .reg _ => false
  | .lit _ => true
/-- The literal word of a T-format operand. -/
def srcExt : Src → List Word32
  | .reg _ => []
  | .lit w => [w]
/-- The kind of an element-wise operand (R102). -/
def ewKind : EwSrc → Nat
  | .arr _ => 0 | .sca _ => 1 | .lit _ => 2 | .con _ => 3
/-- The b field of an element-wise operand. -/
def ewB : EwSrc → Reg
  | .arr b => b | .sca b => b | .lit _ => 0#5 | .con b => b
/-- The literal word of an element-wise operand. -/
def ewExt : EwSrc → List Word32
  | .lit w => [w]
  | .arr _ => []
  | .sca _ => []
  | .con _ => []
/-- The b field of a count. -/
def cntB : CountSrc → Reg
  | .sca b => b | .arr b => b
/-- The k field of a count (R131). -/
def cntK : CountSrc → BitVec 3
  | .sca _ => 0#3 | .arr _ => 1#3
/-- The four words of a parameter block (R104). -/
def blockWords (p : PBlock) : List Word32 :=
  [p.rank ++ p.ty ++ p.bl ++ p.boff ++ 0#1 ++ BitVec.ofBool p.pb ++ BitVec.ofBool p.nt ++ 0#16,
   p.x0 ++ p.x1, p.x2 ++ p.x3, p.pn ++ p.pu]

/-- The opcode of default map 0, bits 20 to 0 and the extension words of an instruction; none for a device step. -/
def encodeParts : Instr → Option (Nat × Body × List Word32)
  | .add w d a b => some (0x001, bodyT d a (srcB b) (iwidthCode w) (srcL b) 0#3, srcExt b)
  | .sub w d a b => some (0x002, bodyT d a (srcB b) (iwidthCode w) (srcL b) 0#3, srcExt b)
  | .mul w d a b => some (0x003, bodyT d a (srcB b) (iwidthCode w) (srcL b) 0#3, srcExt b)
  | .mulh u w d a b => some (0x004, bodyT d a (srcB b) (iwidthCode w) (srcL b) (bitF u), srcExt b)
  | .div u w d a b => some (0x005, bodyT d a (srcB b) (iwidthCode w) (srcL b) (bitF u), srcExt b)
  | .rem u w d a b => some (0x006, bodyT d a (srcB b) (iwidthCode w) (srcL b) (bitF u), srcExt b)
  | .and w d a b => some (0x007, bodyT d a (srcB b) (iwidthCode w) (srcL b) 0#3, srcExt b)
  | .or w d a b => some (0x008, bodyT d a (srcB b) (iwidthCode w) (srcL b) 0#3, srcExt b)
  | .xor w d a b => some (0x009, bodyT d a (srcB b) (iwidthCode w) (srcL b) 0#3, srcExt b)
  | .shl w d a b => some (0x00A, bodyT d a (srcB b) (iwidthCode w) (srcL b) 0#3, srcExt b)
  | .shr u w d a b => some (0x00B, bodyT d a (srcB b) (iwidthCode w) (srcL b) (bitF u), srcExt b)
  | .min u w d a b => some (0x00C, bodyT d a (srcB b) (iwidthCode w) (srcL b) (bitF u), srcExt b)
  | .max u w d a b => some (0x00D, bodyT d a (srcB b) (iwidthCode w) (srcL b) (bitF u), srcExt b)
  | .slt u w d a b => some (0x00E, bodyT d a (srcB b) (iwidthCode w) (srcL b) (bitF u), srcExt b)
  | .cnt f w d a => some (0x00F, bodyT d a 0#5 (iwidthCode w) false (match f with | .pop => 0#3 | .clz => 1#3 | .ctz => 2#3), [])
  | .addi d a i => some (0x010, bodyI d a i, [])
  | .andi d a i => some (0x011, bodyI d a i, [])
  | .ori d a i => some (0x012, bodyI d a i, [])
  | .xori d a i => some (0x013, bodyI d a i, [])
  | .shli d a i => some (0x014, bodyI d a (0#5 ++ i), [])
  | .shri h d a i => some (0x015, bodyI d a (0#4 ++ BitVec.ofBool h ++ i), [])
  | .slti d a i => some (0x016, bodyI d a i, [])
  | .lui d i => some (0x017, bodyU d i, [])
  | .lpc d i => some (0x018, bodyU d i, [])
  | .ldd d a i => some (0x019, bodyI d a i, [])
  | .ldw d a i => some (0x01A, bodyI d a i, [])
  | .ldh d a i => some (0x01B, bodyI d a i, [])
  | .ldb d a i => some (0x01C, bodyI d a i, [])
  | .std d a i => some (0x01D, bodyI d a i, [])
  | .stw d a i => some (0x01E, bodyI d a i, [])
  | .sth d a i => some (0x01F, bodyI d a i, [])
  | .stb d a i => some (0x020, bodyI d a i, [])
  | .fadd w d a b => some (0x021, bodyT d a (srcB b) (fwidthCode w) (srcL b) 0#3, srcExt b)
  | .fsub w d a b => some (0x022, bodyT d a (srcB b) (fwidthCode w) (srcL b) 0#3, srcExt b)
  | .fmul w d a b => some (0x023, bodyT d a (srcB b) (fwidthCode w) (srcL b) 0#3, srcExt b)
  | .fdiv w d a b => some (0x024, bodyT d a (srcB b) (fwidthCode w) (srcL b) 0#3, srcExt b)
  | .fma w d a b => some (0x025, bodyT d a (srcB b) (fwidthCode w) (srcL b) 0#3, srcExt b)
  | .fmin w d a b => some (0x026, bodyT d a (srcB b) (fwidthCode w) (srcL b) 0#3, srcExt b)
  | .fmax w d a b => some (0x027, bodyT d a (srcB b) (fwidthCode w) (srcL b) 0#3, srcExt b)
  | .fcmp f w d a b => some (0x028, bodyT d a (srcB b) (fwidthCode w) (srcL b) (match f with | .eq => 0#3 | .lt => 1#3 | .le => 2#3 | .un => 3#3), srcExt b)
  | .fcvt f d a => some (0x029, bodyT d a 0#5 1#2 false (match f with | .i2s => 0#3 | .s2i => 1#3 | .s2b => 2#3 | .b2s => 3#3), [])
  | .beq a b o => some (0x02A, bodyI a b o, [])
  | .bne a b o => some (0x02B, bodyI a b o, [])
  | .blt a b o => some (0x02C, bodyI a b o, [])
  | .bge a b o => some (0x02D, bodyI a b o, [])
  | .bltu a b o => some (0x02E, bodyI a b o, [])
  | .bgeu a b o => some (0x02F, bodyI a b o, [])
  | .jal o => some (0x030, o, [])
  | .jr d a => some (0x031, bodyT d a 0#5 0#2 false 0#3, [])
  | .aadd k d a m r => some (0x080 + ewKind k, bodyA d a (ewB k) m r, ewExt k)
  | .asub k d a m r => some (0x084 + ewKind k, bodyA d a (ewB k) m r, ewExt k)
  | .amul k d a m r => some (0x088 + ewKind k, bodyA d a (ewB k) m r, ewExt k)
  | .afma k d a m r => some (0x08C + ewKind k, bodyA d a (ewB k) m r, ewExt k)
  | .amin k d a m r => some (0x090 + ewKind k, bodyA d a (ewB k) m r, ewExt k)
  | .amax k d a m r => some (0x094 + ewKind k, bodyA d a (ewB k) m r, ewExt k)
  | .adiv k d a m r => some (0x098 + ewKind k, bodyA d a (ewB k) m r, ewExt k)
  | .aand k d a m r => some (0x09C + ewKind k, bodyA d a (ewB k) m r, ewExt k)
  | .aor k d a m r => some (0x0A0 + ewKind k, bodyA d a (ewB k) m r, ewExt k)
  | .axor k d a m r => some (0x0A4 + ewKind k, bodyA d a (ewB k) m r, ewExt k)
  | .ashl k d a m r => some (0x0A8 + ewKind k, bodyA d a (ewB k) m r, ewExt k)
  | .ashr k d a m r => some (0x0AC + ewKind k, bodyA d a (ewB k) m r, ewExt k)
  | .aceq k d a m r => some (0x0B0 + ewKind k, bodyA d a (ewB k) m r, ewExt k)
  | .acne k d a m r => some (0x0B4 + ewKind k, bodyA d a (ewB k) m r, ewExt k)
  | .aclt k d a m r => some (0x0B8 + ewKind k, bodyA d a (ewB k) m r, ewExt k)
  | .acle k d a m r => some (0x0BC + ewKind k, bodyA d a (ewB k) m r, ewExt k)
  | .asel k d a m r => some (0x0C0 + ewKind k, bodyA d a (ewB k) m r, ewExt k)
  | .aabs d a m r => some (0x0C4, bodyA d a 0#5 m r, [])
  | .aneg d a m r => some (0x0C8, bodyA d a 0#5 m r, [])
  | .anot d a m r => some (0x0CC, bodyA d a 0#5 m r, [])
  | .asqrt d a m r => some (0x0D0, bodyA d a 0#5 m r, [])
  | .arcp d a m r => some (0x0D4, bodyA d a 0#5 m r, [])
  | .aexp2 d a m r => some (0x0D8, bodyA d a 0#5 m r, [])
  | .alog2 d a m r => some (0x0DC, bodyA d a 0#5 m r, [])
  | .acvt k d a m r => some (0x0E0 + ewKind k, bodyA d a (ewB k) m r, ewExt k)
  | .amov d a m r => some (0x0E4, bodyA d a 0#5 m r, [])
  | .asplat k d a m r => some (0x0E8 + ewKind k, bodyA d a (ewB k) m r, ewExt k)
  | .ascl k d a m r => some (0x0EC + ewKind k, bodyA d a (ewB k) m r, ewExt k)
  | .agscl d a m r => some (0x0F0, bodyA d a 0#5 m r, [])
  | .atype d t l => some (0x100, bodyA d 0#5 (t ++ 0#1) 0#3 (0#1 ++ l), [])
  | .ashp d a b => some (0x101, bodyA d a b 0#3 0#3, [])
  | .aiota d b => some (0x102, bodyA d 0#5 (cntB b) (cntK b) 7#3, [])
  | .ashape d a b => some (0x103, bodyA d a b 0#3 7#3, [])
  | .ashapep d a p => some (0x104, bodyA d a 0#5 0#3 7#3, blockWords p)
  | .aredsum d a m r => some (0x105, bodyA d a 0#5 m r, [])
  | .aredmax d a m r => some (0x106, bodyA d a 0#5 m r, [])
  | .aredmin d a m r => some (0x107, bodyA d a 0#5 m r, [])
  | .aredand d a m r => some (0x108, bodyA d a 0#5 m r, [])
  | .aredor d a m r => some (0x109, bodyA d a 0#5 m r, [])
  | .aredxor d a m r => some (0x10A, bodyA d a 0#5 m r, [])
  | .acount d a m r => some (0x10B, bodyA d a 0#5 m r, [])
  | .ascansum d a m r => some (0x10C, bodyA d a 0#5 m r, [])
  | .ascanmax d a m r => some (0x10D, bodyA d a 0#5 m r, [])
  | .ascanmin d a m r => some (0x10E, bodyA d a 0#5 m r, [])
  | .agrade d a r => some (0x10F, bodyA d a 0#5 0#3 r, [])
  | .agraded d a r => some (0x110, bodyA d a 0#5 0#3 r, [])
  | .arot d a b r => some (0x111, bodyA d a (cntB b) (cntK b) r, [])
  | .atake d a b r => some (0x112, bodyA d a (cntB b) (cntK b) r, [])
  | .adrop d a b r => some (0x113, bodyA d a (cntB b) (cntK b) r, [])
  | .arev d a m r => some (0x114, bodyA d a 0#5 m r, [])
  | .atrans d a m r => some (0x115, bodyA d a 0#5 m r, [])
  | .acat d a b m r => some (0x116, bodyA d a b m r, [])
  | .aoutmul d a b m r => some (0x117, bodyA d a b m r, [])
  | .aoutadd d a b m r => some (0x118, bodyA d a b m r, [])
  | .aouteq d a b m r => some (0x119, bodyA d a b m r, [])
  | .acomp d a b r => some (0x11A, bodyA d a b 0#3 r, [])
  | .aexpd d a b r => some (0x11B, bodyA d a b 0#3 r, [])
  | .afrom d a b m r => some (0x11C, bodyA d a b m r, [])
  | .aidxof d a b m r => some (0x11D, bodyA d a b m r, [])
  | .amembr d a b m r => some (0x11E, bodyA d a b m r, [])
  | .each d a b r => some (0x11F, bodyA d a b 0#3 r, [])
  | .vnext o => some (0x120, o, [])
  | .vget d => some (0x122, bodyA d 0#5 0#5 0#3 0#3, [])
  | .vput a => some (0x123, bodyA 0#5 a 0#5 0#3 0#3, [])
  | .xstep k d a b => some (0x124, bodyA d a b 0#3 (match k with | .rotate => 0#3 | .gather => 1#3 | .scatter => 2#3), [])
  | .amoviFrom d a => some (0x125, bodyA d a 0#5 0#3 0#3, [])
  | .amoviTo a b => some (0x125, bodyA 0#5 a b 0#3 1#3, [])
  | .mbld s a => some (0x180, bodyM (0#1 ++ BitVec.ofBool s) 0#2 false a 0#5 false, [])
  | .mbwl s a => some (0x181, bodyM (0#1 ++ BitVec.ofBool s) 0#2 false a 0#5 false, [])
  | .mmul f w z t a b => some (0x182, bodyM t (match f with | .ip => 0#2 | .op => 1#2 | .rw => 2#2) w a b z, [])
  | .mzero t => some (0x183, bodyM t 0#2 false 0#5 0#5 false, [])
  | .mrd t a => some (0x184, bodyM t 0#2 false a 0#5 false, [])
  | .mwr t a => some (0x185, bodyM t 0#2 false a 0#5 false, [])
  | .mspa a => some (0x187, bodyM 0#2 0#2 false a 0#5 false, [])
  | .mqry t a b => some (0x188, bodyM t 0#2 false a b false, [])
  | .ald d a b m p => some (0x200, bodyA d a b m 0#3, blockWords p)
  | .ast d a b m p => some (0x201, bodyA d a b m 0#3, blockWords p)
  | .wsld d a b m p => some (0x204, bodyA d a b m 0#3, blockWords p)
  | .wsst d a b m p => some (0x205, bodyA d a b m 0#3, blockWords p)
  | .wsstImage d a b m p => some (0x205, bodyA d a b m 1#3, blockWords p)
  | .agat d a b m => some (0x202, bodyA d a b m 0#3, [])
  | .asct d a b m => some (0x203, bodyA d a b m 0#3, [])
  | .apf a p => some (0x206, bodyA 0#5 a 0#5 0#3 0#3, blockWords p)
  | .cbld a i => some (0x207, bodyI 0#5 a i, [])
  | .sgraph ev d a => some (0x280, bodyE d a 0#5 0#4 ev false, [])
  | .srun ev s d a => some (0x281, bodyE d a 0#5 0#4 ev s, [])
  | .spub p d a => some (0x282, bodyE d a 0#5 (BitVec.ofNat 4 (scopeCode p)) false false, [])
  | .sdisc d a => some (0x283, bodyE d a 0#5 0#4 false false, [])
  | .egraph d a => some (0x284, bodyE d a 0#5 0#4 false false, [])
  | .eprog d a b => some (0x285, bodyE d a b 0#4 false false, [])
  | .erun m ev d a b => some (0x286, bodyE d a b (match m with | .auto => 0#4 | .push => 1#4 | .pull => 2#4) ev false, [])
  | .emode d a => some (0x287, bodyE d a 0#5 0#4 false false, [])
  | .ecomb a => some (0x288, bodyE 0#5 a 0#5 0#4 false false, [])
  | .topk k d a b => some (0x28A, bodyE d a b (0#2 ++ k) false false, [])
  | .ttbld ev d a => some (0x28B, bodyE d a 0#5 0#4 ev false, [])
  | .tseq ev d a => some (0x28C, bodyE d a 0#5 0#4 ev false, [])
  | .xslot o d a => some (0x28D, bodyE d a 0#5 (match o with | .acq => 0#4 | .rel => 1#4) false false, [])
  | .cpy ev s d a b => some (0x28E, bodyE d a b 0#4 ev s, [])
  | .amo f w d a b => some (0x2C0, bodyT d a (srcB b) (iwidthCode w) (srcL b) (atomCode f), srcExt b)
  | .amoa o d a b m => some (0x2C1, bodyA d a b m (atomCode o), [])
  | .mredadd a b m => some (0x2C2, bodyA 0#5 a b m 0#3, [])
  | .mredmin a b m => some (0x2C3, bodyA 0#5 a b m 0#3, [])
  | .mredmax a b m => some (0x2C4, bodyA 0#5 a b m 0#3, [])
  | .mredor a b m => some (0x2C5, bodyA 0#5 a b m 0#3, [])
  | .fence k s => some (0x2C6, BitVec.ofNat 3 (scopeCode s) ++ (match k with | .acq => 1#2 | .rel => 2#2 | .ar => 3#2) ++ 0#16, [])
  | .semtas a i => some (0x2C7, bodyI 0#5 a i, [])
  | .semtry d a i => some (0x2C8, bodyI d a i, [])
  | .semclr a i => some (0x2C9, bodyI 0#5 a i, [])
  | .crld d a i => some (0x2CA, bodyI d a i, [])
  | .crst d a i => some (0x2CB, bodyI d a i, [])
  | .evwait d a => some (0x2CC, bodyT d a 0#5 0#2 false 0#3, [])
  | .evget d a => some (0x2CD, bodyT d a 0#5 0#2 false 0#3, [])
  | .evpost a b => some (0x2CE, bodyT 0#5 a b 0#2 false 0#3, [])
  | .pub f a => some (0x2CF, bodyT 0#5 a 0#5 0#2 false (BitVec.ofNat 3 (scopeCode f)), [])
  | .mon w d a b => some (0x2D0, bodyT d a (srcB b) (iwidthCode w) (srcL b) 0#3, srcExt b)
  | .csrr d i => some (0x300, bodyU d i, [])
  | .csrw d i => some (0x301, bodyU d i, [])
  | .csrs d i => some (0x302, bodyU d i, [])
  | .csrc d i => some (0x303, bodyU d i, [])
  | .nop => some (0x000, 0#21, [])
  | .vpend => some (0x121, 0#21, [])
  | .mwait => some (0x186, 0#21, [])
  | .eact => some (0x289, 0#21, [])
  | .ecall => some (0x304, 0#21, [])
  | .ebreak => some (0x305, 0#21, [])
  | .tret => some (0x306, 0#21, [])
  | .yield => some (0x307, 0#21, [])
  | .done => some (0x30A, 0#21, [])
  | .quota d a => some (0x308, bodyT d a 0#5 0#2 false 0#3, [])
  | .spawn d a => some (0x309, bodyT d a 0#5 0#2 false 0#3, [])
  | .asave a => some (0x30B, bodyT 0#5 a 0#5 0#2 false 0#3, [])
  | .arest a => some (0x30C, bodyT 0#5 a 0#5 0#2 false 0#3, [])
  | .dmap a => some (0x30D, bodyT 0#5 a 0#5 0#2 false 0#3, [])
  | .fqret a => some (0x30F, bodyT 0#5 a 0#5 0#2 false 0#3, [])
  | .wsph a => some (0x310, bodyT 0#5 a 0#5 0#2 false 0#3, [])
  | .tlbinv a b => some (0x30E, bodyT 0#5 a b 0#2 false 0#3, [])
  | _ => none

/-- The words of a well-formed instruction under default map 0, first word first; empty for a device step. -/
def encode (c : Bool) (i : Instr) : List Word32 :=
  match i with
  | .fli d x => [BitVec.ofBool c ++ 0b11111#5 ++ d ++ 0#1 ++ x]
  | i => match encodeParts i with
    | some (op, f, ext) => (BitVec.ofBool c ++ BitVec.ofNat 10 op ++ f) :: ext
    | none => []

/-- The length of an instruction in words (R96). -/
def Instr.len (i : Instr) : Nat := (encode true i).length

end Sys2Proof
end

