-- ==== Sys2Proof/Config.lean ====
section
/-!
DEFINITION. What an implementation fixes and the manual does not give: free values with no body, and the
uninterpreted cryptographic functions. Nothing here can be evaluated, so no claim can rest on a particular value.
-/
namespace Sys2Proof.Config

/-- Where an allocation lies in the bank pool: the manual gives SBASE no placement rule (R25, R249). Log entry 6. -/
opaque freeSbase : Nat → BitVec 16
/-- An element code the manual calls unspecified: elements at or above ASTART of an interrupted resumable
instruction (R42). Log entry 8. -/
opaque freeCode : Nat → Nat
/-- Which line leaves a cache that is full: the manual gives no rule (R248, R256). Log entry 40. -/
opaque freeEvicts : Nat → Nat
/-- The set of an L2 slice that a line lies in: the manual gives the number of sets and no rule (R256). Log entry 40. -/
opaque l2Set : Nat → Nat
/-- Which line of a full set of L2 leaves, by cycle and line (R256). Log entry 40. -/
opaque freeWay : Nat → Nat → Nat
/-- The bank of a core's array data cache that takes a line (R249). Log entry 40. -/
opaque freeBank : Nat → Nat
/-- At which of the boundaries an asynchronous interruption can take it stops a thread's matrix work (R228). Log entry 42. -/
opaque freeStop : Nat → Nat
/-- Whether a translation that is still cached is used in place of the one in memory (R266). Log entry 7. -/
opaque usesOldTranslation : Nat → Bool
/-- Whether an element of a failed unshadowed chunk holds its new value (R309), and whether an edge of a row out of
order is examined (R319). Log entries 14 and 15. -/
opaque freeKeepsNew : Nat → Bool
/-- A byte the manual leaves open: an overlapping copy without S (R314), a top-k record that breaks R340, what a
poisoned granule holds. Log entry 15. -/
opaque freeByte : Nat → BitVec 8
/-- Physical address of a die's fault queue, fixed by the ROM firmware and reported by ENUM (R393, R419). Log entry 11. -/
opaque faultQueueAddr : Nat → Nat
/-- Physical address of a die's error log, fixed by the ROM firmware and reported by ENUM (R402, R419). Log entry 11. -/
opaque errorLogAddr : Nat → Nat
/-- SHA-256, named and not defined by the manual (R405, R420, R423). Log entry 10. -/
opaque sha256 : List (BitVec 8) → BitVec 256
/-- The device's ECDSA P-256 signature (64 bytes) over a message (R405, R423). Log entry 10. -/
opaque deviceSign : List (BitVec 8) → BitVec 512
/-- Whether a signature over a message verifies under the device identity key (R405). Log entry 10. -/
opaque deviceVerify : List (BitVec 8) → BitVec 512 → Bool
/-- Whether a patch signature verifies under the Kamsor firmware key held in ROM (R420). Log entry 10. -/
opaque firmwareVerify : List (BitVec 8) → BitVec 512 → Bool
/-- The digest of the ROM (R423). Log entry 10. -/
opaque romDigest : BitVec 256
/-- The identity public key: X and Y of an uncompressed point, 32 bytes each (R419). Log entry 10. -/
opaque identityKey : BitVec 512
/-- The certificate of the identity key, DER bytes (R419). Log entry 10. -/
opaque certificate : List (BitVec 8)

end Sys2Proof.Config
end

