-- ==== Sys2Proof/Machine/State.lean ====
section
/-!
DEFINITION. The state of the package as plain data, the reasons a step can stop, and the state at power-up.
Registers and fields carry the manual's names. Sets and tables that are mostly empty are lists of key and value pairs.
-/
namespace Sys2Proof.Machine

/-- Values by a Nat key, keys strictly rising; an absent key reads as the default its reader names. -/
abbrev Sparse (α : Type) := List (Nat × α)

/-- Memory of the package: node 2m is keyed by its offset, node 2m + 1 by 2^40 plus its offset (R257). -/
structure Memory where
  /-- Bytes that differ from what an unlisted address reads as, addresses strictly rising (log entry 2). -/
  cells : List Host.Cell
  /-- Poisoned 32-byte granules, as address / 32, strictly rising (R398). -/
  poison : List Nat
  deriving DecidableEq, Repr

/-- One granule of array storage: 256 payload bits, a scale byte (R48, R50) and its poison (R398). -/
structure Granule where
  data : BitVec 256
  scale : Byte
  poison : Bool
  deriving DecidableEq, Repr

/-- An array register: its descriptor (R25) and the granules of its storage. SLEN is the number of granules,
RANK the number of extents. `parts` is the number of dies its rows are spread over (R43): each die holds the granules of
its own rows, laid out as an array of their own. -/
structure ArrReg where
  ty : BitVec 4
  bl : BitVec 2
  ext : List Nat
  isEmpty : Bool
  pending : Bool
  repl : Bool
  parts : Nat
  sbase : BitVec 16
  gran : List Granule
  deriving DecidableEq, Repr

/-- A mask register k1 to k7 (R167): its bits (their number is its length), its storage and poisoned granules. -/
structure MaskReg where
  bits : List Bool
  sbase : BitVec 16
  poison : List Nat
  deriving DecidableEq, Repr

/-- The array state of one thread apart from its grant (R384): a0 to a31, k1 to k7, LFSR 0 to 16 (R62). -/
structure ArrState where
  regs : List ArrReg
  masks : List MaskReg
  lfsr : List Word32
  deriving DecidableEq, Repr

/-- Where a result still in flight comes from (R37, R227). -/
inductive FlightKind
  /-- An unknown-size instruction; its finished result and the flags it will merge. -/
  | unknown (result : ArrReg) (flags : Word64)
  /-- The matrix entry of this number. -/
  | entry (id : Nat)
  deriving DecidableEq, Repr
/-- A result in flight: its register, the granules reserved for it, and the first of them. -/
structure InFlight where
  reg : Nat
  reserve : Nat
  base : BitVec 16
  kind : FlightKind
  deriving DecidableEq, Repr

/-- A bind record of the slot table (R84). -/
structure BindRec where
  valid : Bool
  rcb : Word64
  ctidx : Nat
  gang : Option Nat
  prio : BitVec 4
  sec : Bool
  res : Bool
  ydl : Nat
  maxgran : Nat
  save : Word64
  deriving DecidableEq, Repr
/-- A gang entry of the slot table (R85); `slots` holds the attached dies and the slot on each. -/
structure GangRec where
  valid : Bool
  rcb : Word64
  ctidx : Nat
  dmask : BitVec 8
  lead : Nat
  slots : List (Nat × Nat)
  deriving DecidableEq, Repr

/-- A graph descriptor (R318). -/
structure EdgeGraph where
  v : Nat
  e : Nat
  outoff : Word64
  outidx : Word64
  inoff : Word64
  inidx : Word64
  wgt : Word64
  val : Word64
  frt : Word64
  deriving DecidableEq, Repr
/-- A bound edge program (R326): the copied words, their address, the value type and the combine, and the decode map
its words were checked with (empty for map 0). -/
structure EdgeProg where
  dmap : List Word32
  base : Word64
  words : List Word32
  vt : BitVec 4
  cmb : Nat
  deriving DecidableEq, Repr

/-- Storage that matrix entries pin after its register was renamed (R226): its first granule, its granules, and the
entries. -/
structure Pin where
  base : BitVec 16
  need : Nat
  ids : List Nat
  deriving DecidableEq, Repr
/-- A control-thread slot (R13): the owner of the array state in it (R384), that state and its grant, the constant
store (R79), results in flight, pinned storage, and the edge engine's bindings (R325). -/
structure Slot where
  owner : Option Tid
  arr : ArrState
  grant : Nat
  consts : List Word64
  flight : List InFlight
  pins : List Pin
  graph : Option EdgeGraph
  prog : Option EdgeProg
  deriving DecidableEq, Repr

/-- An element of a tile: its FP32 bits and its poison mark (R244). -/
structure TileCell where
  val : Word32
  mark : Bool
  deriving DecidableEq, Repr
/-- An accumulator tile (R216): its extent (R232) and its elements at key 128·row + column; the rest are +0. -/
structure Tile where
  rows : Nat
  cols : Nat
  cells : Sparse TileCell
  deriving DecidableEq, Repr
/-- A compute-in-memory macro set (R216, R233): the latched TYPE, BL, K and N, the codes at key 128·row + column, the
scale bytes at key 4·row + granule (R388), and the poison marks of codes. -/
structure MacroSet where
  ty : BitVec 4
  bl : BitVec 2
  k : Nat
  n : Nat
  codes : Sparse Byte
  scales : Sparse Byte
  marks : List Nat
  deriving DecidableEq, Repr
/-- An entry of the sparse result (R237). -/
structure SpEntry where
  col : Nat
  val : Word32
  mark : Bool
  deriving DecidableEq, Repr
/-- A run: one A row's finished entries (R237). -/
structure SpRun where
  row : Nat
  entries : List SpEntry
  deriving DecidableEq, Repr
/-- The sparse result of a core (R237): its runs, the M of R239, the holder its storage is charged to, and the first granule
of that storage. -/
structure SparseRes where
  runs : List SpRun
  m : Nat
  holder : Option Tid
  charge : Nat
  base : BitVec 16
  deriving DecidableEq, Repr

/-- Where a bound thread stands in the package (R91): die, physical core, slot of the core, and the attached dies of a
gang with the slot on each; `lcore` is its logical core at bind (R407), `maxgran` that of its bind record. -/
structure Place where
  die : Nat
  core : Nat
  slot : Nat
  lcore : Nat
  gang : List (Nat × Nat)
  gangEntry : Nat
  maxgran : Nat
  deriving DecidableEq, Repr
/-- What a matrix entry does (R229). -/
inductive MOp
  | mbld (set : Nat)
  | mbwl (set : Nat) (src : Word64)
  | mmul (f : Dataflow) (sw z : Bool) (t : Nat) (sparse : Bool)
  | mzero (t : Nat)
  | mrd (t reg : Nat)
  | mwr (t : Nat)
  | mspa (reg : Nat)
  | mqry (sel t : Nat) (reg : Reg)
  deriving DecidableEq, Repr
/-- Where a queued matrix entry stands (R227, R245): `trapped` once its pause has been reported by a trap. -/
inductive MStat | waiting | paused | trapped | done
  deriving DecidableEq, Repr
/-- An entry of a matrix queue (R226): the thread and instruction that posted it, what it captured at post, the place of the
thread then, whose slots hold its operands and results, the registers that still hold its sources, the row it is to start at, its reservation, its flags and its results once
done. -/
structure MEntry where
  id : Nat
  tid : Tid
  op : MOp
  pc : Word64
  mode : Word64
  q31 : Word64
  srcs : List ArrReg
  srcRegs : List Nat
  dsts : List ArrReg
  place : Place
  astart : Nat
  reserve : Nat
  stat : MStat
  needs : Nat
  flags : Word64
  results : List ArrReg
  answer : Word64
  deriving DecidableEq, Repr
/-- Who holds the coordinate accumulator (R222). -/
inductive AccUser | none | matrix | edge
  deriving DecidableEq, Repr

/-- A virtual processor (R209, R321): its registers, its pc, whether it lives, its `vput` value, its `ecomb` proposals
in program order and whether it executed `eact`. -/
structure Vp where
  v : Vector Word32 16
  pc : Word64
  live : Bool
  out : Option Word32
  props : List Word32
  act : Bool
  deriving DecidableEq, Repr
/-- A VP group (R210), the fault entry it is parked on (R399), and the flags of its VPs (R213). -/
structure VpGroup where
  g : Nat
  vps : List Vp
  parked : Option Nat
  flags : Word64
  deriving DecidableEq, Repr
/-- An `each` in progress (R208): the destination, the source and its register, the elements of a cell, the block, the shape of the
result, the first VP to run, the groups that run, the next group to start, the values put by VP, MODE and q31 as
captured, and the flags of the groups that have finished. -/
structure EachJob where
  d : Nat
  srcNo : Nat
  src : ArrReg
  cell : Nat
  block : Word64
  frame : List Nat
  start : Nat
  groups : List VpGroup
  nextGroup : Nat
  finished : List Nat
  outs : Sparse Word32
  mode : Word64
  q31 : Word64
  flags : Word64
  deriving DecidableEq, Repr
/-- A gather, scatter or array atomic that is under way (R283, R392): the fault entries that are still out, each with its
element group, the first groups of the windows still to be done, the results so far by element, each with the poisoned
memory granules it came from, the flags so far, and the group and address of an entry that came back unresolvable. -/
structure Park where
  entries : List (Nat × Nat)
  todo : List Nat
  got : Sparse (Nat × List Nat)
  flags : Word64
  failed : Option (Nat × Word64)
  deriving DecidableEq, Repr

/-- An edge to examine (R321): source, destination, position in the index, weight bits. -/
structure EdgeItem where
  src : Nat
  dst : Nat
  pos : Nat
  wbits : Word32
  deriving DecidableEq, Repr
/-- A pull row's accumulator entry (R331): its running value, whether a combine changed it, whether the row has stopped,
and whether an `eact` named it. -/
structure RowAcc where
  row : Nat
  cur : Word32
  changed : Bool
  stopped : Bool
  act : Bool
  deriving DecidableEq, Repr
/-- The superstep an edge run is in (R329 to R335): SS and p, the direction now and at the start, the vertices of the
current frontier, the number of the chunk, the cursor (row, and positions of it already taken) at its start and at its
end, the first list entry no push has reached, whether it is loaded, is the last, and has reached its end, the edges still to examine, the group that runs and its
edges, the proposals and the combines still to be made, the vertices to activate, those named by `eact` in push, the row
a pull is in, how the chunk failed, and what the record will say. `phase` counts the steps of R333 that are done. -/
structure SuperStep where
  ss : Nat
  dir : Nat
  startDir : Nat
  nv : Nat
  chunk : Nat
  rowAt : Nat
  inRow : Nat
  nextRow : Nat
  nextIn : Nat
  reached : Nat
  loaded : Bool
  last : Bool
  combining : Bool
  ended : Bool
  cannot : Bool
  items : List EdgeItem
  group : Option VpGroup
  groupItems : List EdgeItem
  groupNo : Nat
  props : List (Nat × Word32)
  acts : List Nat
  eacts : List Nat
  row : Option RowAcc
  fail : Option (Nat × Word64 × Nat × Bool)
  switches : Nat
  examined : Nat
  added : Nat
  failed : List Nat
  flags : Word64
  vpFlags : Word64
  poison : Bool
  sealed : Bool
  phase : Nat
  deriving DecidableEq, Repr
/-- An `erun` in an edge engine's queue (R327), with the slot it was posted from and what it captured at post. `after` lists
the threads of the `egraph` and `eprog` commands that stand behind it in the queue, up to the next `erun` (R325). -/
structure ERun where
  token : Word32
  tid : Tid
  slot : Nat
  lo : Nat
  cnt : Nat
  supers : Nat
  parts : Nat
  mode : Word64
  pushDiv : Nat
  pullDiv : Nat
  ev : Bool
  want : Nat
  graph : Option EdgeGraph
  prog : Option EdgeProg
  cur : Option SuperStep
  aborted : Bool
  owed : List (List Byte)
  after : List Tid
  deriving DecidableEq, Repr

/-- A line of a core's scalar data L1 (R253) and whether it is dirty. -/
structure L1Line where
  line : Nat
  dirty : Bool
  deriving DecidableEq, Repr
/-- A line of a core's array data cache (R248, R255): the bank of the pool it is in, and whether it is dirty. -/
structure AdcLine where
  line : Nat
  bank : Nat
  dirty : Bool
  deriving DecidableEq, Repr
/-- A cached translation (R266): world, virtual page, its size in bits, and the entry it was made from. -/
structure TlbEnt where
  sec : Bool
  vpn : Nat
  bits : Nat
  entry : Word64
  deriving DecidableEq, Repr
/-- A core (R16) with its slots, its matrix owner (R384), engine (R216), sparse result and edge-engine queue; S of
R249; the lines in its array data cache, its scalar data L1 and its instruction L1, newest first; and its TLB (R266). -/
structure CoreSt where
  slots : Sparse Slot
  banks : Nat
  adc : List AdcLine
  l1d : List L1Line
  l1i : List Nat
  tlb : List TlbEnt
  mown : Option Tid
  tiles : Sparse Tile
  sets : Sparse MacroSet
  /-- The row buffer (R216): the last two A rows of inner-product dataflow, as codes with their scale bytes. -/
  rowBuf : List (List (Nat × Byte))
  sparse : SparseRes
  accUser : AccUser
  queue : List MEntry
  nextEntry : Nat
  edge : List ERun
  mqStatus : List (Tid × Word64)
  deriving DecidableEq, Repr

/-- A node of a stream graph (R297). -/
structure GNode where
  opr : Nat
  src0 : Byte
  src1 : Byte
  out : Byte
  params : List Byte
  deriving DecidableEq, Repr
/-- A graph image as copied by `sgraph` (R297, R302). -/
structure Graph where
  inputs : Nat
  outputs : Nat
  nodes : List GNode
  deriving DecidableEq, Repr
/-- The run block of an `srun` (R303). -/
structure RunBlock where
  ins : List (Word64 × Nat)
  outs : List (Word64 × Nat)
  n : Nat
  c : Nat
  lut : Word64
  scaleAt : Word64
  deriving DecidableEq, Repr
/-- A run of the stream fabric (R303, R304), posted from a slot: chunks done and failed, value counts of BMC outputs so
far, flags, the outputs that met their limit, each with the first chunk that did, whether a write met a sealed slot,
elements counted, the cycle until which a chunk's stall for a refresh window has been counted, and fault records it has
yet to post. -/
structure FabRun where
  token : Word32
  tid : Tid
  slot : Nat
  ev : Bool
  shadow : Bool
  blk : RunBlock
  graph : Graph
  mode : Word64
  q31 : Word64
  seed : Word64
  started : Bool
  cannot : Bool
  doneChunks : List Nat
  failed : List Nat
  bmc : List (Nat × Nat × Nat)
  flags : Word64
  poison : Bool
  overrun : List (Nat × Nat)
  sealed : Bool
  good : Nat
  stallCycles : Nat
  stalls : Sparse Nat
  aborted : Bool
  owed : List (List Byte)
  deriving DecidableEq, Repr
/-- A command in a fabric queue (R295). -/
inductive FabCmd
  | sgraph (token : Word32) (tid : Tid) (slot : Nat) (g : Graph) (ev : Bool)
  | srun (r : FabRun)
  | spub (tid : Tid) (slot : Nat) (target : Word32) (scope : Scope) (d : Reg)
  | sdisc (tid : Tid) (slot : Nat) (target : Word32) (d : Reg)
  deriving DecidableEq, Repr
/-- A copy command (R314), posted from a slot. -/
structure CpyCmd where
  token : Word32
  tid : Tid
  slot : Nat
  ev : Bool
  shadow : Bool
  src : Word64
  dst : Word64
  count : Nat
  started : Bool
  cannot : Bool
  chunk : Nat
  failed : List Nat
  poison : Bool
  sealed : Bool
  good : Nat
  stallCycles : Nat
  stallTo : Nat
  aborted : Bool
  owed : List (List Byte)
  deriving DecidableEq, Repr
/-- A shadow (R311): the region and command it belongs to, its target pages, the bytes its command wrote with the
granules it wrote poisoned, whether the command is complete, and whether its bytes are on their way to another node. -/
structure Shadow where
  token : Word32
  region : RegionId
  die : Nat
  pages : List Nat
  bytes : Sparse Byte
  poison : List Nat
  complete : Bool
  publishing : Bool
  deriving DecidableEq, Repr

/-- An expert slot of the directory (R350): KEY, USE, REF, and the region of each reference. -/
structure XSlot where
  key : Option Word64
  use : Bool
  ref : BitVec 16
  refs : List RegionId
  deriving DecidableEq, Repr
/-- A pending top-k insert (R341): its thread and that thread's die, the record, and whether its line is memory-side. -/
structure TopkIns where
  tid : Tid
  die : Nat
  core : Nat
  key : Nat
  msa : Bool
  score : BitVec 16
  id : BitVec 16
  k : Nat
  deriving DecidableEq, Repr
/-- A build block (R343). -/
structure TtJob where
  t : Nat
  x : Nat
  k : Nat
  recs : Word64
  rmap : Word64
  nid : Nat
  tbl : Word64
  cap : Nat
  deriving DecidableEq, Repr
/-- A job block (R345). -/
structure SeqJob where
  tbl : Word64
  act : Word64
  apitch : Nat
  aty : BitVec 4
  km : Nat
  nm : Nat
  tile : Nat
  smap : Word64
  out : Word64
  opitch : Nat
  mode : Word64
  q31 : Word64
  mswap : Nat
  deriving DecidableEq, Repr
/-- A staged token row (R348): its token and weight, its bytes, each with whether its granule is poisoned, and the
block it is of. -/
structure StageRow where
  token : Nat
  weight : Word32
  bytes : List (Byte × Bool)
  block : Nat
  deriving DecidableEq, Repr
/-- A staged buffer of a sequencer (R348): its expert, its rows, whether it is to start, whether it starts short for want of a
page, and the fault (cause, address, access kind, whether poison was met) for which a row of it could not be read. -/
structure StageBuf where
  p : Nat
  rows : List StageRow
  closed : Bool
  short : Bool
  bad : Option (Nat × Word64 × Nat × Bool)
  deriving DecidableEq, Repr
/-- A combine that is still to reach its home (R346): its number, the buffer and the block of its row, the element's virtual
and physical address and MSA, and the value to add. -/
structure SeqComb where
  id : Nat
  buf : Nat
  block : Nat
  va : Nat
  pa : Nat
  msa : Bool
  v : Nat
  deriving DecidableEq, Repr
/-- A buffer whose product has been made and whose combines are on their way (R346): its number, the block of each of its
rows, and whether it still holds its page. -/
structure SeqOut where
  id : Nat
  blocks : List Nat
  page : Bool
  deriving DecidableEq, Repr
/-- A sequencer in progress (R346): X, the number of blocks and the address of the first, once the table's header has
been read; whether it could not be; the next block and row of the walk; its buffers; those of them that
have run, the combines of these that have not reached their homes, and how many it has made; the SMAP word and the set its previous buffer loaded; since when it has waited for a page; and the counts and flags of its record. -/
structure SeqState where
  job : SeqJob
  hdr : Option (Nat × Nat × Nat)
  cannot : Bool
  block : Nat
  row : Nat
  bufs : List StageBuf
  outs : List SeqOut
  combs : List SeqComb
  nextComb : Nat
  held : Option (Word64 × MacroSet)
  waitFrom : Option Nat
  failed : List Nat
  flags : Word64
  poison : Bool
  rows : Nat
  waits : Nat
  deriving DecidableEq, Repr
inductive ExpWork
  | ttbld (j : TtJob)
  | tseq (q : SeqState)
  deriving DecidableEq, Repr
/-- A command of the expert unit (R349), posted from a slot of a core; `nth` rises from one command of a thread to the next. -/
structure ExpCmd where
  id : Nat
  token : Word32
  tid : Tid
  core : Nat
  slot : Nat
  nth : Nat
  ev : Bool
  work : ExpWork
  aborted : Bool
  owed : List (List Byte)
  deriving DecidableEq, Repr

/-- A square's semaphore bits, data registers and waiting `semtas`, in order (R359). `last` holds, for bit n under n and for
register n under 64 + n, the cycle of the latest operation on it and the slot it came from. -/
structure Square where
  sems : BitVec 64
  data : List Word64
  waiters : List (Tid × Nat)
  last : Sparse (Nat × Nat)
  deriving DecidableEq, Repr

/-- A copy of a 128-byte line homed on another die (R370). The die's L2 or a core's cache holds it where it lists the line. -/
structure LineCopy where
  line : Nat
  bytes : List Byte
  poison : List Bool
  filled : Nat
  deriving DecidableEq, Repr
/-- A line in a die's L2 and the world of the way groups it is in (R256). -/
structure L2Line where
  line : Nat
  sec : Bool
  deriving DecidableEq, Repr
/-- A write a die has performed and its home has not applied yet (R371, R372): the die, the home, the stamp, the thread it
belongs to, its first byte, its bytes and the granules it writes poisoned. A write homed on the die that performs it is sent
to no other die: its stamp is the clock it follows. -/
structure XWrite where
  src : Nat
  home : Nat
  stamp : List Word32
  tid : Option Tid
  pa : Nat
  bytes : List Byte
  poison : List Nat
  deriving DecidableEq, Repr
/-- A plain store of a thread that has not been performed in its die yet (R368): its die and core, its place, and whether its
line is memory-side. -/
structure HeldStore where
  tid : Tid
  die : Nat
  core : Nat
  key : Nat
  msa : Bool
  bytes : List Byte
  poison : List Nat
  deriving DecidableEq, Repr
/-- A scalar load of a thread that has not been performed yet (R368): the register it is to write, its place, its bytes, and
the number they held when it issued, which it takes where the location has been poisoned since. -/
structure HeldLoad where
  tid : Tid
  reg : Reg
  key : Nat
  n : Nat
  msa : Bool
  was : Nat
  deriving DecidableEq, Repr
/-- A phase request waiting at a hen (R262): from a thread, or from the host command with this header; `taken` says that
the hen has begun to work on it, and `entries` and `chunks` list the reads accepted before that: `mbwl` entries by core and
number, chunks that stall for their codebooks by token and number. -/
structure WsReq where
  tid : Option Tid
  hdr : Option MsgHdr
  sec : Bool
  toOpen : Bool
  taken : Bool
  entries : List (Nat × Nat)
  chunks : List (Word32 × Nat)
  deriving DecidableEq, Repr
/-- What a fault entry is acted on (R395): a stalled thread, an element group of a parked instruction, a VP group of an
`each`, or a command of an engine (its unit and number, and the VP group of an edge program). -/
inductive FaultFor | stall | group (g : Nat) | vp (g : Nat) | engine (unit n g : Nat)
  deriving DecidableEq, Repr
/-- Whether work is that of an engine or of the device. -/
def FaultFor.isEngine : FaultFor → Bool
  | .engine _ _ _ => true
  | _ => false
/-- A page fault an access has met (R392): the die and slot whose queue and number its entry takes, the address, the one
trap 0x06 would name (R144), the level found invalid, KIND, and the work. -/
structure PageFault where
  tid : Tid
  die : Nat
  slot : Nat
  va : Word64
  tval : Word64
  level : Nat
  kind : Nat
  what : FaultFor
  deriving DecidableEq, Repr
/-- A fault queue entry that is not yet acted on (R393): SEQ, thread and the slot it held, address, the one trap 0x06 would
name, level, KIND, status, and the work. -/
structure FaultRec where
  seq : Nat
  tid : Tid
  slot : Nat
  va : Word64
  tval : Word64
  kind : Nat
  level : Nat
  status : Nat
  what : FaultFor
  deriving DecidableEq, Repr
/-- Errors counted of one unit and class since module reset (R402). -/
structure ErrCount where
  cls : Nat
  kind : UnitKind
  unit : Nat
  count : Nat
  deriving DecidableEq, Repr

/-- A die (R17, with its error log by slot, R402): cores, squares, slot table, fabric, ox, expert unit, hen, caches of other dies' lines and clock. -/
structure DieSt where
  cores : Sparse CoreSt
  squares : Sparse Square
  slotTab : Sparse BindRec
  gangTab : Sparse GangRec
  tokens : Nat
  configs : List (RegionId × Graph)
  fabQueue : List FabCmd
  runs : List FabRun
  cpyQueue : List CpyCmd
  shadows : List Shadow
  xslots : Sparse XSlot
  hand : Nat
  expQueue : List ExpCmd
  staged : Nat
  faultSeq : Nat
  faults : List FaultRec
  errSeq : Nat
  errs : List ErrCount
  errLog : Sparse (List Byte)
  stopped : Bool
  deadCores : List Nat
  openNs : Bool
  openSec : Bool
  wsQueue : List WsReq
  tlb : List TlbEnt
  /-- The lines in its L2, its own and copies of other dies', newest first (R248, R256). -/
  l2 : List L2Line
  vc : List Word32
  known : List Word32
  beacons : List (List Word32)
  clockMoved : Bool
  /-- The cycle in which its clock first changed since its last beacon (R371). -/
  movedAt : Nat
  /-- The cycle of the latest write performed in the die, and the highest place written in it: by turns that are over, and
  by all (R367). -/
  rank : Nat × Nat
  top : Nat × Nat
  copies : List LineCopy
  arrivals : List RegionId
  patchMem : List Host.Cell
  /-- The entry points in patch memory that the last RESET has called, in order (R420). -/
  patchCalls : List Nat
  deriving DecidableEq, Repr

/-- Where a control thread stands (R84, R90, R92, R154): `ending` while its work drains after a trap that ends it. -/
inductive ThreadStatus | unbound | bound | ending | ended
  deriving DecidableEq, Repr
/-- The control and status registers that hold state (R151); YDEAD is PCNT, YREQ and the running count (R89). -/
structure Csrs where
  mode : Word64
  flags : Word64
  exmsel : Word64
  astart : Word64
  qgrant : Word64
  cbase : Word64
  seed : Word64
  tcause : Word64
  tpc : Word64
  tval : Word64
  tscratch : Word64
  tvec : Word64
  pcnt : BitVec 16
  yreq : Bool
  count : Option Nat
  epushdiv : Word64
  epulldiv : Word64
  mswap : Word64
  instret : Word64
  deriving DecidableEq, Repr
/-- A location a thread's `mon` waits on (R361): its key and bytes, and the value the first write that changed it gave it. -/
structure Watch where
  tid : Tid
  key : Nat
  n : Nat
  was : Nat
  now : Option Nat
  deriving DecidableEq, Repr
/-- A control thread: its scalar state (R139, R151, R387), its place, and where it stands in its convoy. -/
structure Thread where
  tid : Tid
  status : ThreadStatus
  started : Bool
  pc : Word64
  s : Vector Word64 32
  csr : Csrs
  dmapAddr : Word64
  dmapTab : List Word32
  lastCbld : Word64
  egAddr : Word64
  epAddr : Word64
  epCfg : Word64
  force : BitVec 2
  place : Place
  /-- Instructions of the convoy that have not executed (R108). -/
  convoy : List Instr
  /-- The first word must have C = 1: at ENTRY, at TVEC and after a yield (R112). -/
  entryCheck : Bool
  /-- Address of the first word of the convoy in progress (R117). -/
  convoyPc : Word64
  /-- The fault entry this thread is stalled on (R392). -/
  stall : Option Nat
  park : Option Park
  each : Option EachJob
  /-- Scalar registers an entry or command in progress will write (R242, R312). -/
  pendRegs : List Reg
  /-- Registers and flags that arrived while the thread was unbound (R158). -/
  lateRegs : List (Reg × Word64)
  lateFlags : Word64
  /-- Trap 0x0B is due (R88). -/
  yieldTrap : Bool
  /-- Its pre-emption has begun (R391): it executes nothing more, and its state is still to be saved. -/
  leaving : Bool
  /-- The thread has issued its `yield` (R158). -/
  yielding : Bool
  /-- A semaphore bit taken for the waiting `semtas` (R359). -/
  semTaken : Bool
  /-- A phase request of this thread is waiting at the hen (R262), or has been applied. -/
  wsPending : Bool
  wsDone : Bool
  /-- The clock of the die the thread last ran on when it left it (R369). -/
  clk : List Word32
  /-- The matrix entries that the thread's latest instructions have posted, with no other instruction after them: those
  that an interruption can still stop or unwind (R228, R246). -/
  tail : List Nat
  /-- The clock of what the thread's acquires have brought before its later accesses (R369). -/
  acq : List Word32
  /-- The thread has held array state (R384). -/
  everHeld : Bool
  /-- The array state was lost with a core, and LOST is still to be written in ASTAT (R404, R424). -/
  lost : Bool
  /-- Cause, TPC and TVAL of the trap that ends the thread (R154). -/
  endRec : Option (Nat × Word64 × Word64)
  deriving DecidableEq, Repr

/-- The fields of a region control block after resolution (R74, R76). -/
structure Rcb where
  entry : Word64
  tvec : Word64
  args : Word64
  cbank : Word64
  dmap : Word64
  evq : Word64
  save : Word64
  nct : Nat
  maxcore : Nat
  gang : Nat
  prio : Nat
  maxgran : Nat
  maxslot : Nat
  linksh : Nat
  sec : Bool
  fdom : Nat
  ydl : Nat
  token : Word32
  deriving DecidableEq, Repr
/-- STATE.CODE of a live region (R77); FREE, ENDED and ABORTED regions are not held here. -/
inductive RegionCode | pending | bound | unbound | draining
  deriving DecidableEq, Repr
/-- A live region (R71 to R95). `children` are in the order of its list (R78); `squares` are those it holds, as die and
square, and `boundAt` the cycle it was last bound in; `owed` are records of discarded commands, still to be posted. -/
structure Region where
  id : RegionId
  rcb : Rcb
  /-- The clock of the spawner's die (R369). -/
  clk : List Word32
  /-- The clocks of what its ended threads have done and seen (R92, R369). -/
  endClk : List Word32
  home : Nat
  host : Nat
  parent : Option RegionId
  children : List RegionId
  depth : Nat
  code : RegionCode
  livect : Nat
  doneCt : Nat
  trapCt : Nat
  flags : Word64
  aborting : Bool
  squares : List (Nat × Nat)
  boundAt : Nat
  owed : List (List Byte)
  deriving DecidableEq, Repr

/-- Who makes a memory access or a remote request (R415): a thread, a VP group of its `each`, one element or
line of its instruction, an engine's command (named
by unit and number), or the firmware. -/
inductive Agent
  | thread (t : Tid)
  | vp (t : Tid) (g : Nat)
  | elem (t : Tid) (n : Nat)
  | engine (t : Tid) (unit n : Nat)
  | firmware
  deriving DecidableEq, Repr
/-- A remote request of this package (R415) and its reply, once it has arrived. -/
structure Remote where
  tag : Nat
  who : Agent
  req : LinkReq
  sent : Nat
  port : Nat
  reply : Option LinkReply
  deriving DecidableEq, Repr
/-- What the device has sent, each on a port (R414, R415, R417): requests, replies to requests, and, with their headers,
replies to commands and device messages. -/
inductive OutMsg
  | request (port : Nat) (tag : Nat) (q : LinkReq)
  | reply (port : Nat) (dst tag : BitVec 16) (r : LinkReply)
  | command (port : Nat) (h : MsgHdr) (type : Nat) (status : Byte) (rest : List Byte)
  | message (port : Nat) (h : MsgHdr) (type : Nat) (payload : List Byte)
  deriving DecidableEq, Repr

/-- An entry of the retirement table (R405). -/
structure RetEntry where
  kind : UnitKind
  die : Nat
  unit : Nat
  reason : Nat
  retired : Bool
  stamp : Word64
  deriving DecidableEq, Repr
/-- One copy of the retirement table; `valid` says that its signature verifies (R405). -/
structure RetTable where
  gen : Word64
  entries : List RetEntry
  valid : Bool
  deriving DecidableEq, Repr
/-- The partition record in force (R422). -/
structure Partition where
  cores : List Word32
  ways : List Byte
  wslc : List (BitVec 16)
  preg : Word64
  deriving DecidableEq, Repr
/-- The firmware's and the link's state (R405, R413 to R423). -/
structure Firmware where
  m : Option Nat
  secHost : BitVec 16
  resetCount : Nat
  accepted : Word64
  inForce : Word64
  routes : Sparse Word32
  part : Partition
  tableNs : Option Nat
  tableSec : Option Nat
  tabA : RetTable
  tabB : RetTable
  corrupt : Bool
  replace : Bool
  faultHost : BitVec 16
  log : List (Nat × BitVec 256)
  logOvf : Bool
  wcnt : Sparse Nat
  /-- Writes sent to each node since the last command message sent to it (R417). -/
  wsent : Sparse Nat
  commands : List Instr
  refused : BitVec 16
  nextTag : Nat
  remotes : List Remote
  linkOut : List OutMsg
  deriving DecidableEq, Repr

/-- Whose turn a step is: an event of the device, a control thread, one VP group of a thread's `each`, the edge engine of
a core, the die that performs a thread's `n`-th held store or held load (R368), or the home that the `n`-th combine of a sequencer
reaches (R346). -/
inductive Who
  | event (i : Instr)
  | thread (t : Tid)
  | group (t : Tid) (g : Nat)
  | edge (die core : Nat)
  | performs (t : Tid) (n : Nat)
  | loads (t : Tid) (n : Nat)
  | combines (die job n : Nat)
  deriving DecidableEq, Repr
/-- One entry of the agenda: the cycles that pass first, whose turn it then is, and whether the plain stores and scalar
loads of that turn are held back for the die to perform later (R368, log entry 4). -/
structure Turn where
  dt : Nat
  who : Who
  hold : Bool := false
  deriving DecidableEq, Repr
/-- Whether an instruction runs for the current thread itself, or for VP `i` of a group (R211, R321). -/
inductive Runner
  | thread
  | vp (g i : Nat)
  | edgeVp (die core g i : Nat)
  deriving DecidableEq, Repr

/-- How a VP's instruction ended when it did not go on (R213, R399). -/
inductive VpStop
  | trap (cause axis : Nat) (tval : Word64)
  | faults (fs : List PageFault)
  | remote (qs : List (Agent × LinkReq))
  | wait
  deriving DecidableEq, Repr

/-- The machine. `cur` is the thread whose turn it is or was last, `others` are the rest. -/
structure State where
  cur : Thread
  others : List Thread
  /-- Who executes the instruction: the current thread, or one of its VPs. -/
  runner : Runner
  /-- The VP that executes, when `runner` is a VP. -/
  vp : Vp
  /-- How that VP's instruction ended, when it did not go on. -/
  vpStop : Option VpStop
  mem : Memory
  dies : Sparse DieSt
  regions : List Region
  xwrites : List XWrite
  /-- Plain stores that are still to be performed, in program order of each thread (R368). -/
  stores : List HeldStore
  /-- Scalar loads that are still to be performed (R368). -/
  loads : List HeldLoad
  /-- The plain stores and scalar loads of the turn in progress are held back. -/
  holding : Bool
  /-- The locations that waiting `mon` watch (R361). -/
  watches : List Watch
  topks : List TopkIns
  /-- Pages that came back unresolvable for a piece of an engine's work: thread, page, work (R395). -/
  unres : List (Tid × Nat × FaultFor)
  fw : Firmware
  cycle : Nat
  powered : Bool
  agenda : List Turn
  /-- Free values drawn so far: the model's own field, no register of the device (log entry 6). -/
  draws : Nat
  deriving DecidableEq, Repr

/-- Why the machine stops with a fault. -/
inductive Fault
  /-- Raised by every step after POWER_LOSS until POWER_UP: a module without power takes no step (R405). Safe. -/
  | unpowered
  deriving DecidableEq, Repr

/-- Why a step is refused. -/
inductive Refusal
  /-- Raised by an arm of `exec` whose instruction has no meaning yet. Safe. -/
  | notModelled (mnemonic : String)
  /-- Raised by an instruction word that no bound thread and no VP executes. Safe. -/
  | noThread
  /-- Raised by an agenda turn that names an instruction word in place of an event. Safe. -/
  | notAnEvent
  deriving DecidableEq, Repr

/-! ### The state at power-up -/

/-- The descriptor every array register begins with: FP32, BL = 0, rank 0, E = 1 (R26). -/
def ArrReg.reset : ArrReg :=
  { ty := 15#4, bl := 0#2, ext := [], isEmpty := true, pending := false, repl := false, parts := 1, sbase := 0#16
    gran := [] }
/-- A mask register of length 0 (R167). -/
def MaskReg.reset : MaskReg := { bits := [], sbase := 0#16, poison := [] }
/-- LFSR `j` as a write of SEED sets it (R62). -/
def lfsrSeed (seed : Word32) (j : Nat) : Word32 :=
  let x := seed ^^^ BitVec.ofNat 32 (j * 0x9E3779B9)
  if x = 0#32 then 1#32 else x
/-- The empty array state (R26, R79): the LFSRs are seeded from 0. -/
def ArrState.reset : ArrState :=
  { regs := List.replicate 32 ArrReg.reset, masks := List.replicate 7 MaskReg.reset
    lfsr := (List.range 17).map (lfsrSeed 0#32) }
/-- A slot that no thread owns. -/
def Slot.reset : Slot :=
  { owner := none, arr := ArrState.reset, grant := 0, consts := [], flight := [], pins := [], graph := none, prog := none }
/-- A cleared tile (R217, R232). -/
def Tile.reset : Tile := { rows := 0, cols := 0, cells := [] }
/-- A macro set as at first binding: zero codes of I8, K = N = 128 (R217). -/
def MacroSet.reset : MacroSet :=
  { ty := 3#4, bl := 0#2, k := 128, n := 128, codes := [], scales := [], marks := [] }
/-- An empty sparse result (R217). -/
def SparseRes.reset : SparseRes := { runs := [], m := 0, holder := none, charge := 0, base := 0#16 }
/-- An idle core. -/
def CoreSt.reset : CoreSt :=
  { slots := [], banks := 0, adc := [], l1d := [], l1i := [], tlb := [], mown := none, tiles := []
    sets := [], rowBuf := [], sparse := SparseRes.reset, accUser := .none, queue := []
    nextEntry := 0, edge := [], mqStatus := [] }
/-- A square as when a region is first bound to it: every bit 1, every register 0 (R359). -/
def Square.reset : Square := { sems := BitVec.allOnes 64, data := List.replicate 64 0#64, waiters := [], last := [] }
/-- A bind record with V = 0 (R84). -/
def BindRec.reset : BindRec :=
  { valid := false, rcb := 0#64, ctidx := 0, gang := none, prio := 0#4, sec := false, res := false, ydl := 0
    maxgran := 0, save := 0#64 }
/-- A gang entry with V = 0 (R85). -/
def GangRec.reset : GangRec := { valid := false, rcb := 0#64, ctidx := 0, dmask := 0#8, lead := 0, slots := [] }
/-- An empty expert slot (R351). -/
def XSlot.reset : XSlot := { key := none, use := false, ref := 0#16, refs := [] }
/-- A die at module reset: nothing bound, both worlds' slots sealed (R261), every clock 0 (R371). -/
def DieSt.reset : DieSt :=
  { cores := [], squares := [], slotTab := [], gangTab := [], tokens := 0, configs := [], fabQueue := [], runs := []
    cpyQueue := [], shadows := [], xslots := [], hand := 0, expQueue := [], staged := 0, faultSeq := 0, faults := []
    errSeq := 0, errs := [], errLog := [], stopped := false, deadCores := [], openNs := false, openSec := false, wsQueue := []
    tlb := [], l2 := [], vc := List.replicate 8 0#32, known := List.replicate 8 0#32
    beacons := List.replicate 8 (List.replicate 8 0#32), clockMoved := false, movedAt := 0, rank := (0, 0), top := (0, 0)
    copies := [], arrivals := [], patchMem := [], patchCalls := [] }
/-- The registers as R151 gives their reset values; YDEAD's deadline does not run. -/
def Csrs.reset : Csrs :=
  { mode := 0#64, flags := 0#64, exmsel := 0#64, astart := 0#64, qgrant := 0#64, cbase := 0#64, seed := 0#64
    tcause := 0#64, tpc := 0#64, tval := 0#64, tscratch := 0#64, tvec := 0#64, pcnt := 0#16, yreq := false
    count := none, epushdiv := 14#64, epulldiv := 24#64, mswap := 32#64, instret := 0#64 }
/-- Die 0, core 0, slot 0, no gang. -/
def Place.reset : Place := { die := 0, core := 0, slot := 0, lcore := 0, gang := [], gangEntry := 0, maxgran := 0 }
/-- No thread: an index no thread has (R74), not bound, every register 0 (log entry 3). -/
def Thread.reset : Thread :=
  { tid := { region := { sec := false, rcb := 0#64 }, idx := 1024 }, status := .unbound, started := false, pc := 0#64
    s := Vector.replicate 32 0#64, csr := Csrs.reset, dmapAddr := 0#64, dmapTab := [], lastCbld := 0#64
    egAddr := 0#64, epAddr := 0#64, epCfg := 0#64, force := 0#2, place := Place.reset, convoy := []
    entryCheck := false, convoyPc := 0#64, stall := none, park := none, each := none, pendRegs := [], lateRegs := []
    lateFlags := 0#64, yieldTrap := false, leaving := false, yielding := false, semTaken := false, wsPending := false
    wsDone := false, clk := List.replicate 8 0#32, tail := [], acq := List.replicate 8 0#32, everHeld := false, lost := false, endRec := none }
/-- A VP with every register 0 that does not live. -/
def Vp.reset : Vp :=
  { v := Vector.replicate 16 0#32, pc := 0#64, live := false, out := none, props := [], act := false }
/-- A retirement table as manufactured: no entry, generation 0, signed (log entry 3). -/
def RetTable.reset : RetTable := { gen := 0#64, entries := [], valid := true }
/-- No partition: every unit is non-secure. -/
def Partition.reset : Partition :=
  { cores := List.replicate 8 0#32, ways := List.replicate 8 0#8, wslc := List.replicate 8 0#16, preg := 0#64 }
/-- The firmware at power-up, before the first RESET (R413, R421): features 2, 3 and 4 accepted, none yet in force. -/
def Firmware.reset : Firmware :=
  { m := none, secHost := 0xFFF#16, resetCount := 0, accepted := 0x1C#64, inForce := 0#64, routes := []
    part := Partition.reset, tableNs := none, tableSec := none, tabA := RetTable.reset
    tabB := { RetTable.reset with valid := false }, corrupt := false, replace := false, faultHost := 0#16
    log := [], logOvf := false, wcnt := [], wsent := [], commands := [], refused := 0#16, nextTag := 0
    remotes := [], linkOut := [] }
/-- Memory that lists nothing (log entry 2). -/
def Memory.reset : Memory := { cells := [], poison := [] }
/-- The machine right after power-up: no RESET message has come, no region lives, nothing is bound (R413). -/
def State.reset : State :=
  { cur := Thread.reset, others := [], runner := .thread, vp := Vp.reset, vpStop := none, mem := Memory.reset, dies := []
    regions := [], xwrites := [], stores := [], loads := []
    holding := false, watches := [], topks := [], unres := [], fw := Firmware.reset, cycle := 0, powered := true
    agenda := [], draws := 0 }

end Sys2Proof.Machine
end

