-- ==== Sys2Proof/Machine/Num.lean ====
section
/-!
DEFINITION. Numbers: the element formats of R47 to R57, exact values, and the conversion of R58 with its flags.
Every operation is exact on unbounded integers; a result is narrowed once, at the end.
-/
namespace Sys2Proof.Machine

/-! ### Flags (R65) -/

/-- A set of flags: bits 6 to 0 are PZ, SB, DZ, NX, UF, OF, NV. -/
abbrev Flg := BitVec 7
def flgNone : Flg := 0#7
def flgNV : Flg := 1#7
def flgOF : Flg := 2#7
def flgUF : Flg := 4#7
def flgNX : Flg := 8#7
def flgDZ : Flg := 16#7
def flgSB : Flg := 32#7
def flgPZ : Flg := 64#7
/-- A flag if a condition holds. -/
def flgIf (c : Bool) (f : Flg) : Flg := if c then f else flgNone

/-! ### Types (R47) -/

/-- Width in bits of type code `t`. -/
def tyWidth (t : BitVec 4) : Nat :=
  match t.toNat with
  | 0 => 1 | 1 => 2 | 2 => 4 | 3 => 8 | 4 => 16 | 5 => 32 | 6 => 64 | 7 => 8
  | 8 => 32 | 9 => 4 | 10 => 6 | 11 => 6 | 12 => 8 | 13 => 8 | 14 => 16 | _ => 32
/-- Elements per granule of type code `t`. -/
def tyPer (t : BitVec 4) : Nat :=
  match t.toNat with
  | 10 => 40 | 11 => 40 | _ => 256 / tyWidth t
/-- A floating or logarithmic type. -/
def tyFloat (t : BitVec 4) : Bool := decide (9 ≤ t.toNat)
/-- A signed integer type. -/
def tySigned (t : BitVec 4) : Bool := decide (1 ≤ t.toNat) && decide (t.toNat ≤ 6)
/-- Type codes by name. -/
def tyBIT : BitVec 4 := 0#4
def tyI32 : BitVec 4 := 5#4
def tyI64 : BitVec 4 := 6#4
def tyN8 : BitVec 4 := 7#4
def tyN32 : BitVec 4 := 8#4
def tyL6 : BitVec 4 := 11#4
def tyBF16 : BitVec 4 := 14#4
def tyFP32 : BitVec 4 := 15#4
/-- Least value of an integer type. -/
def tyMin (t : BitVec 4) : Int := if tySigned t then - (2 ^ (tyWidth t - 1) : Nat) else 0
/-- Greatest value of an integer type. -/
def tyMax (t : BitVec 4) : Int :=
  if tySigned t then (2 ^ (tyWidth t - 1) : Nat) - 1 else (2 ^ tyWidth t : Nat) - 1
/-- The code of the zero an element "reads as zero" with: +0, L6 0x10, integer 0 (R166). -/
def tyZero (t : BitVec 4) : Nat := if t = tyL6 then 0x10 else 0

/-! ### Values -/

/-- A floating value: a NaN with the sign it was read with, an infinity, or ± (mant + ε) · 2^exp, where `sticky` says
whether ε lies strictly between 0 and 1 or is 0. -/
inductive FVal
  | nan (neg : Bool)
  | inf (neg : Bool)
  | fin (neg : Bool) (mant : Nat) (exp : Int) (sticky : Bool)
  deriving DecidableEq, Repr
/-- A value of an element: an integer, a floating value, or 2^(a / 2^f) where the exponent is no integer (R177). -/
inductive Val
  | int (n : Int)
  | flt (x : FVal)
  | pow (a : Int) (f : Nat)
  deriving DecidableEq, Repr

/-- A signed zero. -/
def fzero (neg : Bool) : FVal := .fin neg 0 0 false
/-- An integer as a floating value. -/
def fofInt (n : Int) : FVal := .fin (decide (n < 0)) n.natAbs 0 false
/-- The largest r with r² ≤ n among those built from the top `bits` bits down. -/
def isqrtFrom (n : Nat) : Nat → Nat → Nat
  | 0, r => r
  | b + 1, r => isqrtFrom n b (if (r + 2 ^ b) * (r + 2 ^ b) ≤ n then r + 2 ^ b else r)
/-- floor(sqrt n). -/
def isqrt (n : Nat) : Nat := isqrtFrom n (n.log2 / 2 + 1) 0
/-- acc times 2^(g / 2^k), both with `p` binary places: the product of those successive square roots of `c` whose bit of
`g` is set, the first root being of bit k − 1. -/
def exp2Frac (p g : Nat) : Nat → Nat → Nat → Nat
  | 0, _, acc => acc
  | k + 1, c, acc =>
    let r := isqrt (c <<< p)
    exp2Frac p g k r (if g.testBit k then (acc * r) >>> p else acc)
/-- 2^(a / 2^f) cut off `p` binary places below its leading bit (log entry 9). -/
def powFin (p : Nat) (a : Int) (f : Nat) : FVal :=
  let g := (a.emod (2 ^ f : Nat)).toNat
  .fin false (exp2Frac p g f (2 <<< p) (1 <<< p)) (a.ediv (2 ^ f : Nat) - p) true
/-- Any value as a floating value. -/
def Val.toF : Val → FVal
  | .int n => fofInt n
  | .flt x => x
  | .pow a f => powFin 256 a f
/-- A value times 2^k. -/
def Val.scale (v : Val) (k : Int) : Val :=
  match v with
  | .int n => .flt (.fin (decide (n < 0)) n.natAbs (if n = 0 then 0 else k) false)
  | .flt (.fin n m e s) => .flt (.fin n m (if m = 0 then e else e + k) s)
  | .flt x => .flt x
  | .pow a f => .pow (a + k * (2 ^ f : Nat)) f
/-- Whether a value is a zero. -/
def FVal.isZero : FVal → Bool
  | .fin _ m _ s => m == 0 && !s
  | _ => false
def FVal.isNan : FVal → Bool
  | .nan _ => true
  | _ => false
def FVal.isFin : FVal → Bool
  | .fin _ _ _ _ => true
  | _ => false
def FVal.sign : FVal → Bool
  | .nan n => n
  | .inf n => n
  | .fin n _ _ _ => n
def FVal.neg : FVal → FVal
  | .nan n => .nan !n
  | .inf n => .inf !n
  | .fin n m e s => .fin (!n) m e s
def FVal.abs : FVal → FVal
  | .nan _ => .nan false
  | .inf _ => .inf false
  | .fin _ m e s => .fin false m e s
/-- A value times 2^k. -/
def FVal.scale (x : FVal) (k : Int) : FVal :=
  match x with
  | .fin n m e s => .fin n m (if m = 0 then e else e + k) s
  | y => y
/-- floor(log2 |x|) of a finite non-zero value. -/
def FVal.log2 : FVal → Int
  | .fin _ m e _ => (m.log2 : Int) + e
  | _ => 0

/-! ### Float layouts (R52) -/

/-- Exponent width, mantissa width, bias, greatest finite code, whether there is an infinity and a NaN. -/
structure FFmt where
  ebits : Nat
  mbits : Nat
  bias : Nat
  maxCode : Nat
  hasInf : Bool
  hasNan : Bool
  nan : Nat
  deriving DecidableEq, Repr
/-- The layout of a floating type; L6 is given its limits only. -/
def ffmt (t : BitVec 4) : FFmt :=
  match t.toNat with
  | 9 => { ebits := 2, mbits := 1, bias := 1, maxCode := 7, hasInf := false, hasNan := false, nan := 0 }
  | 10 => { ebits := 2, mbits := 3, bias := 1, maxCode := 0x1F, hasInf := false, hasNan := false, nan := 0 }
  | 11 => { ebits := 3, mbits := 2, bias := 0, maxCode := 0x0F, hasInf := false, hasNan := false, nan := 0 }
  | 12 => { ebits := 4, mbits := 3, bias := 7, maxCode := 0x7E, hasInf := false, hasNan := true, nan := 0x7F }
  | 13 => { ebits := 5, mbits := 2, bias := 15, maxCode := 0x7B, hasInf := true, hasNan := true, nan := 0x7E }
  | 14 => { ebits := 8, mbits := 7, bias := 127, maxCode := 0x7F7F, hasInf := true, hasNan := true, nan := 0x7FC0 }
  | _ => { ebits := 8, mbits := 23, bias := 127, maxCode := 0x7F7FFFFF, hasInf := true, hasNan := true
           nan := 0x7FC00000 }
/-- The sign bit of a code of width `w`. -/
def signBit (w code : Nat) : Bool := code.testBit (w - 1)

/-- The significand of T[f] and its exponent in the L6 table (R55): FP32 mantissas of 2^(f/4). -/
def l6Table (f : Nat) : Nat :=
  match f with
  | 0 => 0x800000 | 1 => 0x9837F0 | 2 => 0xB504F3 | _ => 0xD744FD
/-- The L field of an L6 code as an integer, −16 to 15 (R55). -/
def l6Log (code : Nat) : Int := if code % 32 < 16 then (code % 32 : Nat) else (code % 32 : Nat) - 32
/-- 2^floor(P/4) · T[P mod 4], as R55 and R56 give it. -/
def l6Pow (neg : Bool) (p : Int) : FVal := .fin neg (l6Table (p.emod 4).toNat) (p.ediv 4 - 23) false
/-- The value of an L6 code (R55). -/
def decodeL6 (code : Nat) : FVal :=
  if code % 32 = 16 then fzero (code.testBit 5) else l6Pow (code.testBit 5) (l6Log code)
/-- The value of a code of an IEEE-like layout (R52). -/
def decodeIeee (f : FFmt) (code : Nat) : FVal :=
  let w := 1 + f.ebits + f.mbits
  let neg := signBit w code
  let e := (code >>> f.mbits) % 2 ^ f.ebits
  let m := code % 2 ^ f.mbits
  let body := code % 2 ^ (w - 1)
  if f.hasNan && decide (f.maxCode + (if f.hasInf then 1 else 0) < body) then .nan neg
  else if f.hasInf && body == f.maxCode + 1 then .inf neg
  else if e = 0 then .fin neg m (1 - (f.bias : Int) - f.mbits) false
  else .fin neg (m + 2 ^ f.mbits) ((e : Int) - f.bias - f.mbits) false
/-- The value of a floating code, without its scale. -/
def decodeF (t : BitVec 4) (code : Nat) : FVal := if t = tyL6 then decodeL6 code else decodeIeee (ffmt t) code
/-- The value of an integer code (R47). -/
def decodeInt (t : BitVec 4) (code : Nat) : Int :=
  let w := tyWidth t
  let c := code % 2 ^ w
  if tySigned t && c.testBit (w - 1) then (c : Int) - (2 ^ w : Nat) else c
/-- The value of a code of any unscaled type. -/
def decodeVal (t : BitVec 4) (code : Nat) : Val :=
  if tyFloat t then .flt (decodeF t code) else .int (decodeInt t code)

/-! ### Rounding (R61, R62) -/

/-- The rounding modes of MODE.RM (R61). -/
inductive Rm | rne | rz | rd | ru | sto
  deriving DecidableEq, Repr
/-- The mode of an RM field; 5 to 7 are reserved and no caller rounds with them. -/
def rmOf (n : Nat) : Rm :=
  match n with
  | 0 => .rne | 1 => .rz | 2 => .rd | 3 => .ru | _ => .sto
/-- Whether a magnitude with kept part `kept` and dropped part `rem` of 2^sh is rounded away from zero. -/
def roundsUp (rm : Rm) (neg : Bool) (kept rem sh : Nat) (sticky : Bool) (draw : Nat) : Bool :=
  match rm with
  | .rne =>
    let half := 2 ^ (sh - 1)
    decide (half < rem) || (rem == half && (sticky || kept % 2 == 1))
  | .rz => false
  | .rd => neg && (rem != 0 || sticky)
  | .ru => !neg && (rem != 0 || sticky)
  | .sto => decide (2 ^ 16 ≤ (rem <<< 16) >>> sh + draw)
/-- A magnitude mant · 2^exp rounded to a multiple of 2^q: the multiple, and whether it is inexact. -/
def roundMag (rm : Rm) (neg : Bool) (mant : Nat) (exp q : Int) (sticky : Bool) (draw : Nat) : Nat × Bool :=
  if q ≤ exp then
    let kept := mant <<< (exp - q).toNat
    (if roundsUp rm neg kept 0 1 sticky draw then kept + 1 else kept, sticky)
  else
    -- a shift past every bit of the magnitude gives what a shift of 20 bits past its top gives
    let sh := min (q - exp).toNat (mant.log2 + 20)
    let kept := mant >>> sh
    let rem := mant % 2 ^ sh
    (if roundsUp rm neg kept rem sh sticky draw then kept + 1 else kept, rem != 0 || sticky)

/-! ### Conversion (R57, R58) -/

/-- How a conversion chooses its substitute (R58): the code a conversion names, or MODE.SUBSEL with the bits of q31. -/
inductive SubSpec
  | code (c : Nat)
  | sel (n : Nat) (q31 : Nat)
  deriving DecidableEq, Repr
/-- What a conversion depends on: rounding mode, NSAT, ISAT and the substitute. -/
structure Env where
  rm : Rm
  nsat : Bool
  isat : Bool
  sub : SubSpec
  deriving DecidableEq, Repr
/-- The same environment rounding to nearest, ties to even. -/
def Env.nearest (e : Env) : Env := { e with rm := .rne }
/-- A converted element: its code, its flags, and whether it took a draw (R62). -/
structure Conv where
  code : Nat
  flags : Flg
  drew : Bool
  deriving DecidableEq, Repr

/-- The substitute of format `t`, with the sign given (R58). -/
def substitute (sub : SubSpec) (t : BitVec 4) (neg : Bool) : Nat :=
  let w := tyWidth t
  match sub with
  | .code c => c % 2 ^ w
  | .sel n q31 =>
    let withSign (mag : Nat) : Nat :=
      if tyFloat t then mag + (if neg then 2 ^ (w - 1) else 0)
      else if neg then (2 ^ w - mag) % 2 ^ w else mag
    match n with
    | 0 => tyZero t
    | 1 => withSign (if tyFloat t then (ffmt t).maxCode else (tyMax t).toNat)
    | 2 => withSign (if t = tyL6 then 0x11 else if tyFloat t then 2 ^ (ffmt t).mbits else 1)
    | _ => q31 % 2 ^ w

/-- The code of an integer brought into type `t` by R51. -/
def wrapInt (isat : Bool) (t : BitVec 4) (n : Int) : Nat × Flg :=
  if tyMin t ≤ n ∧ n ≤ tyMax t then ((n.emod (2 ^ tyWidth t : Nat)).toNat, flgNone)
  else
    let r := if isat then (if n < 0 then tyMin t else tyMax t) else n
    ((r.emod (2 ^ tyWidth t : Nat)).toNat, flgOF)
/-- The integer R51 leaves of `n` in type `t`. -/
def narrowInt (isat : Bool) (t : BitVec 4) (n : Int) : Int × Flg :=
  let (c, f) := wrapInt isat t n
  (decodeInt t c, f)

/-- Steps 2 to 4 of R57: the rounded logarithm `l`, whether the exact one is below −15, and whether a code is exact. -/
def l6Code (env : Env) (neg : Bool) (l : Int) (low : Bool) (exact : Nat → Bool) : Conv :=
  let s : Nat := if neg then 32 else 0
  let lc := if l < -15 then -15 else l
  if 15 < lc then
    if env.nsat then { code := s + 0x0F, flags := flgOF ||| flgNX, drew := false }
    else { code := substitute env.sub tyL6 neg, flags := flgOF ||| flgNX ||| flgSB, drew := false }
  else
    let code := s + (lc.emod 32).toNat
    { code := code, flags := flgIf low (flgUF ||| flgNX) ||| flgIf (!exact code) flgNX, drew := false }
/-- Conversion of a finite value into L6 (R57). -/
def toL6 (env : Env) (neg : Bool) (m : Nat) (e : Int) (sticky : Bool) : Conv :=
  -- the nearest integer to 4·log2 x is floor((floor(log2 x^8) + 1) / 2): x^8 is never an odd power of 2
  let l : Int := (((m ^ 8).log2 : Int) + 8 * e + 1).ediv 2
  l6Code env neg l (decide (((m ^ 4).log2 : Int) + 4 * e < -15)) fun code =>
    match decodeL6 code with
    | .fin _ dm de _ => !sticky && (if de ≤ e then m <<< (e - de).toNat == dm else m == dm <<< (de - e).toNat)
    | _ => false
/-- Conversion of 2^(a / 2^f) into L6 (R57): its logarithm is known exactly, ties included, and the value is
irrational, so that no code is exact. -/
def powToL6 (env : Env) (a : Int) (f : Nat) : Conv :=
  let one : Int := (2 ^ f : Nat)
  let q := (4 * a).ediv one
  let rest := 2 * (4 * a).emod one
  let up := decide (one < rest) || (rest == one && q.emod 2 == 1)
  l6Code env false (if up then q + 1 else q) (decide (4 * a < -15 * one)) (fun _ => false)

/-- Conversion of a finite non-zero value into an IEEE-like layout (R58, the rows from the third on). -/
def toIeee (env : Env) (t : BitVec 4) (neg : Bool) (m : Nat) (e : Int) (sticky : Bool) (draw : Nat) : Nat × Flg :=
  let f := ffmt t
  let sbit : Nat := if neg then 2 ^ (f.ebits + f.mbits) else 0
  let emin : Int := 1 - (f.bias : Int)
  let big : Int := (m.log2 : Int) + e
  let q : Int := (if big < emin then emin else big) - f.mbits
  let (n, inexact) := roundMag env.rm neg m e q sticky draw
  -- the code of n · 2^q, its exponent unbounded: counted up from the subnormals
  let base : Nat := if big < emin then n else ((big - emin).toNat * 2 ^ f.mbits + n)
  if f.maxCode < base then
    if env.nsat then (sbit + f.maxCode, flgOF ||| flgNX)
    else if f.hasInf then (sbit + f.maxCode + 1, flgOF ||| flgNX)
    else (substitute env.sub t neg, flgOF ||| flgNX ||| flgSB)
  else (sbit + base, flgIf inexact flgNX ||| flgIf (inexact && decide (big < emin)) flgUF)

/-- Conversion of a value into an integer type (R58, last column); NV for a range error of a floating source only. -/
def floatToInt (env : Env) (t : BitVec 4) (x : FVal) (draw : Nat) (fromInt : Bool) : Nat × Flg :=
  match x with
  | .nan _ => (0, flgNV)
  | .inf neg => (((if neg then tyMin t else tyMax t).emod (2 ^ tyWidth t : Nat)).toNat, flgNV)
  | .fin neg m e sticky =>
    -- a multiple of 2^65 leaves every type and wraps to what 2^65 times an odd number does
    let e' := if 65 < e && !sticky then 65 else e
    let (n, inexact) := roundMag env.rm neg m e' 0 sticky draw
    let (c, f) := wrapInt env.isat t (if neg then -(n : Int) else n)
    if f = flgNone then (c, flgIf inexact flgNX) else (c, f ||| flgIf (!fromInt) flgNV)
/-- Conversion of 2^(a / 2^f) into an integer type: enough binary places for every integer bit (R59). -/
def powToInt (env : Env) (t : BitVec 4) (a : Int) (f draw : Nat) : Nat × Flg :=
  let whole := a.ediv (2 ^ f : Nat)
  if env.isat ∧ 65 < whole then ((tyMax t).toNat, flgOF ||| flgNV)
  else floatToInt env t (powFin (256 + whole.toNat) a f) draw false

/-- Conversion of a value into any unscaled format (R58); `fromInt` says that it is of an integer operation type. -/
def convertF (env : Env) (t : BitVec 4) (x : FVal) (draw : Nat) (fromInt : Bool := false) : Conv :=
  let drew := env.rm == .sto && x.isFin && t != tyL6
  if tyFloat t then
    let f := ffmt t
    let w := tyWidth t
    match x with
    | .nan neg =>
      if f.hasNan then { code := f.nan, flags := flgNone, drew := false }
      else { code := substitute env.sub t neg, flags := flgSB, drew := false }
    | .inf neg =>
      let s : Nat := if neg then 2 ^ (w - 1) else 0
      if f.hasInf then { code := s + f.maxCode + 1, flags := flgNone, drew := false }
      else { code := s + f.maxCode, flags := flgSB, drew := false }
    | .fin neg m e sticky =>
      if m = 0 && !sticky then
        { code := (if neg then 2 ^ (w - 1) else 0) + tyZero t, flags := flgNone, drew := drew }
      else if t = tyL6 then toL6 env neg m e sticky
      else
        let (c, fl) := toIeee env t neg m e sticky draw
        { code := c, flags := fl, drew := drew }
  else
    let (c, fl) := floatToInt env t x draw fromInt
    { code := c, flags := fl, drew := drew }
/-- Conversion of a value of any kind into any unscaled format (R58). -/
def convert (env : Env) (t : BitVec 4) (v : Val) (draw : Nat) : Conv :=
  match v with
  | .flt x => convertF env t x draw
  | .pow a f =>
    if t = tyL6 then powToL6 env a f
    else if tyFloat t then convertF env t (powFin 256 a f) draw
    else
      let (c, fl) := powToInt env t a f draw
      { code := c, flags := fl, drew := env.rm == .sto }
  | .int n =>
    if tyFloat t then convertF env t (fofInt n) draw true
    else
      let (c, f) := wrapInt env.isat t n
      { code := c, flags := f, drew := false }

/-- The environment of roundings that are always to nearest, ties to even, and overflow to infinity (R235, R352). -/
def envNearest : Env := { rm := .rne, nsat := false, isat := false, sub := .sel 0 0 }
/-- A value rounded into type `t` and read back. -/
def roundTo (env : Env) (t : BitVec 4) (v : Val) (draw : Nat) : Val × Flg :=
  let c := convert env t v draw
  (decodeVal t c.code, c.flags)

/-! ### Exact arithmetic -/

/-- Sum of two floating values; an exact zero sum of unlike signs is −0 only when rounding down. -/
def fadd (rm : Rm) (x y : FVal) : FVal × Flg :=
  match x, y with
  | .nan _, _ => (.nan false, flgNone)
  | _, .nan _ => (.nan false, flgNone)
  | .inf a, .inf b => if a = b then (.inf a, flgNone) else (.nan false, flgNV)
  | .inf a, _ => (.inf a, flgNone)
  | _, .inf b => (.inf b, flgNone)
  | .fin n1 m1 e1 _, .fin n2 m2 e2 _ =>
    let e := if e1 ≤ e2 then e1 else e2
    let a : Int := (m1 <<< (e1 - e).toNat : Nat)
    let b : Int := (m2 <<< (e2 - e).toNat : Nat)
    let r : Int := (if n1 then -a else a) + (if n2 then -b else b)
    if m1 = 0 ∧ m2 = 0 then (fzero (if n1 = n2 then n1 else rm == .rd), flgNone)
    else if m1 = 0 then (.fin n2 m2 e2 false, flgNone)
    else if m2 = 0 then (.fin n1 m1 e1 false, flgNone)
    else if r = 0 then (fzero (rm == .rd), flgNone)
    else (.fin (decide (r < 0)) r.natAbs e false, flgNone)
/-- Product of two floating values. -/
def fmulV (x y : FVal) : FVal × Flg :=
  let neg := x.sign != y.sign
  match x, y with
  | .nan _, _ => (.nan false, flgNone)
  | _, .nan _ => (.nan false, flgNone)
  | .inf _, .inf _ => (.inf neg, flgNone)
  | .inf _, z => if z.isZero then (.nan false, flgNV) else (.inf neg, flgNone)
  | z, .inf _ => if z.isZero then (.nan false, flgNV) else (.inf neg, flgNone)
  | .fin _ m1 e1 _, .fin _ m2 e2 _ =>
    if m1 = 0 ∨ m2 = 0 then (fzero neg, flgNone) else (.fin neg (m1 * m2) (e1 + e2) false, flgNone)
/-- Quotient of two floating values: every integer bit, at least 80 bits, and a sticky rest. -/
def fdivV (x y : FVal) : FVal × Flg :=
  let neg := x.sign != y.sign
  match x, y with
  | .nan _, _ => (.nan false, flgNone)
  | _, .nan _ => (.nan false, flgNone)
  | .inf _, .inf _ => (.nan false, flgNV)
  | .inf _, _ => (.inf neg, flgNone)
  | _, .inf _ => (fzero neg, flgNone)
  | .fin _ m1 e1 _, .fin _ m2 e2 _ =>
    if m2 = 0 then (if m1 = 0 then (.nan false, flgNV) else (.inf neg, flgDZ))
    else if m1 = 0 then (fzero neg, flgNone)
    else
      let k := 80 + m2.log2 + (e1 - e2).toNat
      let n := m1 <<< k
      (.fin neg (n / m2) (e1 - e2 - k) (n % m2 != 0), flgNone)
/-- Square root, to at least 80 bits below the first and below the point, and a sticky rest (R177). -/
def fsqrtV (x : FVal) : FVal × Flg :=
  match x with
  | .nan _ => (.nan false, flgNone)
  | .inf neg => if neg then (.nan false, flgNV) else (.inf false, flgNone)
  | .fin neg m e _ =>
    if m = 0 then (fzero neg, flgNone)
    else if neg then (.nan false, flgNV)
    else
      let odd := e.emod 2 = 1
      let n := m <<< ((if odd then 161 else 160) + 2 * e.toNat)
      let r := isqrt n
      (.fin false r ((if odd then (e - 1) else e).ediv 2 - 80 - e.toNat) (r * r != n), flgNone)
/-- Three-way comparison of two floating values as reals (infinities at the ends; −0 = +0; not for NaN). -/
def fcmpV (x y : FVal) : Ordering :=
  match x, y with
  | .fin n1 m1 e1 _, .fin n2 m2 e2 _ =>
    let e := if e1 ≤ e2 then e1 else e2
    let a : Int := (m1 <<< (e1 - e).toNat : Nat)
    let b : Int := (m2 <<< (e2 - e).toNat : Nat)
    compare (if n1 then -a else a) (if n2 then -b else b)
  | .inf a, .inf b => if a = b then .eq else if a then .lt else .gt
  | .inf a, _ => if a then .lt else .gt
  | _, .inf b => if b then .gt else .lt
  | _, _ => .eq
/-- x < y, false when either is NaN. -/
def fltV (x y : FVal) : Bool := !x.isNan && !y.isNan && fcmpV x y == .lt
/-- x = y, false when either is NaN. -/
def feqV (x y : FVal) : Bool := !x.isNan && !y.isNan && fcmpV x y == .eq
/-- The order of min and max: as reals, with −0 below +0 (R68, R145, R169). -/
def fbelow (x y : FVal) : Bool :=
  match fcmpV x y with
  | .lt => true
  | .eq => x.sign && !y.sign
  | .gt => false
/-- The smaller (`mx = false`) or larger of two values: the other when exactly one is NaN, NaN when both are (R145). -/
def fminmax (mx : Bool) (x y : FVal) : FVal :=
  if x.isNan then (if y.isNan then .nan false else y)
  else if y.isNan then x
  else if mx then (if fbelow x y then y else x)
  else (if fbelow y x then y else x)

/-! ### exp2 and log2 (R177, log entry 9) -/

/-- 2^x for a finite x. -/
def exp2Fin (neg : Bool) (m : Nat) (e : Int) : Val :=
  let a : Int := if neg then -(m : Int) else m
  if 0 ≤ e then .flt (.fin false 1 (a * (2 ^ e.toNat : Nat)) false)
  else
    let f := (-e).toNat
    if m % 2 ^ f = 0 then .flt (.fin false 1 (a.ediv (2 ^ f : Nat)) false) else .pow a f
/-- 2^x (R177). -/
def fexp2V (x : FVal) : Val × Flg :=
  match x with
  | .nan _ => (.flt (.nan false), flgNone)
  | .inf neg => (.flt (if neg then fzero false else .inf false), flgNone)
  | .fin neg m e _ => (exp2Fin neg m e, flgNone)
/-- `n` fraction bits of log2 of y · 2^-400, where 1 ≤ y · 2^-400 < 2, by repeated squaring. -/
def log2Digits : Nat → Nat → Nat → Nat
  | 0, _, acc => acc
  | n + 1, y, acc =>
    let z := (y * y) >>> 400
    if 2 ^ 401 ≤ z then log2Digits n (z >>> 1) (2 * acc + 1) else log2Digits n z (2 * acc)
/-- log2 of a positive finite value. -/
def log2Fin (m : Nat) (e : Int) : FVal :=
  let top := m.log2
  let i : Int := (top : Int) + e
  if m = 2 ^ top then fofInt i
  else
    let y := if top ≤ 400 then m <<< (400 - top) else m >>> (top - 400)
    let f := log2Digits 128 y 0
    let r : Int := i * (2 ^ 128 : Nat) + f
    -- the exact logarithm lies above r, below r + 1
    if 0 ≤ r then .fin false r.toNat (-128) true else .fin true (-(r + 1)).toNat (-128) true
/-- log2 x (R177): NaN and NV below zero, −inf and DZ at zero. -/
def flog2V (x : FVal) : FVal × Flg :=
  match x with
  | .nan _ => (.nan false, flgNone)
  | .inf neg => if neg then (.nan false, flgNV) else (.inf false, flgNone)
  | .fin neg m e _ =>
    if m = 0 then (.inf true, flgDZ)
    else if neg then (.nan false, flgNV)
    else (log2Fin m e, flgNone)

/-! ### Blocks of scaled elements (R60) -/

/-- emax of a scaled type (R60). -/
def emaxOf (t : BitVec 4) : Int :=
  match t.toNat with
  | 2 => 2 | 3 => 6 | 9 => 2 | 10 => 2 | 11 => 3 | 12 => 8 | _ => 15
/-- The scale byte R60 gives a block with these values. -/
def blockScale (t : BitVec 4) (xs : List FVal) : Nat :=
  let top := xs.foldl (fun (acc : Option Int) x =>
    match x with
    | .fin _ m _ _ => if m = 0 then acc else
        match acc with
        | none => some x.log2
        | some a => some (if a < x.log2 then x.log2 else a)
    | _ => acc) none
  match top with
  | none => 127
  | some l =>
    let e := l - emaxOf t + 127
    if e < 0 then 0 else if 254 < e then 254 else e.toNat

/-! ### LFSRs (R62) -/

/-- One step of an LFSR. -/
def lfsrStep (s : Word32) : Word32 :=
  (s <<< 1) ||| BitVec.zeroExtend 32 (BitVec.ofBool (s.getLsbD 31 ^^ s.getLsbD 21 ^^ s.getLsbD 1 ^^ s.getLsbD 0))
/-- `n` steps of an LFSR. -/
def lfsrSteps : Nat → Word32 → Word32
  | 0, s => s
  | n + 1, s => lfsrSteps n (lfsrStep s)
/-- The 16 bits a draw takes from an LFSR. -/
def lfsrDraw (s : Word32) : Nat := s.toNat % 65536
/-- The LFSR after a draw. -/
def lfsrNext (s : Word32) : Word32 := lfsrSteps 16 s

end Sys2Proof.Machine
end

