-- ==== Sys2Proof/Machine/Exec.lean ====
section
/-!
DEFINITION. Sparse tables, the ways a piece of an instruction can end, the monad of the meanings, and the accessors of
dies, cores and slots.
-/
namespace Sys2Proof.Machine

/-! ### Sparse tables -/

/-- The value at key `k`, `d` where the table lists none. -/
def spGet {α : Type} (d : α) : Sparse α → Nat → α
  | [], _ => d
  | (j, v) :: r, k => if j = k then v else if k < j then d else spGet d r k
/-- The table with value `v` at key `k`. -/
def spSet {α : Type} : Sparse α → Nat → α → Sparse α
  | [], k, v => [(k, v)]
  | (j, w) :: r, k, v =>
    if j = k then (k, v) :: r else if k < j then (k, v) :: (j, w) :: r else (j, w) :: spSet r k v
/-- The table without key `k`. -/
def spDel {α : Type} : Sparse α → Nat → Sparse α
  | [], _ => []
  | (j, w) :: r, k => if j = k then r else if k < j then (j, w) :: r else (j, w) :: spDel r k
/-- Keys strictly rising. -/
def spSorted {α : Type} : Sparse α → Bool
  | [] => true
  | [_] => true
  | (j, _) :: (k, v) :: r => decide (j < k) && spSorted ((k, v) :: r)
/-- A rising list of Nats with `k` added. -/
def setAdd : List Nat → Nat → List Nat
  | [], k => [k]
  | j :: r, k => if j = k then j :: r else if k < j then k :: j :: r else j :: setAdd r k
/-- A rising list of Nats without `k`. -/
def setDel : List Nat → Nat → List Nat
  | [], _ => []
  | j :: r, k => if j = k then r else if k < j then j :: r else j :: setDel r k
/-- A list with entry `n` replaced, unchanged past its end. -/
def listSet {α : Type} : List α → Nat → α → List α
  | [], _, _ => []
  | _ :: r, 0, v => v :: r
  | x :: r, n + 1, v => x :: listSet r n v

/-! ### Rows spread over dies (R43) -/

/-- The number of elements of a shape. -/
def extProd (ext : List Nat) : Nat := ext.foldr (· * ·) 1
/-- The first row of share `j` of `n` rows spread over `parts` dies (R43). -/
def shareLo (parts n j : Nat) : Nat := j * n / parts
/-- The share that holds row `row` of `n`: the last one that begins at or before it and is not empty. -/
def shareOfRow (parts n row : Nat) : Nat :=
  ((List.range parts).find? (fun j => decide (row < shareLo parts n (j + 1)))).getD 0
/-- The share that holds element `i`, and the element's index in it (R43). -/
def shareOf (parts : Nat) (ext : List Nat) (i : Nat) : Nat × Nat :=
  if parts ≤ 1 then (0, i)
  else
    let n := ext.headD 1
    let len := extProd ext.tail
    let j := shareOfRow parts n (i / len)
    (j, i - shareLo parts n j * len)

/-! ### How a piece of an instruction ends -/

/-- Why an instruction, or a step of the device, does not simply go on. -/
inductive Exc
  /-- A trap (R152), TPC the instruction itself. -/
  | trap (cause axis : Nat) (tval : Word64)
  /-- A trap with its own TPC: `ecall`, a convoy fault, a mid-convoy entry. -/
  | trapAt (cause axis : Nat) (tval tpc : Word64)
  /-- The instruction has not executed and is tried again at the thread's next turn (R360, R226). -/
  | wait
  /-- Page faults (R393). -/
  | faults (fs : List PageFault)
  /-- Requests that other nodes must answer first, each with the agent it is of (R415). -/
  | remote (qs : List (Agent × LinkReq))
  /-- An engine's access waits for a refresh window that lasts `left` more cycles (R263). -/
  | refresh (left : Nat)
  /-- The end `e`, with the effects in `s` kept: a resumable instruction that stopped (R42), or a wait that has
  already taken its place in a queue. -/
  | keep (s : State) (e : Exc)
  /-- The device step has nothing to do: there is no such work. -/
  | idle

/-- A piece of an instruction or of a device step. -/
abbrev Exec (α : Type) := StateT State (Except Exc) α

/-- End with `e`. -/
def stop {α : Type} (e : Exc) : Exec α := fun _ => .error e
/-- Trap with TPC the instruction (R152). -/
def trapNow {α : Type} (cause : Nat) (tval : Word64) : Exec α := stop (.trap cause 0 tval)
/-- End with `e`, keeping what has been done so far. -/
def stopKeep {α : Type} (e : Exc) : Exec α := fun s => .error (.keep s e)
/-- Go on only if a condition holds; end with `e` otherwise. -/
def check (c : Bool) (e : Exc) : Exec Unit := if c then pure () else stop e
/-- Go on only if a condition holds; end with `e` otherwise, keeping what has been done so far. -/
def checkKeep (c : Bool) (e : Exc) : Exec Unit := if c then pure () else stopKeep e
/-- Do nothing but if a condition holds. -/
def whenB (c : Bool) (x : Exec Unit) : Exec Unit := if c then x else pure ()
/-- Run `x` and answer how it ended, with its effects undone where it did not go on. -/
def attempt {α : Type} (x : Exec α) : Exec (Except Exc α) := fun s =>
  match x s with
  | .ok (a, t) => .ok (.ok a, t)
  | .error e => .ok (.error e, s)
/-- Repeat `f` over a list, left to right. -/
def forEach {α : Type} : List α → (α → Exec Unit) → Exec Unit
  | [], _ => pure ()
  | x :: r, f => do f x; forEach r f
/-- Map over a list, left to right. -/
def mapEach {α β : Type} : List α → (α → Exec β) → Exec (List β)
  | [], _ => pure []
  | x :: r, f => do
    let y ← f x
    let ys ← mapEach r f
    pure (y :: ys)
/-- Fold over a list, left to right. -/
def foldEach {α β : Type} : List α → β → (β → α → Exec β) → Exec β
  | [], b, _ => pure b
  | x :: r, b, f => do
    let c ← f b x
    foldEach r c f

/-! ### Trap causes (R152) -/

def cIllop : Nat := 0x01
def cMidConvoy : Nat := 0x02
def cConflict : Nat := 0x03
def cFrame : Nat := 0x04
def cQuota : Nat := 0x05
def cPage : Nat := 0x06
def cProt : Nat := 0x07
def cMisaligned : Nat := 0x08
def cPoison : Nat := 0x09
def cOwned : Nat := 0x0A
def cDeadline : Nat := 0x0B
def cEcall : Nat := 0x0C
def cEbreak : Nat := 0x0D
def cSealed : Nat := 0x0E
def cWorld : Nat := 0x0F
def cShape : Nat := 0x10

/-! ### Dies, cores, slots -/

/-- Die `d` of a state. -/
def State.die (s : State) (d : Nat) : DieSt := spGet DieSt.reset s.dies d
/-- The state with die `d` replaced. -/
def State.setDie (s : State) (d : Nat) (x : DieSt) : State := { s with dies := spSet s.dies d x }
/-- Core `c` of a die. -/
def DieSt.core (x : DieSt) (c : Nat) : CoreSt := spGet CoreSt.reset x.cores c
def DieSt.setCore (x : DieSt) (c : Nat) (k : CoreSt) : DieSt := { x with cores := spSet x.cores c k }
/-- Square `q` of a die. -/
def DieSt.square (x : DieSt) (q : Nat) : Square := spGet Square.reset x.squares q
def DieSt.setSquare (x : DieSt) (q : Nat) (k : Square) : DieSt := { x with squares := spSet x.squares q k }
/-- Slot `z` (0 to 3) of a core. -/
def CoreSt.slot (x : CoreSt) (z : Nat) : Slot := spGet Slot.reset x.slots z
def CoreSt.setSlot (x : CoreSt) (z : Nat) (k : Slot) : CoreSt := { x with slots := spSet x.slots z k }
/-- Core `c` of die `d`. -/
def State.core (s : State) (d c : Nat) : CoreSt := (s.die d).core c
def State.setCore (s : State) (d c : Nat) (k : CoreSt) : State := s.setDie d ((s.die d).setCore c k)
/-- Slot `z` of core `c` of die `d`. -/
def State.slotAt (s : State) (d c z : Nat) : Slot := (s.core d c).slot z
def State.setSlotAt (s : State) (d c z : Nat) (k : Slot) : State := s.setCore d c ((s.core d c).setSlot z k)
/-- The slot the current thread is bound to (for a gang, on its LEAD die). -/
def State.mySlot (s : State) : Slot := s.slotAt s.cur.place.die s.cur.place.core s.cur.place.slot
def State.setMySlot (s : State) (k : Slot) : State :=
  s.setSlotAt s.cur.place.die s.cur.place.core s.cur.place.slot k

def getDie (d : Nat) : Exec DieSt := do return (← get).die d
def setDie (d : Nat) (x : DieSt) : Exec Unit := modify fun s => s.setDie d x
def modDie (d : Nat) (f : DieSt → DieSt) : Exec Unit := modify fun s => s.setDie d (f (s.die d))
def getCore (d c : Nat) : Exec CoreSt := do return (← get).core d c
def modCore (d c : Nat) (f : CoreSt → CoreSt) : Exec Unit := modify fun s => s.setCore d c (f (s.core d c))
def modSlotAt (d c z : Nat) (f : Slot → Slot) : Exec Unit :=
  modify fun s => s.setSlotAt d c z (f (s.slotAt d c z))
def modFw (f : Firmware → Firmware) : Exec Unit := modify fun s => { s with fw := f s.fw }
def modCur (f : Thread → Thread) : Exec Unit := modify fun s => { s with cur := f s.cur }

/-- A free value: its number, which no later draw repeats (log entry 6). -/
def drawNo : Exec Nat := fun s => .ok (s.draws, { s with draws := s.draws + 1 })

/-! ### Threads and regions -/

/-- Thread `t`, the current one included. -/
def State.thread? (s : State) (t : Tid) : Option Thread :=
  if s.cur.tid = t then some s.cur else s.others.find? (fun x => x.tid == t)
/-- The state with thread `t` changed by `f`, if it exists. -/
def State.modThread (s : State) (t : Tid) (f : Thread → Thread) : State :=
  if s.cur.tid = t then { s with cur := f s.cur }
  else { s with others := s.others.map (fun x => if x.tid = t then f x else x) }
/-- All threads. -/
def State.threads (s : State) : List Thread := s.cur :: s.others
def modThread (t : Tid) (f : Thread → Thread) : Exec Unit := modify fun s => s.modThread t f
/-- The state with thread `t` in `cur`: the one that was there joins the others. -/
def State.switchTo (s : State) (t : Tid) : State :=
  if s.cur.tid = t then s
  else match s.others.find? (fun x => x.tid == t) with
    | none => s
    | some x => { s with cur := x, others := s.cur :: s.others.filter (fun y => y.tid != t) }
/-- Region `r`, if it lives. -/
def State.region? (s : State) (r : RegionId) : Option Region := s.regions.find? (fun x => x.id == r)
def State.modRegion (s : State) (r : RegionId) (f : Region → Region) : State :=
  { s with regions := s.regions.map (fun x => if x.id = r then f x else x) }
def modRegion (r : RegionId) (f : Region → Region) : Exec Unit := modify fun s => s.modRegion r f
/-- The resolved fields of a live region. -/
def State.rcb? (s : State) (r : RegionId) : Option Rcb := (s.region? r).map (·.rcb)

/-! ### Registers and places of a thread (R86, R139) -/

/-- sext(r mod 2^w, w): an exact result narrowed to `w` bits and sign-extended. -/
def narrow (w : Nat) (r : Int) : Word64 :=
  let u := (r.emod (2 ^ w : Nat)).toNat
  BitVec.ofInt 64 (if u < 2 ^ (w - 1) then (u : Int) else (u : Int) - (2 ^ w : Nat))
/-- Register `r` of a register file. -/
def regAt (v : Vector Word64 32) (r : Reg) : Word64 := v[r.toNat]'(r.isLt)
/-- Scalar register `r` of a thread: s0 reads zero. -/
def Thread.reg (t : Thread) (r : Reg) : Word64 := if r = 0#5 then 0#64 else regAt t.s r
/-- A thread with scalar register `r` written: writes to s0 are discarded. -/
def Thread.setReg (t : Thread) (r : Reg) (x : Word64) : Thread :=
  if r = 0#5 then t else { t with s := t.s.set r.toNat x r.isLt }
/-- The slots a thread is bound on: die, core and slot of each attached die, LEAD first (R86). -/
def Place.all (p : Place) : List (Nat × Nat × Nat) :=
  (p.die, p.core, p.slot) ::
    ((p.gang.filter (fun g => g.1 != p.die)).map (fun g => (g.1, g.2 / 4, g.2 % 4)))
/-- The number of dies a thread runs across. -/
def Place.dies (p : Place) : Nat := if p.gang.length ≤ 1 then 1 else p.gang.length
/-- The slots in which a thread's array state lies, in gang order: by rising die (R86). -/
def Place.shares (p : Place) : List (Nat × Nat × Nat) :=
  if p.gang.length ≤ 1 then [(p.die, p.core, p.slot)] else p.gang.map (fun g => (g.1, g.2 / 4, g.2 % 4))
/-- Write a scalar register whose result was still to come; kept aside while the thread is not bound. -/
def lateReg (t : Tid) (r : Reg) (v : Word64) : Exec Unit :=
  modThread t fun x =>
    let y := { x with pendRegs := x.pendRegs.erase r }
    if x.status = .bound ∨ x.status = .ending then y.setReg r v
    else { y with lateRegs := y.lateRegs ++ [(r, v)] }

end Sys2Proof.Machine
end

