-- ==== Sys2Proof/Machine/Memory.lean ====
section
/-!
DEFINITION. Memory: bytes and poison, the physical layout, translation, and the reads and writes of an agent of a
die, with the copies and the stamped writes of lines homed on other dies.
-/
namespace Sys2Proof.Machine

/-! ### Bytes -/

/-- What an address that nothing has written reads as (log entry 2). -/
def unlisted : Byte := 0#8
/-- The byte at `a` in a list of cells. -/
def cellGet : List Host.Cell → Nat → Byte
  | [], _ => unlisted
  | (j, v) :: r, a => if j = a then v else if a < j then unlisted else cellGet r a
/-- The list of cells without an entry at `a`. -/
def cellDel : List Host.Cell → Nat → List Host.Cell
  | [], _ => []
  | (j, w) :: r, a => if j = a then r else if a < j then (j, w) :: r else (j, w) :: cellDel r a
/-- The list of cells with value `v` listed at `a`. -/
def cellPut : List Host.Cell → Nat → Byte → List Host.Cell
  | [], a, v => [(a, v)]
  | (j, w) :: r, a, v =>
    if j = a then (a, v) :: r else if a < j then (a, v) :: (j, w) :: r else (j, w) :: cellPut r a v
/-- The list of cells after byte `v` is written at `a`: the value an unlisted address reads as is not listed. -/
def cellSet (l : List Host.Cell) (a : Nat) (v : Byte) : List Host.Cell :=
  if v = unlisted then cellDel l a else cellPut l a v
/-- The canonical form of cells: addresses strictly rising, no entry equal to what an unlisted address reads as. -/
def cellsWf : List Host.Cell → Bool
  | [] => true
  | [(_, v)] => v != unlisted
  | (j, v) :: (k, w) :: r => decide (j < k) && v != unlisted && cellsWf ((k, w) :: r)
/-- The canonical form of a rising list of Nats. -/
def risingWf : List Nat → Bool
  | [] => true
  | [_] => true
  | j :: k :: r => decide (j < k) && risingWf (k :: r)
/-- The canonical form of memory. -/
def Memory.wf (m : Memory) : Bool := cellsWf m.cells && risingWf m.poison

/-- The byte at address `a`. -/
def Memory.read (m : Memory) (a : Nat) : Byte := cellGet m.cells a
/-- `n` bytes from address `a` up. -/
def Memory.readN (m : Memory) (a : Nat) : Nat → List Byte
  | 0 => []
  | n + 1 => m.read a :: m.readN (a + 1) n
/-- Memory after one byte is written. -/
def Memory.write (m : Memory) (a : Nat) (v : Byte) : Memory := { m with cells := cellSet m.cells a v }
/-- Memory after bytes are written from address `a` up, its poison unchanged. -/
def Memory.writeRaw (m : Memory) (a : Nat) : List Byte → Memory
  | [] => m
  | v :: r => (m.write a v).writeRaw (a + 1) r
/-- The granules (address / 32) that `n` bytes from `a` lie in. -/
def granulesOf (a n : Nat) : List Nat :=
  if n = 0 then [] else (List.range ((a + n - 1) / 32 - a / 32 + 1)).map (fun i => a / 32 + i)
/-- The granules that `n` bytes from `a` replace whole. -/
def wholeGranules (a n : Nat) : List Nat :=
  (granulesOf a n).filter (fun g => decide (a ≤ 32 * g) && decide (32 * g + 32 ≤ a + n))
/-- Memory after bytes are written: a granule replaced whole loses its poison, a partial write keeps it (R398). -/
def Memory.writeN (m : Memory) (a : Nat) (v : List Byte) : Memory :=
  let w := m.writeRaw a v
  { w with poison := (wholeGranules a v.length).foldl setDel w.poison }
/-- Memory with a granule poisoned. -/
def Memory.setPoison (m : Memory) (g : Nat) : Memory := { m with poison := setAdd m.poison g }
/-- Whether the granule of address `a` is poisoned. -/
def Memory.poisoned (m : Memory) (a : Nat) : Bool := m.poison.contains (a / 32)

/-- Bytes as a number, the first lowest (R5). -/
def natOfBytes : List Byte → Nat
  | [] => 0
  | b :: r => b.toNat + 256 * natOfBytes r
/-- The low `n` bytes of a number, lowest first (R5). -/
def bytesOfNat : Nat → Nat → List Byte
  | 0, _ => []
  | n + 1, v => BitVec.ofNat 8 v :: bytesOfNat n (v / 256)

/-! ### Working units (R405 to R409) -/

/-- The current retirement table: the higher generation of the copies that verify (R405). -/
def curTable (f : Firmware) : Option RetTable :=
  if f.tabA.valid && f.tabB.valid then some (if f.tabA.gen.toNat < f.tabB.gen.toNat then f.tabB else f.tabA)
  else if f.tabA.valid then some f.tabA
  else if f.tabB.valid then some f.tabB
  else none
/-- The retired units of a kind on die `d`. -/
def retiredOf (f : Firmware) (k : UnitKind) (d : Nat) : List Nat :=
  match curTable f with
  | none => []
  | some t => (t.entries.filter (fun e => e.retired && e.kind == k && e.die == d)).map (·.unit)
/-- Bytes of DRAM in die `d`'s range (R408). -/
def dramBytes (f : Firmware) (d : Nat) : Nat := 2 ^ 37 - (retiredOf f .channel d).length * 2 ^ 27
/-- The pseudo-channel of line `l` of die `d`'s DRAM, of the channels that work (R258, R408). -/
def channelOf (f : Firmware) (d l : Nat) : Nat :=
  let gone := retiredOf f .channel d
  if gone.isEmpty then (l ^^^ (l >>> 10) ^^^ (l >>> 20)) % 1024
  else
    let works := (List.range 1024).filter (fun c => !gone.contains c)
    let w := works.length
    let q := l / w
    works.getD ((l % w + (q ^^^ (q >>> 10))) % w) 0
/-- The slice that R256 gives a physical address. -/
def sliceBits (pa : Nat) : Nat :=
  (pa >>> 7 ^^^ pa >>> 13 ^^^ pa >>> 19 ^^^ pa >>> 25 ^^^ pa >>> 31) % 64
/-- The home slice of a physical address in die `d`'s L2: that of R256, or the next above it that works (R409). -/
def sliceOf (f : Firmware) (d pa : Nat) : Nat :=
  let gone := retiredOf f .l2 d
  let s := sliceBits pa
  (((List.range 64).map (fun i => (s + i) % 64)).find? (fun i => !gone.contains i)).getD s
/-- The physical cores of die `d` that work, rising (R404, R407). -/
def workingCores (s : State) (d : Nat) : List Nat :=
  (List.range 32).filter (fun c => !(retiredOf s.fw .core d).contains c && !(s.die d).deadCores.contains c)

/-! ### Physical addresses (R257, R422) -/

/-- Where a physical address lies: a byte of this package's memory by its key, another node, or nowhere. -/
inductive Loc
  | here (key : Nat)
  | far (node : Nat)
  | nowhere
  deriving DecidableEq, Repr
/-- First key of the weight store. -/
def wsBase : Nat := 2 ^ 40
/-- Whether a key lies in a weight store. -/
def isWs (key : Nat) : Bool := decide (wsBase ≤ key)
/-- The weight-store slice of a key. -/
def wsSlice (key : Nat) : Nat := (key - wsBase) % 2 ^ 30 / 2 ^ 25
/-- The die a key is homed on (R256, R257). -/
def homeOf (key : Nat) : Nat := if isWs key then (key - wsBase) / 2 ^ 30 else key / 2 ^ 37
/-- The place of a physical address (R257, R408, R409). -/
def locate (f : Firmware) (pa : Nat) : Loc :=
  let node := pa / 2 ^ 40
  let o := pa % 2 ^ 40
  match f.m with
  | none => .far node
  | some m =>
    if node = 2 * m then
      if o % 2 ^ 37 < dramBytes f (o / 2 ^ 37) then .here o else .nowhere
    else if node = 2 * m + 1 then
      if o / 2 ^ 30 < 8 ∧ o % 2 ^ 30 < 2 ^ 29 ∧
          !(retiredOf f .wslice (o / 2 ^ 30)).contains (wsSlice (wsBase + o)) then .here (wsBase + o) else .nowhere
    else .far node
/-- The physical address of a key. -/
def paOf (f : Firmware) (key : Nat) : Nat :=
  let m := f.m.getD 0
  if isWs key then (2 * m + 1) * 2 ^ 40 + (key - wsBase) else 2 * m * 2 ^ 40 + key
/-- Whether a key lies in a secure physical region or slice (R422). -/
def secureKey (f : Firmware) (key : Nat) : Bool :=
  if isWs key then (f.part.wslc.getD (homeOf key) 0#16).getLsbD (wsSlice key)
  else f.part.preg.getLsbD (key / 2 ^ 34)
/-- The world of a weight-store slot: whether it is secure (R422). -/
def secureSlot (f : Firmware) (d slot : Nat) : Bool := (f.part.wslc.getD d 0#16).getLsbD (slot / 8)
/-- Whether the weight-store slots of a key's world take writes: they are open, and not being sealed (R261, R262). -/
def wsOpen (s : State) (key : Nat) : Bool :=
  let x := s.die (homeOf key)
  let sec := secureKey s.fw key
  (if sec then x.openSec else x.openNs) && !x.wsQueue.any (fun q => q.taken && q.sec == sec)

/-! ### The refresh schedule (R263) -/

/-- PHASE (R263). -/
def phaseOf (cycle : Nat) : Nat := cycle % 64000
/-- Cycles until slice `i`'s refresh window ends, 0 when it is not in its window. -/
def refreshLeft (cycle i : Nat) : Nat :=
  let p := phaseOf cycle
  if 4000 * i ≤ p ∧ p < 4000 * i + 2000 then 4000 * i + 2000 - p else 0

/-! ### Vector clocks (R371) -/

/-- Whether counter `a` is at least `b`, by their signed difference. -/
def clkGe (a b : Word32) : Bool := (a - b).msb == false
/-- Entry by entry maximum. -/
def clkMerge (a b : List Word32) : List Word32 := List.zipWith (fun x y => if clkGe x y then x else y) a b
/-- The pending cross-die writes from die `k` to home `h`, in send order. -/
def pendingTo (s : State) (k h : Nat) : List XWrite := s.xwrites.filter (fun w => w.src == k && w.home == h)
/-- The applied vector of die `h`: entry k is one less than the count of its first unapplied write of die k, or every
count it has been told of. -/
def appliedVec (s : State) (h : Nat) : List Word32 :=
  (List.range 8).map fun k =>
    if k = h then (s.die h).vc.getD k 0#32
    else match pendingTo s k h with
      | [] => (s.die h).known.getD k 0#32
      | w :: _ => w.stamp.getD k 0#32 - 1#32
/-- The apply test of R371 for a write of die `src` stamped `w` at home `h`. A write of the home itself is not sent: it
comes after every write its clock covers (R372). -/
def applyTest (s : State) (src h : Nat) (w : List Word32) : Bool :=
  (List.range 8).all fun j =>
    let v := if j = h then appliedVec s h else (s.die h).beacons.getD j []
    (List.range 8).all fun k =>
      clkGe (v.getD k 0#32) (if k = src ∧ src ≠ h then w.getD k 0#32 - 1#32 else w.getD k 0#32)
/-- A die's clock with its own counter raised by one (R371, Send). -/
def clkBump (v : List Word32) (d : Nat) : List Word32 := listSet v d (v.getD d 0#32 + 1#32)

/-! ### What a die has performed (R367, R373) -/

/-- Bytes from `key` up overlaid with a write: those of `w` that lie among them. -/
def overlay (key : Nat) (bytes : List Byte) (w : XWrite) : List Byte :=
  (List.range bytes.length).map fun i =>
    if w.pa ≤ key + i ∧ key + i < w.pa + w.bytes.length then w.bytes.getD (key + i - w.pa) 0#8
    else bytes.getD i 0#8
/-- The poison of granule `g`, overlaid with a write. -/
def overlayPoison (g : Nat) (p : Bool) (w : XWrite) : Bool :=
  if w.poison.contains g then true
  else if (wholeGranules w.pa w.bytes.length).contains g then false
  else p
/-- The writes die `d` has performed to a line that its home has not applied, in order. -/
def ownWrites (s : State) (d line : Nat) : List XWrite :=
  s.xwrites.filter (fun w => w.src == d && w.pa / 128 == line)
/-- `n` bytes of a line as its home holds them, overlaid with what die `d` has performed (R373). -/
def seenBytes (s : State) (d key n : Nat) : List Byte :=
  (ownWrites s d (key / 128)).foldl (overlay key) (s.mem.readN key n)
/-- The poison of granule `g` as die `d` sees it. -/
def seenPoison (s : State) (d g : Nat) : Bool :=
  (ownWrites s d (g / 4)).foldl (overlayPoison g) (s.mem.poison.contains g)
/-- Whether a write is covered by a clock; one homed on the die that performs it is, where the clock has what it follows. -/
def coveredByClk (v : List Word32) (w : XWrite) : Bool :=
  if w.src = w.home then (List.range 8).all (fun k => clkGe (v.getD k 0#32) (w.stamp.getD k 0#32))
  else clkGe (v.getD w.src 0#32) (w.stamp.getD w.src 0#32)
/-- Whether a write is covered by die `e`'s clock: its own writes are. -/
def coveredBy (s : State) (e : Nat) (w : XWrite) : Bool := (w.src == e && w.home == e) || coveredByClk (s.die e).vc w
/-- Whether every write that a clock covers has been applied at its home (R369, R370). -/
def clkApplied (s : State) (v : List Word32) : Bool := !s.xwrites.any (coveredByClk v)
/-- Whether a die's writes to its own lines that come before another of its writes have been applied (R372): those ahead of
`w` in the list, or all of them for one that is still to be performed. -/
def ownApplied (s : State) (d : Nat) (w : Option XWrite) : Bool :=
  (match w with
    | some x => s.xwrites.takeWhile (fun v => v != x)
    | none => s.xwrites).all (fun v => !(v.src == d && v.home == d))
/-- Whether every write covered by die `d`'s clock has been applied at its home (R370), so that a write homed on the die
itself can be applied as soon as it is performed (R372). -/
def coveredApplied (s : State) (d : Nat) : Bool := !s.xwrites.any (coveredBy s d)

/-! ### Translation (R265 to R267) -/

/-- A kind of access, numbered as KIND[1:0] of R393. -/
inductive Acc | read | write | atomic | fetch
  deriving DecidableEq, Repr
def accNo : Acc → Nat
  | .read => 0 | .write => 1 | .atomic => 2 | .fetch => 3
/-- The way an access takes (R248): a core's scalar L1, its instruction L1, its array data cache (unless non-temporal,
R104), none of them (an engine), or straight to the place of the line (R277, R352, R363). -/
inductive Via
  | scalar
  | fetch
  | array (nt : Bool)
  | unit
  | home
  deriving DecidableEq, Repr
/-- Who makes an access, and for what: the agent, the thread whose translation it uses, the die it runs on, the core, the
way it takes, its world, what a page fault is charged to, the KIND bits 2 and 3 of its fault entries, and the slot on the
die that they name. -/
structure Ctx where
  who : Agent
  tid : Tid
  die : Nat
  core : Nat
  via : Via
  sec : Bool
  what : FaultFor
  kindHi : Nat
  slot : Nat
  deriving DecidableEq, Repr
/-- The context of a thread's own accesses. -/
def Thread.ctx (t : Thread) : Ctx :=
  { who := .thread t.tid, tid := t.tid, die := t.place.die, core := t.place.core, via := .scalar
    sec := t.tid.region.sec, what := .stall, kindHi := 0, slot := 4 * t.place.core + t.place.slot }
/-- The context of the current thread's own accesses. -/
def State.ctx (s : State) : Ctx := s.cur.ctx
/-- The context whose accesses go straight to the place of the line. -/
def Ctx.atHome (c : Ctx) : Ctx := { c with via := .home }

/-- V, T and the reserved bits of an entry as its level needs them (R265); the MSA of a page or block counts as invalid
while feature 4 is not in force (R421), and the attributes of a table entry are ignored. -/
def entryOk (f : Firmware) (level : Nat) (e : Word64) : Bool :=
  e.getLsbD 0 && e.extractLsb' 52 12 == 0#12 && e.extractLsb' 8 8 == 0#8 &&
  (match level with
    | 1 => e.getLsbD 1
    | 2 => e.getLsbD 1 || e.extractLsb' 16 13 == 0#13
    | _ => !e.getLsbD 1) &&
  (!e.getLsbD 5 || f.inForce.getLsbD 4 || e.getLsbD 1)
/-- Bits [51:16] of an entry as a physical address. -/
def entryPa (e : Word64) : Nat := (e.extractLsb' 16 36).toNat * 65536
/-- Why a walk does not end with an entry: the level found invalid, an entry that another node must send first, one it has
answered with an error, or one that must wait (R263, R415). -/
inductive WalkStop
  | invalid (level : Nat)
  | ask (q : LinkReq)
  | waits
  | error
  deriving DecidableEq, Repr
/-- The 8 bytes of a table entry at a place of this package, as the L2 of its home die has them (R266). -/
def entryAt (s : State) (key : Nat) : Word64 := BitVec.ofNat 64 (natOfBytes (seenBytes s (homeOf key) key 8))
/-- A table entry, read through the L2 of its home die, or asked of another node (R266, R415). -/
def tableEntry (s : State) (w : Agent) (base idx : Nat) : Except WalkStop Word64 :=
  let pa := base + 8 * idx
  match locate s.fw pa with
  | .here key => if isWs key && refreshLeft s.cycle (wsSlice key) != 0 then .error .waits else .ok (entryAt s key)
  | .nowhere => .ok 0#64
  | .far _ =>
    match s.fw.remotes.find? (fun r => r.who == w && r.req == .read pa 8) with
    | some r =>
      match r.reply with
      | some (.data b _) => .ok (BitVec.ofNat 64 (natOfBytes b))
      | some .error => .error .error
      | none => .error .waits
    | none => .error (.ask (.read pa 8))
/-- The entry of a level, if it is valid (R265). -/
def levelEntry (s : State) (w : Agent) (level base idx : Nat) : Except WalkStop Word64 := do
  let e ← tableEntry s w base idx
  if entryOk s.fw level e then .ok e else .error (.invalid level)
/-- A page-table walk for agent `w`: the final entry and the page's size in bits, or why there is none (R265). -/
def walk (s : State) (w : Agent) (sec : Bool) (va : Nat) : Except WalkStop (Word64 × Nat) :=
  match if sec then s.fw.tableSec else s.fw.tableNs with
  | none => .error (.invalid 1)
  | some base => do
    let e1 ← levelEntry s w 1 base (va / 2 ^ 42 % 8192)
    let e2 ← levelEntry s w 2 (entryPa e1) (va / 2 ^ 29 % 8192)
    if !e2.getLsbD 1 then return (e2, 29)
    else
      let e3 ← levelEntry s w 3 (entryPa e2) (va / 2 ^ 16 % 8192)
      return (e3, 16)

/-- The translation of an address that a TLB holds. -/
def tlbFind (l : List TlbEnt) (sec : Bool) (va : Nat) : Option TlbEnt :=
  l.find? (fun t => t.sec == sec && t.vpn == va / 2 ^ t.bits)
/-- Whether an access goes through a core's TLB: an engine of the die has the die's alone (R266). -/
def Ctx.coreTlb (c : Ctx) : Bool := c.via != .unit && !(c.via == .home && c.what.isEngine)
/-- The cached translation an access finds: its core's, or its die's. -/
def cachedEntry (s : State) (c : Ctx) (va : Nat) : Option TlbEnt :=
  (if c.coreTlb then tlbFind (s.core c.die c.core).tlb c.sec va else none).orElse
    fun _ => tlbFind (s.die c.die).tlb c.sec va
/-- A TLB of `n` entries with one more, the newest first. -/
def tlbPut (n : Nat) (t : TlbEnt) (l : List TlbEnt) : List TlbEnt := if l.contains t then l else (t :: l).take n
/-- The state with a translation cached for an access: 2048 entries in a core, 65,536 in a die (R266). -/
def tlbFill (c : Ctx) (t : TlbEnt) (s : State) : State :=
  let x := s.die c.die
  let y := if c.coreTlb then
      let k := x.core c.core
      x.setCore c.core { k with tlb := tlbPut 2048 t k.tlb }
    else x
  s.setDie c.die { y with tlb := tlbPut 65536 t y.tlb }
/-- The translation an access uses: of a cached one and a fresh walk that differ, either (R266, log entry 7). -/
def translation (c : Ctx) (va : Nat) : Exec (Except WalkStop (Word64 × Nat)) := do
  let s ← get
  let fresh := walk s c.who c.sec va
  match cachedEntry s c va with
  | some t =>
    if fresh.toOption = some (t.entry, t.bits) then return fresh
    else
      let n ← drawNo
      return if Config.usesOldTranslation n then .ok (t.entry, t.bits) else fresh
  | none =>
    match fresh with
    | .ok (e, b) =>
      modify (tlbFill c { sec := c.sec, vpn := va / 2 ^ b, bits := b, entry := e })
      return fresh
    | .error l => return .error l

/-- A translated access: its physical address, place and attributes. -/
structure Xlat where
  pa : Nat
  loc : Loc
  msa : Bool
  sh : Bool
  deriving DecidableEq, Repr
/-- The address that the granules of a translated access are numbered by: its key here, its physical address elsewhere. -/
def Xlat.place (x : Xlat) : Nat :=
  match x.loc with
  | .here key => key
  | _ => x.pa
/-- Whether the entry permits the access (R267). -/
def permits (e : Word64) : Acc → Bool
  | .read => e.getLsbD 2
  | .write => e.getLsbD 3
  | .atomic => e.getLsbD 2 && e.getLsbD 3
  | .fetch => e.getLsbD 4
/-- The page fault of an access: level `l` of the walk is invalid (R393). -/
def Ctx.fault (c : Ctx) (acc : Acc) (va : Word64) (l : Nat) : PageFault :=
  { tid := c.tid, die := c.die, slot := c.slot, va := va, tval := va, level := l, kind := accNo acc + c.kindHi, what := c.what }
/-- Whether a page has come back unresolvable for this engine work, so that its access fails (R395). -/
def unresolvable (s : State) (c : Ctx) (page : Nat) : Bool := s.unres.contains (c.tid, page, c.what)
/-- Whether the fault entry of this engine work for a page is still out: the access is held until it returns (R394). -/
def entryOut (s : State) (c : Ctx) (page : Nat) : Bool :=
  s.dies.any fun (_, x) => x.faults.any fun f => f.tid == c.tid && f.what == c.what && f.va.toNat / 65536 == page
/-- Whether a page is a target of a shadow whose new bytes are on their way to another node: accesses to it wait, so that
they see all of its contents change at once (R312). -/
def beingPublished (s : State) (sec : Bool) (page : Nat) : Bool :=
  s.dies.any fun (_, x) => x.shadows.any fun k => k.publishing && k.region.sec == sec && k.pages.contains page
/-- Whether a place lies in a secure physical region or slice of this package (R422). -/
def Loc.secure (f : Firmware) : Loc → Bool
  | .here key => secureKey f key
  | _ => false
/-- The checks of R257, R259, R261, R267, R415 and R422 on one address, in order. -/
def translate (c : Ctx) (acc : Acc) (va : Word64) : Exec Xlat := do
  check (va.extractLsb' 55 9 == 0#9) (.trap cProt 0 va)
  let a := va.toNat
  let s0 ← get
  check (!(c.what.isEngine && unresolvable s0 c (a / 65536))) (.trap cPage 0 va)
  check (!(c.what.isEngine && entryOut s0 c (a / 65536))) .wait
  match ← translation c a with
  | .error .waits => stop .wait
  | .error .error => trapNow cProt va
  | .error (.ask q) => stop (.remote [(c.who, q)])
  | .error (.invalid l) => stop (.faults [c.fault acc va l])
  | .ok (e, b) =>
    let pa := entryPa e + a % 2 ^ b
    let s ← get
    let loc := locate s.fw pa
    check (c.sec || !(e.getLsbD 6 || loc.secure s.fw)) (.trap cWorld 0 va)
    check (permits e acc) (.trap cProt 0 va)
    check (!beingPublished s c.sec (a / 65536)) .wait
    match loc with
    | .nowhere => trapNow cProt va
    | .far n =>
      check (acc != .fetch) (.trap cProt 0 va)
      return { pa := pa, loc := .far n, msa := e.getLsbD 5, sh := e.getLsbD 7 }
    | .here key =>
      check (acc != .fetch || !e.getLsbD 5) (.trap cProt 0 va)
      check (acc != .atomic || !isWs key) (.trap cProt 0 va)
      check (acc != .write || !isWs key || wsOpen s key) (.trap cSealed 0 va)
      return { pa := pa, loc := .here key, msa := e.getLsbD 5, sh := e.getLsbD 7 }

/-! ### Caches (R248, R253 to R256) -/

/-- The most lines a scalar L1 holds: 64 KiB. -/
def l1Lines : Nat := 512
/-- Lines of a bank of the array data cache. -/
def bankLines : Nat := 256
/-- A list without its entry number `n`. -/
def dropAt {α : Type} (n : Nat) (l : List α) : List α := l.take n ++ l.drop (n + 1)
/-- The scalar data L1 after an access to a line. -/
def l1Put (line : Nat) (write : Bool) (l : List L1Line) : List L1Line :=
  let old := l.any (fun x => x.line == line && x.dirty)
  ({ line := line, dirty := write || old } :: l.filter (fun x => x.line != line)).take l1Lines
/-- The bank that takes a line new to a core's array data cache: which of the cache banks is free (log entry 40). -/
def CoreSt.bankFor (k : CoreSt) (line : Nat) : Nat := k.banks + Config.freeBank line % (64 - k.banks)
/-- The array data cache after an access to a line; of a full bank the line `free` names leaves (log entry 40). -/
def CoreSt.adcPut (k : CoreSt) (line : Nat) (write : Bool) (free : Nat) : List AdcLine :=
  match k.adc.find? (fun x => x.line == line) with
  | some x => { x with dirty := x.dirty || write } :: k.adc.filter (fun y => y.line != line)
  | none =>
    let b := k.bankFor line
    let mates := k.adc.filter (fun y => y.bank == b)
    let gone := if mates.length < bankLines then none else mates[free % bankLines]?
    { line := line, bank := b, dirty := write } :: k.adc.filter (fun y => some y != gone)
/-- A core's caches after an access of its own: array accesses bypass the scalar L1, which first writes back a dirty line
that they read and drops one that they write (R253). -/
def CoreSt.touch (k : CoreSt) (via : Via) (line : Nat) (write : Bool) (free : Nat) : CoreSt :=
  match via with
  | .scalar => { k with l1d := l1Put line write k.l1d }
  | .fetch => { k with l1i := (line :: k.l1i.filter (· != line)).take l1Lines }
  | .array nt =>
    { k with
      l1d := if write then k.l1d.filter (fun x => x.line != line)
        else k.l1d.map (fun x => if x.line = line then { x with dirty := false } else x)
      adc := if nt then k.adc else k.adcPut line write free }
  | _ => k
/-- A core's caches once an engine has accessed a line (R253). -/
def CoreSt.yieldLine (k : CoreSt) (line : Nat) (write : Bool) : CoreSt :=
  { k with l1d := if write then k.l1d.filter (fun x => x.line != line)
      else k.l1d.map (fun x => if x.line = line then { x with dirty := false } else x) }
/-- A die's cores once a line has been written: no instruction L1 holds it any more (R254). -/
def dropFetched (line : Nat) (l : Sparse CoreSt) : Sparse CoreSt :=
  l.map (fun (i, k) => (i, if k.l1i.contains line then { k with l1i := k.l1i.filter (· != line) } else k))
/-- Way groups of a die's L2 that belong to a world (R256, R422). -/
def wayGroups (f : Firmware) (d : Nat) (sec : Bool) : Nat :=
  ((List.range 4).filter (fun i => (f.part.ways.getD d 0#8).getLsbD i == sec)).length
/-- The slice of a die's L2 that a line lies in, and its set there; which of the 1536 sets is open (log entry 40). -/
def l2Place (f : Firmware) (d line : Nat) : Nat × Nat := (sliceOf f d (paOf f (128 * line)), Config.l2Set line % 1536)
/-- A die's L2 after an access to a line by a world: of the ways of a full set that are that world's, the line that `free`
picks leaves; a world without a way group allocates none (R256). -/
def l2Put (f : Firmware) (d line : Nat) (sec : Bool) (free : Nat) (l : List L2Line) : List L2Line :=
  let n := 4 * wayGroups f d sec
  match l.find? (fun x => x.line == line) with
  | some x => x :: l.filter (fun y => y.line != line)
  | none =>
    if n = 0 then l
    else if l.length < n then { line := line, sec := sec } :: l
    else
      let mates := l.filter (fun y => y.sec == sec && l2Place f d y.line == l2Place f d line)
      let gone := if mates.length < n then none else mates[free % n]?
      { line := line, sec := sec } :: l.filter (fun y => some y != gone)
/-- Whether an access leaves its line in L2: one that is non-temporal, or goes straight to the line's place, does not
(R104, R277). -/
def Via.inL2 : Via → Bool
  | .array nt => !nt
  | .home => false
  | _ => true
/-- The state after an access to a line that is not memory-side, as far as the caches of its die go. -/
def touched (c : Ctx) (line : Nat) (write : Bool) (free : Nat) (s : State) : State :=
  let x := s.die c.die
  let y := if c.via = .unit ∨ c.via = .home then
      { x with cores := x.cores.map (fun (i, k) => (i, if k.l1d.any (fun z => z.line == line) then k.yieldLine line write else k)) }
    else x.setCore c.core ((x.core c.core).touch c.via line write free)
  let z := if write then { y with cores := dropFetched line y.cores } else y
  s.setDie c.die (if c.via.inL2 then
    { z with l2 := l2Put s.fw c.die line c.sec (Config.freeWay s.cycle line) z.l2 } else z)
/-- The caches of a die take part in an access to a line that is not memory-side. -/
def touchLine (c : Ctx) (line : Nat) (write : Bool) : Exec Unit := do
  let n ← if c.via = .array false then drawNo else pure 0
  modify (touched c line write (Config.freeEvicts n))
/-- Whether a core's caches hold a line for an access that goes this way. -/
def CoreSt.holds (k : CoreSt) (line : Nat) : Via → Bool
  | .scalar => k.l1d.any (fun x => x.line == line)
  | .fetch => k.l1i.contains line
  | .array _ => k.adc.any (fun x => x.line == line)
  | _ => false
/-! ### Reads and writes of a die (R367, R370, R371) -/

/-- A die that owes a beacon: what it would tell changed in cycle `now`, if it did not owe one before (R371). -/
def DieSt.owe (x : DieSt) (now : Nat) : DieSt := if x.clockMoved then x else { x with clockMoved := true, movedAt := now }
/-- A die with its clock replaced; a clock that changes is to be told within 256 cycles (R371). -/
def DieSt.setClock (x : DieSt) (vc : List Word32) (now : Nat) : DieSt :=
  if vc = x.vc then x else { x with vc := vc }.owe now
/-- Die `d` hears the clock of a home, carried by a fill or a reply (R371). -/
def hearClock (d h : Nat) : Exec Unit := modify fun s =>
  s.setDie d ((s.die d).setClock (clkMerge (s.die d).vc (s.die h).vc) s.cycle)
/-- The copy of a line that an access finds: at most 65,536 cycles old (R370), in L2 or in the core's own cache. -/
def freshCopy (s : State) (c : Ctx) (line : Nat) : Option LineCopy :=
  (s.die c.die).copies.find? (fun k => k.line == line && decide (s.cycle ≤ k.filled + 65536) &&
    ((s.die c.die).l2.any (fun x => x.line == line) || (s.core c.die c.core).holds line c.via))
/-- A line as its home and the die's own writes have it now. -/
def newCopy (s : State) (c : Ctx) (line : Nat) : LineCopy :=
  { line := line, bytes := seenBytes s c.die (128 * line) 128
    poison := (List.range 4).map (fun i => seenPoison s c.die (4 * line + i)), filled := s.cycle }
/-- The home die's L2 after it has served a line to another die (R256). -/
def homeTouched (c : Ctx) (line : Nat) (s : State) : State :=
  let h := homeOf (128 * line)
  s.setDie h { s.die h with l2 := l2Put s.fw h line c.sec (Config.freeWay s.cycle line) (s.die h).l2 }
/-- Fetch a line from its home: the reply carries the home's clock (R371), and what other caches of the die hold of the line
is brought up to it. -/
def fillCopy (c : Ctx) (line : Nat) : Exec LineCopy := do
  let k := newCopy (← get) c line
  modDie c.die fun x => { x with copies := k :: x.copies.filter (fun y => y.line != line) }
  modify (homeTouched c line)
  hearClock c.die (homeOf (128 * line))
  return k
/-- The copy an access reads a line through: a fresh one, or one filled now. -/
def copyFor (c : Ctx) (line : Nat) : Exec LineCopy := do
  match freshCopy (← get) c line with
  | some k => return k
  | none => fillCopy c line
/-- Whether an agent of die `d` reaches the line of a key directly: it is homed there, or memory-side (R259). -/
def direct (d key : Nat) (msa : Bool) : Bool := msa || homeOf key == d
/-- The poisoned granules that `n` bytes from `key` lie in, as die `d` sees them. -/
def poisonSeen (s : State) (d key n : Nat) : List Nat := (granulesOf key n).filter (seenPoison s d)
/-- The poisoned granules of memory that `n` bytes from `key` lie in. -/
def poisonHere (s : State) (key n : Nat) : List Nat := (granulesOf key n).filter (fun g => s.mem.poison.contains g)
/-- `n` bytes at a key, within one line, read at the line's own place once this die's writes to it have been applied, and
the poisoned granules they lie in. The die hears the home's clock and reads nothing older after it (R361, R373). -/
def readHome (c : Ctx) (key n : Nat) : Exec (List Byte × List Nat) := do
  let s ← get
  check (ownWrites s c.die (key / 128)).isEmpty .wait
  touchLine c (key / 128) false
  whenB (!isWs key) (modify (homeTouched c (key / 128)))
  if homeOf key != c.die then
    modDie c.die fun x => { x with copies := x.copies.filter (fun k => k.line != key / 128) }
    hearClock c.die (homeOf key)
  return (s.mem.readN key n, poisonHere s key n)
/-- `n` bytes at a key, within one line, as an access reads them, and the poisoned granules they lie in. -/
def readLine (c : Ctx) (key n : Nat) (msa : Bool) : Exec (List Byte × List Nat) := do
  let s ← get
  if msa then return (s.mem.readN key n, poisonHere s key n)
  else if c.via = .home then readHome c key n
  else if homeOf key = c.die then
    touchLine c (key / 128) false
    return (seenBytes s c.die key n, poisonSeen s c.die key n)
  else
    let k ← copyFor c (key / 128)
    touchLine c (key / 128) false
    return ((k.bytes.drop (key % 128)).take n, (granulesOf key n).filter (fun g => k.poison.getD (g % 4) false))
/-- A location that a `mon` waits on, once memory has been written: the first value that differs from the one compared with
is what it returns (R361). -/
def Watch.note (m : Memory) (w : Watch) : Watch :=
  match w.now with
  | some _ => w
  | none =>
    let v := natOfBytes (m.readN w.key w.n)
    if v = w.was then w else { w with now := some v }
/-- The state with its memory written: every `mon` that waits sees each value a location takes (R361). -/
def State.setMem (s : State) (m : Memory) : State := { s with mem := m, watches := s.watches.map (Watch.note m) }
/-- Bytes at a key written at the line's own place, a line of a die's DRAM or weight store. -/
def landBytes (key : Nat) (bytes : List Byte) (bad : List Nat) (s : State) : State :=
  s.setMem (bad.foldl Memory.setPoison (s.mem.writeN key bytes))
/-- Whether die `d` may perform a write at a key now: of the writes performed in one cycle the lower addresses come first
(R367), so that one below what an earlier turn of the cycle has written waits for the next cycle. -/
def rankOk (s : State) (d key : Nat) : Bool := (s.die d).rank.1 != s.cycle || decide ((s.die d).rank.2 ≤ key)
/-- A die that has performed a write at a key in cycle `now`. -/
def DieSt.noteRank (x : DieSt) (now key : Nat) : DieSt :=
  { x with top := (now, if x.top.1 = now then max x.top.2 key else key) }
/-- A die at the end of a turn. -/
def DieSt.closeRank (x : DieSt) : DieSt := if x.rank = x.top then x else { x with rank := x.top }
/-- The state at the end of a turn: what it has written ranks before what is written after it (R367). -/
def State.closeRanks (s : State) : State := { s with dies := s.dies.map (fun (d, x) => (d, x.closeRank)) }
/-- The other dies that a thread's array work runs on (R86). -/
def otherDies (s : State) (t : Option Tid) (d : Nat) : List Nat :=
  match t.bind s.thread? with
  | some x => (x.place.all.map (·.1)).filter (· != d)
  | none => []
/-- The state in which the other dies of a gang thread have dropped their copies of a line that it has written from die `d`:
the thread's later accesses there see its own write (R289). -/
def dropShared (t : Option Tid) (d line : Nat) (s : State) : State :=
  (otherDies s t d).foldl (fun u e =>
    u.setDie e { u.die e with copies := (u.die e).copies.filter (fun k => k.line != line) }) s
/-- Whether a write of die `d` at a key is applied as it is performed: the line is memory-side, or homed on the die, and
every write that causally precedes it has been applied (R372). -/
def landsNow (s : State) (d key : Nat) (msa : Bool) : Bool := msa || (homeOf key == d && coveredApplied s d)
/-- A copy of a line overlaid with a write of its own die. -/
def LineCopy.take (k : LineCopy) (w : XWrite) : LineCopy :=
  if k.line = w.pa / 128 then
    { k with bytes := overlay (128 * k.line) k.bytes w
             poison := (List.range 4).map (fun i => overlayPoison (4 * k.line + i) (k.poison.getD i false) w) }
  else k
/-- A write of die `d` is performed in the die, and is to be applied at its home later; one homed on another die is
stamped and sent there (R370, R371). -/
def sendWrite (d : Nat) (t : Option Tid) (key : Nat) (bytes : List Byte) (bad : List Nat) (s : State) : State :=
  let x := s.die d
  let h := homeOf key
  let y := if h = d then x else x.setClock (clkBump x.vc d) s.cycle
  let w : XWrite := { src := d, home := h, stamp := y.vc, tid := t, pa := key, bytes := bytes, poison := bad }
  { s.setDie d { y with copies := y.copies.map (fun k => k.take w) } with xwrites := s.xwrites ++ [w] }
/-- Die `d` performs a write (R367). -/
def performWrite (d : Nat) (t : Option Tid) (key : Nat) (bytes : List Byte) (bad : List Nat) (msa : Bool) (s : State) :
    State :=
  let u := s.setDie d ((s.die d).noteRank s.cycle key)
  if landsNow u d key msa then landBytes key bytes bad (dropShared t d (key / 128) u) else sendWrite d t key bytes bad u
/-- Write bytes at a key, within one line; `bad` lists granules written poisoned. -/
def writeLine (c : Ctx) (key : Nat) (bytes : List Byte) (bad : List Nat) (msa : Bool) : Exec Unit := do
  check (rankOk (← get) c.die key) .wait
  whenB (!msa) (touchLine c (key / 128) true)
  modify (performWrite c.die (some c.tid) key bytes bad msa)

/-- Entries put in the order of their keys, those of one key in the order they stand. -/
def sortByKey {α : Type} (l : List (Nat × α)) : List (Nat × α) :=
  l.foldr (fun x r => r.takeWhile (fun y => decide (y.1 < x.1)) ++ x :: r.dropWhile (fun y => decide (y.1 < x.1))) []
/-- The pieces of an access of `n` bytes from `a`, none across a 128-byte line: address and length, by a bound on
their number. -/
def pieces : Nat → Nat → Nat → List (Nat × Nat)
  | 0, _, _ => []
  | f + 1, a, n =>
    if n = 0 then []
    else
      let k := min n (128 - a % 128)
      (a, k) :: pieces f (a + k) (n - k)
/-- The pieces of an access of `n` bytes from `a`. -/
def piecesOf (a n : Nat) : List (Nat × Nat) := pieces (n / 128 + 2) a n

/-- The reply to a request this agent sent before, if it has come; posts the request otherwise (R415). -/
def remoteAsk (c : Ctx) (q : LinkReq) : Exec LinkReply := do
  let s ← get
  match s.fw.remotes.find? (fun r => r.who == c.who && r.req == q) with
  | some r =>
    match r.reply with
    | some y => return y
    | none => stop .wait
  | none => stop (.remote [(c.who, q)])
/-- The replies to several requests, all of them sent before any is waited for. -/
def remoteAll (c : Ctx) (qs : List LinkReq) : Exec (List LinkReply) := do
  let s ← get
  let sent := fun q => s.fw.remotes.find? (fun r => r.who == c.who && r.req == q)
  let new := qs.filter (fun q => (sent q).isNone)
  if !new.isEmpty then stop (.remote (new.map (fun q => (c.who, q))))
  else mapEach qs fun q => match (sent q).bind (·.reply) with
    | some y => pure y
    | none => stop .wait
/-- Wait while the slice of a weight-store key is in its refresh window (R263). -/
def waitRefresh (c : Ctx) (key : Nat) : Exec Unit := do
  let s ← get
  let left := refreshLeft s.cycle (wsSlice key)
  check (!isWs key || left == 0) (if c.what.isEngine then .refresh left else .wait)

/-! ### Stores and loads that are held back (R368) -/

/-- The die performs a held store of a thread; no instruction L1 of the die holds its line after it (R254). -/
def performStore (h : HeldStore) (s : State) : State :=
  let x := s.die h.die
  performWrite h.die (some h.tid) h.key h.bytes h.poison h.msa
    ({ s with stores := s.stores.erase h }.setDie h.die { x with cores := dropFetched (h.key / 128) x.cores })
/-- A held load of a thread is performed: it reads what its die now has there. -/
def performLoad (h : HeldLoad) : Exec Unit := do
  modify fun s => { s with loads := s.loads.erase h }
  match (← get).thread? h.tid with
  | none => pure ()
  | some t =>
    let (b, bad) ← readLine t.ctx h.key h.n h.msa
    lateReg h.tid h.reg (narrow (8 * h.n) ((if bad.isEmpty then natOfBytes b else h.was : Nat)))
/-- Held stores are performed together: those of the lower lines first (R367), those of one line in their order. -/
def performEach (l : List HeldStore) : Exec Unit :=
  forEach (sortByKey (l.map (fun h => (h.key / 128, h)))) fun (_, h) => do
    check (rankOk (← get) h.die h.key) .wait
    modify (performStore h)
/-- Held stores of a thread at the keys that `p` picks are performed. -/
def performStores (t : Tid) (p : Nat → Bool) : Exec Unit := do
  performEach ((← get).stores.filter (fun h => h.tid == t && p h.key))
/-- Held loads of a thread at the keys that `p` picks are performed. -/
def performLoads (t : Tid) (p : Nat → Bool) : Exec Unit := do
  forEach ((← get).loads.filter (fun h => h.tid == t && p h.key)) performLoad
/-- What a thread has had held back at the keys that `p` picks is performed. Of one line it never has both a store and a load
held back (R289). -/
def performHeld (t : Tid) (p : Nat → Bool) : Exec Unit := do
  performStores t p
  performLoads t p
/-- A thread's accesses to the same line take effect in program order (R289). -/
def performLine (c : Ctx) (key : Nat) : Exec Unit := performHeld c.tid (fun k => k / 128 == key / 128)
/-- A load of the current thread that is held back: the die performs it later. -/
def holdLoad (h : HeldLoad) : Exec Unit := modify fun s =>
  { s with loads := s.loads ++ [h], cur := { s.cur with pendRegs := h.reg :: s.cur.pendRegs } }

/-- Wait while a top-k insert of the thread itself into these bytes is pending (R342). -/
def waitInserts (c : Ctx) (key n : Nat) : Exec Unit := do
  let s ← get
  check (c.what.isEngine ||
    !s.topks.any (fun k => k.tid == c.tid && decide (k.key < key + n) && decide (key < k.key + 16))) .wait
/-- Translate every piece of an access before any of them is made. -/
def translatePieces (c : Ctx) (acc : Acc) (va : Word64) (n : Nat) : Exec (List (Nat × Nat × Xlat)) :=
  mapEach (piecesOf va.toNat n) fun (a, k) => do
    let x ← translate c acc (BitVec.ofNat 64 a)
    return (a, k, x)
/-- Whether an access is of a thread's own instruction. -/
def Ctx.own (c : Ctx) : Bool :=
  match c.who with
  | .thread _ | .vp _ _ | .elem _ _ => true
  | _ => false
/-- Wait while a write that the thread has made from another die of its gang to some of these bytes has not reached its home
(R289); the VPs of an `each` are not ordered against each other (R214). -/
def waitShares (c : Ctx) (key n : Nat) : Exec Unit := do
  let s ← get
  let own := match c.who with
    | .thread _ | .elem _ _ => true
    | _ => false
  check (!(own && s.xwrites.any (fun w => w.tid == some c.tid && w.src != c.die &&
    decide (w.pa < key + n) && decide (key < w.pa + w.bytes.length)))) .wait
/-- The keys at which a table at `base` may hold an entry of its own: those that memory lists, or that a write on its way to
memory reaches. -/
def tableKeys (s : State) (base : Nat) : List Nat :=
  match locate s.fw base with
  | .here b => (s.mem.cells.map (·.1) ++ s.xwrites.flatMap (fun w => (List.range w.bytes.length).map (w.pa + ·))).filter
      (fun a => decide (b ≤ a) && decide (a < b + 65536) && a % 8 == 0)
  | _ => []
/-- The valid entries of a table of this package, at its level (R265). -/
def tableEntries (s : State) (level base : Nat) : List Word64 :=
  ((tableKeys s base).map (entryAt s)).filter (entryOk s.fw level)
/-- The pages that a world's tables map, each with its size in bits. -/
def mappings (s : State) (base : Nat) : List (Word64 × Nat) :=
  (tableEntries s 1 base).flatMap fun e1 => (tableEntries s 2 (entryPa e1)).flatMap fun e2 =>
    if e2.getLsbD 1 then (tableEntries s 3 (entryPa e2)).map (fun e3 => (e3, 16)) else [(e2, 29)]
/-- The translations in force: those that the tables of this package give, and those that a TLB still holds. -/
def allMappings (s : State) : List (Word64 × Nat) :=
  (s.fw.tableNs.toList ++ s.fw.tableSec.toList).flatMap (mappings s) ++
  s.dies.flatMap (fun (_, x) => (x.tlb ++ x.cores.flatMap (fun (_, k) => k.tlb)).map (fun t => (t.entry, t.bits)))
/-- Whether some translation maps the physical page of an access with the other value of MSA (R375). -/
def mixedPage (s : State) (pa : Nat) (msa : Bool) : Bool :=
  (allMappings s).any fun (e, b) => e.getLsbD 5 != msa && decide (entryPa e / 2 ^ b = pa / 2 ^ b)
/-- A free byte of each of `n` places (log entries 15 and 39). -/
def freeBytes (n : Nat) : Exec (List Byte) := mapEach (List.range n) fun _ => do return Config.freeByte (← drawNo)
/-- The addresses of granules of an access at `a`, given as those of its place. -/
def granAddrs (a : Nat) (x : Xlat) (l : List Nat) : List Nat := l.map (fun g => 32 * (a / 32 + g - x.place / 32))
/-- What is asked of another node for `k` bytes at an address, all of one line: a window of the gather/scatter unit asks once
for each line (R283). -/
def Ctx.farSpan (c : Ctx) (pa k : Nat) : Nat × Nat :=
  match c.who with
  | .elem _ _ => (pa / 128 * 128, 128)
  | _ => (pa, k)
/-- Read one translated piece: its bytes, and the addresses of the poisoned granules among them. A page that is mapped both
memory-side and not reads as anything (R375, log entry 39). -/
def readPiece (c : Ctx) (a k : Nat) (x : Xlat) : Exec (List Byte × List Nat) := do
  match x.loc with
  | .nowhere => trapNow cProt (BitVec.ofNat 64 a)
  | .far _ =>
    let (pa, n) := c.farSpan x.pa k
    match ← remoteAsk c (.read pa n) with
    | .data b p => return ((b.drop (x.pa - pa)).take k, granAddrs a x (p.filter (granulesOf x.pa k).contains))
    | .error => trapNow cProt (BitVec.ofNat 64 a)
  | .here key =>
    waitRefresh c key
    waitInserts c key k
    whenB c.own (performLine c key)
    waitShares c key k
    let (b, bad) ← readLine c key k x.msa
    if mixedPage (← get) x.pa x.msa then return (← freeBytes k, granAddrs a x bad) else return (b, granAddrs a x bad)
/-- Read `n` bytes at a virtual address: the bytes, and the addresses of the poisoned granules among them. -/
def readVa (c : Ctx) (acc : Acc) (va : Word64) (n : Nat) : Exec (List Byte × List Nat) := do
  let ps ← translatePieces c acc va n
  foldEach ps ([], []) fun (done, bad) (a, k, x) => do
    let (b, p) ← readPiece c a k x
    return (done ++ b, bad ++ p)
/-- Read `n` bytes at a virtual address; a poisoned granule traps 0x09 with TVAL the address given (R144). -/
def loadVa (c : Ctx) (acc : Acc) (va : Word64) (n : Nat) : Exec (List Byte) := do
  let (b, bad) ← readVa c acc va n
  check bad.isEmpty (.trap cPoison 0 va)
  return b
/-- Whether a scalar load of the current thread can be held back (R368): its bytes lie in one line of this package's DRAM,
unpoisoned, no earlier store of the thread to the line is held, and the page has one MSA. -/
def heldLoad (s : State) (c : Ctx) (n : Nat) (x : Xlat) : Option Nat :=
  match x.loc with
  | .here key =>
    let b := if x.msa then s.mem.readN key n else seenBytes s c.die key n
    let bad := if x.msa then poisonHere s key n else poisonSeen s c.die key n
    if !isWs key && bad.isEmpty && !mixedPage s x.pa x.msa &&
        !s.stores.any (fun h => h.tid == c.tid && h.key / 128 == key / 128) then some (natOfBytes b) else none
  | _ => none
/-- An access whose traps name address `va`; a page fault that cannot be resolved names its own (R395). -/
def named {α : Type} (va : Word64) (x : Exec α) : Exec α := fun s =>
  match x s with
  | .error (.trap c ax v) => .error (.trap c ax (if c = cPage then v else va))
  | .error (.faults fs) => .error (.faults (fs.map (fun f => { f with tval := va })))
  | r => r
/-- Load `n` bytes into a scalar register of the current thread, or hold the load back: it answers the number where it has
been performed. -/
def loadReg (c : Ctx) (d : Reg) (va : Word64) (n : Nat) : Exec (Option Nat) := do
  let s ← get
  let r ← if s.holding && s.runner == .thread && d != 0#5 then attempt (translatePieces c .read va n) else pure (.ok [])
  match r with
  | .ok [(_, _, x)] =>
    match heldLoad s c n x, x.loc with
    | some was, .here key =>
      waitInserts c key n
      waitShares c key n
      check (!s.cur.pendRegs.contains d) .wait
      holdLoad { tid := c.tid, reg := d, key := key, n := n, msa := x.msa, was := was }
      return none
    | _, _ => return some (natOfBytes (← loadVa c .read va n))
  | _ => return some (natOfBytes (← loadVa c .read va n))
/-- Whether a write is left for later: the turn's plain stores are held back (R368), or it is a store of a step of VPs, whose
stores are performed together (R210). -/
def holdsWrite (s : State) (c : Ctx) (key : Nat) : Bool :=
  s.holding && c.via != .home && (if s.runner = .thread then c.own && !isWs key else true)
/-- Write one translated piece, now or later: after the thread's earlier loads of the line (R289). -/
def writePiece (c : Ctx) (a : Nat) (x : Xlat) (bytes : List Byte) (bad : List Nat) : Exec Unit := do
  match x.loc with
  | .nowhere => trapNow cProt (BitVec.ofNat 64 a)
  | .far _ =>
    match ← remoteAsk c (.write x.pa bytes bad) with
    | .data _ _ => pure ()
    | .error => trapNow cProt (BitVec.ofNat 64 a)
  | .here key =>
    waitRefresh c key
    waitInserts c key bytes.length
    waitShares c key bytes.length
    if holdsWrite (← get) c key then
      performLoads c.tid (fun k => k / 128 == key / 128)
      whenB (!x.msa) (touchLine c (key / 128) true)
      modify fun s => { s with stores := s.stores ++
        [{ tid := c.tid, die := c.die, core := c.core, key := key, msa := x.msa, bytes := bytes, poison := bad }] }
    else
      whenB c.own (performLine c key)
      writeLine c key bytes bad x.msa
/-- Write bytes at a virtual address, `bad` telling which bytes come from poisoned granules: every piece is
translated before the first byte is written (R144), and the lower places are written first (R367). -/
def storeVaBad (c : Ctx) (va : Word64) (bytes : List Byte) (bad : Nat → Bool) : Exec Unit := do
  let ps ← translatePieces c .write va bytes.length
  forEach (sortByKey (ps.map (fun p => (p.2.2.place, p)))) fun (_, a, k, x) => do
    let off := a - va.toNat
    let part := (bytes.drop off).take k
    let at_ := x.place
    let gs := (granulesOf at_ k).filter (fun g => (List.range k).any (fun i => (at_ + i) / 32 == g && bad (off + i)))
    writePiece c a x part gs
/-- Write bytes at a virtual address. -/
def storeVa (c : Ctx) (va : Word64) (bytes : List Byte) : Exec Unit := storeVaBad c va bytes (fun _ => false)

/-! ### Atomics (R352, R353) -/

/-- The FP32 sum of R352: rounded to nearest, ties to even, overflow to infinity. -/
def fp32Add (x y : Nat) : Nat × Flg :=
  let (r, f) := fadd .rne (decodeF tyFP32 x) (decodeF tyFP32 y)
  let c := convertF envNearest tyFP32 r 0
  (c.code, f ||| c.flags)
/-- The new value of a `w`-bit integer location holding `old` (R353). -/
def atomNew (op : AtomOp) (w old x cmp : Nat) : Nat :=
  let s := fun (v : Nat) => if v.testBit (w - 1) then (v : Int) - (2 ^ w : Nat) else (v : Int)
  match op with
  | .add => (old + x) % 2 ^ w
  | .min => if s x < s old then x else old
  | .max => if s old < s x then x else old
  | .and => old &&& x
  | .or => old ||| x
  | .xor => old ^^^ x
  | .xchg => x
  | .cas => if old = cmp then x else old
/-- Unsigned minimum and maximum, of `amoa` on N32 (R355). -/
def atomNewU (op : AtomOp) (w old x cmp : Nat) : Nat :=
  match op with
  | .min => if x < old then x else old
  | .max => if old < x then x else old
  | o => atomNew o w old x cmp
/-- The new value and flags of an FP32 location (R355): a NaN operand of min or max leaves it unchanged, with NV. -/
def atomNewF (op : AtomOp) (old x cmp : Nat) : Nat × Flg :=
  let a := decodeF tyFP32 old
  let b := decodeF tyFP32 x
  match op with
  | .add =>
    let (c, f) := fp32Add old x
    (c, f &&& (flgOF ||| flgNX ||| flgNV))
  | .min => if a.isNan || b.isNan then (old, flgNV) else (if fbelow b a then x else old, flgNone)
  | .max => if a.isNan || b.isNan then (old, flgNV) else (if fbelow a b then x else old, flgNone)
  | .xchg => (x, flgNone)
  | .cas => (if old = cmp then x else old, flgNone)
  | _ => (old, flgNone)

/-- Whether an atomic of die `d` at a key can be performed now: every write that causally precedes it is applied before it
(R372); for a line homed elsewhere it is a stamped write, and the writes of the die to that home come first (R371). -/
def atomReady (s : State) (d key : Nat) (msa : Bool) : Bool :=
  rankOk s d key && (msa || (if homeOf key = d then coveredApplied s d
    else (pendingTo s d (homeOf key)).isEmpty && ownApplied s d none && applyTest s d (homeOf key) (clkBump (s.die d).vc d)))
/-- The state after a write of die `d`, stamped `stamp`, was performed at another home: the stamp is merged there, and the
clock of the reply here (R371). -/
def stampHome (d h : Nat) (stamp : List Word32) (s : State) : State :=
  let y := (s.die h).setClock (clkMerge (s.die h).vc stamp) s.cycle
  let s1 := s.setDie h ({ y with known := listSet y.known d (stamp.getD d 0#32) }.owe s.cycle)
  s1.setDie d ((s1.die d).setClock (clkMerge stamp y.vc) s.cycle)
/-- The clocks after a die's atomic was performed at the line's home; no copy the die has is older than the reply. -/
def atomClocks (d key : Nat) (msa : Bool) : Exec Unit := modify fun s =>
  if direct d key msa then s
  else
    let s1 := stampHome d (homeOf key) (clkBump (s.die d).vc d) s
    let x := s1.die d
    s1.setDie d { x with copies := x.copies.filter (fun k => k.line != key / 128) }
/-- A core without the lines that `p` picks in its caches. -/
def CoreSt.dropLines (k : CoreSt) (p : Nat → Bool) : CoreSt :=
  { k with l1d := k.l1d.filter (fun x => !p x.line), l1i := k.l1i.filter (fun x => !p x)
           adc := k.adc.filter (fun x => !p x.line) }
/-- The state in which no cache holds the lines that `p` picks (R280). -/
def State.dropLines (s : State) (p : Nat → Bool) : State :=
  { s with dies := s.dies.map fun (d, x) =>
      (d, { x with copies := x.copies.filter (fun k => !p k.line), l2 := x.l2.filter (fun k => !p k.line)
                   cores := x.cores.map (fun (i, k) => (i, k.dropLines p)) }) }
/-- Die `j` hears a beacon of die `d`: its own counter and its applied vector (R371). What it is told changes its own
applied vector, so it owes a beacon too (log entry 5). -/
def hearBeacon (d : Nat) (own : Word32) (applied : List Word32) (s : State) (j : Nat) : State :=
  let y := { s.die j with beacons := listSet (s.die j).beacons d applied }
  s.setDie j (if j = d ∨ y.known.getD d 0#32 = own then y else { y with known := listSet y.known d own }.owe s.cycle)
/-- Every die hears die `d`'s beacon (R371). -/
def beaconFrom (s : State) (d : Nat) : State :=
  let t := (List.range 8).foldl (hearBeacon d ((s.die d).vc.getD d 0#32) (appliedVec s d)) s
  t.setDie d { t.die d with clockMoved := false }
/-- The state after every die has sent its beacon, and again what it then had to tell. A beacon may be sent at any time, and
lets nothing be read that could not be before. -/
def beaconAll (s : State) : State := (List.range 8 ++ List.range 8).foldl beaconFrom s
/-- A write of an access of die `d` made at the line's own place, once the writes it follows have been applied; a cross-die
one is counted and stamped by itself (R371). It answers whether it could be made. -/
def writeHome (d : Nat) (s : State × Bool) (w : Nat × List Byte × List Nat) : State × Bool :=
  let u := if atomReady s.1 d w.1 false then s.1 else beaconAll s.1
  let h := homeOf w.1
  let v := if h = d then u else stampHome d h (clkBump (u.die d).vc d) u
  (landBytes w.1 w.2.1 w.2.2 (v.setDie d ((v.die d).noteRank v.cycle w.1)), s.2 && atomReady u d w.1 false)
/-- Write these bytes at their lines' own places in one go, the lower addresses first (R367): they wait for the die's own
writes there, and leave no copy in a cache (R280, R289). Each has its key, bytes and poisoned granules. -/
def writeThrough (c : Ctx) (l : List (Nat × List Byte × List Nat)) : Exec Unit := do
  forEach l fun (key, b, _) => do
    waitRefresh c key
    waitInserts c key b.length
    whenB c.own (performLine c key)
    waitShares c key b.length
  let s ← get
  let parts := (sortByKey l).flatMap fun w => (piecesOf w.1 w.2.1.length).map fun (a, k) =>
    (a, (w.2.1.drop (a - w.1)).take k, w.2.2.filter (fun g => decide (a < 32 * g + 32) && decide (32 * g < a + k)))
  let (u, ok) := parts.foldl (writeHome c.die) (s, true)
  check ok .wait
  set (u.dropLines (fun line => parts.any (fun w => w.1 / 128 == line)))
/-- What an atomic of thread `t` from die `d` leaves at its place. -/
def landAtom (t : Tid) (d key : Nat) (b : List Byte) : Exec Unit := modify fun s =>
  landBytes key b [] (dropShared (some t) d (key / 128) (s.setDie d ((s.die d).noteRank s.cycle key)))
/-- Perform `f` on the `n` bytes of one translated location as one indivisible step; answers what was there. A
poisoned granule traps with `pv` (R354, R357). -/
def atomicAt (c : Ctx) (a : Nat) (x : Xlat) (n : Nat) (pv : Word64) (q : LinkReq) (f : Nat → Nat × Flg) :
    Exec (Nat × Flg) := do
  match x.loc with
  | .nowhere => trapNow cProt (BitVec.ofNat 64 a)
  | .far _ =>
    match ← remoteAsk c q with
    | .data b p =>
      check p.isEmpty (.trap cPoison 0 pv)
      let old := natOfBytes b
      return (old, (f old).2)
    | .error => trapNow cProt (BitVec.ofNat 64 a)
  | .here key =>
    waitInserts c key n
    whenB c.own (performLine c key)
    waitShares c key n
    checkKeep (atomReady (← get) c.die key x.msa) .wait
    check (poisonHere (← get) key n).isEmpty (.trap cPoison 0 pv)
    atomClocks c.die key x.msa
    whenB (!x.msa) do
      touchLine c.atHome (key / 128) true
      modify (homeTouched c (key / 128))
    let s ← get
    let old ← if mixedPage s x.pa x.msa then natOfBytes <$> freeBytes n else pure (natOfBytes (s.mem.readN key n))
    let (new, fl) := f old
    landAtom c.tid c.die key (bytesOfNat n new)
    return (old, fl)

end Sys2Proof.Machine
end

