-- ==== Sys2Proof/Machine/Ops.lean ====
section
/-!
DEFINITION. The named operations the meanings are written over: registers, taking a trap and returning from one, fault
queue entries, requests to other nodes, time, and the frame that runs a meaning and retires it.
-/
namespace Sys2Proof.Machine

/-! ### Registers (R139, R211) -/

/-- The state with a scalar register of the current thread written. -/
def State.setReg (s : State) (r : Reg) (x : Word64) : State := { s with cur := s.cur.setReg r x }
/-- Register v(r) of a VP, sign-extended (R211). -/
def Vp.reg (p : Vp) (r : Reg) : Word64 := (p.v.toList.getD r.toNat 0#32).signExtend 64
/-- A VP with the low 32 bits of a value written to v(r). -/
def Vp.setReg (p : Vp) (r : Reg) (x : Word64) : Vp :=
  if h : r.toNat < 16 then { p with v := p.v.set r.toNat (x.setWidth 32) h } else p

/-- Read scalar register `r`: of the thread, waiting for a result that is still to come (R312), or of the VP. -/
def readReg (r : Reg) : Exec Word64 := fun s =>
  match s.runner with
  | .thread => if s.cur.pendRegs.contains r then .error .wait else .ok (s.cur.reg r, s)
  | _ => if r.toNat < 16 then .ok (s.vp.reg r, s) else .error (.trap cIllop 0 s.vp.pc)
/-- Write scalar register `r`. -/
def writeReg (r : Reg) (x : Word64) : Exec Unit := fun s =>
  match s.runner with
  | .thread => if s.cur.pendRegs.contains r then .error .wait else .ok ((), s.setReg r x)
  | _ => if r.toNat < 16 then .ok ((), { s with vp := s.vp.setReg r x }) else .error (.trap cIllop 0 s.vp.pc)
/-- Operand b of format T: a register, or the literal sign-extended (R140). -/
def readSrc : Src → Exec Word64
  | .reg b => readReg b
  | .lit w => pure (w.signExtend 64)
/-- The address of the instruction that runs. -/
def curPc : Exec Word64 := do
  let s ← get
  return match s.runner with
    | .thread => s.cur.pc
    | _ => s.vp.pc
/-- ILLOP that depends on state: TVAL holds the instruction's address (R117, R152). -/
def illop {α : Type} : Exec α := do trapNow cIllop (← curPc)
/-- ILLOP unless a condition holds. -/
def legal (c : Bool) : Exec Unit := if c then pure () else illop
/-- The MODE that governs: the thread's, or the one its `each` or `erun` captured (R209, R321). -/
def State.modeOf (s : State) : Word64 :=
  match s.runner with
  | .thread => s.cur.csr.mode
  | .vp _ _ =>
    match s.cur.each with
    | some j => j.mode
    | none => s.cur.csr.mode
  | .edgeVp d c _ _ =>
    match (s.core d c).edge with
    | r :: _ => r.mode
    | [] => s.cur.csr.mode

/-! ### Lengths and classes -/

/-- Words of an instruction, its extension words included (R96). -/
def instrWords : Instr → Nat
  | .add _ _ _ (.lit _) | .sub _ _ _ (.lit _) | .mul _ _ _ (.lit _) | .mulh _ _ _ _ (.lit _)
  | .div _ _ _ _ (.lit _) | .rem _ _ _ _ (.lit _) | .and _ _ _ (.lit _) | .or _ _ _ (.lit _)
  | .xor _ _ _ (.lit _) | .shl _ _ _ (.lit _) | .shr _ _ _ _ (.lit _) | .min _ _ _ _ (.lit _)
  | .max _ _ _ _ (.lit _) | .slt _ _ _ _ (.lit _) | .fadd _ _ _ (.lit _) | .fsub _ _ _ (.lit _)
  | .fmul _ _ _ (.lit _) | .fdiv _ _ _ (.lit _) | .fma _ _ _ (.lit _) | .fmin _ _ _ (.lit _)
  | .fmax _ _ _ (.lit _) | .fcmp _ _ _ _ (.lit _) | .amo _ _ _ _ (.lit _) | .mon _ _ _ (.lit _) => 2
  | .aadd (.lit _) _ _ _ _ | .asub (.lit _) _ _ _ _ | .amul (.lit _) _ _ _ _ | .afma (.lit _) _ _ _ _
  | .amin (.lit _) _ _ _ _ | .amax (.lit _) _ _ _ _ | .adiv (.lit _) _ _ _ _ | .aand (.lit _) _ _ _ _
  | .aor (.lit _) _ _ _ _ | .axor (.lit _) _ _ _ _ | .ashl (.lit _) _ _ _ _ | .ashr (.lit _) _ _ _ _
  | .aceq (.lit _) _ _ _ _ | .acne (.lit _) _ _ _ _ | .aclt (.lit _) _ _ _ _ | .acle (.lit _) _ _ _ _
  | .asel (.lit _) _ _ _ _ | .acvt (.lit _) _ _ _ _ | .asplat (.lit _) _ _ _ _ | .ascl (.lit _) _ _ _ _ => 2
  | .ashapep _ _ _ | .ald _ _ _ _ _ | .ast _ _ _ _ _ | .wsld _ _ _ _ _ | .wsst _ _ _ _ _
  | .wsstImage _ _ _ _ _ | .apf _ _ => 5
  | _ => 1

/-- Instructions that may stand only in a block (R116, R117). -/
def blockOnly : Instr → Bool
  | .vnext _ | .vpend | .vget _ | .vput _ | .ecomb _ | .eact => true
  | _ => false
/-- Instructions that may stand in a VP block (R211); `edge` says that it is an edge program (R321). -/
def blockAllowed (edge : Bool) : Instr → Bool
  | .nop | .add _ _ _ _ | .sub _ _ _ _ | .mul _ _ _ _ | .mulh _ _ _ _ _ | .div _ _ _ _ _ | .rem _ _ _ _ _
  | .and _ _ _ _ | .or _ _ _ _ | .xor _ _ _ _ | .shl _ _ _ _ | .shr _ _ _ _ _ | .min _ _ _ _ _
  | .max _ _ _ _ _ | .slt _ _ _ _ _ | .cnt _ _ _ _ | .addi _ _ _ | .andi _ _ _ | .ori _ _ _ | .xori _ _ _
  | .shli _ _ _ | .shri _ _ _ _ | .slti _ _ _ | .lui _ _ | .lpc _ _ | .ldd _ _ _ | .ldw _ _ _ | .ldh _ _ _
  | .ldb _ _ _ | .std _ _ _ | .stw _ _ _ | .sth _ _ _ | .stb _ _ _ | .fadd _ _ _ _ | .fsub _ _ _ _
  | .fmul _ _ _ _ | .fdiv _ _ _ _ | .fma _ _ _ _ | .fmin _ _ _ _ | .fmax _ _ _ _ | .fcmp _ _ _ _ _
  | .fcvt _ _ _ | .beq _ _ _ | .bne _ _ _ | .blt _ _ _ | .bge _ _ _ | .bltu _ _ _ | .bgeu _ _ _ | .fli _ _
  | .vnext _ | .vpend => true
  | .vget _ | .vput _ => !edge
  | .ecomb _ | .eact => edge
  | _ => false
/-- Instructions that trap 0x0A while the thread's array state is absent (R385); SEED writes check for themselves. -/
def needsArray : Instr → Bool
  | .aadd _ _ _ _ _ | .asub _ _ _ _ _ | .amul _ _ _ _ _ | .afma _ _ _ _ _ | .amin _ _ _ _ _ | .amax _ _ _ _ _
  | .adiv _ _ _ _ _ | .aand _ _ _ _ _ | .aor _ _ _ _ _ | .axor _ _ _ _ _ | .ashl _ _ _ _ _ | .ashr _ _ _ _ _
  | .aceq _ _ _ _ _ | .acne _ _ _ _ _ | .aclt _ _ _ _ _ | .acle _ _ _ _ _ | .asel _ _ _ _ _ | .aabs _ _ _ _
  | .aneg _ _ _ _ | .anot _ _ _ _ | .asqrt _ _ _ _ | .arcp _ _ _ _ | .aexp2 _ _ _ _ | .alog2 _ _ _ _
  | .acvt _ _ _ _ _ | .amov _ _ _ _ | .asplat _ _ _ _ _ | .ascl _ _ _ _ _ | .agscl _ _ _ _
  | .atype _ _ _ | .ashp _ _ _ | .aiota _ _ | .ashape _ _ _ | .ashapep _ _ _ | .aredsum _ _ _ _
  | .aredmax _ _ _ _ | .aredmin _ _ _ _ | .aredand _ _ _ _ | .aredor _ _ _ _ | .aredxor _ _ _ _
  | .acount _ _ _ _ | .ascansum _ _ _ _ | .ascanmax _ _ _ _ | .ascanmin _ _ _ _ | .agrade _ _ _
  | .agraded _ _ _ | .arot _ _ _ _ | .atake _ _ _ _ | .adrop _ _ _ _ | .arev _ _ _ _ | .atrans _ _ _ _
  | .acat _ _ _ _ _ | .aoutmul _ _ _ _ _ | .aoutadd _ _ _ _ _ | .aouteq _ _ _ _ _ | .acomp _ _ _ _
  | .aexpd _ _ _ _ | .afrom _ _ _ _ _ | .aidxof _ _ _ _ _ | .amembr _ _ _ _ _ | .each _ _ _ _
  | .xstep _ _ _ _ | .amoviFrom _ _ | .amoviTo _ _
  | .mbld _ _ | .mbwl _ _ | .mmul _ _ _ _ _ _ | .mzero _ | .mrd _ _ | .mwr _ _ | .mspa _ | .mqry _ _ _
  | .ald _ _ _ _ _ | .ast _ _ _ _ _ | .agat _ _ _ _ | .asct _ _ _ _ | .wsld _ _ _ _ _ | .wsst _ _ _ _ _
  | .wsstImage _ _ _ _ _ | .amoa _ _ _ _ _ | .mredadd _ _ _ | .mredmin _ _ _ | .mredmax _ _ _ | .mredor _ _ _
  | .quota _ _ | .tseq _ _ _ => true
  | _ => false
/-- The state with an array state changed in every slot of a place; `f` is given the die's number in gang order. -/
def State.modArrAt (s : State) (p : Place) (f : Nat → ArrState → ArrState) : State :=
  (p.shares.zip (List.range p.shares.length)).foldl (fun (u : State) ((d, c, z), j) =>
    let x := u.slotAt d c z
    u.setSlotAt d c z { x with arr := f j x.arr }) s
/-- The state with the current thread's array state changed in every slot it lies in. -/
def State.modArr (s : State) (f : Nat → ArrState → ArrState) : State := s.modArrAt s.cur.place f
/-- Whether the current thread's array state is absent from its slots (R384). -/
def State.arrAbsent (s : State) : Bool :=
  s.cur.place.all.any (fun (d, c, z) => (s.slotAt d c z).owner != some s.cur.tid)

/-! ### Results and flags that arrive later -/

/-- OR flags into a thread's FLAGS; kept aside while it is not bound (R150, R158). -/
def mergeFlags (t : Tid) (f : Word64) : Exec Unit :=
  modThread t fun x =>
    if x.status = .bound ∨ x.status = .ending then { x with csr := { x.csr with flags := x.csr.flags ||| f } }
    else { x with lateFlags := x.lateFlags ||| f }
/-- Flags of seven bits as a register value. -/
def flgWord (f : Flg) : Word64 := f.setWidth 64
/-- Registers with flags ORed into FLAGS (R65). -/
def Csrs.orFlags (c : Csrs) (f : Flg) : Csrs := { c with flags := c.flags ||| flgWord f }
/-- A thread with flags ORed into FLAGS. -/
def Thread.orFlags (t : Thread) (f : Flg) : Thread := { t with csr := t.csr.orFlags f }
/-- An edge run with flags ORed into those its VPs have raised (R211, R321). -/
def ERun.orFlags (r : ERun) (f : Flg) : ERun :=
  { r with cur := r.cur.map (fun (q : SuperStep) => { q with vpFlags := q.vpFlags ||| flgWord f }) }
/-- The runs of an edge engine with flags ORed into the superstep of the first, which is the one that runs. -/
def edgeOrFlags (l : List ERun) (f : Flg) : List ERun :=
  match l with
  | [] => []
  | r :: rest => r.orFlags f :: rest
/-- An `each` with flags ORed into those of group `g` (R213). -/
def eachOrFlags (g : Nat) (f : Flg) (j : EachJob) : EachJob :=
  { j with groups := j.groups.map (fun x => if x.g = g then { x with flags := x.flags ||| flgWord f } else x) }
/-- OR flags into the current thread's FLAGS, or into those a VP group collects (R213, R337). -/
def addFlags (f : Flg) : Exec Unit := fun s =>
  match s.runner with
  | .thread => .ok ((), { s with cur := s.cur.orFlags f })
  | .vp g _ => .ok ((), { s with cur := { s.cur with each := s.cur.each.map (eachOrFlags g f) } })
  | .edgeVp d c _ _ =>
    let k := s.core d c
    .ok ((), s.setCore d c { k with edge := edgeOrFlags k.edge f })

/-! ### The error log (R402) -/

/-- KIND as the log and the retirement table number it. -/
def kindNo : UnitKind → Nat
  | .core => 1 | .channel => 2 | .lane => 3 | .l2 => 4 | .wslice => 5 | .bank => 6
/-- The CLASS numbers. -/
def clsCorrected : Nat := 1
def clsPoisoned : Nat := 2
def clsLatent : Nat := 3
def clsFailure : Nat := 4
/-- Errors of a class counted of a unit since module reset. -/
def errCount (x : DieSt) (cls : Nat) (k : UnitKind) (unit : Nat) : Nat :=
  match x.errs.find? (fun e => e.cls == cls && e.kind == k && e.unit == unit) with
  | some e => e.count
  | none => 0
/-- The state with an error logged: counted, and its entry written to the log and to the memory that holds it. -/
def logError (s : State) (d cls : Nat) (k : UnitKind) (unit pa : Nat) : State :=
  let x := s.die d
  let n := min (errCount x cls k unit + 1) 0xFFFFFFFF
  let e : ErrCount := { cls := cls, kind := k, unit := unit, count := n }
  let bytes := bytesOfNat 8 x.errSeq ++ bytesOfNat 1 cls ++ bytesOfNat 1 (kindNo k) ++ bytesOfNat 2 unit ++ bytesOfNat 4 n ++
    bytesOfNat 8 pa ++ bytesOfNat 8 s.cycle
  let slot := x.errSeq % 256
  let t := s.setDie d { x with
    errSeq := x.errSeq + 1, errLog := spSet x.errLog slot bytes
    errs := e :: x.errs.filter (fun f => !(f.cls == cls && f.kind == k && f.unit == unit)) }
  match locate s.fw (Config.errorLogAddr d + 32 * slot) with
  | .here key => landBytes key bytes [] t
  | _ => t

/-! ### Ports and messages (R414, R417) -/

/-- The ports of a link mask, rising; ports retired whole leave every mask (R414, R409). -/
def retiredPort (f : Firmware) (k : Nat) : Bool :=
  let bad := retiredOf f .lane (if k = 16 then 0 else if k = 17 then 7 else k / 2)
  let lane := fun i => bad.contains (8 * k + i)
  (lane 0 || lane 1 || lane 2 || lane 3) && (lane 4 || lane 5 || lane 6 || lane 7)
def portsOf (f : Firmware) (node : Nat) : List Nat :=
  let m := spGet 0#32 f.routes node
  (List.range 18).filter (fun k => m.getLsbD k && !retiredPort f k)
/-- The die a link port attaches to (R15). -/
def portDie (port : Nat) : Nat := if port = 16 then 0 else if port = 17 then 7 else port / 2
/-- The state with a message sent to a node, on the port of its mask that `pick` takes; on port 0 before the first RESET has
named routes. To a node with an empty mask it fails as an unanswered request: it is not sent, and logged as a failure of the
link lanes, of lane 0 since no port is its (R414, R415, log entry 41). -/
def sendBy (pick : List Nat → Nat) (s : State) (dst : BitVec 16) (m : Nat → OutMsg) : State :=
  let out := fun p => { s with fw := { s.fw with linkOut := s.fw.linkOut ++ [m p] } }
  if s.fw.m.isNone then out 0
  else
    let ports := portsOf s.fw (dst.toNat % 4096)
    if ports.isEmpty then logError s 0 clsFailure .lane 0 0 else out (pick ports)
/-- A command message or its reply is sent: on the lowest port (R414). -/
def sendMsg (s : State) (dst : BitVec 16) (m : Nat → OutMsg) : State := sendBy (fun l => l.headD 0) s dst m
/-- The package a node belongs to, as writes to it are counted (R413, R416). -/
def packageOf (node : Nat) : Nat := node % 4096 / 2
/-- The header of a message of this package: WCNT counts the writes sent to its destination since the last one (R417). -/
def outHeader (f : Firmware) (dst src tag : BitVec 16) : MsgHdr :=
  { dst := dst, src := src, tag := tag, world := 0#8
    wcnt := BitVec.ofNat 32 (spGet 0 f.wsent (packageOf dst.toNat)), rsv := false }
/-- A command message, a reply or a device message is sent, with its header (R414, R417). -/
def sendHeaded (s : State) (dst src tag : BitVec 16) (m : Nat → MsgHdr → OutMsg) : State :=
  let u := sendMsg s dst (fun p => m p (outHeader s.fw dst src tag))
  if u.fw.linkOut.length = s.fw.linkOut.length then u
  else { u with fw := { u.fw with wsent := spDel u.fw.wsent (packageOf dst.toNat) } }
/-- The node identifier that the device's own messages come from: the first of its two (log entry 35). -/
def ownNode (f : Firmware) : BitVec 16 := BitVec.ofNat 16 (2 * f.m.getD 0)
/-- The port of a line's memory traffic among those of a mask (R414). -/
def linePort (pa : Nat) (ports : List Nat) : Nat := ports.getD (pa / 128 % 512 % ports.length) 0

/-! ### The fault queue (R392 to R395) -/

/-- The 32 bytes of a fault queue entry (R393). -/
def faultBytes (r : FaultRec) : List Byte :=
  let grp := match r.what with
    | .group g => g
    | .vp g => g
    | .engine _ _ g => g
    | .stall => 0
  bytesOfNat 8 r.seq ++ bytesOfNat 8 r.va.toNat ++ bytesOfNat 4 r.tid.idx ++
  [BitVec.ofNat 8 (r.slot % 128), BitVec.ofNat 8 ((if r.tid.region.sec then 1 else 0) + 2 * r.level),
   BitVec.ofNat 8 r.kind, 0#8] ++ bytesOfNat 4 grp ++ bytesOfNat 2 r.status ++ [0#8, 0#8]
/-- Where entry SEQ of a die's queue lies; nowhere if the firmware's address is not in this package's memory. -/
def faultKey (s : State) (d seq : Nat) : Option Nat :=
  match locate s.fw (Config.faultQueueAddr d + 32 * (seq % 4096)) with
  | .here k => some k
  | _ => none
/-- Memory with bytes written into an entry. -/
def putFault (s : State) (d seq off : Nat) (b : List Byte) : State :=
  match faultKey s d seq with
  | some k => landBytes (k + off) b [] s
  | none => s
/-- The state with an entry's status changed, in the queue and in memory. -/
def setFaultStatus (s : State) (d seq st : Nat) : State :=
  let x := s.die d
  let s1 := s.setDie d { x with faults := x.faults.map (fun r => if r.seq = seq then { r with status := st } else r) }
  putFault s1 d seq 28 (bytesOfNat 2 st)
/-- The slot on the die that a thread holds, as entries name it. -/
def Thread.slotNo (t : Thread) : Nat := 4 * t.place.core + t.place.slot
/-- The TAG of a FAULT message: it names the entry the reply returns (R418). -/
def faultTag (d seq : Nat) : BitVec 16 := BitVec.ofNat 16 (d % 8 * 4096 + seq % 4096)
/-- The state in which the host has been sent a new entry, where fault service is the host's (R394, R421). -/
def tellFault (s : State) (d : Nat) (r : FaultRec) : State :=
  if s.fw.inForce.getLsbD 0 then
    sendHeaded s s.fw.faultHost (ownNode s.fw) (faultTag d r.seq) (fun p h => .message p h 0x101 (faultBytes r))
  else s
/-- The state with new entries, each in its die's queue; a fault for work that already has an entry for its page takes none,
and one that finds 4096 entries pending waits (R393). -/
def newFaults (s : State) : List PageFault → State
  | [] => s
  | p :: r =>
    let x := s.die p.die
    if x.faults.any (fun f => f.tid == p.tid && f.what == p.what &&
        (!p.what.isEngine || f.va.toNat / 65536 == p.va.toNat / 65536)) ∨
        4096 ≤ (x.faults.filter (fun f => f.status == 0)).length then newFaults s r
    else
      let f : FaultRec := { seq := x.faultSeq, tid := p.tid, slot := p.slot, va := p.va, tval := p.tval, kind := p.kind, level := p.level
                            status := 0, what := p.what }
      let s1 := s.setDie p.die { x with faults := x.faults ++ [f], faultSeq := x.faultSeq + 1 }
      newFaults (tellFault (putFault s1 p.die f.seq 0 (faultBytes f)) p.die f) r
/-- The state with every entry of thread `t`'s own instruction orphaned: it has stopped (R395). -/
def orphanFaults (s : State) (t : Tid) : State :=
  s.dies.foldl (fun (acc : State) (d, x) =>
    (x.faults.filter (fun f => f.tid == t && !f.what.isEngine)).foldl (fun (a : State) f =>
      let b := setFaultStatus a d f.seq 3
      let y := b.die d
      b.setDie d { y with faults := y.faults.filter (fun g => g.seq != f.seq) }) acc) s

/-! ### Requests to other nodes (R414, R415) -/

/-- The address a request is about. -/
def reqPa : LinkReq → Nat
  | .read pa _ => pa
  | .write pa _ _ => pa
  | .writes pa _ _ => pa
  | .atomic _ pa _ _ _ _ => pa
  | .insert pa _ _ _ => pa
  | .message _ _ => 0
/-- Whether a request changes nothing where it is served. -/
def reqReads : LinkReq → Bool
  | .read _ _ => true
  | _ => false
/-- Whether a request is a write, as WCNT counts them (R417). -/
def reqWrites : LinkReq → Bool
  | .write _ _ _ | .writes _ _ _ => true
  | _ => false
/-- The writes sent to each package since the last message to it, with one more (R417). -/
def countSent (l : Sparse Nat) (k : Nat) : Sparse Nat := spSet l k (spGet 0 l k + 1)
/-- The state with a request sent for an agent; one to a node with an empty mask has its error reply at once, and is
logged as an unanswered one, of lane 0 since no port is its (R414, R415, log entry 41). -/
def postRequest (s : State) (who : Agent) (q : LinkReq) : State :=
  let pa := reqPa q
  let ports := portsOf s.fw (pa / 2 ^ 40)
  let tag := s.fw.nextTag
  match ports with
  | [] =>
    let r : Remote := { tag := tag, who := who, req := q, sent := s.cycle, port := 0, reply := some .error }
    let t := logError s 0 clsFailure .lane 0 pa
    { t with fw := { t.fw with nextTag := tag + 1, remotes := t.fw.remotes ++ [r] } }
  | _ =>
    let port := linePort pa ports
    let r : Remote := { tag := tag, who := who, req := q, sent := s.cycle, port := port, reply := none }
    { s with fw := { s.fw with nextTag := tag + 1, remotes := s.fw.remotes ++ [r]
                               wsent := if reqWrites q then countSent s.fw.wsent (packageOf (pa / 2 ^ 40)) else s.fw.wsent
                               linkOut := s.fw.linkOut ++ [.request port tag q] } }
/-- The state with requests sent, each for its own agent. -/
def postRequests (s : State) (qs : List (Agent × LinkReq)) : State := qs.foldl (fun a q => postRequest a q.1 q.2) s
/-- The state with an agent's requests forgotten: the work they served is over. -/
def dropRemotes (s : State) (who : Agent) : State :=
  { s with fw := { s.fw with remotes := s.fw.remotes.filter (fun r => r.who != who) } }
/-- Whether a request is of a thread or of one of its VP groups. -/
def Agent.ofThread (t : Tid) : Agent → Bool
  | .thread u => u == t
  | .vp u _ => u == t
  | .elem u _ => u == t
  | _ => false
/-- The thread whose work an agent does. -/
def Agent.tid? : Agent → Option Tid
  | .thread t => some t
  | .vp t _ => some t
  | .elem t _ => some t
  | .engine t _ _ => some t
  | .firmware => none
/-- The state in which thread `t`'s work has forgotten what other nodes have sent of table entries, so that it is walked anew
once a fault entry of it has returned (R394, R399). -/
def dropWalks (t : Tid) (s : State) : State :=
  { s with fw := { s.fw with remotes := s.fw.remotes.filter (fun r => !(r.who.tid? == some t && r.reply.isSome && (match r.req with
      | .read _ n => n == 8
      | _ => false))) } }
/-- Whether a write or an atomic of a thread's own instruction is out at another node: the thread finishes the instruction
before it is interrupted, since a second request would be a second write (R354). -/
def State.farOut (s : State) (t : Tid) : Bool :=
  s.fw.remotes.any fun r => !reqReads r.req && (match r.who with
    | .thread u => u == t
    | .elem u _ => u == t
    | _ => false)
/-- The state with the requests of a thread's instruction forgotten. -/
def dropOwnRemotes (s : State) (t : Tid) : State :=
  { s with fw := { s.fw with remotes := s.fw.remotes.filter (fun r => !r.who.ofThread t) } }

/-! ### Taking a trap (R153, R154) -/

/-- INH: the thread is in its handler (R151). -/
def Csrs.inh (c : Csrs) : Bool := c.tcause.getLsbD 16
/-- The TCAUSE a trap writes. -/
def tcauseOf (cause axis : Nat) : Word64 := BitVec.ofNat 64 (65536 + 256 * (axis % 8) + cause % 256)
/-- Bits [54:2] of an address, the rest zero, as TPC and TVEC hold them. -/
def addrBits (x : Word64) : Word64 := x &&& 0x007FFFFFFFFFFFFC#64
/-- The thread leaves the instruction it was in: nothing of it is left to do. -/
def Thread.dropWork (t : Thread) : Thread :=
  { t with convoy := [], stall := none, park := none, each := none, yielding := false, tail := [] }
/-- The current thread after a trap with a handler to take it (R153). -/
def Thread.enterHandler (t : Thread) (cause axis : Nat) (val ret : Word64) : Thread :=
  { t.dropWork with
    pc := t.csr.tvec
    entryCheck := true
    csr := { t.csr with tpc := addrBits ret, tval := val, tcause := tcauseOf cause axis } }
/-- The current thread after a trap that ends it (R154): it first waits for its work to drain. -/
def Thread.endByTrap (t : Thread) (cause : Nat) (val ret : Word64) : Thread :=
  { t.dropWork with status := .ending, endRec := some (cause, ret, val) }
/-- Whether a trap of this cause ends the thread (R153). -/
def Thread.trapEnds (t : Thread) (cause : Nat) : Bool :=
  t.csr.tvec == 0#64 || (t.csr.inh && cause != cDeadline)
/-- The current thread's waits at semaphores are given up (R360). -/
def dropWaits (s : State) (t : Tid) : State :=
  if s.dies.any (fun (_, x) => x.squares.any (fun (_, q) => q.waiters.any (fun w => w.1 == t))) then
    { s with dies := s.dies.map (fun (d, x) => (d, { x with squares := x.squares.map (fun (i, q) =>
        (i, { q with waiters := q.waiters.filter (fun w => w.1 != t) })) })) }
  else s
/-- A thread's `mon` waits no more (R360). -/
def dropWatch (t : Tid) (s : State) : State :=
  if s.watches.any (fun w => w.tid == t) then { s with watches := s.watches.filter (fun w => w.tid != t) } else s
/-- The current thread takes a trap. -/
def takeTrap (s : State) (cause axis : Nat) (val ret : Word64) : State :=
  let s1 := dropWatch s.cur.tid (dropOwnRemotes (orphanFaults (dropWaits s s.cur.tid) s.cur.tid) s.cur.tid)
  if s1.cur.trapEnds cause then { s1 with cur := s1.cur.endByTrap cause val ret }
  else { s1 with cur := s1.cur.enterHandler cause axis val ret }
/-- The current thread returns from its handler (R155): INH clear, pc := TPC, exempt from the C check. -/
def Thread.leaveHandler (t : Thread) : Thread :=
  { t with pc := t.csr.tpc, convoy := [], entryCheck := false
           csr := { t.csr with tcause := t.csr.tcause &&& ~~~ 0x10000#64 } }

/-! ### Running a meaning -/

/-- Where an instruction that completed leaves the pc. -/
inductive Flow
  /-- The next word. -/
  | seq
  /-- A control transfer. -/
  | goto (pc : Word64)
  /-- The meaning has set the pc, or the thread no longer runs. -/
  | done
  deriving DecidableEq, Repr

/-- The pc after an instruction of `n` words at `pc`. -/
def nextPc (pc : Word64) (n : Nat) : Flow → Word64
  | .seq => pc + BitVec.ofNat 64 (4 * n)
  | .goto t => t
  | .done => pc
/-- The current thread after it completed an instruction of `n` words (R108, R151). -/
def Thread.retire (t : Thread) (n : Nat) (f : Flow) : Thread :=
  { t with pc := nextPc t.pc n f, convoy := t.convoy.tail
           csr := { t.csr with instret := t.csr.instret + 1#64 } }
/-- The state after the current thread completed an instruction of `n` words. -/
def retire (n : Nat) (f : Flow) (s : State) : State :=
  dropRemotes { s with cur := s.cur.retire n f } (.thread s.cur.tid)
/-- The entries a thread's own instruction has in the fault queues that another state does not hold. -/
def ownFaults (old s : State) (t : Tid) : List FaultRec :=
  s.dies.flatMap fun (d, x) => x.faults.filter fun f =>
    decide ((old.die d).faultSeq ≤ f.seq) && f.tid == t && !f.what.isEngine
/-- The state in which the current thread waits for its new fault entries. -/
def stallOn (s : State) (fs : List PageFault) : State :=
  let t := newFaults s fs
  let mine := ownFaults s t s.cur.tid
  let stalled := match mine.find? (fun f => f.what == .stall) with
    | some f => some f.seq
    | none => t.cur.stall
  let groups := mine.filterMap (fun f => match f.what with
    | .group g => some (f.seq, g)
    | _ => none)
  let park := t.cur.park.map (fun p => { p with entries := p.entries ++ groups })
  { t with cur := { t.cur with stall := stalled, park := park } }
/-- How a step ends that did not simply go on. -/
def settle (s : State) : Exc → Host.Outcome State Fault Refusal
  | .trap c ax v => .next (takeTrap s c ax v s.cur.pc)
  | .trapAt c ax v ret => .next (takeTrap s c ax v ret)
  | .wait => .next s
  | .faults fs => .next (stallOn s fs)
  | .remote qs => .next (postRequests s qs)
  | .refresh _ => .next s
  | .keep t e => settle t e
  | .idle => .next s
/-- How a VP's instruction ends that did not go on: the group step deals with it. -/
def vpStopOf (s : State) : Exc → Host.Outcome State Fault Refusal
  | .trap c ax v => .next { s with vpStop := some (.trap c ax v) }
  | .trapAt c ax v _ => .next { s with vpStop := some (.trap c ax v) }
  | .wait => .next { s with vpStop := some .wait }
  | .faults fs => .next { s with vpStop := some (.faults fs) }
  | .remote qs => .next { s with vpStop := some (.remote qs) }
  | .refresh _ => .next { s with vpStop := some .wait }
  | .keep t e => vpStopOf t e
  | .idle => .next { s with vpStop := some .wait }

/-- Instructions that post an entry to the matrix queue (R226, R242). -/
def postsEntry : Instr → Bool
  | .mbld _ _ | .mbwl _ _ | .mmul _ _ _ _ _ _ | .mzero _ | .mrd _ _ | .mwr _ _ | .mspa _ => true
  | .mqry _ sel _ => sel != 0 && sel != 5
  | _ => false
/-- The state after an instruction, which ends the row of entries that an interruption can reach, unless it posted one. -/
def endTail (i : Instr) (s : State) : State :=
  if postsEntry i || s.cur.tail.isEmpty then s else { s with cur := { s.cur with tail := [] } }
/-- Run a meaning for the current thread: the checks every instruction makes, its effect, and its retirement. -/
def runThread (i : Instr) (body : Exec Flow) (s : State) : Host.Outcome State Fault Refusal :=
  if s.cur.status != .bound then .refused .noThread
  else if blockOnly i then .next (takeTrap s cIllop 0 s.cur.pc s.cur.pc)
  else if needsArray i && s.arrAbsent then .next (takeTrap s cOwned 0 0#64 s.cur.pc)
  else match body s with
    | .ok (f, t) => .next (endTail i (retire (instrWords i) f t))
    | .error e => settle s e
/-- Run a meaning for a VP. -/
def runVp (edge : Bool) (i : Instr) (body : Exec Flow) (s : State) : Host.Outcome State Fault Refusal :=
  if !blockAllowed edge i then .next { s with vpStop := some (.trap cIllop 0 s.vp.pc) }
  else match body s with
    | .ok (f, t) => .next { t with vp := { t.vp with pc := nextPc t.vp.pc (instrWords i) f } }
    | .error e => vpStopOf s e
/-- Run a meaning for whoever executes the instruction. -/
def perform (i : Instr) (body : Exec Flow) (s : State) : Host.Outcome State Fault Refusal :=
  match s.runner with
  | .thread => runThread i body s
  | .vp _ _ => runVp false i body s
  | .edgeVp _ _ _ _ => runVp true i body s
/-- Run a meaning that always goes on to the next word. -/
def performSeq (i : Instr) (body : Exec Unit) (s : State) : Host.Outcome State Fault Refusal :=
  perform i (do body; return .seq) s

/-- What a device step comes to: where there was no such work to do, nothing happens. -/
def goes (s : State) (r : Option State) : Host.Outcome State Fault Refusal := .next (r.getD s)
/-- A device step that stopped on its way: there was nothing to do where it has changed nothing. -/
def changed (s u : State) : Option State :=
  if decide (u.dies = s.dies) && decide (u.fw.remotes = s.fw.remotes) && decide (u.stores = s.stores) &&
    decide (u.xwrites = s.xwrites) then none else some u
/-- What a step of the device that stopped on its way leaves: a page fault takes a fault entry of the thread the step works for,
a request to another node is sent, and the step is tried again (R394, R424). -/
def deviceSettle (s : State) : Exc → Option State
  | .faults fs => changed s (newFaults s fs)
  | .remote qs => some (postRequests s qs)
  | .keep u e => match e with
    | .faults fs => changed s (newFaults u fs)
    | .remote qs => some (postRequests u qs)
    | _ => changed s u
  | _ => none
/-- Whether two pieces of work are of one command. -/
def FaultFor.sameWork : FaultFor → FaultFor → Bool
  | .engine u n _, .engine v m _ => u == v && n == m
  | a, b => a == b
/-- The state in which the unresolvable pages of a piece of work have been dealt with (R395). -/
def dropUnres (c : Ctx) (s : State) : State :=
  if s.unres.isEmpty then s
  else { s with unres := s.unres.filter (fun u => !(u.1 == c.tid && u.2.2.sameWork c.what)) }
/-- Run a step of the device: none when there is no such work to do. A step that is through has used up its replies of other
nodes and the unresolvable pages of its work (R395). -/
def device (c : Ctx) (body : Exec Unit) (s : State) : Option State :=
  match body s with
  | .ok (_, u) => some (dropUnres c (dropRemotes u c.who))
  | .error e => deviceSettle s e
/-- A step of a die's compute units: they stop with the die (R23). -/
def unitStep (c : Ctx) (body : Exec Unit) (s : State) : Option State :=
  if (s.die c.die).stopped then none else device c body s
/-- The context of command `n` of a unit on die `d`, posted for thread `t` from a slot of the die. -/
def unitCtx (d unit n : Nat) (t : Tid) (slot : Nat) : Ctx :=
  { who := .engine t unit n, tid := t, die := d, core := slot / 4, via := .unit, sec := t.region.sec
    what := .engine unit n 0, kindHi := 0, slot := slot }
/-- Go on only where the step's own condition holds. -/
def enabled (c : Bool) : Exec Unit := if c then pure () else stop .idle
/-- The value of an option that the step's own condition requires. -/
def enabledSome {α : Type} : Option α → Exec α
  | some x => pure x
  | none => stop .idle

/-- A meaning for every instruction. -/
abbrev Meaning := Instr → State → Host.Outcome State Fault Refusal

/-! ### Time (R24, R89) -/

/-- A thread `n` cycles later. -/
def Thread.later (t : Thread) (n : Nat) : Thread :=
  if t.status = .bound then { t with csr := { t.csr with count := t.csr.count.map (· - n) } } else t
/-- The state `n` cycles later. -/
def advance (n : Nat) (s : State) : State :=
  if n = 0 then s
  else { s with cycle := s.cycle + n, cur := s.cur.later n, others := s.others.map (fun t => t.later n) }

/-! ### Commands in progress (R92, R227) -/

/-- Whether an engine command or a top-k insert of a thread is not complete. -/
def engineBusy (s : State) (t : Tid) : Bool :=
  s.topks.any (fun k => k.tid == t) ||
  s.dies.any (fun (_, x) =>
    x.fabQueue.any (fun c => match c with
      | .sgraph _ u _ _ _ => u == t
      | .srun r => r.tid == t
      | .spub u _ _ _ _ => u == t
      | .sdisc u _ _ _ => u == t) ||
    x.runs.any (fun r => r.tid == t) || x.cpyQueue.any (fun c => c.tid == t) ||
    x.expQueue.any (fun c => c.tid == t) ||
    x.cores.any (fun (_, k) => k.edge.any (fun r => r.tid == t || r.after.contains t)))
/-- Whether the thread has an entry in a matrix queue. -/
def matrixBusy (s : State) (t : Tid) : Bool :=
  s.dies.any (fun (_, x) => x.cores.any (fun (_, k) => k.queue.any (fun e => e.tid == t)))
/-- Whether a sequencer of the thread runs, whose generated entries count as the thread's (R347). -/
def tseqBusy (s : State) (t : Tid) : Bool :=
  s.dies.any (fun (_, x) => x.expQueue.any (fun c => c.tid == t && (match c.work with
    | .tseq _ => true
    | .ttbld _ => false)))
/-- Whether an unknown-size result of the current thread is in flight (R37). -/
def State.unknownBusy (s : State) : Bool :=
  s.mySlot.owner == some s.cur.tid && s.mySlot.flight.any (fun f => match f.kind with
    | .unknown _ _ => true
    | .entry _ => false)
/-- Whether every write of a thread has been performed and applied at its home (R370). -/
def writesApplied (s : State) (t : Tid) : Bool :=
  !s.xwrites.any (fun w => w.tid == some t) && !s.stores.any (fun h => h.tid == t) && !s.loads.any (fun h => h.tid == t)
/-- The paused entry of the current thread that has not been reported (R245). -/
def pausedOf (s : State) : Option MEntry :=
  (s.core s.cur.place.die s.cur.place.core).queue.find? (fun e => e.tid == s.cur.tid && e.stat == .paused)
/-- Trap 0x05 for a paused entry, in place of the instruction (R245). -/
def checkPaused : Exec Unit := do
  let s ← get
  match pausedOf s with
  | none => pure ()
  | some e =>
    modCore s.cur.place.die s.cur.place.core fun k =>
      { k with queue := k.queue.map (fun f => if f.id = e.id then { f with stat := .trapped } else f) }
    stopKeep (.trap cQuota 0 (BitVec.ofNat 64 e.needs))

end Sys2Proof.Machine
end

