-- ==== Sys2Proof/Machine/Fetch.lean ====
section
/-!
DEFINITION. Fetching: instruction words through the thread's translation, the target of a control transfer, and the
start of a convoy with the checks of R109 to R112 and R117.
-/
namespace Sys2Proof.Machine

/-- The decode map in force (R114): map 0, or the thread's copy of the map it selected. -/
def Thread.opMap (t : Thread) : OpMap := if t.dmapTab.isEmpty then map0 else mapOf t.dmapTab
/-- The instruction word at a virtual address (R117, R144). A poisoned word traps 0x09 with TVAL its granule (R152), and
counts among the fetches that fail; that it does is the model's choice (DESIGN CHOICE, log entry 22). -/
def fetchWord (c : Ctx) (a : Word64) : Exec Word32 := do
  let (b, bad) ← readVa { c with via := .fetch } .fetch a 4
  match bad with
  | g :: _ => trapNow cPoison (BitVec.ofNat 64 g)
  | [] => return BitVec.ofNat 32 (natOfBytes b)
/-- The address part of a TVAL: bits [54:0]. -/
def tvalAddr (a : Word64) : Word64 := a &&& 0x007FFFFFFFFFFFFF#64
/-- The TVAL of R117: the instruction's address, and the index of the faulting word. -/
def tvalWord (a : Word64) (idx : Nat) : Word64 := tvalAddr a ||| (BitVec.ofNat 64 idx <<< 61)

/-! ### Convoy classes (R109, R116) -/

/-- The limited convoy classes. -/
inductive Cls | ew | st | ld | ss | mx | en
  deriving DecidableEq, Repr
/-- Most instructions of a class in one convoy (R109). -/
def clsMost : Cls → Nat
  | .ew => 2
  | _ => 1
/-- The limited classes an instruction counts against. -/
def classesOf : Instr → List Cls
  | .aadd _ _ _ _ _ | .asub _ _ _ _ _ | .amul _ _ _ _ _ | .afma _ _ _ _ _ | .amin _ _ _ _ _ | .amax _ _ _ _ _
  | .adiv _ _ _ _ _ | .aand _ _ _ _ _ | .aor _ _ _ _ _ | .axor _ _ _ _ _ | .ashl _ _ _ _ _ | .ashr _ _ _ _ _
  | .aceq _ _ _ _ _ | .acne _ _ _ _ _ | .aclt _ _ _ _ _ | .acle _ _ _ _ _ | .asel _ _ _ _ _ | .aabs _ _ _ _
  | .aneg _ _ _ _ | .anot _ _ _ _ | .asqrt _ _ _ _ | .arcp _ _ _ _ | .aexp2 _ _ _ _ | .alog2 _ _ _ _
  | .acvt _ _ _ _ _ | .amov _ _ _ _ | .asplat _ _ _ _ _ | .ascl _ _ _ _ _ | .agscl _ _ _ _ => [.ew]
  | .aiota _ _ | .ashape _ _ _ | .ashapep _ _ _ | .aredsum _ _ _ _
  | .aredmax _ _ _ _ | .aredmin _ _ _ _ | .aredand _ _ _ _ | .aredor _ _ _ _ | .aredxor _ _ _ _
  | .acount _ _ _ _ | .ascansum _ _ _ _ | .ascanmax _ _ _ _ | .ascanmin _ _ _ _ | .agrade _ _ _
  | .agraded _ _ _ | .arot _ _ _ _ | .atake _ _ _ _ | .adrop _ _ _ _ | .arev _ _ _ _ | .atrans _ _ _ _
  | .acat _ _ _ _ _ | .aoutmul _ _ _ _ _ | .aoutadd _ _ _ _ _ | .aouteq _ _ _ _ _ | .acomp _ _ _ _
  | .aexpd _ _ _ _ | .afrom _ _ _ _ _ | .aidxof _ _ _ _ _ | .amembr _ _ _ _ _ | .each _ _ _ _
  | .xstep _ _ _ _ | .amoviFrom _ _ | .amoviTo _ _ => [.st]
  | .mbld _ _ | .mbwl _ _ | .mmul _ _ _ _ _ _ | .mzero _ | .mrd _ _ | .mwr _ _ | .mwait | .mspa _
  | .mqry _ _ _ => [.mx]
  | .ald _ _ _ _ _ | .agat _ _ _ _ | .wsld _ _ _ _ _ | .apf _ _ | .cbld _ _ => [.ld]
  | .ast _ _ _ _ _ | .asct _ _ _ _ | .wsst _ _ _ _ _ | .wsstImage _ _ _ _ _ | .mredadd _ _ _ | .mredmin _ _ _
  | .mredmax _ _ _ | .mredor _ _ _ => [.ss]
  | .amoa _ _ _ _ _ | .asave _ | .arest _ => [.ld, .ss]
  | .sgraph _ _ _ | .srun _ _ _ _ | .spub _ _ _ | .sdisc _ _ | .egraph _ _ | .eprog _ _ _ | .erun _ _ _ _ _
  | .emode _ _ | .topk _ _ _ _ | .ttbld _ _ _ | .tseq _ _ _ | .xslot _ _ _ | .cpy _ _ _ _ _ | .pub _ _ => [.en]
  | _ => []
/-- The control transfers (R110); `vnext` and `vpend` are those of a block (R211). -/
def isTransfer : Instr → Bool
  | .beq _ _ _ | .bne _ _ _ | .blt _ _ _ | .bge _ _ _ | .bltu _ _ _ | .bgeu _ _ _ | .jal _ | .jr _ _
  | .ecall | .ebreak | .tret | .yield | .done | .vnext _ | .vpend => true
  | _ => false
/-- Whether a convoy that holds `before` may take `i` as well (R109). -/
def fitsConvoy (before : List Instr) (i : Instr) : Bool :=
  decide (before.length < 8) &&
  (classesOf i).all (fun c => decide ((before.filter (fun j => (classesOf j).contains c)).length < clsMost c))

/-! ### Convoys (R108 to R112, R117) -/

/-- Extension words that are legal for every instruction, those of `ashapep` too: a block of rank 1 with nothing else set
(R104, R194). -/
def stubWords : List Word32 := [0x10000000#32, 0#32, 0#32, 0#32]
/-- A word of the convoy whose first word is at `first`: a fetch that fails makes the convoy trap, TVAL naming what could
not be fetched (R117). -/
def convoyWord (rd : Word64 → Exec Word32) (first a : Word64) : Exec Word32 := fun s =>
  match rd a s with
  | .error (.trap cause _ v) => .error (.trapAt cause 0 (if cause = cPoison then v else a) first)
  | r => r
/-- The extension words `j` to `k` of the instruction word `w` at `a`, `got` being those before them: each is fetched and
examined before the next (R117). -/
def extWords (rd : Word64 → Exec Word32) (m : OpMap) (first a : Word64) (w : Word32) :
    Nat → Nat → List Word32 → Exec (List Word32)
  | 0, _, got => pure got
  | k + 1, j, got => do
    let x ← convoyWord rd first (a + BitVec.ofNat 64 (4 * j))
    match decodeWith m w (got ++ x :: stubWords.drop j) with
    | .error r => if r.idx ≤ j then stop (.trapAt cIllop 0 (tvalWord a r.idx) first) else extWords rd m first a w k (j + 1) (got ++ [x])
    | .ok _ => extWords rd m first a w k (j + 1) (got ++ [x])
/-- The instructions of the convoy whose first word is at `first`, from address `a` on; `got` are those found so far.
`rd` reads a word and `ok` tells which instructions may stand there (R116, R211). The words are examined in address
order, and at one word ILLOP ranks before a convoy conflict (R117). Fuel bounds their number: the ninth instruction
breaks R109. -/
def convoyFrom (rd : Word64 → Exec Word32) (ok : Instr → Bool) (m : OpMap) (first : Word64) :
    Nat → Word64 → List Instr → Exec (List Instr)
  | 0, a, _ => stop (.trapAt cConflict 0 (tvalWord a 0) first)
  | fuel + 1, a, got => do
    let afterTransfer := match got.getLast? with
      | some i => isTransfer i
      | none => false
    match ← attempt (convoyWord rd first a) with
    | .error (.trapAt cause ax v r) => if afterTransfer then return got else stop (.trapAt cause ax v r)
    | .error e => stop e
    | .ok w =>
      if !got.isEmpty && cBit w then return got
      else match decodeWith m w stubWords with
        | .error r => stop (.trapAt cIllop 0 (tvalWord a r.idx) first)
        | .ok d =>
          if !ok d.instr then stop (.trapAt cIllop 0 (tvalWord a 0) first)
          else if afterTransfer || !fitsConvoy got d.instr then stop (.trapAt cConflict 0 (tvalWord a 0) first)
          else
            let ext ← extWords rd m first a w (lengthOf m w - 1) 1 []
            match decodeWith m w ext with
            | .error r => stop (.trapAt cIllop 0 (tvalWord a r.idx) first)
            | .ok d => convoyFrom rd ok m first fuel (a + BitVec.ofNat 64 (4 * instrWords d.instr)) (got ++ [d.instr])
/-- An acquire at package scope by an agent of die `d` (R358, R370): it waits for every write the die's clock covers, and
drops the copies of lines homed on other dies that the die's caches hold. -/
def acquireOn (d : Nat) : Exec Unit := do
  check (coveredApplied (← get) d) .wait
  modDie d fun x => { x with copies := [], l2 := x.l2.filter (fun y => homeOf (128 * y.line) == d) }
/-- The dies that a thread's instructions run on: its LEAD die, and the attached ones of a gang (R86). -/
def Place.dieList (p : Place) : List Nat := p.all.map (·.1)
/-- What the dies of a thread have heard is before its later releases (R369). -/
def Thread.hear (t : Thread) (l : List (List Word32)) : Thread := { t with acq := l.foldl clkMerge t.acq }
/-- The current thread's acquire covers what its dies have heard (R369). -/
def hearDies : Exec Unit := modify fun s =>
  { s with cur := s.cur.hear (s.cur.place.dieList.map (fun d => (s.die d).vc)) }
/-- An acquire of the current thread at package scope, on every die its instructions run on (R366, R370). -/
def acquirePkg : Exec Unit := do
  forEach (← get).cur.place.dieList acquireOn
  hearDies
/-- The context of the current thread's instruction fetches. -/
def State.fetchCtx (s : State) : Ctx := s.ctx
/-- The convoy at the current thread's pc starts (R108): its predecessor has drained, every word of it and the word after
it has been fetched, and no word of it breaks a rule. The map in force decodes it: so it does, where a handler has
returned into the rest of a convoy that holds a `dmap` (R114), with the map that `dmap` selected, which is the model's
choice (DESIGN CHOICE, log entry 22). -/
def startConvoy : Exec Unit := do
  performLoads (← get).cur.tid (fun _ => true)
  let s ← get
  check (!s.unknownBusy) .wait
  let pc := s.cur.pc
  if s.cur.entryCheck then
    let w ← fetchWord s.fetchCtx pc
    check (cBit w) (.trapAt cMidConvoy 0 0#64 pc)
  let is ← convoyFrom (fetchWord s.fetchCtx) (fun i => !blockOnly i) s.cur.opMap pc 9 pc []
  modCur fun t => { t with convoy := is, convoyPc := pc, entryCheck := false }
/-- The row CONVOY_START: the current thread's next convoy starts; there is none to start for a thread that is not bound, or
in a convoy. -/
def execConvoyStart (s : State) : Host.Outcome State Fault Refusal :=
  if s.cur.status != .bound || !s.cur.convoy.isEmpty then .next s
  else match startConvoy s with
    | .ok (_, t) => .next t
    | .error e => settle s e

/-! ### Control transfers (R112, R148, R212) -/

/-- The word at `a` of a copied edge program; past its words there is the start of another convoy, which no VP executes
(R326). -/
def progWord (p : EdgeProg) (a : Word64) : Word32 :=
  let off := (a - p.base).toNat
  if off % 4 = 0 ∧ off / 4 < p.words.length then p.words.getD (off / 4) 0#32 else 0x80000000#32
/-- The die, core and slot that VP `n` of the current thread's `each` runs on: those whose share holds its cell (R208). -/
def State.vpSlot (s : State) (n : Nat) : Nat × Nat × Nat :=
  let lead := (s.cur.place.die, s.cur.place.core, s.cur.place.slot)
  match s.cur.each with
  | some j =>
    if j.src.parts ≤ 1 then lead
    else s.cur.place.shares.getD (shareOfRow j.src.parts (j.frame.headD 1) (n / extProd j.frame.tail)) lead
  | none => lead
/-- The context of VP `i` of group `g` of the current thread: a VP runs on the die that holds its cell (R208). -/
def State.vpCtx (s : State) (g i : Nat) : Ctx :=
  let (d, c, z) := s.vpSlot (8 * g + i)
  { s.ctx with who := .vp s.cur.tid g, die := d, core := c, what := .vp g, kindHi := 12, slot := 4 * c + z }
/-- The word at `a` of a VP block: of the block in memory, or of the copied edge program (R326). -/
def blockWord (a : Word64) : Exec Word32 := do
  let s ← get
  match s.runner with
  | .edgeVp d c _ _ =>
    match (s.core d c).edge with
    | r :: _ =>
      match r.prog with
      | some p => return progWord p a
      | none => trapNow cIllop a
    | [] => trapNow cIllop a
  | .vp g i => fetchWord (s.vpCtx g i) a
  | .thread => fetchWord s.fetchCtx a
/-- Transfer control to `target`, which must begin a convoy: a word with C = 0 traps before it is decoded, with TPC
the transfer and TVAL the target, and the transfer has no effect (R112). -/
def transferTo (target : Word64) : Exec Flow := do
  let pc ← curPc
  let w ← blockWord target
  check (cBit w) (.trapAt cMidConvoy 0 (tvalAddr target) pc)
  return .goto target

end Sys2Proof.Machine
end

