-- ==== Sys2Proof/Machine/Flags.lean ====
section
/-!
DEFINITION. What MODE, FLAGS and the LFSRs do to a result: the rounding environment of R61 and R64, draws (R62), and
the OR into k7 that EXMSEL selects (R67).
-/
namespace Sys2Proof.Machine

/-- MODE.RM (R64). -/
def modeRm (m : Word64) : Nat := (m.extractLsb' 0 3).toNat
/-- Whether MODE.RM is reserved (R61). -/
def rmReserved (m : Word64) : Bool := decide (5 ≤ modeRm m)
/-- The environment MODE gives, its substitutes by SUBSEL with constant window entry q31 (R58, R64). -/
def envOf (m q31 : Word64) : Env :=
  { rm := rmOf (modeRm m), isat := m.getLsbD 3, nsat := m.getLsbD 4
    sub := .sel (m.extractLsb' 5 2).toNat q31.toNat }
/-- Constant window entry q(n) of the current thread (R102). -/
def State.window (s : State) (n : Nat) : Word64 :=
  s.mySlot.consts.getD ((s.cur.csr.cbase.toNat % 256 + n) % 256) 0#64
/-- The environment of the current instruction. -/
def getEnv : Exec Env := do
  let s ← get
  return envOf s.modeOf (s.window 31)
/-- Trap ILLOP where MODE.RM is reserved (R61). -/
def needRm : Exec Unit := do
  let s ← get
  legal (!rmReserved s.modeOf)

/-- The slot whose LFSRs an instruction draws from: for a VP of an edge program the one its run was posted from, if the
thread's array state is still there (R211, R321). -/
def State.lfsrSlot (s : State) : Option (Nat × Nat × Nat) :=
  match s.runner with
  | .edgeVp d c _ _ =>
    match (s.core d c).edge with
    | r :: _ => if (s.slotAt d c (r.slot % 4)).owner = some r.tid then some (d, c, r.slot % 4) else none
    | [] => none
  | _ => if s.arrAbsent then none else some (s.cur.place.die, s.cur.place.core, s.cur.place.slot)
/-- A draw from LFSR `j` (R62), which every die of a gang holds. Where the array state is in another slot, the LFSR is not
within reach, and the draw is a free value (log entry 8). -/
def drawLfsr (j : Nat) : Exec Nat := do
  let s ← get
  match s.lfsrSlot with
  | none =>
    let n ← drawNo
    return Config.freeCode n % 65536
  | some (d, c, z) =>
    let x := (s.slotAt d c z).arr.lfsr.getD j 1#32
    let next := fun (a : ArrState) => { a with lfsr := listSet a.lfsr j (lfsrNext x) }
    set (match s.runner with
      | .edgeVp _ _ _ _ => s.setSlotAt d c z { s.slotAt d c z with arr := next (s.slotAt d c z).arr }
      | _ => s.modArr fun _ a => next a)
    return lfsrDraw x
/-- A draw if the rounding mode is stochastic and the value is finite, 0 otherwise. -/
def drawFor (env : Env) (j : Nat) (x : FVal) : Exec Nat :=
  if env.rm = .sto ∧ x.isFin then drawLfsr j else pure 0
/-- The LFSR a scalar floating instruction draws from: 16, or that of the VP's group (R145, R211). -/
def State.scalarLfsr (s : State) : Nat :=
  match s.runner with
  | .thread => 16
  | .vp g _ => g % 16
  | .edgeVp _ _ g _ => g % 16

/-- The FLAGS bit that EXMSEL's class selects (R65). -/
def exmFlag (sel : Nat) : Flg :=
  match sel with
  | 1 => flgNV | 2 => flgOF | 3 => flgUF | 4 => flgNX | 5 => flgDZ | 6 => flgSB | 7 => flgPZ
  | _ => flgNone
/-- The bits R67 ORs into k7: a 1 where the selected class fired for an element. -/
def exmBits (sel : Nat) (fs : List Flg) : List Bool := fs.map (fun f => (f &&& exmFlag sel) != flgNone)
/-- OR of two bit lists, as long as the longer. -/
def orBits : List Bool → List Bool → List Bool
  | [], y => y
  | x, [] => x
  | a :: x, b :: y => (a || b) :: orBits x y

end Sys2Proof.Machine
end

