-- ==== Sys2Proof/Machine/Operands.lean ====
section
/-!
DEFINITION. Array operands: tags and storage (R25 to R28, R47 to R50), elements and their values, masks and units
(R165 to R168), agreement (R31, R32), allocation (R38, R39, R43 to R46), and the one writer of array results (R58, R60,
R164, R166, R184).
-/
namespace Sys2Proof.Machine

/-! ### Tags and storage (R26, R28, R47, R48) -/

/-- A TYPE and BL. -/
structure Tag where
  ty : BitVec 4
  bl : BitVec 2
  deriving DecidableEq, Repr
/-- The tag of a register. -/
def ArrReg.tag (r : ArrReg) : Tag := { ty := r.ty, bl := r.bl }
/-- An unscaled integer tag. -/
def Tag.isInt (t : Tag) : Bool := t.bl == 0#2 && !tyFloat t.ty
/-- Granules in a block, 1 for BL = 0 (R49). -/
def blkOf (bl : BitVec 2) : Nat := if bl = 0#2 then 1 else 2 ^ (bl.toNat - 1)
/-- Elements in a unit: an element group, or a block of a scaled tag (R165). -/
def Tag.unitLen (t : Tag) : Nat := tyPer t.ty * blkOf t.bl
/-- The last extent, 1 for rank 0 (R28). -/
def lastExt (ext : List Nat) : Nat := ext.getLastD 1
/-- a / b rounded up. -/
def ceilDiv (a b : Nat) : Nat := (a + b - 1) / b
/-- The next multiple of `k` at or above `n`. -/
def roundUp (n k : Nat) : Nat := ceilDiv n k * k
/-- `granules_needed` (R28). -/
def granulesNeeded (t : Tag) (ext : List Nat) : Nat :=
  if t.bl = 0#2 then ceilDiv (extProd ext) (tyPer t.ty)
  else extProd ext.dropLast * ceilDiv (lastExt ext) t.unitLen * blkOf t.bl
/-- The granule of element `i` of an array that lies on one die, and its place in that granule (R28, R48). -/
def placeOf (t : Tag) (ext : List Nat) (i : Nat) : Nat × Nat :=
  let per := tyPer t.ty
  if t.bl = 0#2 then (i / per, i % per)
  else
    let last := lastExt ext
    let row := i / last
    let col := i % last
    (row * (ceilDiv last t.unitLen * blkOf t.bl) + col / per, col % per)
/-- The shape of share `j` of an array spread over `parts` dies (R43). -/
def shareExt (parts : Nat) (ext : List Nat) (j : Nat) : List Nat :=
  match ext with
  | [] => []
  | n :: r => (shareLo parts n (j + 1) - shareLo parts n j) :: r
/-- Granules of the shares before share `j`. -/
def shareBase (parts : Nat) (t : Tag) (ext : List Nat) (j : Nat) : Nat :=
  ((List.range j).map (fun k => granulesNeeded t (shareExt parts ext k))).sum
/-- The granules of all shares of an array. -/
def allGranules (parts : Nat) (t : Tag) (ext : List Nat) : Nat :=
  if parts ≤ 1 then granulesNeeded t ext else shareBase parts t ext parts
/-- The granule of element `i` of an array whose shares lie one after the other, and its place in that granule. -/
def placeIn (parts : Nat) (t : Tag) (ext : List Nat) (i : Nat) : Nat × Nat :=
  if parts ≤ 1 then placeOf t ext i
  else
    let (j, k) := shareOf parts ext i
    let (g, p) := placeOf t (shareExt parts ext j) k
    (shareBase parts t ext j + g, p)
/-- An empty granule. -/
def Granule.zero : Granule := { data := 0#256, scale := 0x7F#8, poison := false }

/-! ### Elements (R48 to R50) -/

/-- An element as stored: its code, the scale byte of its block, its granule in the storage of its die (R184) and whether
that is poisoned. -/
structure Elem where
  code : Nat
  scale : Nat
  gran : Nat
  poison : Bool
  deriving DecidableEq, Repr
/-- Element `i` of a register. -/
def ArrReg.elem (r : ArrReg) (i : Nat) : Elem :=
  let (g, j) := placeIn r.parts r.tag r.ext i
  let w := tyWidth r.ty
  let x := r.gran.getD g Granule.zero
  let b := blkOf r.bl
  { code := (x.data.toNat >>> (j * w)) % 2 ^ w
    scale := if r.bl = 0#2 then 0x7F else (r.gran.getD (g / b * b) Granule.zero).scale.toNat
    gran := if r.parts ≤ 1 then g else g - shareBase r.parts r.tag r.ext (shareOf r.parts r.ext i).1
    poison := x.poison }
/-- The number of elements of a register. -/
def ArrReg.count (r : ArrReg) : Nat := extProd r.ext
/-- The block of element `i`, and its position in that block. -/
def ArrReg.blockPos (r : ArrReg) (i : Nat) : Nat × Nat :=
  let (g, j) := placeIn r.parts r.tag r.ext i
  (g / blkOf r.bl, g % blkOf r.bl * tyPer r.ty + j)
/-- The value of an element, and SB where it reads as a substitute (R50). -/
def elemValue (sub : SubSpec) (t : Tag) (e : Elem) : Val × Flg :=
  if t.bl = 0#2 then (decodeVal t.ty e.code, flgNone)
  else if e.scale = 255 then
    let neg := e.code.testBit (tyWidth t.ty - 1)
    if t.ty = 12#4 ∨ t.ty = 13#4 then (.flt (.nan neg), flgNone)
    else (.flt (decodeVal t.ty (substitute sub t.ty neg)).toF, flgSB)
  else (.flt ((decodeVal t.ty e.code).toF.scale ((e.scale : Int) - 127)), flgNone)
/-- TVAL of a poisoned granule of an array register (R184). -/
def poisonVal (reg gran : Nat) : Word64 := BitVec.ofNat 64 (2 ^ 63 + reg % 32 * 2 ^ 32 + gran % 2 ^ 24)
/-- The value of an element that is consumed (R184). -/
def consume (sub : SubSpec) (reg : Nat) (t : Tag) (e : Elem) : Except Exc (Val × Flg) :=
  if e.poison then .error (.trap cPoison 0 (poisonVal reg e.gran)) else .ok (elemValue sub t e)
/-- A pure evaluation as a piece of an instruction. -/
def liftE {α : Type} (x : Except Exc α) : Exec α := fun s =>
  match x with
  | .ok a => .ok (a, s)
  | .error e => .error e
/-- An integer value. -/
def Val.toInt : Val → Int
  | .int n => n
  | .flt _ => 0
  | .pow _ _ => 0

/-! ### Indices -/

/-- Coordinates of flattened index `i` in a shape, row-major. -/
def unravel : List Nat → Nat → List Nat
  | [], _ => []
  | n :: r, i => (i / extProd r % n) :: unravel r i
/-- Flattened index of coordinates. -/
def ravel : List Nat → List Nat → Nat
  | _ :: r, c :: cs => c * extProd r + ravel r cs
  | _, _ => 0

/-! ### Rank and agreement (R29, R31, R32, R45) -/

/-- The cell rank of an RK field; full counts as 8. -/
def rkVal (r : BitVec 3) : Nat := if r = 7#3 then 8 else r.toNat
/-- Frame and cell of a shape at rank `k` (R29). -/
def frameCell (ext : List Nat) (k : Nat) : List Nat × List Nat := ext.splitAt (ext.length - k)
/-- Trap 0x04 (R32). -/
def frameMismatch (axis ea eb : Nat) : Exc :=
  .trap cFrame axis (BitVec.ofNat 64 (ea % 2 ^ 31 * 2 ^ 31 + eb % 2 ^ 31))
/-- Trap 0x10 with its condition and, where one is named, a register (R46). -/
def badShape (cond reg : Nat) : Exc := .trap cShape 0 (BitVec.ofNat 64 (cond + reg % 32 * 256))
/-- Prefix agreement of two lists of extents, axes counted from `axis`. -/
def agreeAxes (axis : Nat) : List Nat → List Nat → Except Exc Unit
  | a :: x, b :: y => if a = b then agreeAxes (axis + 1) x y else .error (frameMismatch axis a b)
  | _, _ => .ok ()
/-- The longer of two lists of extents. -/
def longer (x y : List Nat) : List Nat := if x.length < y.length then y else x
/-- Agreement of two shapes (R31): the frame and the cell of the result. -/
def agree (ea eb : List Nat) (k : Nat) : Except Exc (List Nat × List Nat) := do
  let (fa, ca) := frameCell ea k
  let (fb, cb) := frameCell eb k
  agreeAxes 0 fa fb
  agreeAxes (longer fa fb).length ca cb
  return (longer fa fb, longer ca cb)
/-- The flattened index, in an operand of shape `e` whose frame has rank `f`, of the element that R31 broadcasts to
coordinates `c` of a result whose frame has rank `big`. -/
def broadcast (e : List Nat) (f big : Nat) (c : List Nat) : Nat :=
  ravel e ((c.take big).take f ++ (c.drop big).take (e.length - f))
/-- `broadcast` of a flattened result index, at rank `k`. -/
def spreadIdx (e : List Nat) (k : Nat) (frame cell : List Nat) (i : Nat) : Nat :=
  broadcast e (e.length - k) frame.length (unravel (frame ++ cell) i)

/-! ### Gangs (R43 to R45) -/

/-- Whether a register is spread over the dies of a gang. -/
def spread (dies : Nat) (r : ArrReg) : Bool := decide (1 < dies) && !r.repl && !r.ext.isEmpty
/-- Whether a spread register's cell at rank `k` holds the spread axis. -/
def cellSpread (dies : Nat) (r : ArrReg) (k : Nat) : Bool := spread dies r && decide (r.ext.length ≤ k)
/-- The dies a result is spread over (R43): one, or all of the gang. -/
def partsOf (dies : Nat) (ext : List Nat) (repl : Bool) : Nat := if dies ≤ 1 || repl || ext.isEmpty then 1 else dies
/-- The part of a register that attached die `j` holds, counted in gang order (R43). -/
def ArrReg.share (r : ArrReg) (j : Nat) : ArrReg :=
  if r.parts ≤ 1 then r
  else { r with gran := (r.gran.drop (shareBase r.parts r.tag r.ext j)).take (granulesNeeded r.tag (shareExt r.parts r.ext j)) }
/-- G of a result: rank 0, or all its sources of rank 1 or more are replicated (R43, R207). -/
def resultRepl (dies : Nat) (ext : List Nat) (srcs : List ArrReg) : Bool :=
  let big := srcs.filter (fun r => !r.ext.isEmpty)
  decide (1 < dies) && (ext.isEmpty || (!big.isEmpty && big.all (·.repl)))
/-- Granules a result needs on one die: those of the largest share (R44). -/
def needOn (dies : Nat) (t : Tag) (ext : List Nat) (repl : Bool) : Nat :=
  match ext with
  | [] => granulesNeeded t []
  | n :: r => granulesNeeded t (if dies ≤ 1 || repl then n :: r else ceilDiv n dies :: r)
/-- Granules a register holds. -/
def ArrReg.held (dies : Nat) (r : ArrReg) : Nat := if r.isEmpty then 0 else needOn dies r.tag r.ext r.repl
/-- Granules of a mask register (R167). -/
def MaskReg.held (m : MaskReg) : Nat := ceilDiv m.bits.length 256
/-- Granules a slot's owner holds, but for the core's sparse result (R250). -/
def Slot.held (z : Slot) (dies : Nat) : Nat :=
  (z.arr.regs.map (ArrReg.held dies)).sum + (z.arr.masks.map MaskReg.held).sum +
  (z.flight.map (·.reserve)).sum + (z.pins.map (·.need)).sum
/-- Granules the current thread holds (R250). -/
def State.held (s : State) : Nat :=
  let sp := (s.core s.cur.place.die s.cur.place.core).sparse
  s.mySlot.held s.cur.place.dies + (if sp.holder = some s.cur.tid then sp.charge else 0)

/-! ### Reading registers (R27, R37, R167, R168) -/

/-- Array register `r` of an array state that lies in these slots, in gang order: of one spread over a gang, the shares
one after the other (R43). -/
def State.regOn (s : State) (slots : List (Nat × Nat × Nat)) (own : ArrReg) (r : Nat) : ArrReg :=
  if own.parts ≤ 1 then own
  else { own with gran := slots.flatMap (fun (d, c, z) => ((s.slotAt d c z).arr.regs.getD r ArrReg.reset).gran) }
/-- Array register `r` of the current thread. -/
def State.arrReg (s : State) (r : Nat) : ArrReg :=
  s.regOn s.cur.place.shares (s.mySlot.arr.regs.getD r ArrReg.reset) r
/-- Array register `r` of the current thread, waiting while its shape is pending (R37). -/
def arrReg (r : Nat) : Exec ArrReg := do
  let x := (← get).arrReg r
  check (!x.pending) .wait
  return x
/-- Trap "bad shape" where a source holds nothing (R27). -/
def needSource (reg : Nat) (r : ArrReg) : Exec Unit := check (!r.isEmpty) (badShape 3 reg)
/-- Bit `i` of mask register `k`; k0 is all ones (R167). -/
def maskBit (ms : List MaskReg) (k i : Nat) : Bool :=
  k == 0 || ((ms.getD (k - 1) MaskReg.reset).bits.getD i false)
/-- The mask a k field names, `none` for k0. -/
def maskOf (ms : List MaskReg) (k : BitVec 3) : Option (Nat → Bool) :=
  if k = 0#3 then none else some (maskBit ms k.toNat)
/-- The masks of the current thread. -/
def getMasks : Exec (List MaskReg) := do return (← get).mySlot.arr.masks
/-- The number of dies the current thread runs across. -/
def getDies : Exec Nat := do return (← get).cur.place.dies

/-! ### Allocation (R38, R39, R46, R205) -/

/-- Most granules one core can hold (R46). -/
def maxGranules : Nat := 57344
/-! ### The units of a matrix engine (R227, R241) -/

/-- The units an entry reads or writes: tiles 0 to 3, macro sets at 4 and 5, the accumulator 6, the sparse result 7. -/
def MOp.units : MOp → List Nat
  | .mbld s => [4 + s]
  | .mbwl s _ => [4 + s]
  | .mmul .ip _ _ t _ => [t, 4 + t % 2]
  | .mmul .op _ _ t _ => [t]
  | .mmul .rw _ _ t sparse => if sparse then [6, 7] else [t, 6]
  | .mzero t => [t]
  | .mrd t _ => [t]
  | .mwr t => [t]
  | .mspa _ => [6, 7]
  | .mqry sel t _ => if sel = 4 then [t] else if sel = 1 ∨ sel = 2 then [7] else []
/-- The entries of a queue that cannot go on, because they are paused, of those that `own` picks, or wait for a unit that such
an entry holds (R245): `held` lists the units that stuck entries before them use. -/
def stuckIn (own : MEntry → Bool) : List MEntry → List Nat → List Nat
  | [], _ => []
  | e :: r, held =>
    if (own e && (e.stat == .paused || e.stat == .trapped)) || e.op.units.any (fun u => held.contains u) then
      e.id :: stuckIn own r (held ++ e.op.units)
    else stuckIn own r held
/-- The current thread's queue entries that cannot go on before it has dealt with an entry of its own that is paused. -/
def State.stuck (s : State) : List Nat :=
  stuckIn (fun e => e.tid == s.cur.tid) (s.core s.cur.place.die s.cur.place.core).queue []
/-- Whether results in flight of the current thread, or storage its matrix entries pin, will still return storage: those of
unknown size, and those of every entry that can go on. -/
def State.willFree (s : State) : Bool :=
  s.mySlot.flight.any (fun f => match f.kind with
    | .unknown _ _ => true
    | .entry id => !s.stuck.contains id) ||
  s.mySlot.pins.any (fun p => p.ids.all (fun id => !s.stuck.contains id))
/-- Room for `need` granules in the current thread's grant: waits for results in flight, traps where they cannot help
(R39). -/
def allocate (need : Nat) : Exec Unit := do
  let s ← get
  if s.held + need ≤ s.mySlot.grant then pure ()
  else if s.willFree then stop .wait
  else trapNow cQuota (BitVec.ofNat 64 need)
/-- What the current thread's grant leaves free, once results in flight have returned what they do not need (R205). -/
def freeGrant : Exec Nat := do
  let s ← get
  check (!s.willFree) .wait
  return s.mySlot.grant - s.held
/-- Room for a result, its rank checked first (R46). -/
def allocResult (t : Tag) (ext : List Nat) (repl : Bool) (more : Nat) : Exec Unit := do
  check (decide (ext.length ≤ 8)) (badShape 1 0)
  let d ← getDies
  let need := needOn d t ext repl
  check (decide (need ≤ maxGranules)) (badShape 2 0)
  allocate (need + more)
/-- The stretches of its core's bank pool that a slot's owner uses, as first granule and length: its registers and masks,
pinned storage and reservations (R250). -/
def Slot.used (z : Slot) : List (Nat × Nat) :=
  (z.arr.regs.map (fun (r : ArrReg) => (r.sbase.toNat, r.gran.length)) ++
    z.arr.masks.map (fun (m : MaskReg) => (m.sbase.toNat, m.held)) ++ z.pins.map (fun (p : Pin) => (p.base.toNat, p.need)) ++
    z.flight.map (fun (f : InFlight) => (f.base.toNat, f.reserve))).filter (fun u => decide (0 < u.2))
/-- The stretch of the bank pool that a core's sparse result is held in (R237, R250). -/
def SparseRes.used (x : SparseRes) : List (Nat × Nat) := if x.holder.isSome && x.charge != 0 then [(x.base.toNat, x.charge)] else []
/-- The stretches of a core's bank pool that are in use (R249). -/
def CoreSt.used (k : CoreSt) : List (Nat × Nat) :=
  k.sparse.used ++ (k.slots.filter (fun p => p.2.owner.isSome)).flatMap (fun p => p.2.used)
/-- S of R249: the storage banks a core's grants and storage ask for. -/
def CoreSt.storageBanks (k : CoreSt) : Nat :=
  let sum := ((k.slots.filter (fun p => p.2.owner.isSome)).map (fun p => p.2.grant)).sum
  k.used.foldl (fun m u => max m ((u.1 + u.2 - 1) / 1024 + 1)) (ceilDiv sum 1024)
/-- A core with S recomputed (R252): the cache loses the lines of banks that have become storage; released banks join it
empty. -/
def CoreSt.fitBanks (k : CoreSt) : CoreSt :=
  let n := k.storageBanks
  { k with banks := n, adc := k.adc.filter (fun x => decide (n ≤ x.bank)) }
/-- The state with S recomputed on these cores. -/
def State.fitBanks (s : State) (l : List (Nat × Nat × Nat)) : State :=
  l.foldl (fun u (d, c, _) => u.setCore d c (u.core d c).fitBanks) s
/-- The state in which storage of a thread in its place that lies above S of a core has raised S (R249). -/
def State.growBanks (s : State) (p : Place) : State :=
  s.fitBanks (p.shares.filter (fun (d, c, z) =>
    ((s.core d c).sparse.used ++ (s.slotAt d c z).used).any (fun u => decide (1024 * (s.core d c).banks < u.1 + u.2))))
/-- Stretches with one more in its place by first granule. -/
def insertStretch (u : Nat × Nat) : List (Nat × Nat) → List (Nat × Nat)
  | [] => [u]
  | v :: r => if u.1 ≤ v.1 then u :: v :: r else v :: insertStretch u r
/-- The gaps below granule `top` between stretches in order, from granule `at_` up: first granule and length. -/
def gapsFrom (top : Nat) : Nat → List (Nat × Nat) → List (Nat × Nat)
  | at_, [] => [(at_, top - at_)]
  | at_, (lo, n) :: r => (at_, min lo top - at_) :: gapsFrom top (max at_ (lo + n)) r
/-- The `f`-th place, counted round, at which `n` granules fit into the gaps, if they fit anywhere. -/
def pickBase (gaps : List (Nat × Nat)) (n f : Nat) : Option Nat :=
  let fits := gaps.filter (fun g => decide (n ≤ g.2))
  let total := (fits.map (fun g => g.2 - n + 1)).sum
  if total = 0 then none
  else fits.foldl (fun (acc : Nat × Option Nat) g =>
    match acc.2 with
    | some _ => acc
    | none => if acc.1 < g.2 - n + 1 then (0, some (g.1 + acc.1)) else (acc.1 - (g.2 - n + 1), none)) (f % total, none) |>.2
/-- Where a core places `n` granules of new storage: in its storage banks where they fit there, in banks 0 to 55 else, and
apart from all storage in use; which of the places that fit is free (R25, R249, log entry 6). -/
def CoreSt.place (k : CoreSt) (n f : Nat) : BitVec 16 :=
  if n = 0 then 0#16
  else
    let used := k.used.foldl (fun l u => insertStretch u l) []
    BitVec.ofNat 16 (((pickBase (gapsFrom (1024 * k.storageBanks) 0 used) n f).orElse
      (fun _ => pickBase (gapsFrom maxGranules 0 used) n f)).getD (f % (maxGranules + 1 - n)))
/-- Matrix entries of the current thread that still read register `d` pin its storage (R226). -/
def pinOld (s : State) (d : Nat) : State :=
  let di := s.cur.place.die
  let co := s.cur.place.core
  let k := s.core di co
  let ids := (k.queue.filter (fun e => e.tid == s.cur.tid && e.srcRegs.contains d)).map (·.id)
  if ids.isEmpty then s
  else
    let old := s.mySlot.arr.regs.getD d ArrReg.reset
    let s1 := s.setCore di co { k with queue := k.queue.map (fun e =>
      if e.tid = s.cur.tid then { e with srcRegs := e.srcRegs.filter (· != d) } else e) }
    let z := s1.mySlot
    s1.setMySlot { z with pins := z.pins ++ [{ base := old.sbase, need := old.held s.cur.place.dies, ids := ids }] }
/-- Where attached die `j` of a place puts `n` granules of new storage. -/
def State.placeOn (s : State) (p : Place) (j n free : Nat) : BitVec 16 :=
  let (d, c, _) := p.shares.getD j (0, 0, 0)
  (s.core d c).place n free
/-- The current thread's handler has dealt with its paused entry: the entry takes what the grant leaves free, and goes on
(R245). -/
def resumePaused : Exec Unit := do
  let s ← get
  let d := s.cur.place.die
  let c := s.cur.place.core
  match (s.core d c).queue.find? (fun e => e.tid == s.cur.tid && e.stat == .trapped) with
  | none => pure ()
  | some e =>
    let n ← drawNo
    let more := s.mySlot.grant - s.held
    modCore d c fun k => { k with queue := k.queue.map (fun f =>
      if f.id = e.id then { f with stat := .waiting, reserve := f.reserve + more } else f) }
    modify fun u =>
      let z := u.mySlot
      let rest := u.setMySlot { z with flight := z.flight.filter (fun f => f.kind != .entry e.id) }
      (u.setMySlot { z with flight := z.flight.map (fun f =>
        if f.kind = .entry e.id then
          { f with reserve := f.reserve + more
                   base := rest.placeOn u.cur.place 0 (f.reserve + more) (Config.freeSbase n).toNat }
        else f) }).growBanks u.cur.place
/-- The state with array register `d` of the current thread replaced, each die taking its share (R43) and placing its
storage by the free value (R38). -/
def putArr (s : State) (d : Nat) (r : ArrReg) (free : Nat) : State :=
  let s1 := pinOld s d
  s1.modArr fun j a =>
    let q := r.share j
    { a with regs := listSet a.regs d { q with sbase := s1.placeOn s1.cur.place j q.gran.length free } }
/-- Write array register `d` into new storage (R38). -/
def writeArr (d : Nat) (r : ArrReg) : Exec Unit := do
  let n ← drawNo
  modify fun s => (putArr s d r (Config.freeSbase n).toNat).growBanks s.cur.place
/-- Write array register `d` into the storage it holds: a resumable instruction that goes on (R42). -/
def rewriteArr (d : Nat) (r : ArrReg) : Exec Unit := modify fun s =>
  s.modArr fun j a =>
    { a with regs := listSet a.regs d { r.share j with sbase := (a.regs.getD d ArrReg.reset).sbase } }
/-- Write mask register `k`; k0 ignores writes (R167). Every die of a gang holds it whole. -/
def writeMask (k : Nat) (bits : List Bool) : Exec Unit := do
  if k = 0 then pure ()
  else
    let n ← drawNo
    modify fun s =>
      let put := fun (j : Nat) (a : ArrState) =>
        let base := s.placeOn s.cur.place j (ceilDiv bits.length 256) (Config.freeSbase n).toNat
        { a with masks := listSet a.masks (k - 1) { bits := bits, sbase := base, poison := [] } }
      (s.modArr put).growBanks s.cur.place

/-! ### Writing results (R58, R60, R62, R164 to R166, R184, R189) -/

/-- What an instruction gives for one element: a value to be converted, or a code copied bit for bit. -/
inductive Out
  | val (v : Val) (fl : Flg)
  | code (c : Nat) (poison : Bool) (fl : Flg)
  deriving DecidableEq, Repr
/-- A result to be written: tag, shape, the old descriptor, the environment, the mask, the elements, whether a masked
element's source is poisoned, and the scale a unit takes that is written in codes. -/
structure Emit where
  tag : Tag
  ext : List Nat
  old : ArrReg
  env : Env
  mask : Option (Nat → Bool)
  give : Nat → Except Exc Out
  pz : Nat → Bool
  whole : Nat → Nat → Option Nat
  /-- The dies it is spread over: units are cut from each die's share (R43, R165). -/
  parts : Nat := 1
  /-- Elements that an earlier run of a resumable instruction has finished: they stay as they are (R42). -/
  done : Nat → Bool := fun _ => false
/-- A written result: granules, flags by element, LFSRs. -/
structure Emitted where
  gran : List Granule
  fls : List Flg
  lfsr : List Word32
  deriving DecidableEq, Repr

/-- The first element and the length of each unit of a row, by a bound on their number. -/
def rowUnits (len : Nat) : Nat → Nat → Nat → List (Nat × Nat)
  | 0, _, _ => []
  | f + 1, first, left => if left = 0 then [] else (first, min len left) :: rowUnits len f (first + len) (left - len)
/-- The units of a shape that lies on one die, in increasing index (R165): first element and length. -/
def unitsOn (t : Tag) (ext : List Nat) : List (Nat × Nat) :=
  let n := extProd ext
  if t.bl = 0#2 then rowUnits t.unitLen (ceilDiv n t.unitLen) 0 n
  else
    let last := lastExt ext
    if n = 0 then []
    else (List.range (n / last)).flatMap (fun r => rowUnits t.unitLen (ceilDiv last t.unitLen) (r * last) last)

/-- The units of a shape in increasing index: of one that is spread, those of each die's share (R43). -/
def unitsOf (parts : Nat) (t : Tag) (ext : List Nat) : List (Nat × Nat) :=
  if parts ≤ 1 then unitsOn t ext
  else (List.range parts).flatMap fun j =>
    (unitsOn t (shareExt parts ext j)).map (fun u => (shareLo parts (ext.headD 1) j * extProd ext.tail + u.1, u.2))

/-- Granules holding codes, each with a scale byte; `bad` marks poisoned ones. Codes are laid out from bit 0 up. -/
def packCodes (w : Nat) (codes : List Nat) : Nat := codes.foldr (fun c acc => c % 2 ^ w + acc * 2 ^ w) 0
/-- The granules of one unit. -/
def packUnit (t : Tag) (codes : List Nat) (scale : Nat) (bad : Nat → Bool) : List Granule :=
  let per := tyPer t.ty
  (List.range (blkOf t.bl)).map fun g =>
    let here := (codes.drop (g * per)).take per
    let full := here ++ List.replicate (per - here.length) (if t.bl = 0#2 then 0 else tyZero t.ty)
    { data := BitVec.ofNat 256 (packCodes (tyWidth t.ty) full), scale := BitVec.ofNat 8 scale, poison := bad g }

/-- Whether a value takes a draw when it is written to a tag (R62). Any finite value that is converted under RM = 4 does,
also where R61 does not count the conversion as rounding by RM, since every value it can receive is exact (a compare's 0
or 1 into a float tag, BF16 into FP32): whether it does there is the model's choice (DESIGN CHOICE, log entry 23). -/
def takesDraw (env : Env) (t : Tag) (v : Val) : Bool :=
  env.rm == .sto && t.ty != tyL6 &&
  (match v with
    | .flt x => x.isFin
    | .pow _ _ => true
    | .int _ => t.bl != 0#2 || tyFloat t.ty)
/-- A value divided by 2^(e − 127). -/
def unscale (e : Nat) (v : Val) : FVal := v.toF.scale (127 - (e : Int))
/-- Conversion of one element of a tag, with draw `d` (R58, R60): `e` is the block's scale byte. -/
def convTag (env : Env) (t : Tag) (e : Nat) (v : Val) (d : Nat) : Conv :=
  if t.bl = 0#2 then convert env t.ty v d
  else match v with
    | .flt y => convertF env t.ty (y.scale (127 - (e : Int))) d
    | .pow a f => convert env t.ty (Val.scale (.pow a f) (127 - (e : Int))) d
    | .int n => convertF env t.ty ((fofInt n).scale (127 - (e : Int))) d true
/-- Conversion of one element of flattened index `i`, with its draw (R58, R60, R62): `e` is the block's scale byte. -/
def convElem (env : Env) (t : Tag) (e i : Nat) (v : Val) (lfsr : List Word32) : Conv × List Word32 :=
  let j := i / tyPer t.ty % 16
  let x := lfsr.getD j 1#32
  let draws := takesDraw env t v
  let d := if draws then lfsrDraw x else 0
  (convTag env t e v d, if draws then listSet lfsr j (lfsrNext x) else lfsr)

/-- What stands for one element of a unit that is written: kept (its old element, if the descriptors match) or given. -/
inductive Cell
  | kept (e : Option Elem) (fl : Flg)
  | given (o : Out)
  deriving DecidableEq, Repr
/-- The value a cell enters quantization with (R60, R166). -/
def Cell.value (sub : SubSpec) (t : Tag) : Cell → FVal
  | .kept none _ => fzero false
  | .kept (some e) _ => (elemValue sub t e).1.toF
  | .given (.val v _) => v.toF
  | .given (.code c _ _) => (decodeVal t.ty c).toF
/-- Write the elements of a unit in order: codes, flags and LFSRs. `e` is the scale byte; `codesOnly` says that kept
elements keep their codes. -/
def writeCells (env : Env) (t : Tag) (e : Nat) (codesOnly : Bool) :
    Nat → List Cell → List Word32 → List Nat × List Flg × List Word32
  | _, [], l => ([], [], l)
  | i, c :: r, l =>
    let (code, fl, l1) : Nat × Flg × List Word32 := match c with
      | .kept none f =>
        (if t.bl = 0#2 || codesOnly then tyZero t.ty
          else (convertF env.nearest t.ty (fzero false) 0).code, f, l)
      | .kept (some x) f =>
        (if t.bl = 0#2 || codesOnly then x.code
          else (convertF env.nearest t.ty (unscale e (elemValue env.sub t x).1) 0).code, f, l)
      | .given (.code k _ f) => (k, f, l)
      | .given (.val v f) =>
        let (k, l2) := convElem env t e i v l
        (k.code, f ||| k.flags, l2)
    let (cs, fs, l3) := writeCells env t e codesOnly (i + 1) r l1
    (code :: cs, fl :: fs, l3)
/-- Whether a cell makes the granule that holds it poisoned, and whether its whole unit (R166, R184). -/
def Cell.bad : Cell → Bool
  | .kept (some e) _ => e.poison
  | .kept none _ => false
  | .given (.code _ p _) => p
  | .given (.val _ _) => false
def Cell.badKept : Cell → Bool
  | .kept (some e) _ => e.poison
  | _ => false
/-- The old descriptor matches the result (R166). -/
def Emit.matches (p : Emit) : Bool := !p.old.isEmpty && p.old.tag == p.tag && p.old.ext == p.ext
/-- The cell of element `i`. -/
def Emit.cell (p : Emit) (i : Nat) : Except Exc Cell :=
  if (match p.mask with
    | some m => m i
    | none => true) then (p.give i).map .given
  else
    let e := if p.matches then some (p.old.elem i) else none
    let bad := p.pz i || (match e with
      | some x => x.poison
      | none => false)
    .ok (.kept e (flgIf bad flgPZ))
/-- Whether a register's elements lie in the granules that the result's elements are to lie in. -/
def Emit.samePlaces (p : Emit) : Bool := p.old.parts == p.parts || (decide (p.old.parts ≤ 1) && decide (p.parts ≤ 1))
/-- The unit of `n` elements from `first` with its old elements, the granules of the old register being cut elsewhere: their
codes, and where they come from blocks of different scales, their values quantized afresh (log entry 25). -/
def Emit.moved (p : Emit) (first n : Nat) : List Granule :=
  let es := (List.range n).map (fun i => p.old.elem (first + i))
  let e := (es.headD { code := 0, scale := 0x7F, gran := 0, poison := false }).scale
  let cells := es.map (fun x => Cell.kept (some x) flgNone)
  let same := es.all (fun x => x.scale == e)
  let sc := if same then e else blockScale p.tag.ty (cells.map (Cell.value p.env.sub p.tag))
  let per := tyPer p.tag.ty
  packUnit p.tag (writeCells p.env p.tag sc same first cells []).1 sc
    (fun g => ((es.drop (g * per)).take per).any (·.poison))
/-- The old granules of a skipped unit, or zeros (R166). -/
def Emit.skipped (p : Emit) (first n : Nat) : List Granule :=
  let b := blkOf p.tag.bl
  if !p.matches then packUnit p.tag (List.replicate p.tag.unitLen (tyZero p.tag.ty)) 0x7F (fun _ => false)
  else if p.samePlaces then (p.old.gran.drop (placeIn p.old.parts p.tag p.ext first).1).take b
  else p.moved first n
/-- Write one unit. -/
def Emit.unit (p : Emit) (first n : Nat) (l : List Word32) : Except Exc Emitted := do
  let is := (List.range n).map (first + ·)
  let skip := match p.mask with
    | some m => is.all (fun i => !m i)
    | none => false
  if skip || is.all p.done then return { gran := p.skipped first n, fls := List.replicate n flgNone, lfsr := l }
  else
    let cells ← is.mapM p.cell
    let w := p.whole first n
    let e := match w with
      | some sc => sc
      | none => if p.tag.bl = 0#2 then 0x7F else blockScale p.tag.ty (cells.map (Cell.value p.env.sub p.tag))
    let (codes, fls, l2) := writeCells p.env p.tag e w.isSome first cells l
    let per := tyPer p.tag.ty
    let all := cells.any Cell.badKept
    let bad := fun g => all || ((cells.drop (g * per)).take per).any Cell.bad
    return { gran := packUnit p.tag codes (if p.tag.bl = 0#2 then 0x7F else e) bad, fls := fls, lfsr := l2 }
/-- Write units in order. -/
def Emit.units (p : Emit) : List (Nat × Nat) → List Word32 → Except Exc Emitted
  | [], l => .ok { gran := [], fls := [], lfsr := l }
  | (first, n) :: r, l => do
    let u ← p.unit first n l
    let v ← p.units r u.lfsr
    return { gran := u.gran ++ v.gran, fls := u.fls ++ v.fls, lfsr := v.lfsr }
/-- Write a result. -/
def Emit.run (p : Emit) (l : List Word32) : Except Exc Emitted := p.units (unitsOf p.parts p.tag p.ext) l
/-- All the flags of a result. -/
def allFlags (fs : List Flg) : Flg := fs.foldl (· ||| ·) flgNone
/-- A register with a result in it. -/
def regOf (parts : Nat) (t : Tag) (ext : List Nat) (repl : Bool) (g : List Granule) : ArrReg :=
  { ty := t.ty, bl := t.bl, ext := ext, isEmpty := false, pending := false, repl := repl, parts := parts, sbase := 0#16
    gran := g }
/-- The LFSRs of the current thread. -/
def getLfsr : Exec (List Word32) := do return (← get).mySlot.arr.lfsr
/-- Replace the LFSRs of the current thread. -/
def setLfsr (l : List Word32) : Exec Unit := modify fun s => s.modArr fun _ a => { a with lfsr := l }
/-- Make a result: its register, and its flags by element. -/
def emitReg (p : Emit) (repl : Bool) : Exec (ArrReg × List Flg) := do
  let l ← getLfsr
  let parts := partsOf (← getDies) p.ext repl
  let r ← liftE (Emit.run { p with parts := parts } l)
  setLfsr r.lfsr
  return (regOf parts p.tag p.ext repl r.gran, r.fls)
/-- Write a result into register `d` and raise its flags (R66); answers them by element. -/
def emitInto (d : Nat) (p : Emit) (repl : Bool) : Exec (List Flg) := do
  let (r, fls) ← emitReg p repl
  writeArr d r
  addFlags (allFlags fls)
  return fls

/-! ### Operation types and rounding (R59, R61) -/

/-- The operation type of sources with these tags (R59). -/
def opType (ts : List Tag) : BitVec 4 :=
  let fl := ts.filter (fun t => !t.isInt)
  if !fl.isEmpty then
    if fl.any (fun t => t.ty == tyFP32) then tyFP32
    else if fl.any (fun t => t.ty == tyBF16) then tyBF16 else tyFP32
  else if ts.any (fun t => t.ty == tyI64) then tyI64
  else if ts.any (fun t => t.ty == tyN32) then (if ts.any (fun t => tySigned t.ty) then tyI64 else tyN32)
  else tyI32
/-- Significant bits and the exponent of the lowest bit of every value of an unscaled type that is not L6. -/
def tyPrec (t : BitVec 4) : Nat × Int :=
  if tyFloat t then ((ffmt t).mbits + 1, 1 - ((ffmt t).bias : Int) - (ffmt t).mbits)
  else (if tySigned t then tyWidth t - 1 else tyWidth t, 0)
/-- Whether a destination type has the infinities and NaNs a source type has. -/
def keepsSpecial (s d : BitVec 4) : Bool :=
  !tyFloat s || (tyFloat d && (!(ffmt s).hasInf || (ffmt d).hasInf) && (!(ffmt s).hasNan || (ffmt d).hasNan))
/-- The greatest magnitude of an unscaled type that is not L6. -/
def tyTop (t : BitVec 4) : FVal :=
  if tyFloat t then decodeIeee (ffmt t) (ffmt t).maxCode
  else fofInt (if tySigned t then - tyMin t else tyMax t)
/-- The bits of every significand that a block's largest element can have without leaving the scaled type once R60 has
scaled it, and the exponent of the type's lowest bit; not for L6. -/
def scaledPrec (t : BitVec 4) : Nat × Int :=
  let p := tyPrec t
  (if t = 12#4 then p.1 - 1 else p.1, p.2)
/-- Whether R60 keeps exact in a scaled type every block of values that are codes of an unscaled type times one power of two
from 2^−127 to 2^127. -/
def blockExact (s d : BitVec 4) : Bool :=
  let (ps, ls) := tyPrec s
  let (pd, ld) := scaledPrec d
  decide (ps ≤ pd) && decide (ld ≤ ls) && decide ((tyTop s).log2 ≤ emaxOf d) && keepsSpecial s d
/-- Whether every value a source can hold is a value of the destination (R61). Of a scaled destination it asks that R60 keeps
every block of such values exact (as R173 says of 0 and 1). A scaled source can bring values of any scale into one tag, and
into one block unless each of d's blocks lies inside one of its own (DEDUCED, log entry 24). -/
def exactInto (s d : Tag) : Bool :=
  if s.bl != 0#2 then
    d.bl != 0#2 && s.unitLen % d.unitLen == 0 &&
      (if s.ty = tyL6 || d.ty = tyL6 then s.ty == d.ty else blockExact s.ty d.ty)
  else if d.bl != 0#2 then
    if s.ty = tyL6 || d.ty = tyL6 then s.ty == d.ty || (d.ty == tyL6 && (s.ty == tyBIT || s.ty == 1#4))
    else
      let (ps, ls) := tyPrec s.ty
      let (pd, ld) := scaledPrec d.ty
      decide (ps ≤ pd) && decide (ld ≤ ls + emaxOf d.ty - (tyTop s.ty).log2) && keepsSpecial s.ty d.ty
  else if s.ty = d.ty then true
  else if s.ty = tyL6 then d.ty == tyFP32
  else if d.ty = tyL6 then s.ty == tyBIT || s.ty == 1#4
  else if !tyFloat d.ty then !tyFloat s.ty && decide (tyMin d.ty ≤ tyMin s.ty) && decide (tyMax s.ty ≤ tyMax d.ty)
  else
    let (ps, ls) := tyPrec s.ty
    let (pd, ld) := tyPrec d.ty
    decide (ps ≤ pd) && decide (ld ≤ ls) && !fltV (tyTop d.ty) (tyTop s.ty) && keepsSpecial s.ty d.ty
/-- Whether every index or extent, a number below 2^31, is a value of a tag (R61). -/
def indexInto (d : Tag) : Bool := d.bl == 0#2 && (d.ty == tyI32 || d.ty == tyI64 || d.ty == tyN32)
/-- The product of two elements: L6 elements multiply by adding their L fields (R56). An element-wise product of scaled
elements (`amul`, `afma`, `aoutmul`) is the exact product of their scaled values, rounded once into d's tag (R164, R169);
that R63's rule for products beyond the FP32 range is for the products of the matrix engine and the sequencer alone is
the model's choice (DESIGN CHOICE, log entry 23). -/
def elemMul (l6 : Bool) (x y : FVal) : FVal × Flg :=
  if l6 then
    match x, y with
    | .fin n1 m1 e1 _, .fin n2 m2 e2 _ =>
      if m1 = 0 ∨ m2 = 0 then (fzero (n1 != n2), flgNone)
      else
        let f := fun m => if m = l6Table 0 then 0 else if m = l6Table 1 then 1 else if m = l6Table 2 then 2 else 3
        let k := f m1 + f m2
        (.fin (n1 != n2) (l6Table (k % 4)) (e1 + e2 + 23 + (k / 4 : Nat)) false, flgNone)
    | _, _ => fmulV x y
  else fmulV x y

/-! ### Exception masks (R67, R168) -/

/-- The flags that reading elements of these tags can raise: SB of a NaN scale byte (R50). -/
def readRaises (srcs : List Tag) : Flg := flgIf (srcs.any (fun t => t.bl != 0#2 && t.ty != 12#4 && t.ty != 13#4)) flgSB
/-- The flags that converting any value of tag `s` into tag `d` can raise, whatever MODE holds (R51, R57, R58). -/
def convCan (s d : Tag) : Flg :=
  if exactInto s d then flgNone
  else
    let flt := !s.isInt
    let special := flt && (if s.bl != 0#2 then s.ty == 12#4 || s.ty == 13#4 else (ffmt s.ty).hasNan)
    let wide := s.bl != 0#2
    if !tyFloat d.ty then
      let out := wide || d.bl != 0#2 || (if flt then fltV (fofInt (tyMax d.ty)) (tyTop s.ty) || !tySigned d.ty
        else decide (tyMin s.ty < tyMin d.ty) || decide (tyMax d.ty < tyMax s.ty))
      flgIf out flgOF ||| flgIf (flt && (out || special)) flgNV ||| flgIf (flt || d.bl != 0#2) flgNX
    else
      let above := wide || d.bl != 0#2 || fltV (tyTop d.ty) (tyTop s.ty)
      let under := wide || d.bl != 0#2 ||
        (flt && (if d.ty = tyL6 then decide ((tyPrec s.ty).2 ≤ -4)
          else if s.ty = tyL6 then decide (-4 < 1 - ((ffmt d.ty).bias : Int)) else decide ((tyPrec s.ty).2 < (tyPrec d.ty).2)))
      let inf := flt && (if wide then s.ty == 13#4 else (ffmt s.ty).hasInf)
      flgIf above flgOF ||| flgIf under flgUF ||| flgNX |||
        flgIf (!(ffmt d.ty).hasInf && (above || inf || (special && !(ffmt d.ty).hasNan))) flgSB
/-- The flags that an instruction can raise which reads sources of these tags and converts their values (R185). -/
def convRaises (srcs : List Tag) (d : Tag) : Flg := readRaises srcs ||| (srcs.map (fun t => convCan t d)).foldl (· ||| ·) flgNone
/-- The flags that bringing a result of an operation type into a tag can raise: a floating result can be any value. -/
def resultRaises (srcs : List Tag) (ot : BitVec 4) (d : Tag) : Flg :=
  readRaises srcs |||
  (if tyFloat ot then
    (if tyFloat d.ty then flgOF ||| flgUF ||| flgNX ||| flgIf (!(ffmt d.ty).hasInf) flgSB else flgOF ||| flgNV ||| flgNX)
  else convCan { ty := ot, bl := 0#2 } d)
/-- EXMSEL of the current thread, 0 where the instruction cannot raise the class (R185). -/
def exmSel (raises : Flg) : Exec Nat := do
  let sel := ((← get).cur.csr.exmsel.extractLsb' 0 3).toNat
  return if (exmFlag sel &&& raises) = flgNone then 0 else sel
/-- Granules that k7 needs when a result of `n` elements is ORed into it (R67, R167). -/
def exmNeed (sel n : Nat) (ms : List MaskReg) : Nat :=
  if sel = 0 then 0 else ceilDiv (max (ms.getD 6 MaskReg.reset).bits.length n) 256
/-- OR the elements in which the class fired into k7 (R67). -/
def exmApply (sel : Nat) (fs : List Flg) : Exec Unit := do
  if sel = 0 then pure ()
  else
    let ms ← getMasks
    writeMask 7 (orBits (ms.getD 6 MaskReg.reset).bits (exmBits sel fs))

/-! ### Counts and parameter blocks (R105, R131, R188) -/

/-- The tag of an array count must be an unscaled integer (R188). -/
def countTag (c : CountSrc) : Exec Unit :=
  match c with
  | .sca _ => pure ()
  | .arr b => do legal (← arrReg b.toNat).tag.isInt
/-- An array count must be full and of rank 0 (R188). -/
def countShape (c : CountSrc) : Exec Unit :=
  match c with
  | .sca _ => pure ()
  | .arr b => do
    let r ← arrReg b.toNat
    needSource b.toNat r
    check r.ext.isEmpty (badShape 5 b.toNat)
/-- The value of a count (R188). -/
def countValue (c : CountSrc) : Exec Int :=
  match c with
  | .sca b => do return (← readReg b).toInt
  | .arr b => do
    let r ← arrReg b.toNat
    let (v, _) ← liftE (consume (.sel 0 0) b.toNat r.tag (r.elem 0))
    return v.toInt
/-- A field of a parameter block, a marker taking its value from a scalar register (R105). -/
def pValue (extent : Bool) (f : BitVec 16) : Exec Nat := do
  if f.toNat < 0xFFE0 then return f.toNat
  else
    let v ← readReg (f.setWidth 5)
    legal (decide (v.toNat < (if extent then 2 ^ 31 else 2 ^ 32)))
    return v.toNat
/-- The extents of a parameter block. -/
def pExtents (p : PBlock) : Exec (List Nat) :=
  mapEach ([p.x0, p.x1, p.x2, p.x3].take p.rank.toNat) (pValue true)

end Sys2Proof.Machine
end

