-- ==== Sys2Proof/Machine/Scalar.lean ====
section
/-!
DEFINITION. The scalar instructions: integer operations and immediates (R140 to R142), loads and stores (R143, R144),
floating operations (R145, R146) and `fli` (R147).
-/
namespace Sys2Proof.Machine

/-! ### Integer operations (R140, R141) -/

/-- Bits of an integer width (R99). -/
def iwBits : IWidth → Nat
  | .w64 => 64 | .w32 => 32 | .w16 => 16 | .w8 => 8
/-- The low `w` bits of a register as an unsigned value. -/
def lowU (w : Nat) (x : Word64) : Nat := x.toNat % 2 ^ w
/-- The low `w` bits of a register as a signed value. -/
def lowS (w : Nat) (x : Word64) : Int :=
  let u := lowU w x
  if u < 2 ^ (w - 1) then (u : Int) else (u : Int) - (2 ^ w : Nat)
/-- The operands of an integer operation: width, ua, ub, sa and sb of R140. -/
structure IntOps where
  w : Nat
  ua : Nat
  ub : Nat
  sa : Int
  sb : Int
  deriving DecidableEq, Repr
/-- The operands in two registers. -/
def intOps (w : Nat) (oa ob : Word64) : IntOps :=
  { w := w, ua := lowU w oa, ub := lowU w ob, sa := lowS w oa, sb := lowS w ob }
/-- The shift count c of R140. -/
def IntOps.c (o : IntOps) : Nat := o.ub % o.w

/-- Rows of R140's table. -/
def rAdd (o : IntOps) : Int := o.sa + o.sb
def rSub (o : IntOps) : Int := o.sa - o.sb
def rMul (o : IntOps) : Int := o.sa * o.sb
def rMulh (u : Bool) (o : IntOps) : Int :=
  if u then ((o.ua * o.ub) / 2 ^ o.w : Nat) else (o.sa * o.sb).fdiv (2 ^ o.w : Nat)
def rDiv (u : Bool) (o : IntOps) : Int := if u then (o.ua / o.ub : Nat) else o.sa.tdiv o.sb
def rRem (u : Bool) (o : IntOps) : Int :=
  if u then (o.ua % o.ub : Nat) else o.sa - o.sb * o.sa.tdiv o.sb
def rMin (u : Bool) (o : IntOps) : Int :=
  if u then (if o.ua ≤ o.ub then o.ua else o.ub : Nat) else (if o.sa ≤ o.sb then o.sa else o.sb)
def rMax (u : Bool) (o : IntOps) : Int :=
  if u then (if o.ua ≤ o.ub then o.ub else o.ua : Nat) else (if o.sa ≤ o.sb then o.sb else o.sa)
def rSlt (u : Bool) (o : IntOps) : Int :=
  if (if u then decide (o.ua < o.ub) else decide (o.sa < o.sb)) then 1 else 0
def rAnd (o : IntOps) : Int := (o.ua &&& o.ub : Nat)
def rOr (o : IntOps) : Int := (o.ua ||| o.ub : Nat)
def rXor (o : IntOps) : Int := (o.ua ^^^ o.ub : Nat)
def rShl (o : IntOps) : Int := (o.ua * 2 ^ o.c : Nat)
def rShr (ar : Bool) (o : IntOps) : Int := if ar then o.sa.fdiv (2 ^ o.c : Nat) else (o.ua / 2 ^ o.c : Nat)
/-- Ones among the low `w` bits. -/
def popCount (x : Nat) : Nat → Nat
  | 0 => 0
  | w + 1 => (if x.testBit w then 1 else 0) + popCount x w
/-- Zeros above the highest one of the low `w` bits. -/
def leadZeros (x : Nat) : Nat → Nat
  | 0 => 0
  | w + 1 => if x.testBit w then 0 else 1 + leadZeros x w
/-- Zeros below the lowest one, counted from bit `i`, of which `n` bits are left. -/
def trailZeros (x i : Nat) : Nat → Nat
  | 0 => 0
  | n + 1 => if x.testBit i then 0 else 1 + trailZeros x (i + 1) n
def rCnt (f : CntOp) (o : IntOps) : Int :=
  match f with
  | .pop => popCount o.ua o.w
  | .clz => leadZeros o.ua o.w
  | .ctz => trailZeros o.ua 0 o.w

/-- A binary integer operation. -/
def intBin (r : IntOps → Int) (w : IWidth) (d a : Reg) (b : Src) : Exec Unit := do
  let oa ← readReg a
  let ob ← readSrc b
  writeReg d (narrow (iwBits w) (r (intOps (iwBits w) oa ob)))
/-- A division or remainder: a zero divisor sets DZ (R141). -/
def intDiv (r : IntOps → Int) (w : IWidth) (d a : Reg) (b : Src) : Exec Unit := do
  let oa ← readReg a
  let ob ← readSrc b
  let o := intOps (iwBits w) oa ob
  whenB (o.ub == 0) (addFlags flgDZ)
  writeReg d (narrow (iwBits w) (r o))

/-- `nop` (R128): nothing. -/
def execNop (s : State) := performSeq .nop (pure ()) s
def execAdd (w : IWidth) (d a : Reg) (b : Src) (s : State) := performSeq (.add w d a b) (intBin rAdd w d a b) s
def execSub (w : IWidth) (d a : Reg) (b : Src) (s : State) := performSeq (.sub w d a b) (intBin rSub w d a b) s
def execMul (w : IWidth) (d a : Reg) (b : Src) (s : State) := performSeq (.mul w d a b) (intBin rMul w d a b) s
def execMulh (u : Bool) (w : IWidth) (d a : Reg) (b : Src) (s : State) :=
  performSeq (.mulh u w d a b) (intBin (rMulh u) w d a b) s
/-- Division; the quotient by zero is 0 (R140), as `Int.tdiv` and `Nat` division give it. -/
def execDiv (u : Bool) (w : IWidth) (d a : Reg) (b : Src) (s : State) :=
  performSeq (.div u w d a b) (intDiv (rDiv u) w d a b) s
/-- Remainder; that by zero is the dividend (R140). -/
def execRem (u : Bool) (w : IWidth) (d a : Reg) (b : Src) (s : State) :=
  performSeq (.rem u w d a b) (intDiv (rRem u) w d a b) s
def execAnd (w : IWidth) (d a : Reg) (b : Src) (s : State) := performSeq (.and w d a b) (intBin rAnd w d a b) s
def execOr (w : IWidth) (d a : Reg) (b : Src) (s : State) := performSeq (.or w d a b) (intBin rOr w d a b) s
def execXor (w : IWidth) (d a : Reg) (b : Src) (s : State) := performSeq (.xor w d a b) (intBin rXor w d a b) s
def execShl (w : IWidth) (d a : Reg) (b : Src) (s : State) := performSeq (.shl w d a b) (intBin rShl w d a b) s
def execShr (ar : Bool) (w : IWidth) (d a : Reg) (b : Src) (s : State) :=
  performSeq (.shr ar w d a b) (intBin (rShr ar) w d a b) s
def execMin (u : Bool) (w : IWidth) (d a : Reg) (b : Src) (s : State) :=
  performSeq (.min u w d a b) (intBin (rMin u) w d a b) s
def execMax (u : Bool) (w : IWidth) (d a : Reg) (b : Src) (s : State) :=
  performSeq (.max u w d a b) (intBin (rMax u) w d a b) s
def execSlt (u : Bool) (w : IWidth) (d a : Reg) (b : Src) (s : State) :=
  performSeq (.slt u w d a b) (intBin (rSlt u) w d a b) s
def execCnt (f : CntOp) (w : IWidth) (d a : Reg) (s : State) :=
  performSeq (.cnt f w d a) (intBin (rCnt f) w d a (.lit 0#32)) s

/-! ### Immediate forms (R142) -/

/-- sext(imm11, 64) (R100). -/
def immI (i : BitVec 11) : Word64 := i.signExtend 64
/-- s[d] := f(s[a]). -/
def immOp (f : Word64 → Word64) (d a : Reg) : Exec Unit := do
  let x ← readReg a
  writeReg d (f x)
def execAddi (d a : Reg) (i : BitVec 11) (s : State) := performSeq (.addi d a i) (immOp (· + immI i) d a) s
def execAndi (d a : Reg) (i : BitVec 11) (s : State) := performSeq (.andi d a i) (immOp (· &&& immI i) d a) s
def execOri (d a : Reg) (i : BitVec 11) (s : State) := performSeq (.ori d a i) (immOp (· ||| immI i) d a) s
def execXori (d a : Reg) (i : BitVec 11) (s : State) := performSeq (.xori d a i) (immOp (· ^^^ immI i) d a) s
def execShli (d a : Reg) (i : BitVec 6) (s : State) := performSeq (.shli d a i) (immOp (· <<< i.toNat) d a) s
def execShri (h : Bool) (d a : Reg) (i : BitVec 6) (s : State) :=
  performSeq (.shri h d a i) (immOp (fun x => if h then x.sshiftRight i.toNat else x >>> i.toNat) d a) s
def execSlti (d a : Reg) (i : BitVec 11) (s : State) :=
  performSeq (.slti d a i) (immOp (fun x => if x.slt (immI i) then 1#64 else 0#64) d a) s
def execLui (d : Reg) (i : BitVec 16) (s : State) :=
  performSeq (.lui d i) (writeReg d (i.signExtend 64 <<< 16)) s
def execLpc (d : Reg) (i : BitVec 16) (s : State) :=
  performSeq (.lpc d i) (do writeReg d ((← curPc) + (i.signExtend 64 <<< 2))) s
/-- `fli` (R147): s[d] := zext(imm20 << 12, 64). -/
def execFli (d : Reg) (i : BitVec 20) (s : State) :=
  performSeq (.fli d i) (writeReg d (i.setWidth 64 <<< 12)) s

/-! ### Loads and stores (R143, R144) -/

/-- The context of a memory access of whoever executes the instruction. -/
def State.accCtx (s : State) : Ctx :=
  match s.runner with
  | .thread => s.ctx
  | .vp g i => s.vpCtx g i
  | .edgeVp d c g _ =>
    match (s.core d c).edge with
    | r :: _ => { unitCtx d 0 r.token.toNat r.tid r.slot with via := .scalar, what := .engine 0 r.token.toNat g, kindHi := 12 }
    | [] => s.ctx
/-- Read a block of `n` bytes that an instruction takes as a whole; poison names the granule met first (R152). -/
def loadBlock (c : Ctx) (va : Word64) (n : Nat) : Exec (List Byte) := do
  let (b, bad) ← named va (readVa c .read va n)
  match bad with
  | g :: _ => trapNow cPoison (BitVec.ofNat 64 (max va.toNat g))
  | [] => return b
/-- Load `n` bytes and sign-extend them; the load may be held back (R368). -/
def loadN (n : Nat) (d a : Reg) (i : BitVec 11) : Exec Unit := do
  let va := (← readReg a) + immI i
  let c := (← get).accCtx
  match ← named va (loadReg c d va n) with
  | some v => writeReg d (narrow (8 * n) (v : Nat))
  | none => pure ()
/-- Store the low `n` bytes of s[d]. -/
def storeN (n : Nat) (d a : Reg) (i : BitVec 11) : Exec Unit := do
  let va := (← readReg a) + immI i
  let x ← readReg d
  let c := (← get).accCtx
  named va (storeVa c va (bytesOfNat n x.toNat))
def execLdd (d a : Reg) (i : BitVec 11) (s : State) := performSeq (.ldd d a i) (loadN 8 d a i) s
def execLdw (d a : Reg) (i : BitVec 11) (s : State) := performSeq (.ldw d a i) (loadN 4 d a i) s
def execLdh (d a : Reg) (i : BitVec 11) (s : State) := performSeq (.ldh d a i) (loadN 2 d a i) s
def execLdb (d a : Reg) (i : BitVec 11) (s : State) := performSeq (.ldb d a i) (loadN 1 d a i) s
def execStd (d a : Reg) (i : BitVec 11) (s : State) := performSeq (.std d a i) (storeN 8 d a i) s
def execStw (d a : Reg) (i : BitVec 11) (s : State) := performSeq (.stw d a i) (storeN 4 d a i) s
def execSth (d a : Reg) (i : BitVec 11) (s : State) := performSeq (.sth d a i) (storeN 2 d a i) s
def execStb (d a : Reg) (i : BitVec 11) (s : State) := performSeq (.stb d a i) (storeN 1 d a i) s

/-! ### Floating operations (R145, R146) -/

/-- The type code of a floating width. -/
def fwTy : FWidth → BitVec 4
  | .f32 => tyFP32
  | .bf16 => tyBF16
/-- The value in the low bits of a register; higher bits are ignored. -/
def fOperand (w : FWidth) (x : Word64) : FVal := decodeF (fwTy w) (x.toNat % 2 ^ tyWidth (fwTy w))
/-- Operand b of a floating operation; a literal's bits are taken as they stand (R99). -/
def readFSrc (w : FWidth) : Src → Exec FVal
  | .reg b => do return fOperand w (← readReg b)
  | .lit l => pure (fOperand w (l.setWidth 64))
/-- Round an exact value into a register, with its flags (R58, R62). -/
def writeFloat (t : BitVec 4) (d : Reg) (x : FVal) (fl : Flg) : Exec Unit := do
  let env ← getEnv
  let j := (← get).scalarLfsr
  let draw ← drawFor env j x
  let c := convertF env t x draw
  addFlags (fl ||| c.flags)
  writeReg d (BitVec.ofNat 64 c.code)
/-- A floating operation of two operands that rounds by RM. -/
def fBin (f : Rm → FVal → FVal → FVal × Flg) (w : FWidth) (d a : Reg) (b : Src) : Exec Unit := do
  needRm
  let x := fOperand w (← readReg a)
  let y ← readFSrc w b
  let env ← getEnv
  let (r, fl) := f env.rm x y
  writeFloat (fwTy w) d r fl
/-- `fma`: x · y + operand(d), one rounding. -/
def fFma (w : FWidth) (d a : Reg) (b : Src) : Exec Unit := do
  needRm
  let x := fOperand w (← readReg a)
  let y ← readFSrc w b
  let z := fOperand w (← readReg d)
  let env ← getEnv
  let (p, f1) := fmulV x y
  let (r, f2) := fadd env.rm p z
  writeFloat (fwTy w) d r (f1 ||| f2)
/-- `fmin` and `fmax`: one operand as it stands, or the canonical NaN; no flag. -/
def fMinMax (mx : Bool) (w : FWidth) (d a : Reg) (b : Src) : Exec Unit := do
  let x := fOperand w (← readReg a)
  let y ← readFSrc w b
  let c := convertF envNearest (fwTy w) (fminmax mx x y) 0
  writeReg d (BitVec.ofNat 64 c.code)
/-- The relation of `fcmp` (R145). -/
def fRel (f : FCmpOp) (x y : FVal) : Bool :=
  match f with
  | .eq => feqV x y
  | .lt => fltV x y
  | .le => fltV x y || feqV x y
  | .un => x.isNan || y.isNan
def fCmp (f : FCmpOp) (w : FWidth) (d a : Reg) (b : Src) : Exec Unit := do
  let x := fOperand w (← readReg a)
  let y ← readFSrc w b
  writeReg d (if fRel f x y then 1#64 else 0#64)
/-- FP32 to I64, rounding toward zero: NaN gives 0, a value out of range the minimum or maximum, both with NV (R146). -/
def f32ToI64 (x : FVal) : Word64 × Flg :=
  match x with
  | .nan _ => (0#64, flgNV)
  | .inf neg => (BitVec.ofInt 64 (if neg then tyMin tyI64 else tyMax tyI64), flgNV)
  | .fin neg m e st =>
    let (n, inexact) := roundMag .rz neg m e 0 st 0
    let v : Int := if neg then -(n : Int) else n
    if v < tyMin tyI64 then (BitVec.ofInt 64 (tyMin tyI64), flgNV)
    else if tyMax tyI64 < v then (BitVec.ofInt 64 (tyMax tyI64), flgNV)
    else (BitVec.ofInt 64 v, flgIf inexact flgNX)
/-- `fcvt` (R146). -/
def fCvt (f : FCvtOp) (d a : Reg) : Exec Unit := do
  match f with
  | .i2s =>
    needRm
    let x ← readReg a
    writeFloat tyFP32 d (fofInt x.toInt) flgNone
  | .s2i =>
    let x ← readReg a
    let (v, fl) := f32ToI64 (fOperand .f32 x)
    addFlags fl
    writeReg d v
  | .s2b =>
    needRm
    let x ← readReg a
    writeFloat tyBF16 d (fOperand .f32 x) flgNone
  | .b2s =>
    let x ← readReg a
    writeReg d (BitVec.ofNat 64 (convertF envNearest tyFP32 (fOperand .bf16 x) 0).code)
def execFadd (w : FWidth) (d a : Reg) (b : Src) (s : State) := performSeq (.fadd w d a b) (fBin fadd w d a b) s
def execFsub (w : FWidth) (d a : Reg) (b : Src) (s : State) :=
  performSeq (.fsub w d a b) (fBin (fun rm x y => fadd rm x y.neg) w d a b) s
def execFmul (w : FWidth) (d a : Reg) (b : Src) (s : State) :=
  performSeq (.fmul w d a b) (fBin (fun _ => fmulV) w d a b) s
def execFdiv (w : FWidth) (d a : Reg) (b : Src) (s : State) :=
  performSeq (.fdiv w d a b) (fBin (fun _ => fdivV) w d a b) s
def execFma (w : FWidth) (d a : Reg) (b : Src) (s : State) := performSeq (.fma w d a b) (fFma w d a b) s
def execFmin (w : FWidth) (d a : Reg) (b : Src) (s : State) := performSeq (.fmin w d a b) (fMinMax false w d a b) s
def execFmax (w : FWidth) (d a : Reg) (b : Src) (s : State) := performSeq (.fmax w d a b) (fMinMax true w d a b) s
def execFcmp (f : FCmpOp) (w : FWidth) (d a : Reg) (b : Src) (s : State) :=
  performSeq (.fcmp f w d a b) (fCmp f w d a b) s
def execFcvt (f : FCvtOp) (d a : Reg) (s : State) := performSeq (.fcvt f d a) (fCvt f d a) s

end Sys2Proof.Machine
end

