-- ==== Sys2Proof/Machine/Control.lean ====
section
/-!
DEFINITION. Branches and jumps (R148), the control and status registers (R149 to R151, R264), `ecall`, `ebreak` and
`tret` (R155, R156), and `dmap` (R161).
-/
namespace Sys2Proof.Machine

/-! ### Branches and jumps (R148) -/

/-- pc + 4 · off (R100). -/
def branchTarget (pc : Word64) (off : Int) : Word64 := pc + BitVec.ofInt 64 (4 * off)
/-- A conditional branch. -/
def branchIf (rel : Word64 → Word64 → Bool) (a b : Reg) (o : BitVec 11) : Exec Flow := do
  let x ← readReg a
  let y ← readReg b
  if rel x y then transferTo (branchTarget (← curPc) o.toInt) else return .seq
def execBeq (a b : Reg) (o : BitVec 11) (s : State) := perform (.beq a b o) (branchIf (· == ·) a b o) s
def execBne (a b : Reg) (o : BitVec 11) (s : State) := perform (.bne a b o) (branchIf (· != ·) a b o) s
def execBlt (a b : Reg) (o : BitVec 11) (s : State) := perform (.blt a b o) (branchIf BitVec.slt a b o) s
def execBge (a b : Reg) (o : BitVec 11) (s : State) :=
  perform (.bge a b o) (branchIf (fun x y => !x.slt y) a b o) s
def execBltu (a b : Reg) (o : BitVec 11) (s : State) := perform (.bltu a b o) (branchIf BitVec.ult a b o) s
def execBgeu (a b : Reg) (o : BitVec 11) (s : State) :=
  perform (.bgeu a b o) (branchIf (fun x y => !x.ult y) a b o) s
/-- The link register of `jal` (R139). -/
def linkReg : Reg := 31#5
/-- `jal`: the link is written only once the target has been found to begin a convoy (R112). -/
def execJal (o : BitVec 21) (s : State) :=
  perform (.jal o) (do
    let pc ← curPc
    let f ← transferTo (branchTarget pc o.toInt)
    writeReg linkReg (pc + 4#64)
    return f) s
/-- `jr`: the target is s[a] with bits [1:0] cleared, read before d is written. -/
def execJr (d a : Reg) (s : State) :=
  perform (.jr d a) (do
    let pc ← curPc
    let t := (← readReg a) &&& ~~~ 3#64
    let f ← transferTo t
    writeReg d (pc + 4#64)
    return f) s

/-! ### Control and status registers (R149 to R151) -/

/-- YDEAD (R89). -/
def ydeadOf (c : Csrs) : Word64 :=
  BitVec.ofNat 64 (c.pcnt.toNat * 2 ^ 48 + (if c.yreq then 2 ^ 32 else 0) + (c.count.getD 0) % 2 ^ 32)
/-- REFWIN (R264): BUSY, the slice refreshing now or the next to refresh, and PHASE. -/
def refwinOf (cycle : Nat) : Word64 :=
  let p := phaseOf cycle
  let busy := decide (p % 4000 < 2000)
  let slice := if busy then p / 4000 else (p / 4000 + 1) % 16
  BitVec.ofNat 64 ((if busy then 2 ^ 24 else 0) + slice * 2 ^ 20 + p)
/-- WSPHASE of the current thread's die (R264). -/
def wsphaseOf (s : State) : Word64 :=
  let x := s.die s.cur.place.die
  BitVec.ofNat 64 ((if s.cur.wsPending then 4 else 0) + (if x.openSec then 2 else 0) + (if x.openNs then 1 else 0))
/-- GANG (R91). -/
def gangOf (p : Place) : Word64 :=
  let dies := if p.gang.isEmpty then [p.die] else p.gang.map (·.1)
  BitVec.ofNat 64 ((dies.foldl (fun m d => m ||| 2 ^ d) 0) % 256 + (dies.length % 16) * 2 ^ 8 + p.die * 2 ^ 12)
/-- The value of a CSR by its number; `none` for a number absent from R151. -/
def csrValue (s : State) (n : Nat) : Option Word64 :=
  let c := s.cur.csr
  match n with
  | 0x00 => some c.mode
  | 0x01 => some c.flags
  | 0x02 => some c.exmsel
  | 0x03 => some c.astart
  | 0x04 => some c.qgrant
  | 0x05 => some c.cbase
  | 0x06 => some c.seed
  | 0x10 => some c.tcause
  | 0x11 => some c.tpc
  | 0x12 => some c.tval
  | 0x13 => some c.tscratch
  | 0x14 => some c.tvec
  | 0x20 => some (ydeadOf c)
  | 0x30 => some c.epushdiv
  | 0x31 => some c.epulldiv
  | 0x32 => some c.mswap
  | 0x40 => some (refwinOf s.cycle)
  | 0x41 => some (wsphaseOf s)
  | 0x50 => some (BitVec.ofNat 64 s.cur.tid.idx)
  | 0x51 => some (BitVec.ofNat 64 (s.cur.place.lcore % 32 + 32 * (s.cur.place.slot % 4)))
  | 0x52 => some (BitVec.ofNat 64 (s.cur.place.die % 8))
  | 0x53 => some (tvalAddr s.cur.tid.region.rcb)
  | 0x54 => some (gangOf s.cur.place)
  | 0x60 => some (BitVec.ofNat 64 s.cycle)
  | 0x61 => some c.instret
  | _ => none
/-- The registers after CSR `n`, other than SEED, is written: RO registers and reserved bits keep their values. -/
def csrWrite (c : Csrs) (n : Nat) (v : Word64) : Csrs :=
  match n with
  | 0x00 => { c with mode := v &&& 0x7F#64 }
  | 0x01 => { c with flags := v &&& 0x7F#64 }
  | 0x02 => { c with exmsel := v &&& 7#64 }
  | 0x03 => { c with astart := v }
  | 0x05 => { c with cbase := v &&& 0xFF#64 }
  | 0x10 => { c with tcause := (c.tcause &&& 0x10000#64) ||| (v &&& 0x7FF#64) }
  | 0x11 => { c with tpc := addrBits v }
  | 0x12 => { c with tval := v }
  | 0x13 => { c with tscratch := v }
  | 0x14 => { c with tvec := addrBits v }
  | 0x30 => { c with epushdiv := v &&& 0xFFFF#64 }
  | 0x31 => { c with epulldiv := v &&& 0xFFFF#64 }
  | 0x32 => { c with mswap := v &&& 0xFF#64 }
  | _ => c
/-- Write SEED and with it every LFSR; the array state must be present (R62, R385). -/
def writeSeed (v : Word64) : Exec Unit := do
  let s ← get
  check (!s.arrAbsent) (.trap cOwned 0 0#64)
  let l := (List.range 17).map (lfsrSeed (v.setWidth 32))
  set { s.modArr (fun _ a => { a with lfsr := l }) with
        cur := { s.cur with csr := { s.cur.csr with seed := v } } }
/-- What a CSR access waits for: FLAGS, EXMSEL and ASTART for earlier array instructions, FLAGS for earlier inserts as
well (R150, R342); an unreported paused entry traps at an access of FLAGS (R245). -/
def csrWait (n : Nat) : Exec Unit := do
  whenB (n == 1) checkPaused
  let s ← get
  check (!(n == 1 || n == 2 || n == 3) || !s.unknownBusy) .wait
  check (n != 1 || !s.topks.any (fun k => k.tid == s.cur.tid)) .wait
/-- The value of a CSR that is about to be read or changed; an absent number traps ILLOP at issue (R149). -/
def csrRead (n : Nat) : Exec Word64 := do
  let s ← get
  match csrValue s n with
  | none => illop
  | some _ =>
    csrWait n
    let t ← get
    return (csrValue t n).getD 0#64
/-- Write a CSR. -/
def csrStore (n : Nat) (v : Word64) : Exec Unit :=
  if n = 6 then writeSeed v else modCur fun t => { t with csr := csrWrite t.csr n v }
def execCsrr (d : Reg) (i : BitVec 16) (s : State) :=
  performSeq (.csrr d i) (do writeReg d (← csrRead i.toNat)) s
def execCsrw (d : Reg) (i : BitVec 16) (s : State) :=
  performSeq (.csrw d i) (do
    let _ ← csrRead i.toNat
    csrStore i.toNat (← readReg d)) s
def execCsrs (d : Reg) (i : BitVec 16) (s : State) :=
  performSeq (.csrs d i) (do
    let x ← csrRead i.toNat
    csrStore i.toNat (x ||| (← readReg d))) s
def execCsrc (d : Reg) (i : BitVec 16) (s : State) :=
  performSeq (.csrc d i) (do
    let x ← csrRead i.toNat
    csrStore i.toNat (x &&& ~~~ (← readReg d))) s
/-- The step SEED_WRITE: the write of SEED itself, by the current thread (R62). -/
def execSeedWrite (v : Word64) (s : State) : Host.Outcome State Fault Refusal :=
  if s.cur.status != .bound then .refused .noThread
  else match writeSeed v s with
    | .ok (_, t) => .next t
    | .error e => settle s e

/-! ### Traps by instruction (R155, R156) -/

/-- `ecall` and `ebreak` have committed when their trap is taken: TPC is the word after (R152, R381). -/
def callTrap (cause : Nat) : Exec Flow := do
  let pc ← curPc
  modCur fun t => { t with csr := { t.csr with instret := t.csr.instret + 1#64 } }
  stopKeep (.trapAt cause 0 0#64 (pc + 4#64))
def execEcall (s : State) := perform .ecall (callTrap cEcall) s
def execEbreak (s : State) := perform .ebreak (callTrap cEbreak) s
/-- `tret` (R155): ILLOP unless INH = 1. -/
def execTret (s : State) :=
  perform .tret (do
    let u ← get
    legal u.cur.csr.inh
    resumePaused
    modCur Thread.leaveHandler
    return .done) s

/-! ### Decode maps (R113, R114, R161) -/

/-- Record the measurement of a decode map, once for each content (R423). -/
def measureMap (bytes : List Byte) : Exec Unit := do
  let s ← get
  let h := Config.sha256 bytes
  if s.fw.log.contains (3, h) then return
  if s.fw.log.length < 256 then set { s with fw := { s.fw with log := s.fw.log ++ [(3, h)] } }
  else set { s with fw := { s.fw with logOvf := true } }
/-- The words of bytes laid out little-endian. -/
def wordsOf : List Byte → List Word32
  | a :: b :: c :: d :: r => BitVec.ofNat 32 (natOfBytes [a, b, c, d]) :: wordsOf r
  | _ => []
/-- `dmap sA`. What a poisoned granule of the map does R161 does not say: it traps 0x09 with TVAL the granule, as a load
does, and the map in force stays; that is the model's choice (DESIGN CHOICE, log entry 22). -/
def execDmap (a : Reg) (s : State) :=
  performSeq (.dmap a) (do
    let x ← readReg a
    if x = 0#64 then modCur fun t => { t with dmapAddr := 0#64, dmapTab := [] }
    else
      legal (x.extractLsb' 0 12 == 0#12 && x.extractLsb' 55 9 == 0#9)
      let b ← loadBlock (← get).ctx x 4096
      measureMap b
      modCur fun t => { t with dmapAddr := x, dmapTab := wordsOf b }) s

end Sys2Proof.Machine
end

