-- ==== Sys2Proof/Machine/Elementwise.lean ====
section
/-!
DEFINITION. The element-wise array instructions (R162 to R185): one path through agreement, masking and conversion,
and for each instruction the operation it applies.
-/
namespace Sys2Proof.Machine

/-! ### Operand b (R102, R103) -/

/-- A rank-0 operand that holds one code. -/
def oneReg (ty : BitVec 4) (code : Nat) : ArrReg :=
  { ty := ty, bl := 0#2, ext := [], isEmpty := false, pending := false, repl := true, parts := 1, sbase := 0#16
    gran := [{ data := BitVec.ofNat 256 code, scale := 0x7F#8, poison := false }] }
/-- Operand b: the register or the value of another kind, its register number if it has one, and the raw value. -/
structure OpB where
  reg : ArrReg
  num : Option Nat
  raw : Word64
/-- A value of kind 01 or 11, typed by R103. -/
def oneOf (flt : Bool) (v : Word64) : OpB :=
  { reg := if flt then oneReg tyFP32 (v.toNat % 2 ^ 32) else oneReg tyI64 v.toNat, num := none, raw := v }
/-- Operand b of an instruction whose operand a is floating or not (R103). -/
def readB (flt : Bool) : EwSrc → Exec OpB
  | .arr b => do return { reg := ← arrReg b.toNat, num := some b.toNat, raw := 0#64 }
  | .sca b => do return oneOf flt (← readReg b)
  | .con b => do return oneOf flt ((← get).window b.toNat)
  | .lit w => return { reg := oneReg (if flt then tyFP32 else tyI32) w.toNat, num := none, raw := w.setWidth 64 }
/-- Operand b, if the instruction has one. -/
def readBs (flt : Bool) : Option EwSrc → Exec (List OpB)
  | some k => do return [← readB flt k]
  | none => pure []
/-- The substitute that b names in `acvt`, if it names one (R178). -/
def readSub : EwSrc → Exec (Option Nat)
  | .arr _ => pure none
  | k => do return some (← readB false k).raw.toNat

/-! ### The common path (R163, R164) -/

/-- The environment of an array instruction. Where MODE.RM is reserved and the instruction does not trap for it, how it
would round is not given: it is a free value (log entry 16). -/
def arrEnv : Exec Env := do
  let e ← getEnv
  if rmReserved (← get).modeOf then
    let n ← drawNo
    return { e with rm := rmOf (Config.freeCode n % 5) }
  else return e
/-- Step 1 of R163 for a reserved RM (R61). -/
def rmCheck (rounds : Bool) : Exec Unit := do
  if rounds then needRm else pure ()
/-- A source of an element-wise instruction: its register, its number if it is an array register, and the element that
is broadcast to a result index. -/
structure EwIn where
  reg : ArrReg
  num : Option Nat
  idx : Nat → Nat
/-- Whether the source element for result index `i` is poisoned. -/
def EwIn.bad (x : EwIn) (i : Nat) : Bool := (x.reg.elem (x.idx i)).poison
/-- The value of the source element for result index `i`. -/
def EwIn.val (sub : SubSpec) (x : EwIn) (i : Nat) : Except Exc (Val × Flg) :=
  consume sub (x.num.getD 0) x.reg.tag (x.reg.elem (x.idx i))
/-- Every array source must be full (R27), and none may be spread where R45 forbids it. -/
def ewSources (k : Nat) (xs : List OpB) : Exec Unit := do
  forEach xs fun x =>
    match x.num with
    | some n => needSource n x.reg
    | none => pure ()
  let d ← getDies
  let framed := xs.any (fun x => decide (k < x.reg.ext.length))
  check (!framed || !xs.any (fun x => cellSpread d x.reg k)) (badShape 4 0)
/-- What an element-wise instruction writes, once its shape is known. -/
structure EwPlan where
  ext : List Nat
  srcs : List EwIn
  mask : Option (Nat → Bool)
  raises : Flg
  give : Env → Nat → Except Exc Out
  whole : Nat → Nat → Option Nat
/-- Steps 4 and 5 of R163, and the writes at commit. -/
def ewFinish (env : Env) (d : Reg) (old : ArrReg) (p : EwPlan) : Exec Unit := do
  let ms ← getMasks
  let dies ← getDies
  let repl := resultRepl dies p.ext (p.srcs.map (·.reg))
  let sel ← exmSel p.raises
  allocResult old.tag p.ext repl (exmNeed sel (extProd p.ext) ms)
  let em ← emitInto d.toNat
    { tag := old.tag, ext := p.ext, old := old, env := env, mask := p.mask, give := p.give env
      pz := fun i => p.srcs.any (fun x => x.bad i), whole := p.whole } repl
  exmApply sel em
/-- Flags of a masked instruction: PZ as well. -/
def withPz (m : BitVec 3) (f : Flg) : Flg := if m = 0#3 then f else f ||| flgPZ
/-- Flags that converting values into a tag under a mask can raise besides: an element that is kept can give its block a scale
in which no given one is exact (R60, R166). -/
def keptCan (m : BitVec 3) (d : Tag) : Flg := if m = 0#3 ∨ d.bl = 0#2 then flgNone else flgUF ||| flgNX
/-- Flags of a masked instruction that converts its results into `d`. -/
def withKept (m : BitVec 3) (d : Tag) (f : Flg) : Flg := withPz m (f ||| keptCan m d)

/-! ### Arithmetic (R169, R170, R172, R176, R177) -/

/-- An operation on integers of operation type `ot` under ISAT, and on floating values under a rounding mode, where `l6`
says that both factors are L6 elements. -/
structure EwOp where
  int : BitVec 4 → Bool → List Int → Int × Flg
  flt : Rm → Bool → List FVal → Val × Flg
  /-- The operation type is FP32 at least (R177). -/
  always : Bool
  /-- The result is a source value or its negation. -/
  picks : Bool
  /-- Its own flags (R185), for a floating operation type and for an integer one. -/
  own : Bool → Flg
/-- A floating result as a value. -/
def asVal (x : FVal × Flg) : Val × Flg := (.flt x.1, x.2)
/-- Two operands out of a list. -/
def two {α β : Type} (z : α) (f : α → α → β) (l : List α) : β := f (l.getD 0 z) (l.getD 1 z)
/-- Apply an operation to source values. -/
def EwOp.eval (op : EwOp) (ot : BitVec 4) (env : Env) (l6 : Bool) (vs : List Val) : Out :=
  if op.always || tyFloat ot then
    let (x, f) := op.flt env.rm l6 (vs.map Val.toF)
    .val x f
  else
    let (n, f) := op.int ot env.isat (vs.map Val.toInt)
    .val (.int n) f
/-- Whether arithmetic rounds by RM for these tags (R61). -/
def EwOp.rounds (op : EwOp) (ts : List Tag) (d : Tag) : Bool :=
  let ot := opType ts
  let picked := op.picks && ts.all (fun t => exactInto t d)
  if op.always || tyFloat ot then !picked else !(d.isInt || picked || exactInto { ty := ot, bl := 0#2 } d)
/-- The flags an operation can raise for these tags (R185). -/
def EwOp.raises (op : EwOp) (ts : List Tag) (d : Tag) : Flg :=
  let flt := op.always || tyFloat (opType ts)
  op.own flt ||| (if op.picks then convRaises ts d else resultRaises ts (if flt then tyFP32 else opType ts) d)
/-- Evaluate an operation at a result index: its sources are consumed in order. -/
def ewGive (op : EwOp) (ot : BitVec 4) (l6 : Bool) (xs : List EwIn) (env : Env) (i : Nat) : Except Exc Out := do
  let vs ← xs.mapM (fun x => x.val env.sub i)
  match op.eval ot env l6 (vs.map (·.1)) with
  | .val v f => return .val v (f ||| allFlags (vs.map (·.2)))
  | .code c p f => return .code c p f
/-- Arithmetic of one or two operands; `shift` says that only integers are accepted, and that nothing rounds (R61). -/
def ewArith (op : EwOp) (shift : Bool) (kb : Option EwSrc) (d a : Reg) (m r : BitVec 3) : Exec Unit := do
  let ra ← arrReg a.toNat
  let old ← arrReg d.toNat
  let oa : OpB := { reg := ra, num := some a.toNat, raw := 0#64 }
  let ob ← readBs (!ra.tag.isInt) kb
  let all := oa :: ob
  let ts := all.map (·.reg.tag)
  rmCheck (!shift && op.rounds ts old.tag)
  legal (!shift || ts.all Tag.isInt)
  let k := rkVal r
  ewSources k all
  let (ext, xs) ← match ob with
    | b :: _ => do
      let (f, c) ← liftE (agree ra.ext b.reg.ext k)
      pure (f ++ c, [{ reg := ra, num := oa.num, idx := spreadIdx ra.ext k f c : EwIn },
        { reg := b.reg, num := b.num, idx := spreadIdx b.reg.ext k f c }])
    | [] => pure (ra.ext, [{ reg := ra, num := oa.num, idx := id }])
  let ot := opType ts
  let l6 := decide (ts.length = 2) && ts.all (fun t => t.ty == tyL6)
  let env ← arrEnv
  let ms ← getMasks
  ewFinish env d old
    { ext := ext, srcs := xs, mask := maskOf ms m
      raises := withKept m old.tag (op.raises ts old.tag)
      give := ewGive op ot l6 xs, whole := fun _ _ => none }
/-- The exact product, sum and quotient of integers, brought into the operation type by R51. -/
def intNarrow (ot : BitVec 4) (isat : Bool) (n : Int) : Int × Flg := narrowInt isat ot n

def opAdd : EwOp :=
  { int := fun ot st => two 0 fun x y => intNarrow ot st (x + y)
    flt := fun rm _ l => asVal (two (fzero false) (fadd rm) l), always := false, picks := false
    own := fun flt => if flt then flgNV else flgOF }
def opSub : EwOp :=
  { int := fun ot st => two 0 fun x y => intNarrow ot st (x - y)
    flt := fun rm _ l => asVal (two (fzero false) (fun x y => fadd rm x y.neg) l)
    always := false, picks := false, own := fun flt => if flt then flgNV else flgOF }
def opMul : EwOp :=
  { int := fun ot st => two 0 fun x y => intNarrow ot st (x * y)
    flt := fun _ l6 l => asVal (two (fzero false) (elemMul l6) l), always := false, picks := false
    own := fun flt => if flt then flgNV else flgOF }
def opDiv : EwOp :=
  { int := fun ot st => two 0 fun x y => if y = 0 then (0, flgDZ) else intNarrow ot st (x.tdiv y)
    flt := fun _ _ l => asVal (two (fzero false) fdivV l), always := false, picks := false
    own := fun flt => flgDZ ||| (if flt then flgNV else flgOF) }
def opMinMax (mx : Bool) : EwOp :=
  { int := fun _ _ => two 0 fun x y => (if mx then (if x < y then y else x) else (if y < x then y else x), flgNone)
    flt := fun _ _ l => asVal (two (fzero false) (fun x y => (fminmax mx x y, flgNone)) l)
    always := false, picks := true, own := fun _ => flgNone }
/-- The shift count of R172: b as an unsigned integer of the operation type's width. -/
def shiftCount (ot : BitVec 4) (y : Int) : Nat := (y.emod (2 ^ tyWidth ot : Nat)).toNat
def opShl : EwOp :=
  { int := fun ot st => two 0 fun x y =>
      -- a count past the width loses every bit; one more than the width shows that it does
      intNarrow ot st (x * (2 ^ min (shiftCount ot y) (tyWidth ot + 1) : Nat))
    flt := fun _ _ _ => asVal (fzero false, flgNone), always := false, picks := false, own := fun _ => flgOF }
def opShr : EwOp :=
  { int := fun ot _ => two 0 fun x y => (x.fdiv (2 ^ min (shiftCount ot y) (tyWidth ot + 1) : Nat), flgNone)
    flt := fun _ _ _ => asVal (fzero false, flgNone), always := false, picks := false, own := fun _ => flgNone }
/-- An operation of one operand. -/
def opOne (int : BitVec 4 → Bool → Int → Int × Flg) (flt : FVal → Val × Flg) (always picks : Bool) (own : Bool → Flg) : EwOp :=
  { int := fun ot st l => int ot st (l.getD 0 0), flt := fun _ _ l => flt (l.getD 0 (fzero false))
    always := always, picks := picks, own := own }
/-- The own flag of `aabs` and `aneg`. -/
def absFlags (flt : Bool) : Flg := if flt then flgNone else flgOF
def opAbs : EwOp := opOne (fun ot st n => intNarrow ot st n.natAbs) (fun x => asVal (x.abs, flgNone)) false true absFlags
/-- −x; a NaN gives the positive canonical NaN (R52, R176). -/
def FVal.negated (x : FVal) : FVal := if x.isNan then .nan false else x.neg
def opNeg : EwOp := opOne (fun ot st n => intNarrow ot st (-n)) (fun x => asVal (x.negated, flgNone)) false true absFlags
def opSqrt : EwOp := opOne (fun _ _ n => (n, flgNone)) (fun x => asVal (fsqrtV x)) true false (fun _ => flgNV)
def opRcp : EwOp := opOne (fun _ _ n => (n, flgNone)) (fun x => asVal (fdivV (.fin false 1 0 false) x)) true false (fun _ => flgDZ)
def opExp2 : EwOp := opOne (fun _ _ n => (n, flgNone)) fexp2V true false (fun _ => flgNone)
def opLog2 : EwOp := opOne (fun _ _ n => (n, flgNone)) (fun x => asVal (flog2V x)) true false (fun _ => flgNV ||| flgDZ)

def execAadd (k : EwSrc) (d a : Reg) (m r : BitVec 3) (s : State) :=
  performSeq (.aadd k d a m r) (ewArith opAdd false (some k) d a m r) s
def execAsub (k : EwSrc) (d a : Reg) (m r : BitVec 3) (s : State) :=
  performSeq (.asub k d a m r) (ewArith opSub false (some k) d a m r) s
def execAmul (k : EwSrc) (d a : Reg) (m r : BitVec 3) (s : State) :=
  performSeq (.amul k d a m r) (ewArith opMul false (some k) d a m r) s
def execAdiv (k : EwSrc) (d a : Reg) (m r : BitVec 3) (s : State) :=
  performSeq (.adiv k d a m r) (ewArith opDiv false (some k) d a m r) s
def execAmin (k : EwSrc) (d a : Reg) (m r : BitVec 3) (s : State) :=
  performSeq (.amin k d a m r) (ewArith (opMinMax false) false (some k) d a m r) s
def execAmax (k : EwSrc) (d a : Reg) (m r : BitVec 3) (s : State) :=
  performSeq (.amax k d a m r) (ewArith (opMinMax true) false (some k) d a m r) s
def execAshl (k : EwSrc) (d a : Reg) (m r : BitVec 3) (s : State) :=
  performSeq (.ashl k d a m r) (ewArith opShl true (some k) d a m r) s
def execAshr (k : EwSrc) (d a : Reg) (m r : BitVec 3) (s : State) :=
  performSeq (.ashr k d a m r) (ewArith opShr true (some k) d a m r) s
def execAabs (d a : Reg) (m r : BitVec 3) (s : State) :=
  performSeq (.aabs d a m r) (ewArith opAbs false none d a m r) s
def execAneg (d a : Reg) (m r : BitVec 3) (s : State) :=
  performSeq (.aneg d a m r) (ewArith opNeg false none d a m r) s
def execAsqrt (d a : Reg) (m r : BitVec 3) (s : State) :=
  performSeq (.asqrt d a m r) (ewArith opSqrt false none d a m r) s
def execArcp (d a : Reg) (m r : BitVec 3) (s : State) :=
  performSeq (.arcp d a m r) (ewArith opRcp false none d a m r) s
def execAexp2 (d a : Reg) (m r : BitVec 3) (s : State) :=
  performSeq (.aexp2 d a m r) (ewArith opExp2 false none d a m r) s
def execAlog2 (d a : Reg) (m r : BitVec 3) (s : State) :=
  performSeq (.alog2 d a m r) (ewArith opLog2 false none d a m r) s

/-- d + a · b with one rounding (R170): the operands are a, b and the old d. -/
def opFma : EwOp :=
  { int := fun ot st l => intNarrow ot st (l.getD 2 0 + l.getD 0 0 * l.getD 1 0)
    flt := fun rm l6 l =>
      let (p, f1) := elemMul l6 (l.getD 0 (fzero false)) (l.getD 1 (fzero false))
      let (x, f2) := fadd rm p (l.getD 2 (fzero false))
      asVal (x, f1 ||| f2)
    always := false, picks := false, own := fun flt => if flt then flgNV else flgOF }
/-- `afma` (R170). -/
def ewFma (kb : EwSrc) (d a : Reg) (m r : BitVec 3) : Exec Unit := do
  let ra ← arrReg a.toNat
  let old ← arrReg d.toNat
  let b ← readB (!ra.tag.isInt) kb
  let ts := [ra.tag, b.reg.tag, old.tag]
  rmCheck (opFma.rounds ts old.tag)
  let k := rkVal r
  ewSources k [{ reg := ra, num := some a.toNat, raw := 0#64 }, b, { reg := old, num := some d.toNat, raw := 0#64 }]
  let (f1, c1) ← liftE (agree ra.ext b.reg.ext k)
  let sh := f1 ++ c1
  let (f2, c2) ← liftE (agree sh old.ext k)
  let toS := spreadIdx sh k f2 c2
  let xs : List EwIn :=
    [{ reg := ra, num := some a.toNat, idx := fun i => spreadIdx ra.ext k f1 c1 (toS i) },
     { reg := b.reg, num := b.num, idx := fun i => spreadIdx b.reg.ext k f1 c1 (toS i) },
     { reg := old, num := some d.toNat, idx := spreadIdx old.ext k f2 c2 }]
  let ot := opType ts
  let env ← arrEnv
  let ms ← getMasks
  ewFinish env d old
    { ext := f2 ++ c2, srcs := xs, mask := maskOf ms m
      raises := withKept m old.tag (opFma.raises ts old.tag)
      give := ewGive opFma ot (ra.ty == tyL6 && b.reg.ty == tyL6) xs, whole := fun _ _ => none }
def execAfma (k : EwSrc) (d a : Reg) (m r : BitVec 3) (s : State) :=
  performSeq (.afma k d a m r) (ewFma k d a m r) s

/-! ### Bitwise operations (R171) -/

/-- A bitwise operation on integers of type `ot`: on their two's complement bits. -/
def bitInt (f : Nat → Nat → Nat) (ot : BitVec 4) (x y : Int) : Int :=
  let w : Nat := 2 ^ tyWidth ot
  decodeInt ot (f (x.emod w).toNat (y.emod w).toNat)
/-- Bitwise operations: on integers by R59's type, on codes where a source is floating or scaled. -/
def ewBits (f : Nat → Nat → Nat) (kb : Option EwSrc) (d a : Reg) (m r : BitVec 3) : Exec Unit := do
  let ra ← arrReg a.toNat
  let old ← arrReg d.toNat
  let oa : OpB := { reg := ra, num := some a.toNat, raw := 0#64 }
  let ob ← readBs (!ra.tag.isInt) kb
  let arrs := (oa :: ob).filter (·.num.isSome)
  let codes := arrs.any (fun x => !x.reg.tag.isInt)
  legal (!codes || arrs.all (fun x => x.reg.tag == old.tag))
  let k := rkVal r
  ewSources k (oa :: ob)
  let (ext, xs) ← match ob with
    | b :: _ => do
      let (fr, c) ← liftE (agree ra.ext b.reg.ext k)
      pure (fr ++ c, [{ reg := ra, num := oa.num, idx := spreadIdx ra.ext k fr c : EwIn },
        { reg := b.reg, num := b.num, idx := spreadIdx b.reg.ext k fr c }])
    | [] => pure (ra.ext, [{ reg := ra, num := oa.num, idx := id }])
  let ot := opType ((oa :: ob).map (·.reg.tag))
  let env ← arrEnv
  let ms ← getMasks
  let w := tyWidth old.ty
  let elems := fun (i : Nat) => xs.mapM (fun x =>
    let e := x.reg.elem (x.idx i)
    if e.poison then (.error (.trap cPoison 0 (poisonVal (x.num.getD 0) e.gran)) : Except Exc Nat) else .ok e.code)
  let onCodes := fun (_ : Env) (i : Nat) => do
    let l ← elems i
    return Out.code (f (l.getD 0 0 % 2 ^ w) (l.getD 1 0 % 2 ^ w) % 2 ^ w) false flgNone
  let op : EwOp :=
    { int := fun t _ l => (bitInt f t (l.getD 0 0) (l.getD 1 0), flgNone), flt := fun _ _ _ => asVal (fzero false, flgNone)
      always := false, picks := false, own := fun _ => flgNone }
  ewFinish env d old
    { ext := ext, srcs := xs, mask := maskOf ms m
      raises := if codes then withPz m flgNone else withKept m old.tag (resultRaises [] ot old.tag)
      give := if codes then onCodes else ewGive op ot false xs
      whole := fun first _ => if codes && old.bl != 0#2 then (xs.head?.map (fun x => (x.reg.elem (x.idx first)).scale))
        else none }
def execAand (k : EwSrc) (d a : Reg) (m r : BitVec 3) (s : State) :=
  performSeq (.aand k d a m r) (ewBits (· &&& ·) (some k) d a m r) s
def execAor (k : EwSrc) (d a : Reg) (m r : BitVec 3) (s : State) :=
  performSeq (.aor k d a m r) (ewBits (· ||| ·) (some k) d a m r) s
def execAxor (k : EwSrc) (d a : Reg) (m r : BitVec 3) (s : State) :=
  performSeq (.axor k d a m r) (ewBits (· ^^^ ·) (some k) d a m r) s
/-- Complement of the low 64 bits, of which the width in use is kept. -/
def bitNot (x _ : Nat) : Nat := x ^^^ (2 ^ 64 - 1)
def execAnot (d a : Reg) (m r : BitVec 3) (s : State) :=
  performSeq (.anot d a m r) (ewBits bitNot none d a m r) s

/-! ### Compares and select (R173 to R175) -/

/-- A relation on integers and on floating values. -/
structure CmpRel where
  int : Int → Int → Bool
  flt : FVal → FVal → Bool
def relEq : CmpRel := { int := fun x y => x == y, flt := feqV }
def relNe : CmpRel := { int := fun x y => x != y, flt := fun x y => !feqV x y }
def relLt : CmpRel := { int := fun x y => decide (x < y), flt := fltV }
def relLe : CmpRel := { int := fun x y => decide (x ≤ y), flt := fun x y => fltV x y || feqV x y }
/-- Whether a relation holds in operation type `ot`. -/
def CmpRel.holds (c : CmpRel) (ot : BitVec 4) (x y : Val) : Bool :=
  if tyFloat ot then c.flt x.toF y.toF else c.int x.toInt y.toInt
/-- A compare; `m` names the mask register that receives the relation (R174). -/
def ewCompare (c : CmpRel) (kb : EwSrc) (d a : Reg) (m r : BitVec 3) : Exec Unit := do
  let ra ← arrReg a.toNat
  let old ← arrReg d.toNat
  let b ← readB (!ra.tag.isInt) kb
  let k := rkVal r
  ewSources k [{ reg := ra, num := some a.toNat, raw := 0#64 }, b]
  let (f, ce) ← liftE (agree ra.ext b.reg.ext k)
  let ext := f ++ ce
  let n := extProd ext
  let xa : EwIn := { reg := ra, num := some a.toNat, idx := spreadIdx ra.ext k f ce }
  let xb : EwIn := { reg := b.reg, num := b.num, idx := spreadIdx b.reg.ext k f ce }
  let ts := [ra.tag, b.reg.tag]
  let ot := opType ts
  let env ← arrEnv
  let ms ← getMasks
  let dies ← getDies
  let repl := resultRepl dies ext [ra, b.reg]
  let sel ← exmSel (readRaises ts)
  let more := (if m = 0#3 then 0 else ceilDiv n 256) + (if m = 7#3 then 0 else exmNeed sel n ms)
  allocResult old.tag ext repl more
  let rel := fun (i : Nat) => do
    let (x, f1) ← xa.val env.sub i
    let (y, f2) ← xb.val env.sub i
    return (c.holds ot x y, f1 ||| f2)
  let bits ← liftE ((List.range n).mapM (fun i => do return (← rel i).1))
  let em ← emitInto d.toNat
    { tag := old.tag, ext := ext, old := old, env := env, mask := none
      give := fun i => do
        let (h, fl) ← rel i
        return .val (.int (if h then 1 else 0)) fl
      pz := fun _ => false, whole := fun _ _ => none } repl
  if m = 7#3 then writeMask 7 (orBits bits (if sel = 0 then [] else exmBits sel em))
  else
    writeMask m.toNat bits
    exmApply sel em
def execAceq (k : EwSrc) (d a : Reg) (m r : BitVec 3) (s : State) :=
  performSeq (.aceq k d a m r) (ewCompare relEq k d a m r) s
def execAcne (k : EwSrc) (d a : Reg) (m r : BitVec 3) (s : State) :=
  performSeq (.acne k d a m r) (ewCompare relNe k d a m r) s
def execAclt (k : EwSrc) (d a : Reg) (m r : BitVec 3) (s : State) :=
  performSeq (.aclt k d a m r) (ewCompare relLt k d a m r) s
def execAcle (k : EwSrc) (d a : Reg) (m r : BitVec 3) (s : State) :=
  performSeq (.acle k d a m r) (ewCompare relLe k d a m r) s

/-- Copy an element bit for bit, or convert its value, by whether it is a code of the destination (R175, R189). -/
def moveElem (sub : SubSpec) (copies : Bool) (reg : Nat) (t : Tag) (e : Elem) : Except Exc Out :=
  if copies then .ok (.code e.code e.poison flgNone)
  else do
    let (v, f) ← consume sub reg t e
    return .val v f
/-- `asel` (R175): `m` is a selector. -/
def ewSelect (kb : EwSrc) (d a : Reg) (m r : BitVec 3) : Exec Unit := do
  let ra ← arrReg a.toNat
  let old ← arrReg d.toNat
  let b ← readB (!ra.tag.isInt) kb
  let ts := [ra.tag, b.reg.tag]
  rmCheck (!ts.all (fun t => exactInto t old.tag))
  let k := rkVal r
  ewSources k [{ reg := ra, num := some a.toNat, raw := 0#64 }, b]
  let (f, ce) ← liftE (agree ra.ext b.reg.ext k)
  let xa : EwIn := { reg := ra, num := some a.toNat, idx := spreadIdx ra.ext k f ce }
  let xb : EwIn := { reg := b.reg, num := b.num, idx := spreadIdx b.reg.ext k f ce }
  let env ← arrEnv
  let ms ← getMasks
  let pick := fun (i : Nat) => if maskBit ms m.toNat i then xa else xb
  let dies ← getDies
  let units := unitsOf (partsOf dies (f ++ ce) (resultRepl dies (f ++ ce) [ra, b.reg])) old.tag (f ++ ce)
  let unitOf := fun (i : Nat) =>
    if old.bl = 0#2 then (i, 1) else (units.find? (fun (u : Nat × Nat) => decide (i < u.1 + u.2))).getD (i, 1)
  let one := fun (first n : Nat) =>
    (List.range n).all (fun j => maskBit ms m.toNat (first + j) == maskBit ms m.toNat first)
  let whole := fun (first n : Nat) =>
    let x := pick first
    if old.bl != 0#2 && one first n && x.reg.tag == old.tag then some (x.reg.elem (x.idx first)).scale else none
  ewFinish env d old
    { ext := f ++ ce, srcs := [xa, xb], mask := none
      raises := convRaises ts old.tag
      give := fun e i =>
        let x := pick i
        let u := unitOf i
        let copies := x.reg.tag == old.tag && (old.bl == 0#2 || (whole u.1 u.2).isSome)
        moveElem e.sub copies (x.num.getD 0) x.reg.tag (x.reg.elem (x.idx i))
      whole := whole }
def execAsel (k : EwSrc) (d a : Reg) (m r : BitVec 3) (s : State) :=
  performSeq (.asel k d a m r) (ewSelect k d a m r) s

/-! ### Conversion, copy and fill (R178 to R180) -/

/-- `acvt`: the substitute is MODE.SUBSEL's, or the code that b names. An element of a under scale byte 0xFF reads as the
substitute of MODE.SUBSEL (R50), also where b names one; a kept old element of d under 0xFF that enters a block's
quantization is decoded with b's code. R50 and R178 do not say which it is (DESIGN CHOICE, log entry 23). -/
def ewConvert (kb : EwSrc) (d a : Reg) (m : BitVec 3) : Exec Unit := do
  let ra ← arrReg a.toNat
  let old ← arrReg d.toNat
  let sub ← readSub kb
  rmCheck (!exactInto ra.tag old.tag)
  needSource a.toNat ra
  let env0 ← arrEnv
  let env := match sub with
    | some c => { env0 with sub := .code (c % 2 ^ tyWidth old.ty) }
    | none => env0
  -- an element read under a NaN scale takes its substitute by MODE.SUBSEL (R50)
  let x : EwIn := { reg := ra, num := some a.toNat, idx := id }
  let ms ← getMasks
  ewFinish env d old
    { ext := ra.ext, srcs := [x], mask := maskOf ms m
      raises := withKept m old.tag (convRaises [ra.tag] old.tag)
      give := fun _ i => do
        let (v, f) ← x.val env0.sub i
        return .val v f
      whole := fun _ _ => none }
def execAcvt (k : EwSrc) (d a : Reg) (m r : BitVec 3) (s : State) :=
  performSeq (.acvt k d a m r) (ewConvert k d a m) s
/-- `amov` (R179). -/
def ewMove (d a : Reg) (m : BitVec 3) : Exec Unit := do
  let ra ← arrReg a.toNat
  let old ← arrReg d.toNat
  if ra.tag != old.tag then ewConvert (.arr 0#5) d a m
  else
    needSource a.toNat ra
    let env ← arrEnv
    let x : EwIn := { reg := ra, num := some a.toNat, idx := id }
    let ms ← getMasks
    ewFinish env d old
      { ext := ra.ext, srcs := [x], mask := maskOf ms m, raises := withPz m flgNone
        give := fun e i => moveElem e.sub true a.toNat ra.tag (ra.elem i)
        whole := fun first _ => if old.bl = 0#2 then none else some (ra.elem first).scale }
def execAmov (d a : Reg) (m r : BitVec 3) (s : State) := performSeq (.amov d a m r) (ewMove d a m) s
/-- `asplat` (R180): an unscaled d takes one conversion, made with LFSR 0's draw. -/
def ewSplat (kb : EwSrc) (d a : Reg) (m : BitVec 3) : Exec Unit := do
  let ra ← arrReg a.toNat
  let old ← arrReg d.toNat
  let b ← readB (!old.tag.isInt) kb
  rmCheck (!exactInto b.reg.tag old.tag)
  needSource a.toNat ra
  let env ← arrEnv
  let ms ← getMasks
  let mask := maskOf ms m
  let n := extProd ra.ext
  let v := (elemValue env.sub b.reg.tag (b.reg.elem 0)).1
  let some1 := match mask with
    | some f => (List.range n).any f
    | none => decide (0 < n)
  let give : Env → Nat → Except Exc Out ← (do
    if old.bl = 0#2 then
      let l ← getLfsr
      let (c, l2) := convElem env old.tag 0x7F 0 v l
      if some1 then setLfsr l2 else pure ()
      return fun _ _ => .ok (.code c.code false c.flags)
    else return fun _ _ => .ok (.val v flgNone))
  ewFinish env d old
    { ext := ra.ext, srcs := [], mask := mask
      raises := withKept m old.tag (convRaises [b.reg.tag] old.tag), give := give, whole := fun _ _ => none }
def execAsplat (k : EwSrc) (d a : Reg) (m r : BitVec 3) (s : State) :=
  performSeq (.asplat k d a m r) (ewSplat k d a m) s

/-! ### Scale bytes (R181 to R183) -/

/-- The block shape of a register (R181). -/
def blockShape (r : ArrReg) : List Nat :=
  match r.ext with
  | [] => []
  | _ => r.ext.dropLast ++ [ceilDiv (lastExt r.ext) r.tag.unitLen]
/-- The number, in the block shape, of the block that begins with element `first`. Of an array of rank 1 that is spread over a
gang the blocks are cut from each die's share (R28, R43), and R181 numbers those of whole rows: a share's block counts as the
whole row's block that holds its first element (DESIGN CHOICE, log entry 25). -/
def blockNo (r : ArrReg) (first : Nat) : Nat :=
  let last := lastExt r.ext
  first / last * ceilDiv last r.tag.unitLen + first % last / r.tag.unitLen
/-- The first element of block `i` of the block shape, which numbers the blocks of whole rows (R181, log entry 25). -/
def blockFirst (r : ArrReg) (i : Nat) : Nat :=
  let nb := ceilDiv (lastExt r.ext) r.tag.unitLen
  i / nb * lastExt r.ext + i % nb * r.tag.unitLen
/-- The first axis in which an agreed shape differs from a block shape (R182). -/
def shapeDiff (axis : Nat) : List Nat → List Nat → Except Exc Unit
  | _, [] => .ok ()
  | [], e :: _ => .error (frameMismatch axis 0 e)
  | n :: x, e :: y => if n = e then shapeDiff (axis + 1) x y else .error (frameMismatch axis n e)
/-- `ascl` (R182): a's elements with new scale bytes. -/
def ewScale (kb : EwSrc) (d a : Reg) (m r : BitVec 3) : Exec Unit := do
  let ra ← arrReg a.toNat
  let old ← arrReg d.toNat
  let b ← readB (!ra.tag.isInt) kb
  legal (ra.bl != 0#2 && ra.tag == old.tag && (b.num.isNone || b.reg.tag.isInt))
  let k := rkVal r
  ewSources k [{ reg := ra, num := some a.toNat, raw := 0#64 }, b]
  let bs := blockShape ra
  let (f, c) ← liftE (agree bs b.reg.ext k)
  liftE (shapeDiff 0 bs (f ++ c))
  let dies ← getDies
  let repl := resultRepl dies ra.ext [ra]
  allocResult old.tag ra.ext repl 0
  let ms ← getMasks
  let us := unitsOf ra.parts ra.tag ra.ext
  let bytes ← liftE (us.mapM (fun (first, _) =>
    if maskBit ms m.toNat first then
      if b.num.isNone then (.ok (some (b.raw.toNat % 256)) : Except Exc (Option Nat))
      else do
        let (v, _) ← consume (.sel 0 0) (b.num.getD 0) b.reg.tag (b.reg.elem (spreadIdx b.reg.ext k f c (blockNo ra first)))
        return some (v.toInt.emod 256).toNat
    else .ok none))
  let per := blkOf ra.bl
  let gran := (ra.gran.zip (List.range ra.gran.length)).map (fun (g, i) =>
    match bytes.getD (i / per) none with
    | some x => { g with scale := BitVec.ofNat 8 x }
    | none => g)
  writeArr d.toNat (regOf ra.parts ra.tag ra.ext repl gran)
def execAscl (k : EwSrc) (d a : Reg) (m r : BitVec 3) (s : State) :=
  performSeq (.ascl k d a m r) (ewScale k d a m r) s
/-- `agscl` (R183): the scale bytes of a's blocks, as N8 values. -/
def ewGetScale (d a : Reg) (m : BitVec 3) : Exec Unit := do
  let ra ← arrReg a.toNat
  let old ← arrReg d.toNat
  rmCheck (!exactInto { ty := tyN8, bl := 0#2 } old.tag)
  needSource a.toNat ra
  let env ← arrEnv
  let ms ← getMasks
  let dies ← getDies
  let ext := blockShape ra
  let n8 : List Tag := [{ ty := tyN8, bl := 0#2 }]
  let sel ← exmSel (withKept m old.tag (convRaises n8 old.tag))
  let repl := resultRepl dies ext [ra]
  allocResult old.tag ext repl (exmNeed sel (extProd ext) ms)
  let scaleAt := fun (i : Nat) =>
    if ra.bl = 0#2 then 127 else (ra.elem (blockFirst ra i)).scale
  let em ← emitInto d.toNat
    { tag := old.tag, ext := ext, old := old, env := env, mask := maskOf ms m
      give := fun i => .ok (.val (.int (scaleAt i : Nat)) flgNone), pz := fun _ => false
      whole := fun _ _ => none } repl
  exmApply sel em
def execAgscl (d a : Reg) (m r : BitVec 3) (s : State) := performSeq (.agscl d a m r) (ewGetScale d a m) s

end Sys2Proof.Machine
end

