-- ==== Sys2Proof/Machine/Structural.lean ====
section
/-!
DEFINITION. The structural array instructions (R187 to R207): tags and shapes, reductions and scans in the order of R68,
grade, the moving instructions, outer forms, selection and search, `amovi` and `xstep`.
-/
namespace Sys2Proof.Machine

/-! ### Cells and moves (R29, R188, R189) -/

/-- The leading extent of a cell and the shape of an item; a rank-0 cell is one item (R188). -/
def leadOf : List Nat → Nat × List Nat
  | [] => (1, [])
  | n :: r => (n, r)
/-- Where a moved element comes from: register number, register and element; nowhere for padding. -/
abbrev Move := Option (Nat × ArrReg × Nat)
/-- The element an instruction moves, bit for bit or converted (R189). -/
def giveMove (sub : SubSpec) (t : Tag) (copies : Bool) : Move → Except Exc Out
  | none => .ok (.code (tyZero t.ty) false flgNone)
  | some (n, r, j) => moveElem sub (r.tag == t && copies) n r.tag (r.elem j)
/-- The scale a scaled unit takes when every element written in it comes from the same position of one block of one
source that has the unit's tag (R166, R189). -/
def wholeFrom (t : Tag) (mask : Option (Nat → Bool)) (mv : Nat → Move) (first n : Nat) : Option Nat :=
  let is := (List.range n).filter (fun j => match mask with
    | some m => m (first + j)
    | none => true)
  match is with
  | [] => none
  | j0 :: _ =>
    match mv (first + j0) with
    | none => none
    | some (n0, r0, e0) =>
      let b0 := (r0.blockPos e0).1
      if r0.tag == t && is.all (fun j => match mv (first + j) with
          | some (nj, rj, ej) => nj == n0 && rj.blockPos ej == (b0, j)
          | none => false)
      then some (r0.elem e0).scale else none
/-- The moves of an instruction as a result to write. -/
def moveEmit (parts : Nat) (t : Tag) (ext : List Nat) (old : ArrReg) (env : Env) (mask : Option (Nat → Bool))
    (mv : Nat → Move) : Emit :=
  let us := unitsOf parts t ext
  let whole := fun (first n : Nat) => if t.bl = 0#2 then none else wholeFrom t mask mv first n
  let unitAt := fun (i : Nat) => (us.find? (fun (u : Nat × Nat) => decide (i < u.1 + u.2))).getD (i, 1)
  { tag := t, ext := ext, old := old, env := env, mask := mask
    give := fun i =>
      let u := unitAt i
      giveMove env.sub t (t.bl == 0#2 || (whole u.1 u.2).isSome) (mv i)
    pz := fun i => match mv i with
      | some (_, r, j) => (r.elem j).poison
      | none => false
    whole := whole }
/-- Write moved elements into d. Moving instructions, `aiota` and the array loads are no arithmetic array instructions for
R67, also where they convert: they never OR into k7 (DESIGN CHOICE, log entry 23). -/
def writeMoves (d : Reg) (t : Tag) (ext : List Nat) (old : ArrReg) (mask : Option (Nat → Bool)) (srcs : List ArrReg)
    (mv : Nat → Move) : Exec Unit := do
  let dies ← getDies
  let repl := resultRepl dies ext srcs
  allocResult t ext repl 0
  let env ← arrEnv
  let _ ← emitInto d.toNat (moveEmit (partsOf dies ext repl) t ext old env mask mv) repl
/-- Trap where a spread register's cell would be moved along the spread axis (R45). -/
def notSpread (r : ArrReg) (k : Nat) : Exec Unit := do
  let d ← getDies
  check (!cellSpread d r k) (badShape 4 0)
/-- Step 1 of R163 for an instruction that moves elements with these tags. -/
def rmMoves (ts : List Tag) (d : Tag) : Exec Unit := rmCheck (!ts.all (fun t => exactInto t d))
/-- An unscaled integer type as a tag. -/
def intTag (t : BitVec 4) : Tag := { ty := t, bl := 0#2 }

/-! ### Results of unknown size (R36, R37, R205) -/

/-- Put a result of unknown size in flight: `bound` granules are reserved until it completes. -/
def putFlight (d : Reg) (bound : Nat) (r : ArrReg) (fl : Flg) : Exec Unit := do
  let n ← drawNo
  modify fun s =>
    let base := s.placeOn s.cur.place 0 bound (Config.freeSbase n).toNat
    let s1 := s.modArr fun _ a =>
      { a with regs := listSet a.regs d.toNat { a.regs.getD d.toNat ArrReg.reset with pending := true } }
    let z := s1.mySlot
    (s1.setMySlot { z with
      flight := z.flight ++ [{ reg := d.toNat, reserve := bound, base := base
                               kind := .unknown { r with sbase := base } (flgWord fl) }] }).growBanks s.cur.place
/-- The reservation of a result of unknown size: the bound's granules, or where there is no bound, what the grant leaves
free (R36). -/
def reserveUnknown (t : Tag) (bound : Option (List Nat)) (srcs : List ArrReg) : Exec Nat := do
  let dies ← getDies
  match bound with
  | some b => do
    let n := needOn dies t b (resultRepl dies b srcs)
    allocate n
    return n
  | none => freeGrant
/-- A result whose size is its bound must fit into a core (R46, condition 2). -/
def boundFits (t : Tag) (b : List Nat) (srcs : List ArrReg) : Exec Unit := do
  let dies ← getDies
  check (decide (needOn dies t b (resultRepl dies b srcs) ≤ maxGranules)) (badShape 2 0)
/-- Start an instruction of unknown size whose reservation is made. A true extent that needs more than was reserved traps
0x05 (R205), also where it is more than any core can hold: that R46's condition 2 does not come first there is the model's
choice (DESIGN CHOICE, log entry 18). -/
def moveUnknown (d : Reg) (old : ArrReg) (ext : List Nat) (reserved : Nat) (srcs : List ArrReg) (give : Env → Emit) :
    Exec Unit := do
  let dies ← getDies
  let repl := resultRepl dies ext srcs
  let need := needOn dies old.tag ext repl
  check (decide (need ≤ reserved)) (.trap cQuota 0 (BitVec.ofNat 64 need))
  let env ← arrEnv
  let (r, fls) ← emitReg (give env) repl
  putFlight d reserved r (allFlags fls)
/-- The result of an unknown-size instruction of thread `t` is finished (R37): the oldest one in flight. -/
def completeUnknown (t : Tid) : Exec Unit := do
  let s ← get
  let th ← enabledSome (s.thread? t)
  let p := th.place
  let z := s.slotAt p.die p.core p.slot
  enabled (z.owner == some t && (th.status == .bound || th.status == .ending))
  let f ← enabledSome (z.flight.find? (fun f => match f.kind with
    | .unknown _ _ => true
    | .entry _ => false))
  match f.kind with
  | .entry _ => pure ()
  | .unknown r fl =>
    let n ← drawNo
    modify fun u => u.modArrAt p fun j a =>
      let q := r.share j
      let base := if j = 0 then r.sbase else u.placeOn p j q.gran.length (Config.freeSbase n).toNat
      { a with regs := listSet a.regs f.reg { q with sbase := base } }
    modSlotAt p.die p.core p.slot fun z => { z with flight := z.flight.erase f }
    mergeFlags t fl
/-- The oldest result of thread `t` of unknown size finishes, if it has one in flight. -/
def unknownSizeStep (t : Tid) (s : State) : Option State :=
  device { s.ctx with who := .thread t, tid := t } (completeUnknown t) s
/-- The step UNKNOWN_SIZE_COMPLETE. -/
def execUnknownSizeComplete (t : Tid) (s : State) : Host.Outcome State Fault Refusal := goes s (unknownSizeStep t s)

/-! ### Tags and shapes (R191 to R194) -/

/-- `atype` (R191). -/
def setType (d : Reg) (t : Tag) : Exec Unit := do
  legal (blOk t.ty t.bl)
  let old ← arrReg d.toNat
  if old.isEmpty || old.tag == t then
    modify fun s => s.modArr fun _ a =>
      { a with regs := listSet a.regs d.toNat { a.regs.getD d.toNat ArrReg.reset with ty := t.ty, bl := t.bl } }
  else modify fun s => putArr s d.toNat { ArrReg.reset with ty := t.ty, bl := t.bl } 0
def execAtype (d : Reg) (t : BitVec 4) (l : BitVec 2) (s : State) :=
  performSeq (.atype d t l) (setType d { ty := t, bl := l }) s
/-- `ashp` (R192). -/
def execAshp (d a b : Reg) (s : State) :=
  performSeq (.ashp d a b) (do
    legal (decide (b.toNat < 8))
    let r ← arrReg a.toNat
    needSource a.toNat r
    writeReg d (BitVec.ofNat 64 (r.ext.getD b.toNat 0))) s
/-- The elements of `aiota` (R193). -/
def iotaEmit (n : Nat) (down : Bool) (old : ArrReg) (env : Env) : Emit :=
  { tag := old.tag, ext := [n], old := old, env := env, mask := none
    give := fun i => .ok (.val (.int (if down then n - 1 - i else i : Nat)) flgNone)
    pz := fun _ => false, whole := fun _ _ => none }
/-- `aiota` (R193). -/
def iota (d : Reg) (b : CountSrc) : Exec Unit := do
  let old ← arrReg d.toNat
  rmCheck (!indexInto old.tag)
  countTag b
  countShape b
  let c ← countValue b
  check (decide (c.natAbs < 2 ^ 31)) (badShape 2 0)
  let n := c.natAbs
  match b with
  | .sca _ =>
    let dies ← getDies
    let repl := resultRepl dies [n] []
    allocResult old.tag [n] repl 0
    let env ← arrEnv
    let _ ← emitInto d.toNat (iotaEmit n (decide (c < 0)) old env) repl
  | .arr _ => do moveUnknown d old [n] (← reserveUnknown old.tag none []) [] (iotaEmit n (decide (c < 0)) old)
def execAiota (d : Reg) (b : CountSrc) (s : State) := performSeq (.aiota d b) (iota d b) s
/-- A reshape: the elements of a in row-major order, cyclically; an empty a gives zeros. -/
def reshape (d a : Reg) (old ra : ArrReg) (ext : List Nat) : Exec Unit :=
  writeMoves d old.tag ext old none [ra] fun i =>
    if ra.count = 0 then none else some (a.toNat, ra, i % ra.count)
/-- `ashape` (R194). -/
def shapeBy (d a b : Reg) : Exec Unit := do
  let ra ← arrReg a.toNat
  let old ← arrReg d.toNat
  let rb ← arrReg b.toNat
  rmMoves [ra.tag] old.tag
  legal rb.tag.isInt
  needSource a.toNat ra
  needSource b.toNat rb
  check (rb.ext.length == 1) (badShape 5 b.toNat)
  check (decide (rb.count ≤ 8)) (badShape 1 0)
  let vs ← liftE ((List.range rb.count).mapM (fun i => consume (.sel 0 0) b.toNat rb.tag (rb.elem i)))
  let ns := vs.map (fun v => v.1.toInt)
  legal (ns.all (fun n => decide (0 ≤ n) && decide (n < 2 ^ 31)))
  reshape d a old ra (ns.map Int.toNat)
def execAshape (d a b : Reg) (s : State) := performSeq (.ashape d a b) (shapeBy d a b) s
/-- `ashapep` (R194). -/
def execAshapep (d a : Reg) (p : PBlock) (s : State) :=
  performSeq (.ashapep d a p) (do
    let ra ← arrReg a.toNat
    let old ← arrReg d.toNat
    rmMoves [ra.tag] old.tag
    let ext ← pExtents p
    needSource a.toNat ra
    reshape d a old ra ext) s

/-! ### Order of sums (R68) -/

/-- A combination of two values, with its flags. -/
abbrev Comb := Val → Val → Val × Flg
/-- One pass of the pairwise tree. -/
def treePass (c : Comb) : List Val → List Val × Flg
  | x :: y :: r =>
    let (z, f) := c x y
    let (zs, g) := treePass c r
    (z :: zs, f ||| g)
  | l => (l, flgNone)
/-- `tree_sum`, by a bound on the number of passes. -/
def treeSum (c : Comb) : Nat → List Val → Option Val × Flg
  | _, [] => (none, flgNone)
  | _, [x] => (some x, flgNone)
  | 0, x :: _ => (some x, flgNone)
  | n + 1, l =>
    let (m, f) := treePass c l
    let (r, g) := treeSum c n m
    (r, f ||| g)
/-- A list cut into runs of `g`, by a bound on their number. -/
def runsOf {α : Type} (g : Nat) : Nat → List α → List (List α)
  | 0, _ => []
  | n + 1, l => if l.isEmpty then [] else l.take g :: runsOf g n (l.drop g)
/-- The sum of a list of present values as one tree. -/
def treeOf (c : Comb) (l : List Val) : Option Val × Flg := treeSum c l.length l
/-- Sums of lists, the absent ones left out. -/
def sumEach (f : List Val → Option Val × Flg) (ls : List (List Val)) : List Val × Flg :=
  ls.foldr (fun l (rs, g) =>
    match f l with
    | (some x, h) => (x :: rs, h ||| g)
    | (none, h) => (rs, h ||| g)) ([], flgNone)
/-- Values added one after another from the first. -/
def runningSum (c : Comb) : List Val → Option Val × Flg
  | [] => (none, flgNone)
  | x :: r =>
    let (v, f) := r.foldl (fun (acc, g) y =>
      let (z, h) := c acc y
      (z, g ||| h)) (x, flgNone)
    (some v, f)
/-- The sum of the items of one die (R68): runs of `g`, steps of 16 runs, steps in increasing index. -/
def sumItems (c : Comb) (g : Nat) (items : List (Option Val)) : Option Val × Flg :=
  let step := fun (l : List (Option Val)) =>
    let (rs, f) := sumEach (treeOf c) ((runsOf g 16 l).map (fun r => r.filterMap id))
    let (v, h) := treeOf c rs
    (v, f ||| h)
  let steps := (runsOf (16 * g) (ceilDiv items.length (16 * g)) items).map step
  let f := allFlags (steps.map (·.2))
  let (v, h) := runningSum c (steps.filterMap (·.1))
  (v, f ||| h)
/-- The sum over the dies of a gang, each adding its own share of `n` items, of which `items` are the first ones. -/
def sumShares (c : Comb) (g dies n : Nat) (items : List (Option Val)) : Option Val × Flg :=
  if dies ≤ 1 then sumItems c g items
  else
    let parts := (List.range dies).map (fun i =>
      let lo := i * n / dies
      let hi := (i + 1) * n / dies
      sumItems c g ((items.take hi).drop lo))
    let (v, f) := treeOf c (parts.filterMap (·.1))
    (v, f ||| allFlags (parts.map (·.2)))

/-! ### Reductions and scans (R195, R196) -/

/-- The combinations. -/
inductive RedOp | sum | max | min | and | or | xor | count
  deriving DecidableEq, Repr
/-- Whether a combination is bitwise. -/
def RedOp.bits : RedOp → Bool
  | .and | .or | .xor => true
  | _ => false
/-- Its function on bit patterns. -/
def RedOp.nat : RedOp → Nat → Nat → Nat
  | .and => (· &&& ·)
  | .or => (· ||| ·)
  | _ => (· ^^^ ·)
/-- Combine two values of operation type `ot`: an addition rounds to nearest, ties to even (R61). -/
def RedOp.comb (op : RedOp) (ot : BitVec 4) (env : Env) (codes : Bool) : Comb := fun x y =>
  let flt := tyFloat ot && !codes
  match op with
  | .sum | .count =>
    if flt then
      let (z, f) := fadd .rne x.toF y.toF
      let (v, g) := roundTo env.nearest ot (.flt z) 0
      (v, f ||| g)
    else
      let (n, f) := narrowInt env.isat ot (x.toInt + y.toInt)
      (.int n, f)
  | .max | .min =>
    if flt then
      if x.toF.isNan || y.toF.isNan then (.flt (.nan false), flgNone)
      else (.flt (fminmax (op == .max) x.toF y.toF), flgNone)
    else
      let a := x.toInt
      let b := y.toInt
      (.int (if op = .max then (if a < b then b else a) else (if b < a then b else a)), flgNone)
  | _ =>
    if codes then (.int (op.nat x.toInt.toNat y.toInt.toNat : Nat), flgNone)
    else (.int (bitInt op.nat ot x.toInt y.toInt), flgNone)
/-- The identity of a combination in a tag (R35): a bit pattern where codes are combined or the tag is floating. -/
def RedOp.identity (op : RedOp) (t : BitVec 4) (codes : Bool) : Out :=
  let w := tyWidth t
  let ones : Int := if tySigned t then -1 else tyMax t
  match op with
  | .sum | .count => if tyFloat t then .val (.flt (fzero false)) flgNone else .val (.int 0) flgNone
  | .or | .xor => if codes || tyFloat t then .code 0 false flgNone else .val (.int 0) flgNone
  | .and => if codes || tyFloat t then .code (2 ^ w - 1) false flgNone else .val (.int ones) flgNone
  | .max =>
    if tyFloat t then
      .val (.flt (if (ffmt t).hasInf then .inf true else decodeF t (2 ^ (w - 1) + (ffmt t).maxCode))) flgNone
    else .val (.int (tyMin t)) flgNone
  | .min =>
    if tyFloat t then .val (.flt (if (ffmt t).hasInf then .inf false else decodeF t (ffmt t).maxCode)) flgNone
    else .val (.int (tyMax t)) flgNone
/-- What a source element counts as: a count's item is 1 unless it is zero. -/
def RedOp.item (op : RedOp) (v : Val) : Val :=
  match op with
  | .count => .int (match v with
    | .int n => if n = 0 then 0 else 1
    | .flt x => if x.isZero then 0 else 1
    | .pow _ _ => 1)
  | _ => v
/-- How a resumable instruction takes its elements (R42): the unit each is finished in, and the unit the instruction
cannot get past, if there is one. -/
structure Resume where
  stamp : Nat → Nat
  stopAt : Option Nat
/-- The same, where a block of a scaled result is finished with its last element. -/
def Resume.whole (r : Resume) (p : Emit) (parts : Nat) : Resume :=
  if p.tag.bl = 0#2 then r
  else
    let us := (unitsOf parts p.tag p.ext).map fun (a, n) => (a + n, (List.range n).foldl (fun m i => max m (r.stamp (a + i))) 0)
    { stamp := fun i => match us.find? (fun u => decide (i < u.1)) with
        | some u => u.2
        | none => r.stamp i
      stopAt := r.stopAt }
/-- Whether a resumable instruction goes on from ASTART into the storage its destination holds (R42): where the old
descriptor is not the result's, it starts over (log entry 19). -/
def goesOn (t : Tag) (ext : List Nat) (old : ArrReg) (start : Word64) : Bool :=
  start != 0#64 && !old.isEmpty && old.tag == t && old.ext == ext
/-- Room for a result and for `more` granules beside it; a resumable instruction that goes on keeps its storage (R42). -/
def allocResumable (t : Tag) (ext : List Nat) (repl : Bool) (old : ArrReg) (more : Nat) : Exec Unit := do
  if goesOn t ext old (← get).cur.csr.astart then (if more = 0 then pure () else allocate more)
  else allocResult t ext repl more
/-- Run a resumable instruction from ASTART: elements finished below it are kept, and where the instruction cannot go
on, those at or above the unit it stops in hold unspecified codes (R42, log entry 8). FLAGS, unless it sets none, and, by the
class `sel`, k7 get what the elements it computes raise (R66). -/
def emitResumable (d : Nat) (p : Emit) (repl : Bool) (rs0 : Resume) (sel : Nat) (flags : Bool := true) : Exec Unit := do
  let s ← get
  let rs := rs0.whole p (partsOf s.cur.place.dies p.ext repl)
  let on := goesOn p.tag p.ext p.old s.cur.csr.astart
  let start := if on then s.cur.csr.astart.toNat else 0
  let n ← drawNo
  let w := tyWidth p.tag.ty
  let stopped := rs.stopAt.isSome
  let q : Emit := { p with
    done := fun i => decide (rs.stamp i < start)
    give := fun i =>
      if rs.stamp i < start then .ok (.code (p.old.elem i).code (p.old.elem i).poison flgNone)
      else match rs.stopAt with
        | some u => if u ≤ rs.stamp i then .ok (.code (Config.freeCode n / 2 ^ (w * i) % 2 ^ w) false flgNone) else p.give i
        | none => p.give i }
  let (r, fls) ← emitReg q repl
  if on then rewriteArr d r else writeArr d r
  modCur fun t => { t with csr := { t.csr with astart := BitVec.ofNat 64 (rs.stopAt.getD 0) } }
  whenB flags (addFlags (allFlags fls))
  exmApply sel fls
  if stopped then
    -- the trap is that of the first element of that unit that cannot be computed
    let e ← liftE (match (List.range (extProd p.ext)).filterMap (fun i =>
        match p.give i with
        | .error x => some x
        | .ok _ => none) with
      | x :: _ => .ok x
      | [] => .ok .wait)
    stopKeep e
  else pure ()
/-- The flags a reduction or scan can raise (R58, R185, R195). -/
def RedOp.raises (op : RedOp) (ot : BitVec 4) (s d : Tag) : Flg :=
  match op with
  | .sum => resultRaises [s] ot d ||| (if tyFloat ot then flgNV ||| flgOF ||| flgUF ||| flgNX else flgOF)
  | .count => readRaises [s] ||| convCan { ty := ot, bl := 0#2 } d
  | .max | .min => convRaises [s] d
  | _ => if s.isInt then convCan { ty := ot, bl := 0#2 } d else flgNone
/-- Whether a reduction or scan adds floating values or rounds its results by RM (R61). -/
def RedOp.rounds (op : RedOp) (ot : BitVec 4) (s d : Tag) : Bool :=
  match op with
  | .sum => tyFloat ot || !(d.isInt || exactInto { ty := ot, bl := 0#2 } d)
  | .count => !(d.isInt || exactInto { ty := ot, bl := 0#2 } d)
  | .max | .min => !((s.isInt && d.isInt) || exactInto s d)
  | _ => false
/-- A reduction, or where `scan` says so a scan, of the leading axis of each cell. -/
def reduce (op : RedOp) (scan : Bool) (d a : Reg) (m r : BitVec 3) : Exec Unit := do
  let ra ← arrReg a.toNat
  let old ← arrReg d.toNat
  let codes := op.bits && !ra.tag.isInt
  let ot := if op = .count then tyI64 else opType [ra.tag]
  rmCheck (op.rounds ot ra.tag old.tag)
  legal (!codes || ra.tag == old.tag)
  needSource a.toNat ra
  let k := rkVal r
  let (frame, cell) := frameCell ra.ext k
  let (n, item) := leadOf cell
  let isz := extProd item
  let ext := if scan then ra.ext else frame ++ item
  let dies ← getDies
  let shares := if cellSpread dies ra k then dies else 1
  let repl := resultRepl dies ext [ra]
  let ms ← getMasks
  let sel ← exmSel (withPz m (op.raises ot ra.tag old.tag))
  let more := exmNeed sel (extProd ext) ms
  if ra.count ≤ 65536 then allocResult old.tag ext repl more else allocResumable old.tag ext repl old more
  let env ← arrEnv
  let bit := maskBit ms m.toNat
  let read := unitsOf ra.parts ra.tag ra.ext |>.filter (fun (f, c) => (List.range c).any (fun j => bit (f + j)))
  let isRead := fun (i : Nat) => m == 0#3 || read.any (fun (f, c) => decide (f ≤ i) && decide (i < f + c))
  -- the source element that is item j's part of the column of result element i, and how many items count
  let srcOf := fun (i j : Nat) =>
    if scan then i / (n * isz) * (n * isz) + j * isz + i % isz else i / isz * (n * isz) + j * isz + i % isz
  let len := fun (i : Nat) => if scan then i / isz % n + 1 else n
  let itemAt := fun (i j : Nat) => do
    let e := srcOf i j
    let x := ra.elem e
    if !bit e then return ((none : Option Val), flgIf (x.poison && isRead e) flgPZ)
    else if codes then
      if x.poison then (.error (.trap cPoison 0 (poisonVal a.toNat x.gran)) : Except Exc _)
      else return (some (.int (x.code : Nat)), flgNone)
    else
      let (v, f) ← consume env.sub a.toNat ra.tag x
      return (some (op.item v), f)
  let give := fun (i : Nat) => do
    let items ← (List.range (len i)).mapM (itemAt i)
    let (v, f) := sumShares (op.comb ot env codes) (tyPer ot) shares n (items.map (·.1))
    let fl := f ||| allFlags (items.map (·.2))
    match v with
    | none => match op.identity old.ty codes with
      | .val x g => return Out.val x (fl ||| g)
      | .code c q g => return Out.code c q (fl ||| g)
    | some x => return (if codes then .code x.toInt.toNat false fl else .val x fl)
  let firstScale := fun (first : Nat) =>
    match (List.range (len first)).find? (fun j => bit (srcOf first j)) with
    | some j => (ra.elem (srcOf first j)).scale
    | none => 0x7F
  let p : Emit :=
    { tag := old.tag, ext := ext, old := old, env := env, mask := none, give := give, pz := fun _ => false
      whole := fun first _ => if codes && old.bl != 0#2 then some (firstScale first) else none }
  if ra.count ≤ 65536 then
    let fls ← emitInto d.toNat p repl
    exmApply sel fls
  else
    let group := fun (e : Nat) => (placeIn ra.parts ra.tag ra.ext e).1
    let bad := (List.range ra.count).find? (fun e => bit e && (ra.elem e).poison)
    emitResumable d.toNat p repl { stamp := fun i => group (srcOf i (len i - 1)), stopAt := bad.map group } sel
def execAredsum (d a : Reg) (m r : BitVec 3) (s : State) :=
  performSeq (.aredsum d a m r) (reduce .sum false d a m r) s
def execAredmax (d a : Reg) (m r : BitVec 3) (s : State) :=
  performSeq (.aredmax d a m r) (reduce .max false d a m r) s
def execAredmin (d a : Reg) (m r : BitVec 3) (s : State) :=
  performSeq (.aredmin d a m r) (reduce .min false d a m r) s
def execAredand (d a : Reg) (m r : BitVec 3) (s : State) :=
  performSeq (.aredand d a m r) (reduce .and false d a m r) s
def execAredor (d a : Reg) (m r : BitVec 3) (s : State) :=
  performSeq (.aredor d a m r) (reduce .or false d a m r) s
def execAredxor (d a : Reg) (m r : BitVec 3) (s : State) :=
  performSeq (.aredxor d a m r) (reduce .xor false d a m r) s
def execAcount (d a : Reg) (m r : BitVec 3) (s : State) :=
  performSeq (.acount d a m r) (reduce .count false d a m r) s
def execAscansum (d a : Reg) (m r : BitVec 3) (s : State) :=
  performSeq (.ascansum d a m r) (reduce .sum true d a m r) s
def execAscanmax (d a : Reg) (m r : BitVec 3) (s : State) :=
  performSeq (.ascanmax d a m r) (reduce .max true d a m r) s
def execAscanmin (d a : Reg) (m r : BitVec 3) (s : State) :=
  performSeq (.ascanmin d a m r) (reduce .min true d a m r) s

/-! ### Grade (R197) -/

/-- The order of values that grade uses: NaN is above all, and −0 below +0. -/
def gradeLt (x y : Val) : Bool :=
  match x, y with
  | .int a, .int b => decide (a < b)
  | a, b =>
    let p := a.toF
    let q := b.toF
    if p.isNan then false else if q.isNan then true else fbelow p q
/-- Lexicographic order of two items. -/
def itemLt : List Val → List Val → Bool
  | x :: r, y :: t => gradeLt x y || (!gradeLt y x && itemLt r t)
  | _, _ => false
/-- Insert an item, which stood before all of these, in front of the first that is not before it. -/
def gradeInsert (lt : List Val → List Val → Bool) (x : Nat × List Val) : List (Nat × List Val) → List (Nat × List Val)
  | [] => [x]
  | y :: r => if lt y.2 x.2 then y :: gradeInsert lt x r else x :: y :: r
/-- The permutation that sorts items, equal ones in increasing index. -/
def gradeOf (lt : List Val → List Val → Bool) (items : List (List Val)) : List Nat :=
  (((List.range items.length).zip items).foldr (gradeInsert lt) []).map (·.1)
/-- `agrade` and `agraded`. -/
def grade (down : Bool) (d a : Reg) (r : BitVec 3) : Exec Unit := do
  let ra ← arrReg a.toNat
  let old ← arrReg d.toNat
  rmCheck (!indexInto old.tag)
  needSource a.toNat ra
  let k := rkVal r
  notSpread ra k
  let (frame, cell) := frameCell ra.ext k
  let (n, item) := leadOf cell
  let isz := extProd item
  let ext := frame ++ [n]
  let dies ← getDies
  let repl := resultRepl dies ext [ra]
  if n ≤ 4096 then allocResult old.tag ext repl 0 else allocResumable old.tag ext repl old 0
  let env ← arrEnv
  let lt := fun (x y : List Val) => if down then itemLt y x else itemLt x y
  let cellOf := fun (f : Nat) => do
    let items ← (List.range n).mapM (fun i => (List.range isz).mapM (fun j => do
      return (← consume env.sub a.toNat ra.tag (ra.elem ((f * n + i) * isz + j))).1))
    return gradeOf lt items
  let group := fun (i : Nat) => (placeIn (partsOf dies ext repl) old.tag ext i).1
  let firstBad := (List.range (extProd frame)).find? (fun f => match cellOf f with
    | .error _ => true
    | .ok _ => false)
  let cells := (List.range (extProd frame)).map cellOf
  let emit : Emit :=
    { tag := old.tag, ext := ext, old := old, env := env, mask := none
      give := fun i => do
        let l ← cells.getD (i / n) (.ok [])
        return .val (.int (l.getD (i % n) 0 : Nat)) flgNone
      pz := fun _ => false, whole := fun _ _ => none }
  -- it sets no flag, also where an index is rounded into d's tag
  if n ≤ 4096 then
    let (res, _) ← emitReg emit repl
    writeArr d.toNat res
  else
    emitResumable d.toNat emit repl { stamp := group, stopAt := firstBad.map (fun f => group (f * n)) } 0 false
def execAgrade (d a : Reg) (r : BitVec 3) (s : State) := performSeq (.agrade d a r) (grade false d a r) s
def execAgraded (d a : Reg) (r : BitVec 3) (s : State) := performSeq (.agraded d a r) (grade true d a r) s

/-! ### Rotate, take, drop, reverse, transpose, catenate (R198 to R200) -/

/-- The source item of result item `i`, of `n` items. -/
def rotItem (n : Nat) (c : Int) (i : Nat) : Option Nat := if n = 0 then none else some (((i : Int) + c).emod n).toNat
def takeItem (n : Nat) (c : Int) (i : Nat) : Option Nat :=
  if 0 ≤ c then (if i < n then some i else none)
  else
    let j : Int := (n : Int) + c + i
    if 0 ≤ j then some j.toNat else none
def dropItem (_ : Nat) (c : Int) (i : Nat) : Option Nat := if 0 ≤ c then some (c.toNat + i) else some i
def revItem (n : Nat) (i : Nat) : Option Nat := some (n - 1 - i)
/-- The moves of whole items: result item `i` of each cell is source item `pick i`. -/
def itemMoves (a : Nat) (ra : ArrReg) (n isz len : Nat) (pick : Nat → Option Nat) (i : Nat) : Move :=
  let f := i / (len * isz)
  (pick (i / isz % len)).map (fun j => (a, ra, (f * n + j) * isz + i % isz))
/-- The shape of a result whose cells have `len` items; a rank-0 cell that keeps its one item keeps its rank. -/
def itemsShape (frame cell : List Nat) (len : Nat) (keep : Bool) : List Nat :=
  if keep && cell.isEmpty then frame else frame ++ len :: (leadOf cell).2
/-- `arot` and `adrop`, whose counts are waited for. -/
def moveItems (lenOf : Nat → Int → Nat) (pick : Nat → Int → Nat → Option Nat) (keep : Bool) (d a : Reg) (b : CountSrc)
    (r : BitVec 3) : Exec Unit := do
  let ra ← arrReg a.toNat
  let old ← arrReg d.toNat
  rmMoves [ra.tag] old.tag
  countTag b
  needSource a.toNat ra
  countShape b
  let k := rkVal r
  notSpread ra k
  let c ← countValue b
  let (frame, cell) := frameCell ra.ext k
  let (n, item) := leadOf cell
  let len := lenOf n c
  writeMoves d old.tag (itemsShape frame cell len keep) old none [ra]
    (itemMoves a.toNat ra n (extProd item) len (pick n c))
def execArot (d a : Reg) (b : CountSrc) (r : BitVec 3) (s : State) :=
  performSeq (.arot d a b r) (moveItems (fun n _ => n) rotItem true d a b r) s
def execAdrop (d a : Reg) (b : CountSrc) (r : BitVec 3) (s : State) :=
  performSeq (.adrop d a b r) (moveItems (fun n c => n - c.natAbs) dropItem false d a b r) s
/-- `atake`, whose array count makes it of unknown size (R36). -/
def take (d a : Reg) (b : CountSrc) (r : BitVec 3) : Exec Unit := do
  let ra ← arrReg a.toNat
  let old ← arrReg d.toNat
  rmMoves [ra.tag] old.tag
  countTag b
  needSource a.toNat ra
  countShape b
  let k := rkVal r
  notSpread ra k
  let c ← countValue b
  check (decide (c.natAbs < 2 ^ 31)) (badShape 2 0)
  let (frame, cell) := frameCell ra.ext k
  let (n, item) := leadOf cell
  let len := c.natAbs
  let ext := itemsShape frame cell len false
  let mv := itemMoves a.toNat ra n (extProd item) len (takeItem n c)
  match b with
  | .sca _ => writeMoves d old.tag ext old none [ra] mv
  | .arr _ => do
    check (decide (ext.length ≤ 8)) (badShape 1 0)
    let dies ← getDies
    moveUnknown d old ext (← reserveUnknown old.tag none [ra]) [ra]
      (fun env => moveEmit (partsOf dies ext (resultRepl dies ext [ra])) old.tag ext old env none mv)
def execAtake (d a : Reg) (b : CountSrc) (r : BitVec 3) (s : State) := performSeq (.atake d a b r) (take d a b r) s
/-- What `arev` moves: the shape, and the source of each element. -/
def revMoves (a : Nat) (ra : ArrReg) (k : Nat) : List Nat × (Nat → Move) :=
  let (frame, cell) := frameCell ra.ext k
  let (n, item) := leadOf cell
  (itemsShape frame cell n true, itemMoves a ra n (extProd item) n (revItem n))
/-- `arev` (R198). -/
def reverse (d a : Reg) (m r : BitVec 3) : Exec Unit := do
  let ra ← arrReg a.toNat
  let old ← arrReg d.toNat
  rmMoves [ra.tag] old.tag
  needSource a.toNat ra
  let k := rkVal r
  notSpread ra k
  let (ext, mv) := revMoves a.toNat ra k
  writeMoves d old.tag ext old (maskOf (← getMasks) m) [ra] mv
def execArev (d a : Reg) (m r : BitVec 3) (s : State) := performSeq (.arev d a m r) (reverse d a m r) s
/-- A cell shape with its last two axes exchanged. -/
def transShape (cell : List Nat) : List Nat :=
  match cell.reverse with
  | x :: y :: r => (y :: x :: r).reverse
  | _ => cell
/-- What `atrans` moves. -/
def transMoves (a : Nat) (ra : ArrReg) (k : Nat) : List Nat × (Nat → Move) :=
  let (frame, cell) := frameCell ra.ext k
  let rows := (cell.dropLast).getLastD 1
  let cols := lastExt cell
  (frame ++ transShape cell, fun i =>
    if cell.length < 2 then some (a, ra, i)
    else
      let q := i / (rows * cols)
      let j := i % (rows * cols)
      some (a, ra, q * (rows * cols) + j % rows * cols + j / rows))
/-- `atrans` (R199). -/
def transpose (d a : Reg) (m r : BitVec 3) : Exec Unit := do
  let ra ← arrReg a.toNat
  let old ← arrReg d.toNat
  rmMoves [ra.tag] old.tag
  needSource a.toNat ra
  let k := rkVal r
  let dies ← getDies
  check (!(cellSpread dies ra k && ra.ext.length == 2)) (badShape 4 0)
  let (ext, mv) := transMoves a.toNat ra k
  writeMoves d old.tag ext old (maskOf (← getMasks) m) [ra] mv
def execAtrans (d a : Reg) (m r : BitVec 3) (s : State) := performSeq (.atrans d a m r) (transpose d a m r) s
/-- The frame of two operands, their frames agreed by the first loop of R31. -/
def agreeFrames (fa fb : List Nat) : Except Exc (List Nat) := do
  agreeAxes 0 fa fb
  return longer fa fb
/-- The frame position of an operand with frame `own`, at position `f` of the agreed frame. -/
def frameIdx (frame own : List Nat) (f : Nat) : Nat := f / extProd (frame.drop own.length)
/-- What `acat` moves, of cells of rank `k`. -/
def catMoves (a b : Nat) (ra rb : ArrReg) (k : Nat) : Except Exc (List Nat × (Nat → Move)) := do
  let (fa, ca) := frameCell ra.ext k
  let (fb, cb) := frameCell rb.ext k
  let frame ← agreeFrames fa fb
  let (xa, xb) ←
    if ca.length = cb.length then
      (if ca.isEmpty then .ok ([1], [1]) else .ok (ca, cb) : Except Exc (List Nat × List Nat))
    else if ca.length = cb.length + 1 then .ok (ca, 1 :: cb)
    else if cb.length = ca.length + 1 then .ok (1 :: ca, cb)
    else .error (frameMismatch frame.length ca.length cb.length)
  let (na, ia) := leadOf xa
  let (nb, ib) := leadOf xb
  agreeAxes (frame.length + 1) ia ib
  let isz := extProd ia
  let sz := (na + nb) * isz
  return (frame ++ (na + nb) :: ia, fun i =>
    let f := i / sz
    let j := i % sz
    if j < na * isz then some (a, ra, frameIdx frame fa f * (na * isz) + j)
    else some (b, rb, frameIdx frame fb f * (nb * isz) + (j - na * isz)))
/-- `acat` (R200). -/
def catenate (d a b : Reg) (m r : BitVec 3) : Exec Unit := do
  let ra ← arrReg a.toNat
  let rb ← arrReg b.toNat
  let old ← arrReg d.toNat
  rmMoves [ra.tag, rb.tag] old.tag
  needSource a.toNat ra
  needSource b.toNat rb
  let k := rkVal r
  notSpread ra k
  notSpread rb k
  let (ext, mv) ← liftE (catMoves a.toNat b.toNat ra rb k)
  writeMoves d old.tag ext old (maskOf (← getMasks) m) [ra, rb] mv
def execAcat (d a b : Reg) (m r : BitVec 3) (s : State) := performSeq (.acat d a b m r) (catenate d a b m r) s

/-! ### Outer forms (R201) -/

/-- The frame of an outer form's result, and the element of each operand for each of its elements. -/
def outerIdx (ea eb : List Nat) (k : Nat) : Except Exc (List Nat × (Nat → Nat) × (Nat → Nat)) := do
  let (fa, ca) := frameCell ea k
  let (fb, cb) := frameCell eb k
  let frame ← agreeFrames fa fb
  let na := extProd ca
  let nb := extProd cb
  return (frame ++ ca ++ cb, fun i => frameIdx frame fa (i / (na * nb)) * na + i % (na * nb) / nb,
    fun i => frameIdx frame fb (i / (na * nb)) * nb + i % (na * nb) % nb)
/-- An outer form: of an operation, or of a relation. -/
def outer (op : EwOp) (eq : Bool) (d a b : Reg) (m r : BitVec 3) : Exec Unit := do
  let ra ← arrReg a.toNat
  let rb ← arrReg b.toNat
  let old ← arrReg d.toNat
  let ts := [ra.tag, rb.tag]
  let ot := opType ts
  rmCheck (!eq && op.rounds ts old.tag)
  needSource a.toNat ra
  needSource b.toNat rb
  let k := rkVal r
  let (ext, ia, ib) ← liftE (outerIdx ra.ext rb.ext k)
  let xa : EwIn := { reg := ra, num := some a.toNat, idx := ia }
  let xb : EwIn := { reg := rb, num := some b.toNat, idx := ib }
  let env ← arrEnv
  let ms ← getMasks
  let l6 := ts.all (fun t => t.ty == tyL6)
  ewFinish env d old
    { ext := ext, srcs := [xa, xb], mask := maskOf ms m
      raises := withPz m (if eq then readRaises ts else op.raises ts old.tag)
      give := fun e i =>
        if eq then do
          let (x, f1) ← xa.val e.sub i
          let (y, f2) ← xb.val e.sub i
          return .val (.int (if relEq.holds ot x y then 1 else 0)) (f1 ||| f2)
        else ewGive op ot l6 [xa, xb] e i
      whole := fun _ _ => none }
def execAoutmul (d a b : Reg) (m r : BitVec 3) (s : State) :=
  performSeq (.aoutmul d a b m r) (outer opMul false d a b m r) s
def execAoutadd (d a b : Reg) (m r : BitVec 3) (s : State) :=
  performSeq (.aoutadd d a b m r) (outer opAdd false d a b m r) s
def execAouteq (d a b : Reg) (m r : BitVec 3) (s : State) :=
  performSeq (.aouteq d a b m r) (outer opAdd true d a b m r) s

/-! ### Compress, expand, from, search (R202 to R204) -/

/-- The position of the first `x` in a list. -/
def posOf (x : Nat) : List Nat → Option Nat
  | [] => none
  | y :: r => if y = x then some 0 else (posOf x r).map (· + 1)
/-- `acomp`, or where `expand` says so `aexpd` (R202). -/
def compress (expand : Bool) (d a b : Reg) (r : BitVec 3) : Exec Unit := do
  let ra ← arrReg a.toNat
  let rb ← arrReg b.toNat
  let old ← arrReg d.toNat
  rmMoves [ra.tag] old.tag
  legal (rb.tag == intTag tyBIT && (rb.isEmpty || rb.ext.length == 1))
  needSource a.toNat ra
  needSource b.toNat rb
  let k := rkVal r
  notSpread ra k
  let (frame, cell) := frameCell ra.ext k
  let (n, item) := leadOf cell
  check (expand || rb.count == n) (frameMismatch frame.length n rb.count)
  let bound := frame ++ (if expand then rb.count else n) :: item
  check (decide (bound.length ≤ 8)) (badShape 1 0)
  whenB expand (boundFits old.tag bound [ra])
  let reserved ← reserveUnknown old.tag (some bound) [ra]
  -- from here on at completion: the bits are read, and the ones of `aexpd` are counted
  let bits ← liftE ((List.range rb.count).mapM (fun i => do
    return (← consume (.sel 0 0) b.toNat rb.tag (rb.elem i)).1.toInt != 0))
  let ones := ((List.range rb.count).zip bits).filterMap (fun (i, x) => if x then some i else none)
  check (!expand || ones.length == n) (frameMismatch frame.length n ones.length)
  let len := if expand then rb.count else ones.length
  let pick := fun (i : Nat) => if expand then posOf i ones else ones[i]?
  let ext := frame ++ len :: item
  let mv := itemMoves a.toNat ra n (extProd item) len pick
  let dies ← getDies
  moveUnknown d old ext reserved [ra]
    (fun env => moveEmit (partsOf dies ext (resultRepl dies ext [ra])) old.tag ext old env none mv)
def execAcomp (d a b : Reg) (r : BitVec 3) (s : State) := performSeq (.acomp d a b r) (compress false d a b r) s
def execAexpd (d a b : Reg) (r : BitVec 3) (s : State) := performSeq (.aexpd d a b r) (compress true d a b r) s
/-- `afrom` (R203). -/
def fromIdx (d a b : Reg) (m r : BitVec 3) : Exec Unit := do
  let ra ← arrReg a.toNat
  let rb ← arrReg b.toNat
  let old ← arrReg d.toNat
  rmMoves [rb.tag] old.tag
  legal ra.tag.isInt
  needSource a.toNat ra
  needSource b.toNat rb
  let k := rkVal r
  notSpread rb k
  let (fa, ca) := frameCell ra.ext k
  let (fb, cb) := frameCell rb.ext k
  let frame ← liftE (agreeFrames fa fb)
  let (n, item) := leadOf cb
  let isz := extProd item
  let na := extProd ca
  let ext := frame ++ ca ++ item
  let dies ← getDies
  let repl := resultRepl dies ext [ra, rb]
  allocResult old.tag ext repl 0
  let ms ← getMasks
  let bit := maskBit ms m.toNat
  -- for each index: what it selects, unless none of its item's elements is to be written; NV where it lies outside
  let keys ← liftE ((List.range (extProd frame * na)).mapM (fun q =>
    if !(List.range isz).any (fun j => bit (q * isz + j)) then
      (.ok (none, (ra.elem (frameIdx frame fa (q / na) * na + q % na)).poison) : Except Exc (Option Int × Bool))
    else do
      let (v, _) ← consume (.sel 0 0) a.toNat ra.tag (ra.elem (frameIdx frame fa (q / na) * na + q % na))
      return (some v.toInt, false)))
  let place := fun (x : Int) =>
    let y := if x < 0 then x + n else x
    if 0 ≤ y ∧ y < n then some y.toNat else none
  let mv := fun (i : Nat) =>
    match (keys.getD (i / isz) (none, false)).1 with
    | none => none
    | some x => (place x).map (fun y => (b.toNat, rb, frameIdx frame fb (i / isz / na) * (n * isz) + y * isz + i % isz))
  let env ← arrEnv
  let p := moveEmit (partsOf dies ext repl) old.tag ext old env (maskOf ms m) mv
  let _ ← emitInto d.toNat { p with pz := fun i => p.pz i || (keys.getD (i / isz) (none, false)).2 } repl
  addFlags (flgIf (keys.any (fun (x, _) => match x with
    | some y => (place y).isNone && isz != 0
    | none => false)) flgNV)
def execAfrom (d a b : Reg) (m r : BitVec 3) (s : State) := performSeq (.afrom d a b m r) (fromIdx d a b m r) s
/-- Equality of a search (R204): −0 equals +0, and NaN equals NaN. -/
def searchEq (ot : BitVec 4) (x y : Val) : Bool :=
  if tyFloat ot then (x.toF.isNan && y.toF.isNan) || feqV x.toF y.toF else x.toInt == y.toInt
/-- A search of a table for keys. For `aidxof` the table is a's cell, for `amembr` b's (R204). -/
def search (index : Bool) (d a b : Reg) (m r : BitVec 3) : Exec Unit := do
  let ra ← arrReg a.toNat
  let rb ← arrReg b.toNat
  let old ← arrReg d.toNat
  rmCheck (index && !indexInto old.tag)
  needSource a.toNat ra
  needSource b.toNat rb
  let k := rkVal r
  let (fa, ca) := frameCell ra.ext k
  let (fb, cb) := frameCell rb.ext k
  let frame ← liftE (agreeFrames fa fb)
  let (tn, tr, tf, tc) := if index then (a.toNat, ra, fa, ca) else (b.toNat, rb, fb, cb)
  let (kn, kr, kf, kc) := if index then (b.toNat, rb, fb, cb) else (a.toNat, ra, fa, ca)
  let (n, item) := leadOf tc
  let isz := extProd item
  let lead := kc.length - item.length
  check (decide (item.length ≤ kc.length))
    (if index then frameMismatch frame.length item.length kc.length else frameMismatch frame.length kc.length item.length)
  liftE (if index then agreeAxes (frame.length + lead) item (kc.drop lead)
    else agreeAxes (frame.length + lead) (kc.drop lead) item)
  let ext := frame ++ kc.take lead
  let per := extProd (kc.take lead)
  let ot := opType [ra.tag, rb.tag]
  let ms ← getMasks
  let give := fun (env : Env) (i : Nat) => do
    let f := i / per
    let kb := (frameIdx frame kf f * per + i % per) * isz
    let tb := frameIdx frame tf f * (n * isz)
    let key ← (List.range isz).mapM (fun j => do return (← consume env.sub kn kr.tag (kr.elem (kb + j))).1)
    let tab ← (List.range n).mapM (fun t => (List.range isz).mapM (fun j => do
      return (← consume env.sub tn tr.tag (tr.elem (tb + t * isz + j))).1))
    let hit := (List.range n).find? (fun t => ((tab.getD t []).zip key).all (fun (x, y) => searchEq ot x y))
    return Out.val (.int (if index then (hit.getD n : Nat) else if hit.isSome then 1 else 0)) flgNone
  let pz := fun (i : Nat) =>
    let kb := (frameIdx frame kf (i / per) * per + i % per) * isz
    (List.range isz).any (fun j => (kr.elem (kb + j)).poison)
  let emit := fun (env : Env) =>
    ({ tag := old.tag, ext := ext, old := old, env := env, mask := maskOf ms m, give := give env, pz := pz
       whole := fun _ _ => none } : Emit)
  if index then
    check (decide (ext.length ≤ 8)) (badShape 1 0)
    boundFits old.tag ext [ra, rb]
    moveUnknown d old ext (← reserveUnknown old.tag (some ext) [ra, rb]) [ra, rb] emit
  else
    let dies ← getDies
    let repl := resultRepl dies ext [ra, rb]
    allocResult old.tag ext repl 0
    let env ← arrEnv
    let _ ← emitInto d.toNat (emit env) repl
def execAidxof (d a b : Reg) (m r : BitVec 3) (s : State) := performSeq (.aidxof d a b m r) (search true d a b m r) s
def execAmembr (d a b : Reg) (m r : BitVec 3) (s : State) := performSeq (.amembr d a b m r) (search false d a b m r) s

/-! ### Indirect moves and exchange steps (R206, R207) -/

/-- Copy a whole register, bit for bit. -/
def copyArr (src dst : Nat) : Exec Unit := do
  let r ← arrReg src
  let _ ← arrReg dst
  needSource src r
  let dies ← getDies
  allocate (r.held dies)
  writeArr dst r
/-- The register number an indirect move reads. -/
def indirect (a : Reg) : Exec Nat := do return (← readReg a).toNat % 32
def execAmoviFrom (d a : Reg) (s : State) := performSeq (.amoviFrom d a) (do copyArr (← indirect a) d.toNat) s
def execAmoviTo (a b : Reg) (s : State) := performSeq (.amoviTo a b) (do copyArr b.toNat (← indirect a)) s
/-- `xstep` (R207): codes are copied bit for bit, and a block takes the scale byte of the block its elements come from
(log entry 24). -/
def exchange (kind : XstepKind) (d a b : Reg) : Exec Unit := do
  let ra ← arrReg a.toNat
  let old ← arrReg d.toNat
  let c : Int ← match kind with
    | .rotate => do pure (← readReg b).toInt
    | _ => pure 0
  let dies ← getDies
  legal (!(kind == .scatter && decide (1 < dies) && !ra.repl))
  needSource a.toNat ra
  let (n, item) := leadOf ra.ext
  let repl := decide (1 < dies) && (ra.ext.isEmpty || kind == .gather)
  allocResult ra.tag ra.ext repl 0
  let env ← arrEnv
  let k ← drawNo
  let from_ := fun (i : Nat) => match itemMoves a.toNat ra n (extProd item) n (rotItem n c) i with
    | some (_, _, j) => ra.elem j
    | none => ra.elem i
  -- a block whose elements come from blocks of different scales has a scale byte the manual does not give
  let scale := fun (first len : Nat) =>
    let x := (from_ first).scale
    if (List.range len).all (fun j => (from_ (first + j)).scale == x) then x else Config.freeCode k / 256 ^ first % 256
  let (res, _) ← emitReg
    { tag := ra.tag, ext := ra.ext, old := old, env := env, mask := none
      give := fun i => .ok (.code (from_ i).code (from_ i).poison flgNone), pz := fun _ => false
      whole := fun first len => if ra.bl = 0#2 then none else some (scale first len) } repl
  writeArr d.toNat res
def execXstep (k : XstepKind) (d a b : Reg) (s : State) := performSeq (.xstep k d a b) (exchange k d a b) s

end Sys2Proof.Machine
end

