-- ==== Sys2Proof/Machine/Matrix.lean ====
section
/-!
DEFINITION. The matrix engine (R216 to R247): posting entries, what each entry does to tiles, macro sets and the sparse
result, and the steps that start and complete an entry.
-/
namespace Sys2Proof.Machine

/-! ### Tiles and macro sets (R216, R217, R232, R244) -/

/-- A tile element that nothing has written: +0, not marked. -/
def TileCell.zero : TileCell := { val := 0#32, mark := false }
/-- Tile `t` of a core. -/
def CoreSt.tile (k : CoreSt) (t : Nat) : Tile := spGet Tile.reset k.tiles t
def CoreSt.setTile (k : CoreSt) (t : Nat) (x : Tile) : CoreSt := { k with tiles := spSet k.tiles t x }
/-- Macro set `m` of a core. -/
def CoreSt.mset (k : CoreSt) (m : Nat) : MacroSet := spGet MacroSet.reset k.sets m
def CoreSt.setMset (k : CoreSt) (m : Nat) (x : MacroSet) : CoreSt := { k with sets := spSet k.sets m x }
/-- Element (r, c) of a tile. -/
def Tile.at (x : Tile) (r c : Nat) : TileCell := spGet TileCell.zero x.cells (128 * r + c)
/-- A list of cells cut at key `k`: those below it, the one at it, those above it. -/
def cellsCut (k : Nat) : Sparse TileCell → Sparse TileCell × TileCell × Sparse TileCell
  | [] => ([], TileCell.zero, [])
  | (j, v) :: r =>
    if j < k then
      let (a, x, b) := cellsCut k r
      ((j, v) :: a, x, b)
    else if j = k then ([], v, r) else ([], TileCell.zero, (j, v) :: r)
/-- Replace the elements at rising keys: `f` gives the new element, its flags, and whether it took a poisoned element.
An element that is +0 and not marked is not listed. -/
def updateCells (f : Nat → TileCell → TileCell × Flg × Bool) :
    List Nat → Sparse TileCell → Sparse TileCell × Flg × Bool
  | [], l => (l, flgNone, false)
  | k :: ks, l =>
    let (a, x, b) := cellsCut k l
    let (y, g, p) := f k x
    let (rest, h, q) := updateCells f ks b
    (a ++ (if y = TileCell.zero then rest else (k, y) :: rest), g ||| h, p || q)
/-- The keys of a corner of `r` rows and `c` columns, in rising order. -/
def cornerKeys (r c : Nat) : List Nat :=
  (List.range r).flatMap (fun i => (List.range c).map (fun j => 128 * i + j))
/-- A tile whose extent takes in a corner of `m` rows and `n` columns, transposed by SW (R232). -/
def Tile.extend (x : Tile) (m n : Nat) (sw : Bool) : Tile :=
  { x with rows := max x.rows (if sw then n else m), cols := max x.cols (if sw then m else n) }

/-! ### Products (R56, R63, R69, R218) -/

/-- The macro-B formats, and the formats of A and B (R218). -/
def macroTy (t : BitVec 4) : Bool := scaledCode t
def matrixTy (t : BitVec 4) : Bool := scaledCode t || t == tyBF16 || t == tyFP32
/-- The K-group of a format (R69, R218). -/
def groupOf (t : BitVec 4) : Nat :=
  if tyWidth t = 4 then 4 else if t = tyBF16 ∨ t = tyFP32 then 1 else 2
/-- An element as it enters a product: its value without its scale, the scale's exponent, its flags, and whether it is
poisoned (R63, R244). -/
structure MElem where
  v : FVal
  e : Int
  fl : Flg
  bad : Bool
  deriving DecidableEq, Repr
/-- The element with these code, scale byte and poison (R50, R63). -/
def mElem (sub : SubSpec) (t : Tag) (x : Elem) : MElem :=
  if t.bl ≠ 0#2 ∧ x.scale = 255 then
    { v := (elemValue sub t x).1.toF, e := 0, fl := (elemValue sub t x).2, bad := x.poison }
  else
    { v := (decodeVal t.ty x.code).toF, e := if t.bl = 0#2 then 0 else (x.scale : Int) - 127, fl := flgNone
      bad := x.poison }
/-- A product after its scales: beyond FP32 it is infinite, below it is rounded (R63). -/
def scaleProd (x : FVal) (k : Int) : FVal × Flg :=
  match x.scale k with
  | .fin n m e s =>
    let y := FVal.fin n m e s
    if m = 0 then (y, flgNone)
    else if fltV (decodeF tyFP32 0x7F7FFFFF) y.abs then (.inf n, flgOF)
    else if y.log2 < -126 then
      let c := convertF envNearest tyFP32 y 0
      (decodeF tyFP32 c.code, c.flags &&& (flgUF ||| flgNX))
    else (y, flgNone)
  | y => (y, flgNone)
/-- A product: its value, its flags, and whether it takes a poisoned element. `scaled` says that an operand is scaled,
`l6` that both are L6. -/
structure Prod where
  v : FVal
  fl : Flg
  bad : Bool
  deriving DecidableEq, Repr
def mProd (scaled l6 : Bool) (x y : MElem) : Prod :=
  if x.bad || y.bad then { v := .nan false, fl := flgNone, bad := true }
  else
    let (p, f) := elemMul l6 x.v y.v
    let (q, g) := if scaled then scaleProd p (x.e + y.e) else (p, flgNone)
    { v := q, fl := x.fl ||| y.fl ||| f ||| g, bad := false }
/-- The exact sum of products, from the first. -/
def exactSum : List Prod → Option FVal × Flg
  | [] => (none, flgNone)
  | p :: r =>
    let (v, f) := r.foldl (fun (acc, f) q =>
      let (z, g) := fadd .rne acc q.v
      (z, f ||| g ||| q.fl)) (p.v, p.fl)
    (some v, f)
/-- A value rounded to FP32, to nearest, ties to even (R235). -/
def toTile (x : FVal) : Word32 × Flg :=
  let c := convertF envNearest tyFP32 x 0
  (BitVec.ofNat 32 c.code, c.flags)
/-- One addition into FP32 (R235). -/
def tileAdd (old : Word32) (x : FVal) : Word32 × Flg :=
  let (z, f) := fadd .rne (decodeF tyFP32 old.toNat) x
  let (w, g) := toTile z
  (w, f ||| g)
/-- Lists of `w` products each, by a bound on their number (R69). -/
def groupsBy (w : Nat) : Nat → List Prod → List (List Prod)
  | 0, _ => []
  | n + 1, l => if l.isEmpty then [] else l.take w :: groupsBy w n (l.drop w)
/-- Add the sum of a K-group to an element, with one rounding; `twice` converts the sum to FP32 first (R69). Where a product
is no FP32 value the two can differ for K = 1 too, although R225 says that all three dataflows agree there: the model follows
R69 (DEDUCED, log entry 20). -/
def addGroup (twice : Bool) (acc : Word32 × Flg) (g : List Prod) : Word32 × Flg :=
  match exactSum g with
  | (none, _) => acc
  | (some v, f) =>
    if twice then
      let (c, h) := toTile v
      let (w, k) := tileAdd acc.1 (decodeF tyFP32 c.toNat)
      (w, acc.2 ||| f ||| h ||| k)
    else
      let (w, k) := tileAdd acc.1 v
      (w, acc.2 ||| f ||| k)
/-- A tile element after products are added to it in groups of `w`. -/
def addProducts (twice : Bool) (w : Nat) (ps : List Prod) (x : TileCell) : TileCell × Flg × Bool :=
  let (v, f) := (groupsBy w ps.length ps).foldl (addGroup twice) (x.val, flgNone)
  let bad := ps.any (·.bad)
  ({ val := v, mark := x.mark || bad }, f, bad)

/-! ### Inner and outer products (R219, R220, R231, R235) -/

/-- A tile with products added: the rows of the result from `first` to `last` − 1 take them, and SW transposes (R224,
R228). -/
def addCell (f : Nat → Nat → TileCell → TileCell × Flg × Bool) (m n first last : Nat) (sw : Bool) (x : Tile) :
    Tile × Flg × Bool :=
  let ij := fun (k : Nat) => if sw then (k % 128, k / 128) else (k / 128, k % 128)
  let keys := (cornerKeys (if sw then n else m) (if sw then m else n)).filter
    (fun k => decide (first ≤ (ij k).1) && decide ((ij k).1 < last))
  let (cells, g, p) := updateCells (fun k c => f (ij k).1 (ij k).2 c) keys x.cells
  ({ x with cells := cells }, g, p)
/-- Cell `f` of an operand as rows of `c` elements. -/
def operandRows (sub : SubSpec) (r : ArrReg) (f m c : Nat) : List (List MElem) :=
  (List.range m).map fun i => (List.range c).map fun k => mElem sub r.tag (r.elem (f * (m * c) + i * c + k))
/-- The columns of a matrix of `n` columns given by rows. -/
def columnsOf (n : Nat) (rows : List (List MElem)) : List (List MElem) :=
  (List.range n).map fun j => rows.map fun r => r.getD j { v := fzero false, e := 0, fl := flgNone, bad := false }
/-- Element (k, j) of a macro set: its rows and columns past K and N hold zero codes (R219, R233). -/
def MacroSet.elem (x : MacroSet) (k j : Nat) : Elem :=
  let per := tyPer x.ty
  let b := blkOf x.bl
  { code := if k < x.k ∧ j < x.n then (spGet (BitVec.ofNat 8 (tyZero x.ty)) x.codes (128 * k + j)).toNat else tyZero x.ty
    scale := if x.bl = 0#2 then 0x7F else (spGet 0x7F#8 x.scales (4 * k + j / per / b * b)).toNat
    gran := 0, poison := decide (k < x.k ∧ j < x.n) && x.marks.contains (128 * k + j) }
/-- Column `j` of a macro set, rows 0 to `n` − 1. -/
def MacroSet.column (x : MacroSet) (sub : SubSpec) (n j : Nat) : List MElem :=
  (List.range n).map fun k => mElem sub { ty := x.ty, bl := x.bl } (x.elem k j)
/-- The result of an entry on a tile: the tile, its flags, and whether it took a poisoned element. -/
structure TileOut where
  tile : Tile
  fl : Flg
  poison : Bool
/-- The rows of a flattened result that an entry works through: from `lo`, where it starts, to `hi`, where it stops
(R228). -/
structure Rows where
  lo : Nat
  hi : Nat
  deriving DecidableEq, Repr
/-- Add the products of each cell in turn (R235). `rows` and `cols` give the operands of cell f; M result rows each. -/
def mmulCells (scaled l6 twice : Bool) (w m n : Nat) (span : Rows) (sw : Bool) (rows cols : Nat → List (List MElem)) :
    List Nat → TileOut → TileOut
  | [], x => x
  | f :: fs, x =>
    let next := if f * m + m ≤ span.lo ∨ span.hi ≤ f * m then x
      else
        let ra := rows f
        let cb := cols f
        let (t, g, p) := addCell (fun i j => addProducts twice w
          (List.zipWith (mProd scaled l6) (ra.getD i []) (cb.getD j []))) m n (span.lo - f * m) (span.hi - f * m) sw x.tile
        { tile := t, fl := x.fl ||| g, poison := x.poison || p }
    mmulCells scaled l6 twice w m n span sw rows cols fs next
/-- The last two extents of a shape. -/
def lastTwo (ext : List Nat) : Nat × Nat :=
  (ext.getD (ext.length - 2) 1, ext.getD (ext.length - 1) 1)
/-- The tile an `mmul` starts from: cleared by Z unless it resumes (R235). -/
def zTile (z : Bool) (start : Nat) (x : Tile) : Tile := if z && start == 0 then Tile.reset else x
/-- The extent follows once the instruction has reached its last row (R235). -/
def TileOut.finish (o : TileOut) (all m n : Nat) (span : Rows) (sw : Bool) : TileOut :=
  if all ≤ span.hi then { o with tile := o.tile.extend m n sw } else o
/-- `mmul.ip`. -/
def mmulIp (sub : SubSpec) (sw z : Bool) (span : Rows) (a : ArrReg) (b : MacroSet) (x : Tile) : TileOut :=
  let (m, k) := lastTwo a.ext
  let frames := extProd (a.ext.take (a.ext.length - 2))
  let out := mmulCells (a.bl != 0#2 || b.bl != 0#2) (a.ty == tyL6 && b.ty == tyL6) true 128 m b.n span sw
    (fun f => operandRows sub a f m k) (fun _ => (List.range b.n).map (b.column sub k)) (List.range frames)
    { tile := zTile z span.lo x, fl := flgNone, poison := false }
  out.finish (frames * m) m b.n span sw
/-- What the row buffer holds once the rows of A below `hi` have been streamed (R216). -/
def bufferRows (a : ArrReg) (hi : Nat) : List (List (Nat × Byte)) :=
  let (_, k) := lastTwo a.ext
  (List.range (min hi 2)).map fun i =>
    (List.range k).map fun j =>
      let e := a.elem ((hi - min hi 2 + i) * k + j)
      (e.code, BitVec.ofNat 8 e.scale)
/-- The frame of two operands, and the cell of each that frame index `f` takes (R31, R231). -/
def pairFrames (ea eb : List Nat) : Nat × (Nat → Nat) × (Nat → Nat) :=
  let fa := ea.take (ea.length - 2)
  let fb := eb.take (eb.length - 2)
  let big := longer fa fb
  (extProd big, (fun f => f / extProd (big.drop fa.length)), (fun f => f / extProd (big.drop fb.length)))
/-- `mmul.op`. -/
def mmulOp (sub : SubSpec) (sw z : Bool) (span : Rows) (a b : ArrReg) (x : Tile) : TileOut :=
  let (m, k) := lastTwo a.ext
  let n := (lastTwo b.ext).2
  let (frames, fa, fb) := pairFrames a.ext b.ext
  let w := min (groupOf a.ty) (groupOf b.ty)
  let out := mmulCells (a.bl != 0#2 || b.bl != 0#2) (a.ty == tyL6 && b.ty == tyL6) false w m n span sw
    (fun f => operandRows sub a (fa f) m k) (fun f => columnsOf n (operandRows sub b (fb f) k n)) (List.range frames)
    { tile := zTile z span.lo x, fl := flgNone, poison := false }
  out.finish (frames * m) m n span sw

/-! ### Row-wise products (R221, R236 to R238) -/

/-- Integer element `i` of an index register, and its poison. -/
def indexAt (r : ArrReg) (i : Nat) : Int × Bool :=
  let e := r.elem i
  ((decodeVal r.ty e.code).toInt, e.poison)
/-- Insert by column index, after those that are equal. -/
def colInsert (x : Int × Nat × Bool) : List (Int × Nat × Bool) → List (Int × Nat × Bool)
  | [] => [x]
  | y :: r => if y.1 ≤ x.1 then y :: colInsert x r else x :: y :: r
/-- The non-zeros of row `i` of a triple in increasing column: column, place in the values, and whether an offset or the
index is poisoned (R69, R244). -/
def tripleRow (offs idx : ArrReg) (i : Nat) : List (Int × Nat × Bool) :=
  let (lo, p) := indexAt offs i
  let (hi, q) := indexAt offs (i + 1)
  ((List.range (hi - lo).toNat).map (fun k =>
    let (c, b) := indexAt idx (lo.toNat + k)
    (c, lo.toNat + k, p || q || b))).foldl (fun l x => colInsert x l) []
/-- The non-zeros of row i of A whose column is below K, as elements; NV where a column is not (R236). -/
def rowOfA (sub : SubSpec) (offs idx vals : ArrReg) (k i : Nat) : List (Nat × MElem) × Flg :=
  let row := tripleRow offs idx i
  let good := row.filter (fun x => decide (0 ≤ x.1) && decide (x.1 < (k : Int)))
  (good.map (fun x =>
    let e := mElem sub vals.tag (vals.elem x.2.1)
    (x.1.toNat, { e with bad := e.bad || x.2.2 })),
   flgIf (decide (good.length < row.length)) flgNV)
/-- `mmul.rw` with dense B. -/
def mmulRwDense (sub : SubSpec) (sw z : Bool) (span : Rows) (offs idx vals b : ArrReg) (x : Tile) : TileOut :=
  let m := offs.count - 1
  let (k, n) := lastTwo b.ext
  let scaled := vals.bl != 0#2 || b.bl != 0#2
  let l6 := vals.ty == tyL6 && b.ty == tyL6
  let rows := (List.range m).map (fun i =>
    if i < span.lo ∨ span.hi ≤ i then ([], flgNone) else rowOfA sub offs idx vals k i)
  let (t, g, p) := addCell (fun i j => addProducts false 1
    ((rows.getD i ([], flgNone)).1.map (fun (c, e) => mProd scaled l6 e (mElem sub b.tag (b.elem (c * n + j))))))
    m n span.lo span.hi sw (zTile z span.lo x)
  TileOut.finish { tile := t, fl := g ||| allFlags (rows.map (·.2)), poison := p } m m n span sw
/-- The products of row i with sparse B, in increasing k: key and product (R221, R238). -/
def sparseProducts (sub : SubSpec) (ao ai av bo bi bv : ArrReg) (i : Nat) : List (Int × Prod) × Flg :=
  let (row, g) := rowOfA sub ao ai av (bo.count - 1) i
  let scaled := av.bl != 0#2 || bv.bl != 0#2
  let l6 := av.ty == tyL6 && bv.ty == tyL6
  (row.flatMap (fun (k, e) =>
    let (lo, p) := indexAt bo k
    let (hi, q) := indexAt bo (k + 1)
    (List.range (hi - lo).toNat).map (fun u =>
      let (c, r) := indexAt bi (lo.toNat + u)
      let y := mElem sub bv.tag (bv.elem (lo.toNat + u))
      (c, mProd scaled l6 e { y with bad := y.bad || p || q || r }))), g)
/-- Merge a product into the accumulator (R69): the first into an entry is rounded alone. -/
def mergeProd (acc : Sparse (Word32 × Bool)) (key : Nat) (p : Prod) : Sparse (Word32 × Bool) × Flg :=
  match acc.find? (fun x => x.1 == key) with
  | none =>
    let (w, f) := toTile p.v
    (spSet acc key (w, p.bad), f ||| p.fl)
  | some (_, old, mark) =>
    let (w, f) := tileAdd old p.v
    (spSet acc key (w, mark || p.bad), f ||| p.fl)
/-- The accumulator's entries (R221). -/
def accEntries : Nat := 16384
/-- One pass of R238 over keys from `lo` up: the entries held, the final h, whether it overflowed, and the flags. -/
def onePass (lo : Nat) (ps : List (Int × Prod)) : Sparse (Word32 × Bool) × Nat × Bool × Flg :=
  ps.foldl (fun (acc, h, ov, f) (key, p) =>
    let k := key.toNat
    if key < 0 ∨ k < lo ∨ h ≤ k then (acc, h, ov, f)
    else if !(acc.any (fun x => x.1 == k)) && decide (accEntries ≤ acc.length) then
      let top := acc.foldl (fun m x => max m x.1) 0
      let h2 := max k top
      if k = h2 then (acc, h2, true, f)
      else
        let (a, g) := mergeProd (spDel acc h2) k p
        (a, h2, true, f ||| g)
    else
      let (a, g) := mergeProd acc k p
      (a, h, ov, f ||| g)) ([], 2 ^ 31, false, flgNone)
/-- The passes of one row, by a bound on their number: its entries in increasing key. -/
def rowPasses : Nat → Nat → List (Int × Prod) → List SpEntry × Flg
  | 0, _, _ => ([], flgNone)
  | n + 1, lo, ps =>
    let (acc, h, ov, f) := onePass lo ps
    let es := acc.map (fun (k, w, b) => { col := k, val := w, mark := b : SpEntry })
    if ov then
      let (r, g) := rowPasses n h ps
      (es ++ r, f ||| g)
    else (es, f)
/-- Granules that `e` entries and M rows occupy (R237). -/
def sparseGranules (e m : Nat) : Nat := ceilDiv e 4 + ceilDiv (m + 1) 8
/-- Entries held in runs. -/
def runEntries (rs : List SpRun) : Nat := (rs.map (fun r => r.entries.length)).sum
/-- How a sparse entry ends: its runs, or the granules it needs at the row where its room ran out (R245). -/
inductive SparseEnd
  | full (runs : List SpRun) (fl : Flg) (poison : Bool)
  | short (needs : Nat)
/-- The rows of a sparse entry from one on; `held` counts the entries held so far and `room` is its reservation. What it needs
in all, where its room runs out, counts the rows up to the one in progress, which is the model's choice (DESIGN CHOICE, log
entry 20). -/
def sparseRows (sub : SubSpec) (ao ai av bo bi bv : ArrReg) (m room : Nat) :
    List Nat → Nat → List SpRun → Flg → Bool → SparseEnd
  | [], held, rs, f, p => if room < sparseGranules held m then .short (sparseGranules held m) else .full rs f p
  | i :: is, held, rs, f, p =>
    let (ps, g) := sparseProducts sub ao ai av bo bi bv i
    let (es, h) := rowPasses (ps.length + 1) 0 ps
    let held2 := held + es.length
    if room < sparseGranules held2 m then .short (sparseGranules held2 m)
    else sparseRows sub ao ai av bo bi bv m room is held2 (rs ++ [{ row := i, entries := es }]) (f ||| g ||| h)
      (p || ps.any (fun x => x.2.bad))

/-! ### The sparse result (R237, R239) -/

/-- The merged row `i` of runs: the first value of a column stands alone, each later one is added (R239). -/
def mergedRow (rs : List SpRun) (i : Nat) : List SpEntry × Flg :=
  let (acc, f) := ((rs.filter (fun r => r.row == i)).flatMap (·.entries)).foldl
    (fun ((acc : Sparse (Word32 × Bool)), f) e =>
      match acc.find? (fun x => x.1 == e.col) with
      | none => (spSet acc e.col (e.val, e.mark), f)
      | some (_, old, mark) =>
        let (w, g) := tileAdd old (decodeF tyFP32 e.val.toNat)
        (spSet acc e.col (w, mark || e.mark), f ||| g)) ([], flgNone)
  (acc.map (fun (k, w, b) => { col := k, val := w, mark := b }), f)
/-- All the merged rows. -/
def mergedRows (x : SparseRes) : List (List SpEntry) × Flg :=
  let rows := (List.range x.m).map (mergedRow x.runs)
  (rows.map (·.1), allFlags (rows.map (·.2)))
/-- The row offsets of lists: 0, and the running sum of their lengths. -/
def offsetsOf (rows : List (List SpEntry)) : List Nat :=
  rows.foldl (fun l r => l ++ [l.getLastD 0 + r.length]) [0]
/-- The core with its sparse result emptied: its storage is free and the accumulator is released (R222, R237). -/
def dropSparse (k : CoreSt) : CoreSt :=
  { k with sparse := SparseRes.reset, accUser := if k.accUser = .matrix then .none else k.accUser }
/-- A core whose accumulator is released once no sparse result is held and no entry that uses it is under way (R222). -/
def CoreSt.freeAcc (k : CoreSt) : CoreSt :=
  if k.accUser = .matrix ∧ k.sparse.holder = none ∧ k.queue.all (fun e => !e.op.units.contains 6 || e.stat == .waiting)
  then { k with accUser := .none } else k

/-! ### Units and queue order (R227, R241) -/

/-- Whether no entry of these uses a unit that `e` uses. -/
def unitsFree (before : List MEntry) (us : List Nat) : Bool :=
  before.all (fun e => e.op.units.all (fun u => !us.contains u))
/-- Whether an entry that waits behind `before` could start now. -/
def entryReady (k : CoreSt) (before : List MEntry) (e : MEntry) : Bool :=
  e.stat == .waiting && unitsFree before e.op.units &&
  (!e.op.units.contains 6 || k.accUser != .edge)
/-- Whether entry `e` may start: `mqry #3` reads what the thread's entries before it have left, all but those that cannot
go on (R242, R245). -/
def mayStart (k : CoreSt) (before : List MEntry) (e : MEntry) : Bool :=
  entryReady k before e &&
  (match e.op with
    | .mqry 3 _ _ => before.all (fun b => b.tid != e.tid || (stuckIn (fun _ => true) before []).contains b.id)
    | _ => true)
/-- Entry `id` of a core and those before it. -/
def entryOf (k : CoreSt) (id : Nat) : Option (List MEntry × MEntry) :=
  match k.queue.find? (fun e => e.id == id) with
  | some e => some (k.queue.takeWhile (fun f => f.id != id), e)
  | none => none
/-- A core with entry `id` of its queue changed. -/
def CoreSt.modEntry (k : CoreSt) (id : Nat) (f : MEntry → MEntry) : CoreSt :=
  { k with queue := k.queue.map (fun e => if e.id = id then f e else e) }
/-- Add a bit to the status of a thread (R243). -/
def addStatus (l : List (Tid × Word64)) (t : Tid) (b : Word64) : List (Tid × Word64) :=
  match l.find? (fun x => x.1 == t) with
  | some (_, w) => (t, w ||| b) :: l.filter (fun x => x.1 != t)
  | none => (t, b) :: l

/-! ### Loading a macro set (R233, R234, R244) -/

/-- The macro set an array register of K rows and N columns loads. -/
def setOfArray (a : ArrReg) : MacroSet :=
  let (k, n) := lastTwo a.ext
  let per := tyPer a.ty
  let at_ := (List.range k).flatMap (fun i => (List.range n).map (fun j => (128 * i + j, a.elem (i * n + j))))
  { ty := a.ty, bl := a.bl, k := k, n := n
    codes := (at_.filter (fun x => x.2.code != tyZero a.ty)).map (fun x => (x.1, BitVec.ofNat 8 x.2.code))
    scales := if a.bl = 0#2 then [] else (List.range k).flatMap (fun i => (List.range (ceilDiv n per)).map (fun g =>
      (4 * i + g, BitVec.ofNat 8 (a.elem (i * n + g * per)).scale)))
    marks := (at_.filter (fun x => x.2.poison)).map (·.1) }
/-- Byte of the weight store at which image `tile` of slot `slot` of die `d` begins (R234, R260). -/
def imageKey (d slot tile : Nat) : Nat := wsBase + d * 2 ^ 30 + slot * 2 ^ 22 + 17408 * tile
/-- The macro set an image loads; `none` for a bad header (R234). -/
def setOfImage (m : Memory) (key : Nat) : Option MacroSet :=
  let byte := fun (o : Nat) => (m.read (key + o)).toNat
  let ty : BitVec 4 := BitVec.ofNat 4 (byte 0 % 16)
  let bl : BitVec 2 := BitVec.ofNat 2 (byte 0 / 16 % 4)
  if macroTy ty && byte 0 / 64 == 0 && blOk ty bl && decide (byte 1 ≤ 127) && decide (byte 2 ≤ 127) &&
      ((List.range 61).all (fun i => byte (3 + i) == 0)) then
    let k := byte 1 + 1
    let n := byte 2 + 1
    let per := tyPer ty
    let w := tyWidth ty
    let head := m.poisoned key || m.poisoned (key + 32)
    let at_ := (List.range k).flatMap (fun i =>
      let row := (List.range 4).map (fun g => natOfBytes (m.readN (key + 64 + 128 * i + 32 * g) 32))
      (List.range n).map (fun j =>
        (128 * i + j, row.getD (j / per) 0 >>> (j % per * w) % 2 ^ w,
         head || m.poisoned (key + 64 + 128 * i + 32 * (j / per)) || m.poisoned (key + 16448 + 4 * i + j / per))))
    some { ty := ty, bl := bl, k := k, n := n
           codes := (at_.filter (fun x => x.2.1 != tyZero ty)).map (fun x => (x.1, BitVec.ofNat 8 x.2.1))
           scales := if bl = 0#2 then [] else (List.range k).flatMap (fun i => (List.range (ceilDiv n per)).map (fun g =>
             (4 * i + g, m.read (key + 16448 + 4 * i + g))))
           marks := (at_.filter (fun x => x.2.2)).map (·.1) }
  else none
/-- SLOT and TILE of `mbwl`'s operand, and its reserved bits (R234). -/
def mbwlOk (w : Word64) : Bool := w.extractLsb' 16 48 == 0#48 && !w.getLsbD 7 && decide ((w.extractLsb' 8 8).toNat ≤ 239)
def mbwlKey (d : Nat) (w : Word64) : Nat := imageKey d (w.extractLsb' 0 7).toNat (w.extractLsb' 8 8).toNat

/-! ### Posting (R226, R230, R242, R347) -/

/-- What every matrix post checks first: an unreported pause, and a reserved RM. -/
def matrixPost : Exec Unit := do
  checkPaused
  needRm
/-- Whether a running `tseq` of the current thread uses this tile or macro set of its core (R347). -/
def tseqUses (s : State) (units : List Nat) : Bool :=
  (s.die s.cur.place.die).expQueue.any (fun c => c.tid == s.cur.tid && c.core == s.cur.place.core &&
    (match c.work with
      | .tseq q => units.contains q.job.tile || units.contains (4 + q.job.tile % 2)
      | .ttbld _ => false))
/-- What a post waits for: the thread's sequencer, and room in the queue (R226, R347). -/
def matrixRoom (units : List Nat) : Exec Unit := do
  let s ← get
  check (!tseqUses s units) .wait
  check (decide ((s.core s.cur.place.die s.cur.place.core).queue.length < 64)) .wait
/-- Post an entry (R226): it captures MODE, its operands and ASTART, which becomes 0. -/
def postEntry (op : MOp) (srcs : List (Nat × ArrReg)) (dsts : List ArrReg) (reserve : Nat) : Exec Nat := do
  matrixRoom op.units
  let s ← get
  let d := s.cur.place.die
  let c := s.cur.place.core
  let id := (s.core d c).nextEntry
  let e : MEntry :=
    { id := id, tid := s.cur.tid, op := op, pc := s.cur.pc, mode := s.cur.csr.mode, q31 := s.window 31
      srcs := srcs.map (·.2), srcRegs := srcs.map (·.1), dsts := dsts, place := s.cur.place, astart := s.cur.csr.astart.toNat
      reserve := reserve, stat := .waiting, needs := 0, flags := 0#64, results := [], answer := 0#64 }
  modCore d c fun k => { k with queue := k.queue ++ [e], nextEntry := id + 1 }
  modCur fun t => { t with tail := t.tail ++ [id], csr := { t.csr with astart := 0#64 } }
  return id
/-- Reserve storage for entry `id` until it completes (R36, R37), placed like any other; register 32 stands for none. -/
def reserveFor (id reg reserve : Nat) : Exec Unit := do
  let n ← drawNo
  modify fun s =>
    let z := s.mySlot
    let base := s.placeOn s.cur.place 0 reserve (Config.freeSbase n).toNat
    (s.setMySlot { z with flight := z.flight ++ [{ reg := reg, reserve := reserve, base := base, kind := .entry id }] }).growBanks
      s.cur.place
/-- Rename register `d`, whose shape is pending until its entry completes (R227, R240). -/
def pendReg (d : Nat) (old : ArrReg) : Exec Unit :=
  modify fun s => putArr s d { ArrReg.reset with ty := old.ty, bl := old.bl, pending := true } 0
/-- A source of rank 2 of at most 128 × 128 (R233, R240). -/
def needMatrix (reg : Nat) (a : ArrReg) : Exec Unit := do
  needSource reg a
  check (a.ext.length == 2 && a.ext.all (fun n => decide (n ≤ 128))) (badShape 5 reg)

/-- `mbld`. -/
def execMbld (sh : Bool) (a : Reg) (s : State) :=
  performSeq (.mbld sh a) (do
    matrixPost
    let ra ← arrReg a.toNat
    legal (macroTy ra.ty)
    needMatrix a.toNat ra
    let _ ← postEntry (.mbld sh.toNat) [(a.toNat, ra)] [] 0) s
/-- `mbwl`. -/
def execMbwl (sh : Bool) (a : Reg) (s : State) :=
  performSeq (.mbwl sh a) (do
    matrixPost
    let w ← readReg a
    legal (mbwlOk w)
    let u ← get
    let d := u.cur.place.die
    let slot := (w.extractLsb' 0 7).toNat
    check (u.cur.tid.region.sec || !secureSlot u.fw d slot) (.trap cWorld 0 w)
    check (!(retiredOf u.fw .wslice d).contains (slot / 8)) (.trap cProt 0 w)
    let _ ← postEntry (.mbwl sh.toNat w) [] [] 0) s
/-- `mzero`. -/
def execMzero (t : BitVec 2) (s : State) :=
  performSeq (.mzero t) (do
    matrixPost
    let _ ← postEntry (.mzero t.toNat) [] [] 0) s
/-- `mwr`. -/
def execMwr (t : BitVec 2) (a : Reg) (s : State) :=
  performSeq (.mwr t a) (do
    matrixPost
    let ra ← arrReg a.toNat
    needMatrix a.toNat ra
    let _ ← postEntry (.mwr t.toNat) [(a.toNat, ra)] [] 0) s
/-- `mrd`: its destination is reserved for 128 × 128, with P = 1 until the entry completes (R240). -/
def execMrd (t : BitVec 2) (a : Reg) (s : State) :=
  performSeq (.mrd t a) (do
    matrixPost
    let old ← arrReg a.toNat
    let need := needOn (← getDies) old.tag [128, 128] false
    allocate need
    let id ← postEntry (.mrd t.toNat a.toNat) [] [old] need
    pendReg a.toNat old
    reserveFor id a.toNat need) s

/-- Whether a tag is one the offsets and indices of a triple may have (R236, R239). -/
def indexTag (r : ArrReg) : Bool := r.bl == 0#2 && (r.ty == tyI32 || r.ty == tyN32)
/-- The three registers of a triple, with tags R236 allows. -/
def tripleRegs (a : Nat) : Exec (List (Nat × ArrReg)) := do
  legal (decide (a ≤ 29))
  let o ← arrReg a
  let i ← arrReg (a + 1)
  let v ← arrReg (a + 2)
  legal (indexTag o && indexTag i && matrixTy v.ty)
  return [(a, o), (a + 1, i), (a + 2, v)]
/-- Offsets that are a non-decreasing sequence from 0 to a length (R230). -/
def offsetsOk (o : ArrReg) (n : Nat) : Bool :=
  let vs := (List.range o.count).map (fun i => (indexAt o i).1)
  !vs.isEmpty && vs.headD 1 == 0 && vs.getLastD (-1) == (n : Int) &&
  (List.zipWith (fun x y => decide (x ≤ y)) vs vs.tail).all id
/-- The shapes of a triple whose registers hold something (R236). -/
def tripleShape (a : Nat) (l : List (Nat × ArrReg)) : Exec Unit := do
  forEach l fun (n, r) => check (r.ext.length == 1) (badShape 6 n)
  let r := fun i => (l.getD i (0, ArrReg.reset)).2
  check ((r 1).count == (r 2).count) (badShape 6 (a + 2))
  check (offsetsOk (r 0) (r 1).count) (badShape 6 a)
/-- Every register of a list holds something (R230, condition 3). -/
def needSources (l : List (Nat × ArrReg)) : Exec Unit := forEach l fun (n, r) => needSource n r
/-- Post an `mmul.rw` (R236): tags, then empty sources, then the limits of cells, then the row offsets (R230). A register
b that is empty has a tag of either role; one that holds anything but rank 1 is taken for a dense B, so that an index tag
traps ILLOP before its rank is looked at. Both are the model's choice (DESIGN CHOICE, log entry 20). -/
def postRw (w z : Bool) (t : BitVec 2) (a b : Reg) : Exec Unit := do
  let ta ← tripleRegs a.toNat
  let rb ← arrReg b.toNat
  if !rb.isEmpty && rb.ext.length == 1 then
    legal (t == 0#2)
    let tb ← tripleRegs b.toNat
    needSources (ta ++ tb)
    tripleShape a.toNat ta
    tripleShape b.toNat tb
    let res ← freeGrant
    let id ← postEntry (.mmul .rw w z t.toNat true) (ta ++ tb) [] res
    reserveFor id 32 res
  else
    legal (matrixTy rb.ty || (rb.isEmpty && indexTag rb))
    needSources (ta ++ [(b.toNat, rb)])
    check (rb.ext.length == 2 && decide (rb.ext.getD 1 0 ≤ 128)) (badShape 5 b.toNat)
    let o := (ta.getD 0 (0, ArrReg.reset)).2
    check (o.ext.length != 1 || decide (o.count ≤ 129)) (badShape 5 a.toNat)
    tripleShape a.toNat ta
    let _ ← postEntry (.mmul .rw w z t.toNat false) (ta ++ [(b.toNat, rb)]) [] 0
/-- Post an `mmul.ip` (R231, R235). -/
def postIp (w z : Bool) (t : BitVec 2) (a : Reg) : Exec Unit := do
  let ra ← arrReg a.toNat
  legal (matrixTy ra.ty)
  needSource a.toNat ra
  check (decide (2 ≤ ra.ext.length)) (badShape 5 a.toNat)
  let (m, k) := lastTwo ra.ext
  check (decide (m ≤ 128) && decide (k ≤ 128)) (badShape 5 a.toNat)
  let _ ← postEntry (.mmul .ip w z t.toNat false) [(a.toNat, ra)] [] 0
/-- Post an `mmul.op` (R231, R235). -/
def postOp (w z : Bool) (t : BitVec 2) (a b : Reg) : Exec Unit := do
  let ra ← arrReg a.toNat
  let rb ← arrReg b.toNat
  legal (matrixTy ra.ty && matrixTy rb.ty)
  needSource a.toNat ra
  needSource b.toNat rb
  check (decide (2 ≤ ra.ext.length)) (badShape 5 a.toNat)
  check (decide (2 ≤ rb.ext.length)) (badShape 5 b.toNat)
  let (m, k) := lastTwo ra.ext
  let (kb, n) := lastTwo rb.ext
  check (decide (m ≤ 128)) (badShape 5 a.toNat)
  check (decide (n ≤ 128)) (badShape 5 b.toNat)
  let fa := ra.ext.take (ra.ext.length - 2)
  let fb := rb.ext.take (rb.ext.length - 2)
  liftE (agreeAxes 0 fa fb)
  check (k == kb) (frameMismatch ((longer fa fb).length + 1) k kb)
  let _ ← postEntry (.mmul .op w z t.toNat false) [(a.toNat, ra), (b.toNat, rb)] [] 0
/-- `mmul`. -/
def execMmul (f : Dataflow) (w z : Bool) (t : BitVec 2) (a b : Reg) (s : State) :=
  performSeq (.mmul f w z t a b) (do
    matrixPost
    match f with
    | .ip =>
      legal (b == 0#5)
      postIp w z t a
    | .op => postOp w z t a b
    | .rw => postRw w z t a b) s
/-- `mwait` (R227). -/
def execMwait (s : State) :=
  performSeq .mwait (do
    checkPaused
    let u ← get
    check (!matrixBusy u u.cur.tid && !tseqBusy u u.cur.tid) .wait) s
/-- `mspa`: three results of unknown size share what the grant leaves free (R239). -/
def execMspa (a : Reg) (s : State) :=
  performSeq (.mspa a) (do
    matrixPost
    legal (decide (a.toNat ≤ 29))
    let o ← arrReg a.toNat
    let i ← arrReg (a.toNat + 1)
    let v ← arrReg (a.toNat + 2)
    legal (indexTag o && indexTag i)
    let res ← freeGrant
    let id ← postEntry (.mspa a.toNat) [] [o, i, v] res
    pendReg a.toNat o
    pendReg (a.toNat + 1) i
    pendReg (a.toNat + 2) v
    reserveFor id a.toNat res) s
/-- The address of the current thread's paused entry, or 0 (R242). -/
def pausedPc (s : State) : Word64 :=
  match (s.core s.cur.place.die s.cur.place.core).queue.find? (fun e =>
      e.tid == s.cur.tid && (e.stat == .paused || e.stat == .trapped)) with
  | some e => e.pc
  | none => 0#64
/-- Selector 0 of `mqry` (R242). -/
def queueCounts (s : State) : Word64 :=
  let q := (s.core s.cur.place.die s.cur.place.core).queue
  BitVec.ofNat 64 (q.length % 128 + (q.filter (fun e => e.tid == s.cur.tid)).length % 128 * 256)
/-- `mqry`. -/
def execMqry (t : BitVec 2) (a b : Reg) (s : State) :=
  performSeq (.mqry t a b) (do
    legal (decide (b.toNat < 6))
    if b = 0#5 then
      needRm
      writeReg a (queueCounts (← get))
    else if b = 5#5 then
      needRm
      writeReg a (pausedPc (← get))
    else
      matrixPost
      check (!(← get).cur.pendRegs.contains a) .wait
      let _ ← postEntry (.mqry b.toNat t.toNat a) [] [] 0
      if a = 0#5 then pure ()
      else modCur fun th => { th with pendRegs := a :: th.pendRegs }) s

/-! ### MATRIX_ENTRY_START (R227, R235, R237, R240, R245) -/

/-- The LFSRs of the slot an entry was posted from, and the slot changed to hold others. -/
def lfsrOf (p : Place) : Exec (List Word32) := do
  return ((← get).slotAt p.die p.core p.slot).arr.lfsr
def setLfsrOf (p : Place) (l : List Word32) : Exec Unit :=
  modify fun s => s.modArrAt p fun _ a => { a with lfsr := l }
/-- The entry has read its sources: they are no longer pinned (R226). -/
def unpin (p : Place) (id : Nat) : Exec Unit :=
  modSlotAt p.die p.core p.slot fun z =>
    { z with pins := (z.pins.map (fun p => { p with ids := p.ids.filter (· != id) })).filter (fun p => !p.ids.isEmpty) }
/-- The entry has run, and its sources are no longer pinned: its flags, results and answer wait for its completion. -/
def entryRan (d c : Nat) (e : MEntry) (fl : Flg) (rs : List ArrReg) (ans : Word64) : Exec Unit := do
  unpin e.place e.id
  modCore d c fun k => k.modEntry e.id fun e =>
    { e with stat := .done, flags := flgWord fl, results := rs, answer := ans, srcRegs := [] }
/-- A register holding a tile's corner or a list, converted for a destination's tag; `mark` tells which elements are
poisoned (R240, R244). -/
def convertOut (parts : Nat) (env : Env) (dst : ArrReg) (ext : List Nat) (vals : List Val) (mark : List Bool)
    (l : List Word32) : Except Exc (ArrReg × Flg × List Word32) := do
  let r ← Emit.run
    { parts := parts, tag := dst.tag, ext := ext, old := ArrReg.reset, env := env, mask := none
      give := fun i => .ok (.val (vals.getD i (.int 0)) flgNone), pz := fun _ => false, whole := fun _ _ => none } l
  let bad := ((List.range mark.length).filter (fun i => mark.getD i false)).map (fun i => (placeIn parts dst.tag ext i).1)
  let gran := (List.range r.gran.length).map (fun g =>
    let x := r.gran.getD g Granule.zero
    { x with poison := x.poison || bad.contains g })
  return (regOf parts dst.tag ext false gran, allFlags r.fls, r.lfsr)
/-- Convert a register for an entry, which draws from the LFSRs of its slot; over a gang it is spread (R43). -/
def resultOut (e : MEntry) (env : Env) (dst : ArrReg) (ext : List Nat) (vals : List Val) (mark : List Bool) :
    Exec (ArrReg × Flg) := do
  let (r, f, l) ← liftE (convertOut (partsOf e.place.dies ext false) env dst ext vals mark (← lfsrOf e.place))
  setLfsrOf e.place l
  return (r, f)
/-- The entry pauses: it needs `needs` granules in all, and PAUSED is set (R245). -/
def pauseEntry (d c id needs : Nat) : Exec Unit :=
  modCore d c fun k =>
    let k2 := k.modEntry id (fun e => { e with stat := .paused, needs := needs })
    match k.queue.find? (fun e => e.id == id) with
    | some e => { k2 with mqStatus := addStatus k2.mqStatus e.tid 4#64 }
    | none => k2
/-- The tile with the elements of an array in its corner, rounded where FP32 does not hold them (R240). A tile has no granules
for R62 to name an LFSR by: the draws are those of an FP32 array of a's shape (DESIGN CHOICE, log entry 20). -/
def writtenTile (env : Env) (a : ArrReg) (l : List Word32) : Tile × Flg × List Word32 :=
  let (r, c) := lastTwo a.ext
  let (cells, f, l2) := (List.range a.count).foldl (fun (acc, f, l) i =>
    let e := a.elem i
    let (v, g) := elemValue env.sub a.tag e
    let (k, l2) := convElem env { ty := tyFP32, bl := 0#2 } 0x7F i v l
    let x : TileCell := { val := BitVec.ofNat 32 k.code, mark := e.poison }
    (if x = TileCell.zero then acc else (128 * (i / c) + i % c, x) :: acc, f ||| g ||| k.flags, l2))
    (([] : List (Nat × TileCell)), flgNone, l)
  ({ rows := r, cols := c, cells := cells.reverse }, f, l2)
/-- Rows of the flattened result that an entry works through (R231, R236). -/
def MEntry.rows (e : MEntry) : Nat :=
  let r := fun i => e.srcs.getD i ArrReg.reset
  match e.op with
  | .mmul .rw _ _ _ _ => (r 0).count - 1
  | .mmul .op _ _ _ _ => (pairFrames (r 0).ext (r 1).ext).1 * (lastTwo (r 0).ext).1
  | .mmul .ip _ _ _ _ => extProd ((r 0).ext.take ((r 0).ext.length - 2)) * (lastTwo (r 0).ext).1
  | _ => 0
/-- The boundary at or below row `n` at which an entry can stop: a row, or in outer-product dataflow a cell (R228). -/
def MEntry.boundary (e : MEntry) (n : Nat) : Nat :=
  match e.op with
  | .mmul .op _ _ _ _ => let m := (lastTwo (e.srcs.getD 0 ArrReg.reset).ext).1; n / m * m
  | _ => n
/-- The result of an `mmul` on a tile is in its tile; its flags. -/
def tileDone (d c : Nat) (t : Tid) (tile : Nat) (o : TileOut) : Exec Flg := do
  modCore d c fun k =>
    let k2 := k.setTile tile o.tile
    if o.poison then { k2 with mqStatus := addStatus k2.mqStatus t 2#64 } else k2
  return o.fl
/-- Work through the rows of a sparse-B entry from where it starts to row `hi`: the flags, or the granules it needs where
its room runs out (R237, R238, R245). An entry that pauses keeps nothing of the rows before: it works through them again, and
it is when it completes that POISON of any of them is set, which is the model's choice (DESIGN CHOICE, log entry 20). -/
def sparseTo (d c : Nat) (e : MEntry) (sub : SubSpec) (z : Bool) (hi : Nat) : Exec (Except Nat Flg) := do
  whenB (z && e.astart == 0) (modCore d c fun k => { k with sparse := SparseRes.reset })
  modCore d c fun k => { (k.modEntry e.id (fun f => { f with op := match f.op with
    | .mmul q sw _ t sp => .mmul q sw (z && e.astart != 0) t sp
    | o => o })) with accUser := .matrix }
  let k ← getCore d c
  let r := fun i => e.srcs.getD i ArrReg.reset
  let m := (r 0).count - 1
  let rows := max k.sparse.m m
  let own := if k.sparse.holder = some e.tid then k.sparse.charge else 0
  let kept := k.sparse.runs
  match sparseRows sub (r 0) (r 1) (r 2) (r 3) (r 4) (r 5) rows (e.reserve + own)
      ((List.range hi).drop e.astart) (runEntries kept) [] flgNone false with
  | .short n => return .error n
  | .full rs f p =>
    modCore d c fun k =>
      let k2 := { k with sparse := { k.sparse with runs := kept ++ rs, m := rows } }
      if p then { k2 with mqStatus := addStatus k2.mqStatus e.tid 2#64 } else k2
    return .ok f
/-- Work through the rows of an `mmul` entry from where it starts to row `hi`: the flags, or the granules it needs. -/
def mmulTo (d c : Nat) (e : MEntry) (hi : Nat) : Exec (Except Nat Flg) := do
  let sub := (envOf e.mode e.q31).sub
  let k ← getCore d c
  let r := fun i => e.srcs.getD i ArrReg.reset
  let span : Rows := { lo := e.astart, hi := hi }
  match e.op with
  | .mmul .ip sw z t _ =>
    modCore d c fun k => { k with rowBuf := bufferRows (r 0) hi }
    return .ok (← tileDone d c e.tid t (mmulIp sub sw z span (r 0) (k.mset (t % 2)) (k.tile t)))
  | .mmul .op sw z t _ => return .ok (← tileDone d c e.tid t (mmulOp sub sw z span (r 0) (r 1) (k.tile t)))
  | .mmul .rw sw z t false =>
    modCore d c fun k => { k with accUser := .matrix }
    return .ok (← tileDone d c e.tid t (mmulRwDense sub sw z span (r 0) (r 1) (r 2) (r 3) (k.tile t)))
  | .mmul .rw _ z _ true => sparseTo d c e sub z hi
  | _ => return .ok flgNone
/-- Run an `mmul` entry to its last row; one whose storage runs out pauses (R245). -/
def runMmul (d c : Nat) (e : MEntry) : Exec Unit := do
  match ← mmulTo d c e e.rows with
  | .ok f => entryRan d c e f [] 0#64
  | .error n => pauseEntry d c e.id n
/-- Run an `mspa` (R239, R245): over a gang each die holds its share of the results (R43, R44). -/
def runMspa (d c : Nat) (e : MEntry) (env : Env) : Exec Unit := do
  let k ← getCore d c
  let (rows, f) := mergedRows k.sparse
  let es := rows.flatMap id
  let dst := fun i => e.dsts.getD i ArrReg.reset
  let need := fun i n => needOn e.place.dies (dst i).tag [n] false
  let needs := [need 0 (rows.length + 1), need 1 es.length, need 2 es.length]
  if needs.any (fun n => decide (e.reserve / 3 < n)) then pauseEntry d c e.id needs.sum
  else
    let (o, f1) ← resultOut e env (dst 0) [rows.length + 1] ((offsetsOf rows).map (fun n => .int (n : Nat))) []
    let (i, f2) ← resultOut e env (dst 1) [es.length] (es.map (fun x => .int (x.col : Nat))) []
    let (v, f3) ← resultOut e env (dst 2) [es.length] (es.map (fun x => .flt (decodeF tyFP32 x.val.toNat)))
      (es.map (·.mark))
    entryRan d c e (f ||| f1 ||| f2 ||| f3) [o, i, v] 0#64
/-- What a posted query answers (R242). -/
def queryAnswer (k : CoreSt) (t : Tid) (sel tile : Nat) : Word64 :=
  match sel with
  | 1 => BitVec.ofNat 64 (runEntries k.sparse.runs)
  | 2 => BitVec.ofNat 64 k.sparse.m
  | 3 => match k.mqStatus.find? (fun x => x.1 == t) with
    | some (_, w) => w
    | none => 0#64
  | _ => BitVec.ofNat 64 ((k.tile tile).rows * 65536 + (k.tile tile).cols)
/-- Run an entry. -/
def runEntry (d c : Nat) (e : MEntry) : Exec Unit := do
  let s ← get
  let env := envOf e.mode e.q31
  let k ← getCore d c
  let r := fun i => e.srcs.getD i ArrReg.reset
  match e.op with
  | .mbld m =>
    modCore d c fun k => k.setMset m (setOfArray (r 0))
    entryRan d c e flgNone [] 0#64
  | .mbwl m w =>
    let key := mbwlKey d w
    check (refreshLeft s.cycle (wsSlice key) == 0) .wait
    match setOfImage s.mem key with
    | some x =>
      modCore d c fun k => k.setMset m x
      entryRan d c e flgNone [] 0#64
    | none =>
      modCore d c fun k => { k.setMset m MacroSet.reset with mqStatus := addStatus k.mqStatus e.tid 1#64 }
      entryRan d c e flgNV [] 0#64
  | .mmul _ _ _ _ _ => runMmul d c e
  | .mzero t =>
    modCore d c fun k => k.setTile t Tile.reset
    entryRan d c e flgNone [] 0#64
  | .mrd t _ =>
    let x := k.tile t
    let ext := [x.rows, x.cols]
    let cells := (cornerKeys x.rows x.cols).map (spGet TileCell.zero x.cells)
    let (o, f) ← resultOut e env (e.dsts.getD 0 ArrReg.reset) ext
      (cells.map (fun c => .flt (decodeF tyFP32 c.val.toNat))) (cells.map (·.mark))
    entryRan d c e f [o] 0#64
  | .mwr t =>
    let (x, f, l) := writtenTile env (r 0) (← lfsrOf e.place)
    setLfsrOf e.place l
    modCore d c fun k => k.setTile t x
    entryRan d c e f [] 0#64
  | .mspa _ => runMspa d c e env
  | .mqry sel t _ =>
    entryRan d c e flgNone [] (queryAnswer k e.tid sel t)
    whenB (sel == 3) (modCore d c fun k => { k with mqStatus := k.mqStatus.filter (fun x => x.1 != e.tid) })
/-- Entry `n` of a core starts, if it can. -/
def matrixStart (die core n : Nat) (s : State) : Option State :=
  unitStep (unitCtx die 1 n s.cur.tid (4 * core)) (do
    let (before, e) ← enabledSome (entryOf (s.core die core) n)
    enabled (mayStart (s.core die core) before e)
    runEntry die core e) s
/-- The step MATRIX_ENTRY_START: entry `n` of a core starts, once every earlier entry on its units has finished. -/
def execMatrixEntryStart (die core n : Nat) (s : State) : Host.Outcome State Fault Refusal :=
  goes s (matrixStart die core n s)

/-! ### MATRIX_ENTRY_COMPLETE (R37, R222, R227, R237) -/

/-- The state with an array register of a thread in place, each die taking its share and placing it anew (R37, R43). -/
def State.putResult (s : State) (p : Place) (reg : Nat) (r : ArrReg) (free : Nat) : State :=
  s.modArrAt p fun j a =>
    let q := r.share j
    { a with regs := listSet a.regs reg { q with sbase := s.placeOn p j q.gran.length free } }
/-- A result register in place, its storage placed anew (R37): in the slot the entry was posted from, if its thread's array
state is still there. -/
def publishReg (e : MEntry) (reg : Nat) (r : ArrReg) : Exec Unit := do
  let n ← drawNo
  let s ← get
  whenB ((s.slotAt e.place.die e.place.core e.place.slot).owner == some e.tid)
    (modify fun s => (s.putResult e.place reg r (Config.freeSbase n).toNat).growBanks e.place)
/-- The entry's runs are charged to its thread, which is the holder of the sparse result from now on, and lie in storage of
that thread's grant (R237). -/
def chargeRuns (d c : Nat) (e : MEntry) : Exec Unit := do
  let n ← drawNo
  modify fun s =>
    let k := s.core d c
    let need := sparseGranules (runEntries k.sparse.runs) k.sparse.m
    let rest : CoreSt := { k with sparse := { k.sparse with holder := none } }
    (s.setCore d c { k with sparse := { k.sparse with
      holder := some e.tid, charge := need, base := rest.place need (Config.freeSbase n).toNat } }).growBanks e.place
/-- The end of a row-wise entry with dense B releases the accumulator, which a sparse result keeps (R222). -/
def releaseDense (k : CoreSt) : CoreSt := if k.sparse.holder.isNone then { k with accUser := .none } else k
/-- What the reservation and the results of an entry become when it completes. -/
def finishEntry (d c : Nat) (e : MEntry) : Exec Unit := do
  modSlotAt e.place.die e.place.core e.place.slot fun z =>
    { z with flight := z.flight.filter (fun f => f.kind != .entry e.id) }
  match e.op with
  | .mrd _ reg => publishReg e reg (e.results.getD 0 ArrReg.reset)
  | .mspa reg =>
    publishReg e reg (e.results.getD 0 ArrReg.reset)
    publishReg e (reg + 1) (e.results.getD 1 ArrReg.reset)
    publishReg e (reg + 2) (e.results.getD 2 ArrReg.reset)
    modCore d c dropSparse
  | .mmul .rw _ _ _ true => chargeRuns d c e
  | .mmul .rw _ _ _ false => modCore d c releaseDense
  | .mqry _ _ reg => lateReg e.tid reg e.answer
  | _ => pure ()
/-- Entry `n` of a core completes, if it has run. -/
def matrixComplete (die core n : Nat) (s : State) : Option State :=
  unitStep (unitCtx die 1 n s.cur.tid (4 * core)) (do
    let (_, e) ← enabledSome (entryOf (s.core die core) n)
    enabled (e.stat == .done)
    modCore die core fun k => { k with queue := k.queue.filter (fun f => f.id != n) }
    finishEntry die core e
    mergeFlags e.tid e.flags) s
/-- The step MATRIX_ENTRY_COMPLETE: entry `n` of a core has finished; its flags are merged and it leaves the queue. -/
def execMatrixEntryComplete (die core n : Nat) (s : State) : Host.Outcome State Fault Refusal :=
  goes s (matrixComplete die core n s)

/-! ### Interruption (R228, R246, R381) -/

/-- A destination register of the current thread as it was before an entry was posted (R40): entries that still read it
hold it again in place of a pin. -/
def restoreReg (reg : Nat) (old : ArrReg) : Exec Unit := do
  let n ← drawNo
  modify fun s =>
    let z := s.mySlot
    let s1 := match z.pins.find? (fun p => p.base == old.sbase && decide (0 < old.gran.length)) with
      | none => s
      | some p =>
        let u := s.setMySlot { z with pins := z.pins.erase p }
        let k := u.core u.cur.place.die u.cur.place.core
        let back := k.queue.map fun (e : MEntry) =>
          if p.ids.contains e.id then { e with srcRegs := e.srcRegs ++ [reg] } else e
        u.setCore u.cur.place.die u.cur.place.core { k with queue := back }
    s1.putResult s1.cur.place reg old (Config.freeSbase n).toNat
/-- The current thread's entry is unwound: it leaves the queue, and its reservation, what it pins and its destinations are
as before its post (R40, R228); an accumulator that it alone held is released (R222). -/
def unwindEntry (e : MEntry) : Exec Unit := do
  let p := e.place
  modCore p.die p.core fun k => CoreSt.freeAcc { k with queue := k.queue.filter (fun f => f.id != e.id) }
  unpin p e.id
  modSlotAt p.die p.core p.slot fun z => { z with flight := z.flight.filter (fun f => f.kind != .entry e.id) }
  match e.op with
  | .mrd _ reg => restoreReg reg (e.dsts.getD 0 ArrReg.reset)
  | .mspa reg =>
    forEach [0, 1, 2] fun i => restoreReg (reg + i) (e.dsts.getD i ArrReg.reset)
  | .mqry _ _ reg => modCur fun t => { t with pendRegs := t.pendRegs.erase reg }
  | _ => pure ()
/-- The entry that is interrupted works on to a boundary that is free, if it can run now; the row it is to go on at. -/
def runToBoundary (e : MEntry) : Exec Nat := do
  let s ← get
  let d := s.cur.place.die
  let c := s.cur.place.core
  match entryOf (s.core d c) e.id with
  | none => return e.astart
  | some (before, _) =>
    if !mayStart (s.core d c) before e || e.rows ≤ e.astart then return e.astart
    else
      let n ← drawNo
      let hi := e.boundary (e.astart + Config.freeStop n % (e.rows - e.astart))
      if hi ≤ e.astart then return e.astart
      else match ← attempt (mmulTo d c e hi) with
        | .ok (.ok f) =>
          mergeFlags e.tid (flgWord f)
          (match e.op with
            | .mmul .rw _ _ _ true => chargeRuns d c e
            | .mmul .rw _ _ _ false => modCore d c releaseDense
            | _ => pure ())
          return hi
        | _ =>
          modify fun u => { s with draws := u.draws }
          return e.astart
/-- Pre-emption or trap 0x0B stops the current thread. Where its latest instructions are matrix posts, it may do so at one
of those whose entry has not run, none behind it having run: which is free (R228, R246, log entry 42). The entries behind
that one are unwound, and it stops at a boundary of its rows, which ASTART records; it is the instruction at which the thread
goes on. -/
def interruptTail : Exec Unit := do
  let s ← get
  let k := s.core s.cur.place.die s.cur.place.core
  let posted := s.cur.tail.map (fun id => k.queue.find? (fun e => e.id == id && e.stat != .done))
  let late := (posted.reverse.takeWhile (·.isSome)).filterMap id
  if late.isEmpty then pure ()
  else
    let n ← drawNo
    let back := Config.freeStop n % (late.length + 1)
    match late.drop (back - 1) with
    | e :: _ =>
      if back = 0 then pure ()
      else
        forEach (late.take (back - 1)) unwindEntry
        let row ← runToBoundary e
        unwindEntry e
        modCur fun t => { t with
          pc := e.pc, convoy := [], tail := []
          csr := { t.csr with astart := BitVec.ofNat 64 row, instret := t.csr.instret - BitVec.ofNat 64 back } }
    | [] => pure ()

end Sys2Proof.Machine
end

