-- ==== Sys2Proof/Machine/MemArray.lean ====
section
/-!
DEFINITION. Arrays in memory (R268, R271 to R289): shaped loads and stores, tile images, the windows of the
gather/scatter unit, prefetch and constant banks.
-/
namespace Sys2Proof.Machine

/-! ### Pages and bytes of an instruction (R267, R272, R277, R280) -/

/-- The pages an instruction has translated, each for a die: the page's number, its physical address, MSA, SH. -/
abbrev PageMap := List ((Nat × Nat) × Nat × Bool × Bool)
/-- Translate every page that `n` bytes from `va` touch and that is not translated yet, by a bound on their number;
`ws` says that only the weight store is allowed. -/
def needPages (c : Ctx) (acc : Acc) (ws : Bool) : Nat → Nat → Nat → PageMap → Exec PageMap
  | 0, _, _, pm => pure pm
  | f + 1, va, n, pm =>
    if n = 0 then pure pm
    else if 2 ^ 55 ≤ va then trapNow cProt (BitVec.ofNat 64 va)
    else do
      let page := (c.die, va / 65536)
      let k := min n (65536 - va % 65536)
      let pm2 ← if pm.any (fun p => p.1 == page) then pure pm
        else do
          let x ← translate c acc (BitVec.ofNat 64 va)
          check (!ws || (match x.loc with
            | .here key => isWs key
            | .far node => node % 2 == 1
            | .nowhere => false)) (.trap cProt 0 (BitVec.ofNat 64 va))
          pure ((page, x.pa - va % 65536, x.msa, x.sh) :: pm)
      needPages c acc ws f (va + k) (n - k) pm2
/-- The pages of `n` bytes. -/
def needBytes (c : Ctx) (acc : Acc) (ws : Bool) (va n : Nat) (pm : PageMap) : Exec PageMap :=
  needPages c acc ws (n / 65536 + 2) va n pm
/-- The place of a translated address. -/
def xlatAt (f : Firmware) (c : Ctx) (pm : PageMap) (va : Nat) : Xlat :=
  match pm.find? (fun p => p.1 == (c.die, va / 65536)) with
  | some (_, base, msa, sh) => { pa := base + va % 65536, loc := locate f (base + va % 65536), msa := msa, sh := sh }
  | none => { pa := 0, loc := .nowhere, msa := false, sh := false }
/-- The context of the current thread's array accesses; NT = 1 keeps their lines out of the caches (R104, R255), and the
weight path goes to the slices themselves (R277, R280). -/
def State.arrCtx (s : State) (ws nt : Bool) : Ctx := { s.ctx with via := if ws then .home else .array nt }
/-- The context of an access on the die that holds share `j` of `parts`. -/
def State.onShare (s : State) (c : Ctx) (parts j : Nat) : Ctx :=
  if parts ≤ 1 then c
  else match s.cur.place.shares[j]? with
    | some (d, k, z) => { c with die := d, core := k, slot := 4 * k + z }
    | none => c
/-- The context of the access for element `i` of a shape spread over `parts` dies: each die works on its share (R272). -/
def State.shareCtx (s : State) (c : Ctx) (parts : Nat) (ext : List Nat) (i : Nat) : Ctx :=
  s.onShare c parts (shareOf parts ext i).1
/-- The parts of `n` bytes from `va` that lie in one granule each, by a bound on their number. -/
def granParts : Nat → Nat → Nat → List (Nat × Nat)
  | 0, _, _ => []
  | f + 1, va, n =>
    if n = 0 then [] else
      let k := min n (32 - va % 32)
      (va, k) :: granParts f (va + k) (n - k)
/-- Read `n` translated bytes: the bytes, and the addresses of the poisoned granules among them. -/
def readBytes (c : Ctx) (pm : PageMap) (va n : Nat) : Exec (List Byte × List Nat) :=
  foldEach (granParts (n / 32 + 2) va n) ([], []) fun (done, bad) (a, k) => do
    let (b, p) ← readPiece c a k (xlatAt (← get).fw c pm a)
    return (done ++ b, bad ++ p)

/-! ### Parameter blocks (R104, R105, R273) -/

/-- A parameter block with its markers resolved. -/
structure MBlock where
  tag : Tag
  boff : Nat
  pb : Bool
  nt : Bool
  ext : List Nat
  pn : Nat
  pu : Nat
  deriving DecidableEq, Repr
/-- The block of an instruction (R105). -/
def memBlock (p : PBlock) : Exec MBlock := do
  let ext ← pExtents p
  let pn ← pValue false p.pn
  let pu ← pValue false p.pu
  return { tag := { ty := p.ty, bl := p.bl }, boff := p.boff.toNat, pb := p.pb, nt := p.nt, ext := ext, pn := pn, pu := pu }
/-- The bit address of the element of flattened index `i` (R273). -/
def elemBit (va : Nat) (m : MBlock) (i : Nat) : Nat :=
  let n := m.ext.length
  let w := tyWidth m.tag.ty
  let idx := unravel m.ext i
  let at_ := fun j => idx.getD j 0
  let pn := if m.pn = 0 then lastExt m.ext * w else if m.pb then m.pn else m.pn * w
  let pu := if m.pu = 0 then m.ext.getD (n - 2) 1 else m.pu
  let row := if n < 2 then 0
    else at_ (n - 2) + (if 3 ≤ n then pu * at_ (n - 3) else 0) + (if n = 4 then pu * m.ext.getD 1 1 * at_ 0 else 0)
  8 * va + m.boff + row * pn + at_ (n - 1) * w
/-- The first byte of a bit field and the bytes it lies in. -/
def bitBytes (bit w : Nat) : Nat × Nat := (bit / 8, (bit + w - 1) / 8 - bit / 8 + 1)
/-- The field of `w` bits at a bit address, out of the bytes it lies in. -/
def bitField (bytes : List Byte) (bit w : Nat) : Nat := (natOfBytes bytes >>> (bit % 8)) % 2 ^ w
/-- The block of element `i` in row-major order (R274). -/
def blockIdx (t : Tag) (ext : List Nat) (i : Nat) : Nat := (placeOf t ext i).1 / blkOf t.bl
/-- The pages of the elements that are read or written, each translated for the die that `at_` gives it. -/
def needElems (at_ : Nat → Ctx) (acc : Acc) (ws : Bool) (va : Nat) (m : MBlock) (is : List Nat) : Exec PageMap :=
  foldEach is [] fun pm i => do
    let (a, n) := bitBytes (elemBit va m i) (tyWidth m.tag.ty)
    needBytes (at_ i) acc ws a n pm
/-- The blocks of these elements, each once, rising. -/
def blocksOf (m : MBlock) (is : List Nat) : List Nat := is.foldl (fun l i =>
  let b := blockIdx m.tag m.ext i
  if l.getLast? = some b then l else setAdd l b) []

/-! ### Loads (R274 to R277, R286) -/

/-- Whether a matrix instruction reads array register `d` as a source (R276). -/
def feedsFrom (d : Nat) : Instr → Bool
  | .mbld _ a => a.toNat == d
  | .mwr _ a => a.toNat == d
  | .mmul .ip _ _ _ a _ => a.toNat == d
  | .mmul .op _ _ _ a b => a.toNat == d || b.toNat == d
  | .mmul .rw _ _ _ a b => (decide (a.toNat ≤ d) && decide (d ≤ a.toNat + 2)) || (decide (b.toNat ≤ d) && decide (d ≤ b.toNat + 2))
  | _ => false
/-- What a load found for an element: its code, and the poisoned memory granules it lies in. -/
structure Loaded where
  code : Nat
  bad : List Nat
  deriving DecidableEq, Repr
/-- Read these elements, in order. -/
def readElems (at_ : Nat → Ctx) (pm : PageMap) (va : Nat) (m : MBlock) (is : List Nat) : Exec (List (Nat × Loaded)) :=
  mapEach is fun i => do
    let w := tyWidth m.tag.ty
    let bit := elemBit va m i
    let (a, n) := bitBytes bit w
    let (b, bad) ← readBytes (at_ i) pm a n
    return (i, { code := bitField b bit w, bad := bad })
/-- The result of a load: codes copied, or values converted (R275, R286). `got` holds the elements read by index, and
`scales` the scale bytes by block. Where a block of d is cut at the end of a die's share, codes are copied with the scale byte of
the memory block that its first element lies in (DESIGN CHOICE, log entry 26). -/
def loadEmit (m : MBlock) (old : ArrReg) (env : Env) (mask : Option (Nat → Bool)) (va : Nat)
    (got : Array (Option Loaded)) (scales : Sparse Byte) : Emit :=
  let copy := old.tag == m.tag
  let w := tyWidth m.tag.ty
  let scaleOf := fun i => (spGet 0x7F#8 scales (blockIdx m.tag m.ext i)).toNat
  let badGrans := got.toList.flatMap (fun x => match x with
    | some y => y.bad
    | none => [])
  { tag := old.tag, ext := m.ext, old := old, env := env, mask := mask
    give := fun i =>
      match got.getD i none with
      | none => .ok (.code 0 false flgNone)
      | some x =>
        if copy then .ok (.code x.code (!x.bad.isEmpty) flgNone)
        else match x.bad with
          | g :: _ => .error (.trap cPoison 0 (BitVec.ofNat 64 g))
          | [] =>
            let (v, f) := elemValue env.sub m.tag { code := x.code, scale := scaleOf i, gran := 0, poison := false }
            .ok (.val v f)
    pz := fun i =>
      let (a, n) := bitBytes (elemBit va m i) w
      badGrans.any (fun g => decide (g < a + n) && decide (a < g + 32))
    whole := fun first _ => if copy && m.tag.bl != 0#2 then some (scaleOf first) else none }
/-- `ald` and `wsld`. -/
def loadArray (ws : Bool) (d a b : Reg) (k : BitVec 3) (p : PBlock) : Exec Unit := do
  let m ← memBlock p
  let old ← arrReg d.toNat
  let copy := old.tag == m.tag
  legal (b == 0#5 || m.tag.bl != 0#2)
  rmCheck (!copy && !exactInto m.tag old.tag)
  let dies ← getDies
  let repl := resultRepl dies m.ext []
  let s ← get
  let feeds := s.cur.convoy.tail.any (feedsFrom d.toNat)
  let on := feeds && goesOn old.tag m.ext old s.cur.csr.astart
  let start := if on then s.cur.csr.astart.toNat else 0
  if !on then allocResult old.tag m.ext repl 0
  let va := (← readReg a).toNat
  let sva := (← readReg b).toNat
  let mask := maskOf (← getMasks) k
  let parts := partsOf dies m.ext repl
  let stamp := fun i => (placeIn parts old.tag m.ext i).1 / blkOf old.bl * blkOf old.bl
  let is := (List.range (extProd m.ext)).filter (fun i => decide (start ≤ stamp i) && (match mask with
    | some f => f i
    | none => true))
  let at_ := s.shareCtx (s.arrCtx ws m.nt) parts m.ext
  let pm ← needElems at_ .read ws va m is
  let blocks := if m.tag.bl = 0#2 ∨ b = 0#5 then [] else blocksOf m is
  let first := fun j => at_ ((is.find? (fun i => blockIdx m.tag m.ext i == j)).getD 0)
  let pm ← foldEach blocks pm fun pm j => needBytes (first j) .read ws (sva + j) 1 pm
  let scales ← mapEach blocks fun j => do
    let (x, _) ← readBytes (first j) pm (sva + j) 1
    return (j, x.headD 0#8)
  let got ← readElems at_ pm va m is
  let env ← arrEnv
  let tab := got.foldl (fun (t : Array (Option Loaded)) (i, x) => t.setIfInBounds i (some x))
    (Array.replicate (extProd m.ext) none)
  let em := loadEmit m old env mask va tab scales
  if feeds then
    let firstBad := (List.range (extProd m.ext)).find? (fun i => match em.cell i with
      | .ok _ => false
      | .error _ => true)
    let _ ← emitResumable d.toNat em repl { stamp := stamp, stopAt := firstBad.map stamp } 0
  else
    let _ ← emitInto d.toNat em repl
def execAld (d a b : Reg) (m : BitVec 3) (p : PBlock) (s : State) :=
  performSeq (.ald d a b m p) (loadArray false d a b m p) s
def execWsld (d a b : Reg) (m : BitVec 3) (p : PBlock) (s : State) :=
  performSeq (.wsld d a b m p) (loadArray true d a b m p) s

/-! ### Stores (R268, R274, R278 to R281, R286) -/

/-- Bits to be written to a byte: which, their values, and whether they come from a poisoned granule. -/
structure ByteBits where
  mask : Byte
  val : Byte
  bad : Bool
  deriving DecidableEq, Repr
/-- Add a byte's bits to a table of bytes: bits that are there already were written later, and stay. -/
def underByte (t : Sparse ByteBits) (a : Nat) (x : ByteBits) : Sparse ByteBits :=
  match t with
  | [] => [(a, x)]
  | (j, y) :: r =>
    if a < j then (a, x) :: t
    else if a = j then
      (a, { mask := y.mask ||| x.mask, val := y.val ||| (x.val &&& ~~~ y.mask), bad := y.bad || x.bad }) :: r
    else (j, y) :: underByte r a x
/-- Add a field of `w` bits at a bit address, below what is there. -/
def underField (t : Sparse ByteBits) (bit w code : Nat) (bad : Bool) : Sparse ByteBits :=
  let (a, n) := bitBytes bit w
  let v := code % 2 ^ w * 2 ^ (bit % 8)
  let m := (2 ^ w - 1) * 2 ^ (bit % 8)
  (List.range n).foldr (fun i t =>
    underByte t (a + i) { mask := BitVec.ofNat 8 (m / 256 ^ i), val := BitVec.ofNat 8 (v / 256 ^ i), bad := bad }) t
/-- The bytes of fields written in order: bit address, code and poison of each. -/
def fieldsTable (w : Nat) (fs : List (Nat × Nat × Bool)) : Sparse ByteBits :=
  fs.foldr (fun (bit, code, bad) t => underField t bit w code bad) []
/-- The runs of consecutive bytes of a table, none across a 128-byte line. -/
def byteRuns : Sparse ByteBits → List (Nat × List ByteBits)
  | [] => []
  | (a, x) :: r =>
    match byteRuns r with
    | (b, l) :: rest => if b = a + 1 ∧ b % 128 ≠ 0 then (a, x :: l) :: rest else (a, [x]) :: (b, l) :: rest
    | [] => [(a, [x])]
/-- A run of bytes of a line to be written: its address, where that is, the bytes, and the granules written poisoned. -/
structure Run where
  va : Nat
  x : Xlat
  bytes : List Byte
  bad : List Nat
/-- The key of a run that lies in this package. -/
def Run.key? (r : Run) : Option Nat :=
  match r.x.loc with
  | .here key => some key
  | _ => none
/-- Runs in groups of one line each, in order, by a bound on their number. -/
def lineGroups : Nat → List Run → List (List Run)
  | 0, _ => []
  | n + 1, l =>
    match l with
    | [] => []
    | r :: rest =>
      let same := fun (q : Run) => q.x.pa / 128 == r.x.pa / 128
      (r :: rest.takeWhile same) :: lineGroups n (rest.dropWhile same)
/-- Write the runs of one line of another node, with one request (R283, R415). -/
def writeFar (c : Ctx) : List Run → Exec Unit
  | [] => pure ()
  | [r] => writePiece c r.va r.x r.bytes r.bad
  | r :: rest => do
    match ← remoteAsk c (.writes r.x.pa ((r :: rest).map (fun q => (q.x.pa, q.bytes))) ((r :: rest).flatMap (·.bad))) with
    | .data _ _ => pure ()
    | .error => trapNow cProt (BitVec.ofNat 64 r.va)
/-- Write a table of bytes, each run of a line at once, the lower lines first (R367); a byte written in part is read first
(R279). Other nodes' lines go before those of this package, and the weight path writes its lines in one go. -/
def writeTable (c : Ctx) (pm : PageMap) (t : Sparse ByteBits) : Exec Unit := do
  let zero : ByteBits := { mask := 0#8, val := 0#8, bad := false }
  let runs ← mapEach (byteRuns t) fun (a, l) => do
    let x := xlatAt (← get).fw c pm a
    let old ← if l.any (fun y => y.mask != 0xFF#8) then do
        let (b, _) ← readPiece c a l.length x
        pure b
      else pure []
    let new := (List.range l.length).map (fun i =>
      let y := l.getD i zero
      (old.getD i 0#8 &&& ~~~ y.mask) ||| y.val)
    let bad := (granulesOf x.place l.length).filter (fun g =>
      (List.range l.length).any (fun i => (x.place + i) / 32 == g && (l.getD i zero).bad))
    return ({ va := a, x := x, bytes := new, bad := bad } : Run)
  let mine := runs.filterMap (fun r => r.key?.map (fun k => (k, r)))
  forEach (lineGroups runs.length (runs.filter (fun r => r.key?.isNone))) (writeFar c)
  if c.via = .home then writeThrough c (mine.map (fun (k, r) => (k, r.bytes, r.bad)))
  else forEach (sortByKey mine) fun (_, r) => writePiece c r.va r.x r.bytes r.bad
/-- The bytes of fields written in order, each given with the share it is of, as each share's die writes them: a byte that
fields of several shares meet in is written whole by the die of the last of them (R278, R284). -/
def shareTables (parts w : Nat) (fs : List (Nat × Nat × Nat × Bool)) : List (Nat × Sparse ByteBits) :=
  let t := fieldsTable w (fs.map (·.2))
  if parts ≤ 1 then [(0, t)]
  else
    let own := fs.foldl (fun (o : Sparse Nat) (j, bit, _, _) =>
      let (a, n) := bitBytes bit w
      (List.range n).foldl (fun p i => spSet p (a + i) j) o) []
    (List.range parts).map fun j => (j, t.filter (fun x => spGet 0 own x.1 == j))
/-- The first row whose bit address is not a multiple of 8 (R268). -/
def misalignedRow (va : Nat) (m : MBlock) : Option Nat :=
  if extProd m.ext = 0 then none
  else
    let last := lastExt m.ext
    ((List.range (extProd m.ext / last)).map (fun r => elemBit va m (r * last))).find? (fun b => b % 8 != 0)
/-- The checks of a stored register against its block: rank, then extents in axis order (R272, R278). -/
def storeShape (d : Nat) (r : ArrReg) (m : MBlock) : Exec Unit := do
  needSource d r
  check (r.ext.length == m.ext.length) (badShape 7 d)
  liftE (agreeAxes 0 r.ext m.ext)
/-- What a store writes: the register in the block's tag; a block of a scaled tag is written whole (R278). Where codes are
copied and a block of memory meets two dies' shares, it takes the scale byte that its first element has (DESIGN CHOICE, log
entry 26). -/
def storeEmit (d : Nat) (r : ArrReg) (m : MBlock) (env : Env) (mask : Option (Nat → Bool)) : Emit :=
  let copy := r.tag == m.tag
  let us := unitsOf 1 m.tag m.ext
  let unitMask := fun (f : Nat → Bool) (i : Nat) => match us.find? (fun (a, n) => decide (a ≤ i) && decide (i < a + n)) with
    | some (a, n) => (List.range n).any (fun j => f (a + j))
    | none => false
  { tag := m.tag, ext := m.ext, old := ArrReg.reset, env := env
    mask := mask.map (fun f => if m.tag.bl = 0#2 then f else unitMask f)
    give := fun i =>
      let e := r.elem i
      if copy then .ok (.code e.code e.poison flgNone)
      else do
        let (v, f) ← consume env.sub d r.tag e
        return .val v f
    pz := fun i => (r.elem i).poison
    whole := fun first _ => if copy && m.tag.bl != 0#2 then some (r.elem first).scale else none }
/-- `ast` and `wsst`. -/
def storeArray (ws : Bool) (d a b : Reg) (k : BitVec 3) (p : PBlock) : Exec Unit := do
  let m ← memBlock p
  let r ← arrReg d.toNat
  legal ((b != 0#5) == (m.tag.bl != 0#2))
  rmCheck (r.tag != m.tag && !exactInto r.tag m.tag)
  storeShape d.toNat r m
  let s ← get
  let va := (← readReg a).toNat
  let sva := (← readReg b).toNat
  match misalignedRow va m with
  | some bit => trapNow cMisaligned (BitVec.ofNat 64 (bit / 8))
  | none => pure ()
  let env ← arrEnv
  let em := storeEmit d.toNat r m env (maskOf (← getMasks) k)
  let is := (List.range (extProd m.ext)).filter (fun i => match em.mask with
    | some f => f i
    | none => true)
  let parts := r.parts
  let at_ := s.shareCtx (s.arrCtx ws m.nt) parts m.ext
  let pm ← needElems at_ .write ws va m is
  let blocks := if m.tag.bl = 0#2 then [] else blocksOf m is
  let firstOf := fun j => (is.find? (fun i => blockIdx m.tag m.ext i == j)).getD 0
  let pm ← foldEach blocks pm fun pm j => needBytes (at_ (firstOf j)) .write ws (sva + j) 1 pm
  let (out, fls) ← emitReg em true
  let w := tyWidth m.tag.ty
  let shareNo := fun i => (shareOf parts m.ext i).1
  forEach (shareTables parts w (is.map (fun i =>
      (shareNo i, elemBit va m i, (out.elem i).code, r.tag == m.tag && (r.elem i).poison)))) fun (j, codes) =>
    let table := (blocks.filter (fun b => shareNo (firstOf b) == j)).foldl (fun t b => spSet t (sva + b)
      { mask := 0xFF#8, val := BitVec.ofNat 8 (out.elem (firstOf b)).scale, bad := false }) codes
    writeTable (s.onShare (s.arrCtx ws m.nt) parts j) pm table
  addFlags (allFlags fls)
def execAst (d a b : Reg) (m : BitVec 3) (p : PBlock) (s : State) :=
  performSeq (.ast d a b m p) (storeArray false d a b m p) s
def execWsst (d a b : Reg) (m : BitVec 3) (p : PBlock) (s : State) :=
  performSeq (.wsst d a b m p) (storeArray true d a b m p) s

/-- The bytes of a tile image: header, rows, and scale bytes (R234, R281). -/
def imageBytes (r : ArrReg) : List Byte :=
  let (k, n) := lastTwo r.ext
  let per := tyPer r.ty
  let w := tyWidth r.ty
  let rowBytes := fun i => (List.range 4).flatMap (fun g =>
    let js := (List.range per).filter (fun j => decide (g * per + j < n))
    bytesOfNat 32 (packCodes w (js.map (fun j => (r.elem (i * n + g * per + j)).code))))
  [BitVec.ofNat 8 (r.ty.toNat + 16 * r.bl.toNat), BitVec.ofNat 8 (k - 1), BitVec.ofNat 8 (n - 1)] ++
  List.replicate 61 0#8 ++ (List.range k).flatMap rowBytes ++ List.replicate (128 * (128 - k)) 0#8 ++
  (List.range 128).flatMap (fun i => (List.range 4).map (fun g =>
    if i < k ∧ g * per < n then BitVec.ofNat 8 (r.elem (i * n + g * per)).scale else 0x7F#8))
/-- Which bytes of a tile image come from a poisoned granule of the register: those of an image granule that receives an
element of one (R286). -/
def imageBad (r : ArrReg) (o : Nat) : Bool :=
  let (k, n) := lastTwo r.ext
  let per := tyPer r.ty
  let i := (o - 64) / 128
  let g := (o - 64) % 128 / 32
  decide (64 ≤ o) && decide (i < k) &&
  (List.range per).any (fun j => decide (g * per + j < n) && (r.elem (i * n + g * per + j)).poison)
/-- The share whose die writes byte `o` of a tile image: the rows and scale bytes of a share's rows are its die's, the rest the
LEAD's (R272). -/
def imageShare (parts : Nat) (ext : List Nat) (lead o : Nat) : Nat :=
  let row := if o < 16448 then (o - 64) / 128 else (o - 16448) / 4
  if 64 ≤ o ∧ row < ext.headD 0 then shareOfRow parts (ext.headD 0) row else lead
/-- `wsst:1` (R281). -/
def storeImage (d a b : Reg) (k : BitVec 3) (p : PBlock) : Exec Unit := do
  let m ← memBlock p
  let r ← arrReg d.toNat
  let va := (← readReg a).toNat
  legal (va % 128 == 0 && b == 0#5 && m.pn == 0 && m.pu == 0 && p.rank == 2#4 && m.tag == r.tag && macroTy r.ty &&
    m.ext.all (fun x => decide (1 ≤ x) && decide (x ≤ 128)) && k == 0#3)
  storeShape d.toNat r m
  let s ← get
  let c := s.arrCtx true false
  let bs := imageBytes r
  let bytes := (List.range bs.length).zip bs |>.map (fun (o, x) =>
    (va + o, ({ mask := 0xFF#8, val := x, bad := imageBad r o } : ByteBits)))
  let lead := (s.cur.place.shares.findIdx? (fun p => p.1 == c.die)).getD 0
  let shares := (List.range (max 1 r.parts)).map (fun j =>
    (s.onShare c r.parts j, bytes.filter (fun x => r.parts ≤ 1 || imageShare r.parts r.ext lead (x.1 - va) == j)))
  let pm ← foldEach shares [] fun pm (x, t) => foldEach (byteRuns t) pm fun pm (a, l) => needBytes x .write true a l.length pm
  forEach shares fun (x, t) => writeTable x pm t
def execWsstImage (d a b : Reg) (m : BitVec 3) (p : PBlock) (s : State) :=
  performSeq (.wsstImage d a b m p) (storeImage d a b m p) s

/-! ### Windows of the gather/scatter unit (R283, R285, R357, R392, R395, R396) -/

/-- An instruction that goes through the unit: its element groups, the first it starts at, whether its windows take effect
in order (all but a gather's do, R392), the unmasked elements of each group, how an element is translated and checked,
how elements of a window are performed (answering results by element, flags, and why it cannot go on past them), and how
the instruction leaves its destination, at its end or where it stops before a group. -/
structure WinJob where
  groups : Nat
  start : Nat
  ordered : Bool
  els : Nat → List Nat
  touch : Ctx → PageMap → Nat → Exec PageMap
  perform : Ctx → PageMap → List Nat → Exec (List (Nat × Nat × List Nat) × Flg × Option Exc)
  leave : Sparse (Nat × List Nat) → Option Nat → Exec Unit
/-- Element groups in a window. -/
def winLen : Nat := 32
/-- The first groups of the windows of a job. -/
def WinJob.windows (j : WinJob) : List Nat :=
  (List.range (ceilDiv j.groups winLen)).filterMap fun k =>
    let w := max j.start (k * winLen)
    if w < (k + 1) * winLen ∧ w < j.groups then some w else none
/-- The groups of the window that begins with group `g`. -/
def windowGroups (j : WinJob) (g : Nat) : List Nat :=
  ((List.range winLen).map (g / winLen * winLen + ·)).filter (fun x => decide (g ≤ x) && decide (x < j.groups))
/-- What translating and checking elements has given: the pages, the page faults, one for a group, the first other fault, the
requests to be sent to other nodes, and whether something is still to come. -/
structure Touched where
  pm : PageMap
  faults : List PageFault
  other : Option Exc
  asks : List (Agent × LinkReq)
  waits : Option Exc
/-- Translate and check one element. -/
def touchElem (j : WinJob) (c : Ctx) (t : Touched) (i : Nat) : Exec Touched := do
  match ← attempt (j.touch c t.pm i) with
  | .ok pm => return { t with pm := pm }
  | .error (.faults fs) =>
    return { t with faults := t.faults ++ (fs.take 1).filter (fun f => !t.faults.any (fun g => g.what == f.what)) }
  | .error (.trap cause ax v) => return { t with other := t.other.orElse (fun _ => some (.trap cause ax v)) }
  | .error (.remote qs) => return { t with asks := t.asks ++ qs.filter (fun q => !t.asks.contains q) }
  | .error e => return { t with waits := some e }
/-- Translate and check the groups of a window. -/
def touchGroups (j : WinJob) (c : Ctx) (gs : List Nat) : Exec Touched :=
  foldEach gs { pm := [], faults := [], other := none, asks := [], waits := none } fun t g =>
    foldEach (j.els g) t (touchElem j { c with what := .group g, kindHi := 4 })
/-- The requests of single elements of the current thread's instruction are forgotten. -/
def dropElemRemotes : Exec Unit := modify fun s =>
  { s with fw := { s.fw with remotes := s.fw.remotes.filter (fun r => match r.who with
      | .elem t _ => t != s.cur.tid
      | _ => true) } }
/-- The instruction ends, or stops before group `g` (R285): what it has done below `g` stays. -/
def winLeave (j : WinJob) (p : Park) (g : Option Nat) : Exec Unit := do
  j.leave p.got g
  addFlags (p.flags.setWidth 7)
  dropElemRemotes
  modCur fun t => { t with park := none, csr := { t.csr with astart := BitVec.ofNat 64 (g.getD 0) } }
def winStop {α : Type} (j : WinJob) (p : Park) (g : Nat) (e : Exc) : Exec α := do
  winLeave j p (some g)
  stopKeep e
/-- One pass over the windows still to be done: where it stands, the page faults met, how many windows in flight are
parked or behind a parked one, and why it goes no further. -/
structure WinPass where
  park : Park
  faults : List PageFault
  flying : Nat
  halt : Option Exc
/-- The window that begins with group `w` is performed as far as it can be now. What a later window writes ranks after it
(R367). -/
def winPerform (j : WinJob) (c : Ctx) (t : Touched) (r : WinPass) (w : Nat) : Exec WinPass := do
  let is := ((windowGroups j w).flatMap j.els).filter (fun i => !r.park.got.any (fun x => x.1 == i))
  match ← attempt (j.perform c t.pm is) with
  | .ok (got, fl, e) =>
    let p := { r.park with got := got.foldl (fun l (i, v, b) => spSet l i (v, b)) r.park.got
                           flags := r.park.flags ||| flgWord fl }
    match e with
    | none =>
      if j.ordered then
        dropElemRemotes
        modify State.closeRanks
      else modify fun s => dropRemotes s (.elem s.cur.tid w)
      return { r with park := { p with todo := p.todo.erase w } }
    | some (.trap cause ax v) => winStop j p w (.trap cause ax v)
    | some x => return { r with park := p, halt := some x }
  | .error (.trap cause ax v) =>
    if r.flying = 0 then winStop j r.park w (.trap cause ax v) else return { r with halt := some .wait }
  | .error e => return { r with halt := some e }
/-- One window of a pass. Up to four are in flight (R283); a trap waits until no earlier window is parked (R285), and
where they take effect in order, so does everything but translating (R392). -/
def winStep (j : WinJob) (r : WinPass) (w : Nat) : Exec WinPass := do
  if r.halt.isSome || decide (4 ≤ r.flying) then return r
  let gs := windowGroups j w
  let later := { r with flying := r.flying + 1 }
  let s ← get
  match r.park.failed.filter (fun f => gs.contains f.1) with
  | some (_, va) => if r.flying = 0 then winStop j r.park w (.trap cPage 0 va) else return later
  | none =>
    if r.park.entries.any (fun x => gs.contains x.2) then return later
    else
      let c : Ctx := { s.arrCtx false false with who := .elem s.cur.tid w }
      let t ← touchGroups j c gs
      if !t.asks.isEmpty then return { r with halt := some (.remote t.asks) }
      match t.waits, t.other with
      | some e, _ => return { r with halt := some e }
      | none, some e => if r.flying = 0 then winStop j r.park w e else return { r with halt := some .wait }
      | none, none =>
        if !t.faults.isEmpty then return { later with faults := r.faults ++ t.faults }
        else if j.ordered && decide (0 < r.flying) then return later
        else winPerform j c t r w
/-- Run an instruction through the unit, as far as it can go now; a thread that is leaving stops it before the first
window that is not done, once no window is done in part (R391). -/
def runWindows (j : WinJob) : Exec Unit := do
  let s ← get
  let p0 := s.cur.park.getD { entries := [], todo := j.windows, got := [], flags := 0#64, failed := none }
  let begun := fun w => ((windowGroups j w).flatMap j.els).any (fun i => p0.got.any (fun x => x.1 == i)) || s.farOut s.cur.tid
  match p0.todo with
  | [] => winLeave j p0 none
  | w :: _ =>
    if s.cur.leaving && !(j.ordered && begun w) then winStop j p0 w .wait
    else
      let r ← foldEach p0.todo { park := p0, faults := [], flying := 0, halt := none } (winStep j)
      if r.faults.isEmpty && r.halt.isNone && r.park.todo.isEmpty then winLeave j r.park none
      else
        modCur fun t => { t with park := some r.park }
        stopKeep (if r.faults.isEmpty then r.halt.getD .wait else .faults r.faults)

/-! ### Gather and scatter (R282 to R286) -/

/-- An integer index (R282). -/
def indexValue (b : Nat) (r : ArrReg) (i : Nat) : Exec Int := do
  let (v, _) ← liftE (consume (.sel 0 0) b r.tag (r.elem i))
  return v.toInt
/-- Translate the bytes of a field at a bit address; any fault but a page fault names its address (R285). -/
def touchField (c : Ctx) (acc : Acc) (bit : Int) (w : Nat) (pm : PageMap) : Exec PageMap := do
  let va := BitVec.ofInt 64 (bit.fdiv 8)
  check (decide (0 ≤ bit)) (.trap cProt 0 va)
  let (a, n) := bitBytes bit.toNat w
  match ← attempt (needBytes c acc false a n pm) with
  | .ok r => return r
  | .error (.trap cause ax _) => stop (.trap cause ax va)
  | .error e => stop e
/-- The elements of group `g` of a shape in a tag, under a mask. -/
def groupEls (t : Tag) (ext : List Nat) (mask : Option (Nat → Bool)) (g : Nat) : List Nat :=
  let n := tyPer t.ty
  ((List.range n).map (g * n + ·)).filter (fun i => decide (i < extProd ext) && (match mask with
    | some f => f i
    | none => true))
/-- The result of a gather: what was read, the old elements below its start, and where it stopped, unspecified codes at
or above that group (R42, log entry 8). A masked element that `bitOf` places in a poisoned granule that was read sets PZ
(R286). -/
def gatherEmit (old : ArrReg) (ext : List Nat) (env : Env) (mask : Option (Nat → Bool)) (start : Nat)
    (got : Sparse (Nat × List Nat)) (bitOf : Nat → Option Nat) (stopAt : Option Nat) (n : Nat) : Emit :=
  let w := tyWidth old.ty
  let per := tyPer old.ty
  let badGrans := got.flatMap (fun x => x.2.2)
  { tag := old.tag, ext := ext, old := old, env := env, mask := mask
    give := fun i =>
      let free := match stopAt with
        | some g => decide (g ≤ i / per)
        | none => false
      if free then .ok (.code (Config.freeCode n / 2 ^ (w * i) % 2 ^ w) false flgNone)
      else if i / per < start then .ok (.code (old.elem i).code (old.elem i).poison flgNone)
      else
        let (v, b) := spGet (0, []) got i
        .ok (.code v (!b.isEmpty) flgNone)
    pz := fun i => match bitOf i with
      | some bit =>
        let (a, m) := bitBytes bit w
        badGrans.any (fun g => decide (g < a + m) && decide (a < g + 32))
      | none => false
    whole := fun _ _ => none }
/-- `agat`. -/
def gather (d a b : Reg) (m : BitVec 3) : Exec Unit := do
  let rb ← arrReg b.toNat
  let old ← arrReg d.toNat
  legal (rb.tag.isInt && old.bl == 0#2)
  needSource b.toNat rb
  let s ← get
  let dies ← getDies
  let repl := resultRepl dies rb.ext [rb]
  let on := goesOn old.tag rb.ext old s.cur.csr.astart
  let start := if on then s.cur.csr.astart.toNat else 0
  if !on && s.cur.park.isNone then allocResult old.tag rb.ext repl 0
  let base := (← readReg a).toNat
  let mask := maskOf (← getMasks) m
  let w := tyWidth old.ty
  let env ← arrEnv
  let bitOf := fun i => do
    let x ← indexValue b.toNat rb i
    return (8 * base + x * w : Int)
  let bitAt := fun i =>
    let e := rb.elem i
    let bit : Int := 8 * base + (decodeVal rb.ty e.code).toInt * w
    if e.poison || decide (bit < 0) then none else some bit.toNat
  runWindows
    { groups := ceilDiv rb.count (tyPer old.ty), start := start, ordered := false, els := groupEls old.tag rb.ext mask
      touch := fun c pm i => do touchField (s.shareCtx c rb.parts rb.ext i) .read (← bitOf i) w pm
      perform := fun c pm is => do
        let got ← mapEach is fun i => do
          let bit := (← bitOf i).toNat
          let (x, n) := bitBytes bit w
          let (bs, bad) ← readBytes (s.shareCtx c rb.parts rb.ext i) pm x n
          return (i, bitField bs bit w, bad)
        return (got, flgNone, none)
      leave := fun got at_ => do
        let n ← drawNo
        let (r, fls) ← emitReg (gatherEmit old rb.ext env mask start got bitAt at_ n) repl
        if on then rewriteArr d.toNat r else writeArr d.toNat r
        addFlags (allFlags fls) }
def execAgat (d a b : Reg) (m : BitVec 3) (s : State) := performSeq (.agat d a b m) (gather d a b m) s
/-- `asct`. -/
def scatter (d a b : Reg) (m : BitVec 3) : Exec Unit := do
  let rb ← arrReg b.toNat
  let rd ← arrReg d.toNat
  let w := tyWidth rd.ty
  legal (rb.tag.isInt && rd.bl == 0#2 && decide (8 ≤ w))
  needSource d.toNat rd
  needSource b.toNat rb
  let dies ← getDies
  check (!(cellSpread dies rd 0 || cellSpread dies rb 0)) (badShape 4 0)
  let (f, c) ← liftE (agree rd.ext rb.ext 0)
  let ext := f ++ c
  let s ← get
  let base := (← readReg a).toNat
  let mask := maskOf (← getMasks) m
  let idx := fun i => spreadIdx rb.ext 0 f c i
  let at_ := fun x i => s.shareCtx x rb.parts rb.ext (idx i)
  let bitOf := fun i => do
    let x ← indexValue b.toNat rb (idx i)
    return (8 * base + x * w : Int)
  runWindows
    { groups := ceilDiv (extProd ext) (tyPer rd.ty), start := s.cur.csr.astart.toNat, ordered := true
      els := groupEls rd.tag ext mask
      touch := fun x pm i => do touchField (at_ x i) .write (← bitOf i) w pm
      perform := fun x pm is => do
        let fs ← mapEach is fun i => do
          let e := rd.elem (spreadIdx rd.ext 0 f c i)
          return ((shareOf rb.parts rb.ext (idx i)).1, (← bitOf i).toNat, e.code, e.poison)
        forEach (shareTables rb.parts w fs) fun (j, t) => writeTable (s.onShare x rb.parts j) pm t
        return ([], flgNone, none)
      leave := fun _ _ => pure () }
def execAsct (d a b : Reg) (m : BitVec 3) (s : State) := performSeq (.asct d a b m) (scatter d a b m) s

/-! ### Prefetch and constant banks (R287, R288) -/

/-- Bring the line of an address into the core's array data cache, and with NT = 0 into L2, if its translation is cached
and permits a read (R287). -/
def prefetch (c : Ctx) (nt : Bool) (va : Nat) : Exec Unit := do
  let s ← get
  match cachedEntry s c va with
  | none => pure ()
  | some t =>
    match locate s.fw (entryPa t.entry + va % 2 ^ t.bits) with
    | .here key =>
      let ok := (c.sec || (!t.entry.getLsbD 6 && !secureKey s.fw key)) && permits t.entry .read && !isWs key &&
        !t.entry.getLsbD 5
      whenB ok (do
        whenB (homeOf key != c.die && (freshCopy s c (key / 128)).isNone)
          (do let _ ← fillCopy { c with via := .array nt } (key / 128))
        touchLine c (key / 128) false)
    | _ => pure ()
/-- `apf` (R287): it completes at issue. -/
def execApf (a : Reg) (p : PBlock) (s : State) :=
  performSeq (.apf a p) (do
    let m ← memBlock p
    let va := (← readReg a).toNat
    forEach (List.range (extProd m.ext)) fun i =>
      let (x, n) := bitBytes (elemBit va m i) (tyWidth m.tag.ty)
      forEach (granParts (n / 32 + 2) x n) fun (y, _) =>
        if y < 2 ^ 55 then prefetch (s.arrCtx false false) m.nt y else pure ()) s
/-- Words of 64 bits, little-endian. -/
def dwordsOf : Nat → List Byte → List Word64
  | 0, _ => []
  | n + 1, l => BitVec.ofNat 64 (natOfBytes (l.take 8)) :: dwordsOf n (l.drop 8)
/-- A constant bank at an address: 256 words (R79, R288). -/
def readBank (c : Ctx) (va : Nat) : Exec (List Word64) := do
  let (b, bad) ← named (BitVec.ofNat 64 va) (do
    let pm ← needBytes c .read false va 2048 []
    readBytes c pm va 2048)
  match bad with
  | g :: _ => trapNow cPoison (BitVec.ofNat 64 (max va g))
  | [] => return dwordsOf 256 b
/-- `cbld`: all 256 words replace the bank at once. -/
def execCbld (a : Reg) (i : BitVec 11) (s : State) :=
  performSeq (.cbld a i) (do
    let va := (← readReg a) + i.signExtend 64
    legal (va.extractLsb' 0 3 == 0#3 && va.extractLsb' 55 9 == 0#9)
    let ws ← readBank (← get).ctx va.toNat
    modify fun u => u.setMySlot { u.mySlot with consts := ws }
    modCur fun t => { t with lastCbld := va }) s

end Sys2Proof.Machine
end

