-- ==== Sys2Proof/Machine/Sync.lean ====
section
/-!
DEFINITION. Synchronisation (R352 to R365, R366 to R376): scalar and array atomics, fences, the semaphores and data
registers of a square, event queues and completion records, and waiting on a word.
-/
namespace Sys2Proof.Machine

/-! ### Releases and acquires (R358, R369 to R371) -/

/-- Whether a thread's earlier accesses are performed at a scope (R358, R370): its stores and inserts, and at package scope
or wider its cross-die writes, with every write that its acquires have brought before them (R369). -/
def released (s : State) (t : Tid) (sc : Scope) : Bool :=
  match sc with
  | .thr => true
  | .pkg | .sys => !s.topks.any (fun k => k.tid == t) && writesApplied s t && (match s.thread? t with
    | some x => clkApplied s x.acq
    | none => true)
  | _ => !s.topks.any (fun k => k.tid == t)
/-- The stores and loads that the die has held back for a thread are performed, and its accesses waited for (R358, R370). -/
def performOwn (t : Tid) (sc : Scope) : Exec Unit := do
  if sc != .thr then performHeld t (fun _ => true)
  checkKeep (released (← get) t sc) .wait
/-- A release of an agent on these dies at a scope takes effect: one of package scope sends the dies' beacons (R371). -/
def releaseOn (l : List Nat) (sc : Scope) : Exec Unit :=
  match sc with
  | .thr | .core | .sq | .die => pure ()
  | .pkg | .sys => modify fun u => l.foldl beaconFrom u
/-- A release of the current thread. -/
def release (sc : Scope) : Exec Unit := do
  let t := (← get).cur
  performOwn t.tid sc
  releaseOn t.place.dieList sc
/-- An acquire of the current thread: its earlier loads have returned, what its dies have heard comes before its later
releases, and at package scope or wider it waits, and drops the dies' copies (R369, R370). -/
def acquire (sc : Scope) : Exec Unit := do
  if sc != .thr then performLoads (← get).cur.tid (fun _ => true)
  match sc with
  | .thr => pure ()
  | .pkg | .sys => acquirePkg
  | _ => hearDies
/-- `fence` (R358). -/
def execFence (k : FenceKind) (sc : Scope) (s : State) :=
  performSeq (.fence k sc) (do
    if k = .acq then pure () else release sc
    if k = .rel then pure () else acquire sc) s

/-! ### Atomics (R352 to R357) -/

/-- The width of an integer operand in bits. -/
def atomBits (w : IWidth) : Nat := iwBits w
/-- The new value and flags of a location under `amo` (R353). -/
def amoNew (op : AtomOp) (w x cmp old : Nat) : Nat × Flg := (atomNew op w old x cmp, flgNone)
/-- `amo` (R353, R354). -/
def execAmo (f : AtomOp) (w : IWidth) (d a : Reg) (b : Src) (s : State) :=
  performSeq (.amo f w d a b) (do
    let va ← readReg a
    let bits := atomBits w
    let n := bits / 8
    let x := (← readSrc b).toNat % 2 ^ bits
    let old ← if f = .cas then readReg d else pure 0#64
    let cmp := old.toNat % 2 ^ bits
    check (decide (va.toNat % n = 0) && va.extractLsb' 55 9 == 0#9) (.trap cProt 0 va)
    let c := (← get).ctx
    let t ← named va (translate c .atomic va)
    let q : LinkReq := .atomic f t.pa n (BitVec.ofNat 64 x) (BitVec.ofNat 64 cmp) tyI64
    let (was, _) ← atomicAt c va.toNat t n va q (amoNew f bits x cmp)
    writeReg d (narrow bits (was : Nat))) s

/-- The new value and flags of a location under `amoa` and the `mred` forms on elements of a type (R355). -/
def elemNew (op : AtomOp) (ty : BitVec 4) (x cmp old : Nat) : Nat × Flg :=
  if ty = tyFP32 then atomNewF op old x cmp
  else if ty = tyN32 then (atomNewU op 32 old x cmp, flgNone)
  else (atomNew op (tyWidth ty) old x cmp, flgNone)
/-- The tags that array atomics take, and their operations (R355, R356). -/
def atomTag (r : ArrReg) (op : AtomOp) : Bool :=
  r.bl == 0#2 && (r.ty == tyI32 || r.ty == tyN32 || r.ty == tyI64 ||
    (r.ty == tyFP32 && (match op with
      | .add | .min | .max | .xchg | .cas => true
      | _ => false)))
/-- The context of one element of the current thread's array atomic: its requests to other nodes are its own. -/
def elemCtx (c : Ctx) (i : Nat) : Ctx := { c with who := .elem c.tid i }
/-- Translate and check the location of element `i` (R357): a poisoned granule traps with its own address. One on another node
is read first, so that an error there, or poison, is met before any atomic of its window is made. -/
def touchAtom (c : Ctx) (i : Nat) (va : Int) (n : Nat) (pm : PageMap) : Exec PageMap := do
  let pm2 ← touchField c .atomic (8 * va) (8 * n) pm
  let a := va.toNat
  let bad : Exc := .trap cPoison 0 (BitVec.ofNat 64 (a / 32 * 32))
  let x := xlatAt (← get).fw c pm2 a
  match x.loc with
  | .here key =>
    check (!(← get).mem.poisoned key) bad
    return pm2
  | .far _ =>
    match ← remoteAsk (elemCtx c i) (.read x.pa n) with
    | .data _ p =>
      check p.isEmpty bad
      return pm2
    | .error => trapNow cProt (BitVec.ofNat 64 a)
  | .nowhere => return pm2
/-- Perform one atomic of an element (R352, R355). -/
def performAtom (c : Ctx) (pm : PageMap) (i : Nat) (va : Int) (op : AtomOp) (ty : BitVec 4) (x cmp : Nat) :
    Exec (Nat × Flg) := do
  let a := va.toNat
  let n := tyWidth ty / 8
  let t := xlatAt (← get).fw c pm a
  let q : LinkReq := .atomic op t.pa n (BitVec.ofNat 64 x) (BitVec.ofNat 64 cmp) ty
  atomicAt (elemCtx c i) a t n (BitVec.ofNat 64 (a / 32 * 32)) q (elemNew op ty x cmp)
/-- Perform the atomics of elements one after another, as far as they can be performed now: each answers the old value of
its location (R357), and ranks before what the die writes after it (R367). -/
def performAtoms (f : Nat → Exec (Nat × Flg)) : List Nat → Exec (List (Nat × Nat × List Nat) × Flg × Option Exc)
  | [] => pure ([], flgNone, none)
  | i :: is => do
    match ← attempt (f i) with
    | .ok (old, g) =>
      modify State.closeRanks
      let (l, h, e) ← performAtoms f is
      return ((i, old, []) :: l, g ||| h, e)
    | .error (.keep u e) =>
      set u
      return ([], flgNone, some e)
    | .error e => return ([], flgNone, some e)
/-- An operand has the shape of the index array or rank 0; the first axis that differs is reported (R355). -/
def operandShape (r : ArrReg) (ext : List Nat) : Exec Unit := do
  if r.ext.isEmpty || r.ext == ext then pure ()
  else
    let n := max r.ext.length ext.length
    let j := ((List.range n).find? (fun i => r.ext[i]? != ext[i]?)).getD 0
    stop (frameMismatch j (r.ext.getD j 0) (ext.getD j 0))
/-- Element `i` of an operand that has the index array's shape or rank 0. -/
def operandElem (r : ArrReg) (i : Nat) : Elem := r.elem (if r.ext.isEmpty then 0 else i)
/-- A poisoned operand traps with the register form of TVAL (R357). -/
def operandCode (reg : Nat) (r : ArrReg) (i : Nat) : Exec Nat := do
  let e := operandElem r i
  check (!e.poison) (.trap cPoison 0 (poisonVal reg e.gran))
  return e.code
/-- What `amoa` leaves in d: old values, and the operands of elements that were not performed (R355, R166), or that it is
to perform when it goes on (R42). -/
def amoaEmit (rd : ArrReg) (ext : List Nat) (env : Env) (got : Sparse (Nat × List Nat)) (stopAt : Option Nat) : Emit :=
  let goesOn := fun (i : Nat) => match stopAt with
    | some g => decide (g ≤ i / tyPer rd.ty)
    | none => false
  { tag := rd.tag, ext := ext, old := rd, env := env, mask := none
    give := fun i => match got.find? (fun x => x.1 == i && !goesOn i) with
      | some (_, v, _) => .ok (.code v false flgNone)
      | none =>
        let e := operandElem rd i
        .ok (.code e.code e.poison flgNone)
    pz := fun _ => false, whole := fun _ _ => none }
/-- `amoa`. For its atomics a gang thread counts as an agent of its LEAD die (R366). -/
def arrayAtomic (op : AtomOp) (d a b : Reg) (m : BitVec 3) : Exec Unit := do
  let rd ← arrReg d.toNat
  let rb ← arrReg b.toNat
  legal (op != .cas || decide (d.toNat ≤ 30))
  let r2 ← if op = .cas then arrReg (d.toNat + 1) else pure rd
  legal (atomTag rd op && rb.tag.isInt && r2.tag == rd.tag)
  let n := tyWidth rd.ty / 8
  let base := (← readReg a).toNat
  legal (base % n == 0)
  needSource b.toNat rb
  needSource d.toNat rd
  whenB (op == .cas) (needSource (d.toNat + 1) r2)
  operandShape rd rb.ext
  whenB (op == .cas) (operandShape r2 rb.ext)
  let s ← get
  let on := goesOn rd.tag rb.ext rd s.cur.csr.astart
  let start := if on then s.cur.csr.astart.toNat else 0
  let dies ← getDies
  let repl := resultRepl dies rb.ext [rb]
  if !on && s.cur.park.isNone then allocResult rd.tag rb.ext repl 0
  let env ← arrEnv
  let addrOf := fun i => do
    let x ← indexValue b.toNat rb i
    return (base + x * n : Int)
  runWindows
    { groups := ceilDiv rb.count (tyPer rd.ty), start := start, ordered := true
      els := groupEls rd.tag rb.ext (maskOf (← getMasks) m)
      touch := fun c pm i => do
        let _ ← operandCode d.toNat rd i
        let _ ← if op = .cas then operandCode (d.toNat + 1) r2 i else pure 0
        touchAtom c i (← addrOf i) n pm
      perform := fun c pm is => performAtoms (fun i => do
        let x := (operandElem (if op = .cas then r2 else rd) i).code
        performAtom c pm i (← addrOf i) op rd.ty x (operandElem rd i).code) is
      leave := fun got stopAt => do
        let (r, fls) ← emitReg (amoaEmit rd rb.ext env got stopAt) repl
        if on then rewriteArr d.toNat r else writeArr d.toNat r
        addFlags (allFlags fls) }
def execAmoa (o : AtomOp) (d a b : Reg) (m : BitVec 3) (s : State) :=
  performSeq (.amoa o d a b m) (arrayAtomic o d a b m) s
/-- The `mred` forms (R356). -/
def arrayCombine (op : AtomOp) (a b : Reg) (m : BitVec 3) : Exec Unit := do
  let rb ← arrReg b.toNat
  legal (atomTag rb op)
  let n := tyWidth rb.ty / 8
  let base := (← readReg a).toNat
  legal (base % n == 0)
  needSource b.toNat rb
  let s ← get
  runWindows
    { groups := ceilDiv rb.count (tyPer rb.ty), start := s.cur.csr.astart.toNat, ordered := true
      els := groupEls rb.tag rb.ext (maskOf (← getMasks) m)
      touch := fun c pm i => do
        let _ ← operandCode b.toNat rb i
        touchAtom c i (base + i * n : Nat) n pm
      perform := fun c pm is => performAtoms (fun i =>
        performAtom c pm i (base + i * n : Nat) op rb.ty (rb.elem i).code 0) is
      leave := fun _ _ => pure () }
def execMredadd (a b : Reg) (m : BitVec 3) (s : State) := performSeq (.mredadd a b m) (arrayCombine .add a b m) s
def execMredmin (a b : Reg) (m : BitVec 3) (s : State) := performSeq (.mredmin a b m) (arrayCombine .min a b m) s
def execMredmax (a b : Reg) (m : BitVec 3) (s : State) := performSeq (.mredmax a b m) (arrayCombine .max a b m) s
def execMredor (a b : Reg) (m : BitVec 3) (s : State) := performSeq (.mredor a b m) (arrayCombine .or a b m) s

/-! ### Semaphores and data registers of a square (R359, R360) -/

/-- The square of the current thread's slot. -/
def State.mySquare (s : State) : Square := (s.die s.cur.place.die).square (s.cur.place.core / 4)
def setMySquare (q : Square) : Exec Unit := modify fun s =>
  s.setDie s.cur.place.die ((s.die s.cur.place.die).setSquare (s.cur.place.core / 4) q)
/-- n of R359. -/
def semIndex (a : Reg) (i : BitVec 11) : Exec Nat := do
  return ((← readReg a) + i.signExtend 64).toNat % 64
/-- An operation of the current thread on bit or register `k` of its square has its turn: of those that arrive in one cycle,
one from a lower slot does not come after one from a higher (R359), so it arrives in the next. -/
def semTurn (k : Nat) : Exec Unit := do
  let s ← get
  let q := s.mySquare
  let me := s.cur.slotNo
  let (at_, slot) := spGet (0, 0) q.last k
  check (at_ != s.cycle || decide (slot ≤ me)) .wait
  setMySquare { q with last := spSet q.last k (s.cycle, me) }
/-- A square with bit `n` set or cleared. -/
def Square.put (q : Square) (n : Nat) (v : Bool) : Square :=
  { q with sems := if v then q.sems ||| (1#64 <<< n) else q.sems &&& ~~~ (1#64 <<< n) }
/-- `semtas`: it waits its turn until the bit is 0, then sets it. -/
def execSemtas (a : Reg) (i : BitVec 11) (s : State) :=
  performSeq (.semtas a i) (do
    let n ← semIndex a i
    let u ← get
    if u.cur.semTaken then modCur fun t => { t with semTaken := false }
    else if u.mySquare.waiters.any (fun w => w.1 == u.cur.tid) then stop .wait
    else
      semTurn n
      let q := (← get).mySquare
      if q.sems.getLsbD n then
        setMySquare { q with waiters := q.waiters ++ [(u.cur.tid, n)] }
        stopKeep .wait
      else setMySquare (q.put n true)) s
/-- `semtry`. -/
def execSemtry (d a : Reg) (i : BitVec 11) (s : State) :=
  performSeq (.semtry d a i) (do
    let n ← semIndex a i
    semTurn n
    let q := (← get).mySquare
    writeReg d (if q.sems.getLsbD n then 1#64 else 0#64)
    setMySquare (q.put n true)) s
/-- Bit `n` of square `q` of a die falls to 0: the earliest waiting `semtas` takes it (R359). -/
def clearSem (s : State) (d qi n : Nat) : State :=
  let q := (s.die d).square qi
  match q.waiters.find? (fun w => w.2 == n) with
  | some (t, _) =>
    let s1 := s.setDie d ((s.die d).setSquare qi { q.put n true with waiters := q.waiters.filter (fun w => w.1 != t) })
    s1.modThread t (fun x => { x with semTaken := true })
  | none => s.setDie d ((s.die d).setSquare qi (q.put n false))
/-- `semclr`. -/
def execSemclr (a : Reg) (i : BitVec 11) (s : State) :=
  performSeq (.semclr a i) (do
    let n ← semIndex a i
    semTurn n
    modify fun u => clearSem u u.cur.place.die (u.cur.place.core / 4) n) s
/-- `crld`. -/
def execCrld (d a : Reg) (i : BitVec 11) (s : State) :=
  performSeq (.crld d a i) (do
    let n ← semIndex a i
    semTurn (64 + n)
    writeReg d ((← get).mySquare.data.getD n 0#64)) s
/-- `crst`. -/
def execCrst (d a : Reg) (i : BitVec 11) (s : State) :=
  performSeq (.crst d a i) (do
    let n ← semIndex a i
    let x ← readReg d
    semTurn (64 + n)
    let q := (← get).mySquare
    setMySquare { q with data := listSet q.data n x }) s

/-! ### Completion records and event queues (R269, R362, R363) -/

/-- The 32 bytes of a completion record (R269). -/
def makeRecord (type status flags : Nat) (token : Word32) (one two : Nat) (first : Nat := 0xFFFFFFFF)
    (bitmap : Nat := 0) : List Byte :=
  bytesOfNat 2 type ++ [BitVec.ofNat 8 status, BitVec.ofNat 8 flags] ++ bytesOfNat 4 token.toNat ++
  bytesOfNat 8 one ++ bytesOfNat 8 two ++ bytesOfNat 4 first ++ bytesOfNat 4 bitmap
/-- Byte 3 of a record: the sticky flags it has room for, poison and overrun (R269). -/
def recordFlags (f : Word64) (poison overrun : Bool) : Nat :=
  (f &&& 0xF#64).toNat + (if f.getLsbD 5 then 16 else 0) + (if poison then 32 else 0) + (if overrun then 64 else 0)
/-- The header of a queue: CAP, HEAD and TAIL. -/
structure EvHeader where
  cap : Nat
  head : Nat
  tail : Nat
  deriving DecidableEq, Repr
/-- A power of two from 16 to 65,536. -/
def capOk (n : Nat) : Bool := (List.range 13).any (fun i => n == 2 ^ (i + 4))
/-- Whether another agent of the package works on a queue that lies on another node: from its read of the header until its
work is done, or it waits and has let go (R363, R364). -/
def queueBusy (s : State) (c : Ctx) (pa : Nat) : Bool :=
  s.fw.remotes.any (fun r => r.who != c.who && r.req == .read pa 0x18)
/-- Read the header of a queue, `none` for an invalid CAP; the region machinery works at the home (R363), and on a queue of
another node one agent at a time. -/
def readHeader (c : Ctx) (evq : Nat) : Exec (Option EvHeader) := do
  let pm ← needBytes c.atHome .read false evq 0x18 []
  let s ← get
  check (!queueBusy s c (xlatAt s.fw c pm evq).pa) .wait
  let (b, bad) ← readBytes c.atHome pm evq 0x18
  match bad with
  | g :: _ => trapNow cPoison (BitVec.ofNat 64 (max evq g))
  | [] => pure ()
  let cap := natOfBytes (b.take 4)
  if capOk cap then
    return some { cap := cap, head := natOfBytes ((b.drop 8).take 8), tail := natOfBytes ((b.drop 16).take 8) }
  else return none
/-- The address of record `i`. -/
def recordAt (evq : Nat) (h : EvHeader) (i : Nat) : Nat := evq + 0x40 + 32 * (i % h.cap)
/-- Read record `i`. -/
def readRecord (c : Ctx) (evq : Nat) (h : EvHeader) (i : Nat) : Exec (List Byte) := do
  let a := recordAt evq h i
  let pm ← needBytes c.atHome .read false a 32 []
  let (b, bad) ← readBytes c.atHome pm a 32
  check bad.isEmpty (.trap cPoison 0 (BitVec.ofNat 64 a))
  return b
/-- Bytes from an address up, as a table to be written. -/
def tableOf (a : Nat) (b : List Byte) : Sparse ByteBits :=
  ((List.range b.length).zip b).map (fun (i, x) => (a + i, { mask := 0xFF#8, val := x, bad := false }))
/-- Write bytes of a queue, at their home. -/
def writeQueue (c : Ctx) (a : Nat) (b : List Byte) : Exec Unit := do
  let pm ← needBytes c.atHome .write false a b.length []
  writeTable c.atHome pm (tableOf a b)
/-- Put a record at TAIL, and raise TAIL; the poster waits while the queue is full (R363). In this package both are written
in one go; on another node the record goes first. -/
def pushRecord (c : Ctx) (evq : Nat) (rec : List Byte) : Exec Unit := do
  match ← readHeader c evq with
  | none => pure ()
  | some h =>
    let a := recordAt evq h h.tail
    let pm1 ← needBytes c.atHome .write false (evq + 0x10) 8 []
    let pm ← needBytes c.atHome .write false a 32 pm1
    if h.cap ≤ h.tail - h.head then
      modify fun s => dropRemotes s c.who
      stopKeep .wait
    let tail := tableOf (evq + 0x10) (bytesOfNat 8 (h.tail + 1))
    let f := (← get).fw
    let far := fun va => match (xlatAt f c pm va).loc with
      | .far _ => true
      | _ => false
    if !far a && !far (evq + 0x10) then writeTable c.atHome pm (tail ++ tableOf a rec)
    else
      writeTable c.atHome pm (tableOf a rec)
      writeTable c.atHome pm tail
/-- The device posts a record for a region (R362, R363): it waits for room and for the writes of thread `c.tid`, and the
record is discarded where the queue cannot be reached. -/
def postRecord (c : Ctx) (rec : List Byte) : Exec Unit := do
  let s ← get
  match s.rcb? c.tid.region with
  | none => pure ()
  | some r =>
    if r.evq = 0#64 then pure ()
    else
      check (writesApplied s c.tid) .wait
      match ← attempt (pushRecord c r.evq.toNat rec) with
      | .ok _ => pure ()
      | .error (.trap _ _ _) => pure ()
      | .error e => stop e

/-- The current thread's event queue and its header; ILLOP where it has none (R364). -/
def myQueue : Exec (Nat × EvHeader) := do
  let s ← get
  match s.rcb? s.cur.tid.region with
  | none => illop
  | some r =>
    legal (r.evq != 0#64)
    match ← readHeader s.ctx r.evq.toNat with
    | none => illop
    | some h => return (r.evq.toNat, h)
/-- The first record from `i` on, of `n`, whose token matches. -/
def findRecord (c : Ctx) (evq : Nat) (h : EvHeader) (tok : Word32) : Nat → Nat → Exec (Option (List Byte))
  | 0, _ => pure none
  | n + 1, i => do
    let r ← readRecord c evq h i
    if natOfBytes ((r.drop 4).take 4) = tok.toNat then return some r
    else findRecord c evq h tok n (i + 1)
/-- `evwait`: it waits until a record with the token lies in the queue. -/
def execEvwait (d a : Reg) (s : State) :=
  performSeq (.evwait d a) (do
    let tok : Word32 := (← readReg a).setWidth 32
    let (evq, h) ← myQueue
    let c := (← get).ctx
    match ← findRecord c evq h tok (h.tail - h.head) h.head with
    | none =>
      modify fun u => dropOwnRemotes u u.cur.tid
      stopKeep .wait
    | some r =>
      acquire .pkg
      writeReg d (BitVec.ofNat 64 (r.getD 2 0#8).toNat)) s
/-- `evget`. -/
def execEvget (d a : Reg) (s : State) :=
  performSeq (.evget d a) (do
    let va ← readReg a
    legal (va.extractLsb' 0 3 == 0#3 && va.extractLsb' 55 9 == 0#9)
    let (evq, h) ← myQueue
    if h.head = h.tail then writeReg d 0#64
    else
      acquire .pkg
      let c := (← get).ctx
      let r ← readRecord c evq h h.head
      named va (storeVa c va r)
      writeQueue c (evq + 8) (bytesOfNat 8 (h.head + 1))
      writeReg d (BitVec.ofNat 64 (natOfBytes (r.take 2)))) s
/-- `evpost` (R364). -/
def execEvpost (a b : Reg) (s : State) :=
  performSeq (.evpost a b) (do
    let tok : Word32 := (← readReg a).setWidth 32
    let one ← readReg b
    release .pkg
    let u ← get
    match u.rcb? u.cur.tid.region with
    | none => pure ()
    | some r =>
      if r.evq = 0#64 then pure ()
      else pushRecord u.ctx r.evq.toNat (makeRecord 7 0 0 tok one.toNat 0)) s

/-! ### Waiting on a word (R361) -/

/-- The value of a location in this package that a thread waits on: what the first write that changed it since the thread
began to wait gave it, or what it holds. -/
def watched (s : State) (key n v : Nat) : Nat :=
  match s.watches.find? (fun w => w.tid == s.cur.tid && w.key == key && w.n == n) with
  | some w => w.now.getD v
  | none => v
/-- `mon`: the value at the location's own place, once it differs from b; the thread's own writes come first (R289). A wait
watches the location: every write to it counts, also one that another undoes before the thread's next turn. -/
def execMon (w : IWidth) (d a : Reg) (b : Src) (s : State) :=
  performSeq (.mon w d a b) (do
    let va ← readReg a
    let bits := atomBits w
    let n := bits / 8
    let x := (← readSrc b).toNat % 2 ^ bits
    check (decide (va.toNat % n = 0) && va.extractLsb' 55 9 == 0#9) (.trap cProt 0 va)
    let c := (← get).ctx.atHome
    let pm ← named va (needBytes c .read false va.toNat n [])
    let loc := (xlatAt (← get).fw c pm va.toNat).loc
    check (match loc with
      | .here key => !isWs key
      | .far node => node % 2 == 0
      | .nowhere => true) (.trap cProt 0 va)
    let (bs, bad) ← named va (readBytes c pm va.toNat n)
    check bad.isEmpty (.trap cPoison 0 va)
    let v := natOfBytes bs
    let u ← get
    let (seen, note) := match loc with
      | .here key => (watched u key n v, [({ tid := u.cur.tid, key := key, n := n, was := v, now := none } : Watch)])
      | _ => (v, [])
    if seen = x then
      -- a reply that has shown the old value is used up: the next turn asks again
      modify fun u =>
        let v := dropOwnRemotes (dropWatch u.cur.tid u) u.cur.tid
        { v with watches := v.watches ++ note }
      stopKeep .wait
    else
      modify fun u => dropWatch u.cur.tid u
      writeReg d (narrow bits (seen : Nat))) s
end Sys2Proof.Machine
end

