-- ==== Sys2Proof/Machine/Fabric.lean ====
section
/-!
DEFINITION. The stream fabric and the copy engine (R295 to R315): graph images, runs, their chunks on the decoder
lanes, shadows and their publication.
-/
namespace Sys2Proof.Machine

/-! ### Command tokens and owed records (R270, R301) -/

/-- The next token of a die: its number above the count of engine commands posted on it (R301). -/
def tokenOf (d count : Nat) : Word32 := BitVec.ofNat 32 (d % 8 * 2 ^ 29 + count % 2 ^ 29)
/-- Take the next token of a die. -/
def newToken (d : Nat) : Exec Word32 := do
  let n := (← getDie d).tokens
  modDie d fun x => { x with tokens := n + 1 }
  return tokenOf d n
/-- Post records in order, saving those that are left where one cannot be posted yet. -/
def postOwed (c : Ctx) (save : List (List Byte) → Exec Unit) : List (List Byte) → Exec Unit
  | [] => save []
  | r :: rest => do
    match ← attempt (postRecord c r) with
    | .ok _ => postOwed c save rest
    | .error e =>
      save (r :: rest)
      match e with
      | .keep _ e2 =>
        modify fun s => dropRemotes s c.who
        stopKeep e2
      | e2 => stopKeep e2
/-- Post the records a command owes, then its own. Of its own nothing is saved: the step that posts it is repeated. -/
def postRecords (c : Ctx) (save : List (List Byte) → Exec Unit) (owed own : List (List Byte)) : Exec Unit := do
  postOwed c save owed
  postOwed c (fun _ => pure ()) own
/-- Post a record now if that is possible; answers those that are still owed. -/
def postOrOwe (c : Ctx) (r : List Byte) : Exec (List (List Byte)) := do
  match ← attempt (postRecord c r) with
  | .ok _ => return []
  | .error _ => return [r]
/-- Why a chunk failed: the cause (0 posts no record), the address, the kind of the access, whether a poisoned granule had
been met, and the flags raised until then. -/
structure ChunkFail where
  cause : Nat
  va : Word64
  kind : Nat
  met : Bool
  flags : Flg
  deriving DecidableEq, Repr
/-- The fault record of a failed chunk (R270). -/
def faultRecord (token : Word32) (rtype chunk : Nat) (f : ChunkFail) : List Byte :=
  makeRecord 6 2 (if f.met then 32 else 0) token f.va.toNat (f.cause + 256 * rtype + 65536 * f.kind) chunk 0
/-- An access of an engine: the axis of its traps carries the kind of the access, whether poison had been met, and the
flags raised so far. -/
def engAcc {α : Type} (acc : Acc) (met : Bool) (x : Exec α) (flags : Flg := flgNone) : Exec α := fun s =>
  match x s with
  | .error (.trap c _ v) => .error (.trap c (accNo acc + (if met then 4 else 0) + 8 * flags.toNat) v)
  | r => r
/-- What a trap says of a failed chunk. -/
def failOf (cause ax : Nat) (va : Word64) : ChunkFail :=
  { cause := cause, va := va, kind := ax % 4, met := ax / 4 % 2 == 1, flags := BitVec.ofNat 7 (ax / 8) }
/-- Run a chunk: how it failed, if it did (R309); page faults that are being served and requests stall it. -/
def tryChunk {α : Type} (x : Exec α) : Exec (Except ChunkFail α) := fun s =>
  match x s with
  | .ok (a, t) => .ok (.ok a, t)
  | .error (.trap c ax v) => .ok (.error (failOf c ax v), s)
  | .error e => .error e
/-- A failed chunk of a thread's command: the unresolvable pages it met are forgotten, and its record is posted or owed. -/
def chunkFailed (c : Ctx) (token : Word32) (rtype chunk : Nat) (f : ChunkFail) : Exec (List (List Byte)) := do
  modify (dropUnres c)
  if f.cause = 0 then return [] else postOrOwe c (faultRecord token rtype chunk f)
/-- Run a piece of a command that counts the cycles it stalls for refresh windows: where it has to wait for one, `note` is
told the cycle in which the window ends, and what it notes is kept (R263). -/
def stalling (note : Nat → Exec Unit) (x : Exec Unit) : Exec Unit := fun s =>
  match x s with
  | .error (.refresh left) =>
    match note (s.cycle + left) s with
    | .ok (_, u) => .error (.keep u .wait)
    | .error e => .error e
  | r => r

/-! ### Graph images (R297 to R299) -/

/-- Byte `i` (4 to 15) of a node. -/
def GNode.b (n : GNode) (i : Nat) : Nat := (n.params.getD (i - 4) 0#8).toNat
/-- Bytes 8 to 11 of a node. -/
def GNode.w8 (n : GNode) : Nat := natOfBytes ((n.params.drop 4).take 4)
/-- Bytes 4 and 5 of a node. -/
def GNode.w4 (n : GNode) : Nat := n.b 4 + 256 * n.b 5
/-- The type in byte `i` of a node. -/
def GNode.ty (n : GNode) (i : Nat) : BitVec 4 := BitVec.ofNat 4 (n.b i)
/-- Whether bytes are zero. -/
def GNode.zero (n : GNode) (is : List Nat) : Bool := is.all (fun i => n.b i == 0)
/-- Operators. -/
def oUnpk : Nat := 1
def oLut : Nat := 2
def oCvt : Nat := 3
def oScl : Nat := 4
def oBmx : Nat := 5
def oBmc : Nat := 6
def oPack : Nat := 7
/-- Whether a node is an SCL in extract mode. -/
def GNode.extracts (n : GNode) : Bool := n.opr == oScl && n.b 4 == 1
/-- Whether a node is a graph output, and which. -/
def GNode.isOut (n : GNode) : Bool := n.out.getLsbD 7
def GNode.outNo (n : GNode) : Nat := n.out.toNat % 4
/-- The kind and number of a source. -/
def srcKind (b : Byte) : Nat := b.toNat / 64
def srcNum (b : Byte) : Nat := b.toNat % 64
/-- The type of the stream a node puts out. -/
def GNode.stream (n : GNode) : BitVec 4 :=
  match n.opr with
  | 1 => tyI32
  | 2 => n.ty 6
  | 3 => n.ty 4
  | 4 => if n.b 4 = 1 then tyN8 else tyFP32
  | _ => n.ty 4
/-- Elements of a block (R298). -/
def GNode.block (n : GNode) : Nat :=
  if n.opr = oScl then ({ ty := n.ty 6, bl := BitVec.ofNat 2 (n.b 5) } : Tag).unitLen
  else ({ ty := n.ty 4, bl := BitVec.ofNat 2 (n.b 5) } : Tag).unitLen
/-- Entry types of a LUT. -/
def lutTy (c : Nat) : Bool := [3, 4, 5, 7, 8, 12, 13, 14, 15].contains c
/-- RM fields of CVT and PACK. -/
def rmField (n : Nat) : Bool := decide (n ≤ 4) || n == 7
/-- Whether the parameters of a node lie within R298. -/
def GNode.paramsOk (n : GNode) : Bool :=
  match n.opr with
  | 1 => decide (1 ≤ n.b 4) && decide (n.b 4 ≤ 16) && decide (n.b 5 ≤ 1) && n.zero [6, 7, 12, 13, 14, 15]
  | 2 => decide (2 ≤ n.w4) && decide (n.w4 ≤ 256) && lutTy (n.b 6) && n.zero [7, 12, 13, 14, 15]
  | 3 => decide (n.b 4 < 16) && rmField (n.b 5) && decide (n.b 6 < 4) && n.zero [7, 12, 13, 14, 15]
  | 4 => decide (n.b 4 ≤ 1) && decide (1 ≤ n.b 5) && decide (n.b 5 ≤ 3) && decide (n.b 6 < 16) &&
      scaledCode (n.ty 6) && n.zero [7, 8, 9, 10, 11, 12, 13, 14, 15]
  | 5 => decide (n.b 4 < 16) && n.zero [5, 6, 7, 8, 9, 10, 11, 12, 13, 14, 15]
  | 6 => decide (n.b 4 < 16) && n.isOut && n.zero [5, 6, 7, 8, 9, 10, 11, 12, 13, 14, 15]
  | 7 => decide (n.b 4 < 16) && decide (n.b 5 < 4) && blOk (n.ty 4) (BitVec.ofNat 2 (n.b 5)) && rmField (n.b 6) &&
      decide (n.b 7 < 2) && n.isOut && n.zero [12, 13, 14, 15]
  | _ => false
/-- Whether node `i`'s sources are ones its operator takes (R298, R299). -/
def Graph.sourcesOk (g : Graph) (i : Nat) (n : GNode) : Bool :=
  let none_ := n.src1 == 0x80#8
  let node := fun (b : Byte) (ok : GNode → Bool) => srcKind b == 1 && decide (srcNum b < i) &&
    (match g.nodes[srcNum b]? with
      | some m => ok m
      | none => false)
  match n.opr with
  | 1 => srcKind n.src0 == 0 && decide (srcNum n.src0 < g.inputs) && none_
  | 5 => srcKind n.src0 == 0 && decide (srcNum n.src0 < g.inputs) && none_
  | 2 => node n.src0 (fun m => !tyFloat m.stream && !m.extracts) && none_
  | 4 => node n.src0 (fun m => !m.extracts) &&
      (if n.b 4 = 0 then node n.src1 (fun m => m.stream == tyN8 && !m.extracts) else none_)
  | 7 => node n.src0 (fun m => !m.extracts || n.ty 4 == tyN8) && none_
  | _ => node n.src0 (fun m => !m.extracts) && none_
/-- Whether an image is valid (R299); its header has been checked. -/
def Graph.ok (g : Graph) : Bool :=
  ((List.range g.nodes.length).zip g.nodes).all (fun (i, n) => n.paramsOk && g.sourcesOk i n &&
    n.out.extractLsb' 2 5 == 0#5 && !(n.isOut && n.extracts)) &&
  (List.range g.outputs).all (fun j => (g.nodes.filter (fun n => n.isOut && n.outNo == j)).length == 1) &&
  g.nodes.all (fun n => !n.isOut || decide (n.outNo < g.outputs))
/-- A node from its 16 bytes. -/
def nodeOf (b : List Byte) : GNode :=
  { opr := (b.getD 0 0#8).toNat, src0 := b.getD 1 0#8, src1 := b.getD 2 0#8, out := b.getD 3 0#8
    params := (b.drop 4).take 12 }
/-- The graph of an image, if it is valid. -/
def graphOf (b : List Byte) : Option Graph :=
  let n := (b.getD 1 0#8).toNat
  let g : Graph :=
    { inputs := (b.getD 2 0#8).toNat, outputs := (b.getD 3 0#8).toNat
      nodes := (List.range n).map (fun i => nodeOf ((b.drop (16 + 16 * i)).take 16)) }
  if b.getD 0 0#8 = 1#8 ∧ 1 ≤ n ∧ n ≤ 16 ∧ 1 ≤ g.inputs ∧ g.inputs ≤ 4 ∧ 1 ≤ g.outputs ∧ g.outputs ≤ 4 ∧
      ((b.drop 4).take 12).all (· == 0#8) ∧ g.ok = true then some g else none

/-! ### Posting (R295, R301 to R303, R312, R314) -/

/-- Wait until the fabric's queue has room and the thread's earlier writes are performed (R295, R303). -/
def fabricRoom : Exec Unit := do
  let s ← get
  check (decide ((s.die s.cur.place.die).fabQueue.length < 64)) .wait
  performOwn s.cur.tid .pkg
/-- Put a command into the fabric's queue. -/
def postFabric (c : FabCmd) : Exec Unit := modify fun s =>
  let d := s.cur.place.die
  s.setDie d { s.die d with fabQueue := (s.die d).fabQueue ++ [c] }
/-- `sgraph`. -/
def execSgraph (ev : Bool) (d a : Reg) (s : State) :=
  performSeq (.sgraph ev d a) (do
    let va ← readReg a
    let bad : Exc := .trap cIllop 0 va
    check (va.extractLsb' 0 4 == 0#4) bad
    let c := (← get).ctx
    let h ← loadBlock c va 16
    let n := min (h.getD 1 0#8).toNat 16
    let b ← loadBlock c va (16 + 16 * n)
    match graphOf b with
    | none => stop bad
    | some g =>
      fabricRoom
      let u ← get
      let tok ← newToken u.cur.place.die
      postFabric (.sgraph tok u.cur.tid u.cur.slotNo g ev)
      writeReg d (tok.setWidth 64)) s
/-- The graph an `srun` of a region uses: that of the latest `sgraph` posted on the die (R296). -/
def graphFor (x : DieSt) (r : RegionId) : Option Graph :=
  let queued := x.fabQueue.filterMap (fun c => match c with
    | .sgraph _ t _ g _ => if t.region = r then some g else none
    | _ => none)
  match queued.getLast? with
  | some g => some g
  | none => (x.configs.find? (fun p => p.1 == r)).map (·.2)
/-- The run block in 192 bytes, with the chunk size resolved, if no reserved field is set (R303). -/
def runBlockOf (b : List Byte) : Option RunBlock :=
  let f := fun (o n : Nat) => natOfBytes ((b.drop o).take n)
  let n := f 0x80 8
  let c := f 0x88 4
  let pair := fun (o : Nat) => (BitVec.ofNat 64 (f o 8), f (o + 8) 8)
  let blk : RunBlock :=
    { ins := (List.range 4).map (fun i => pair (16 * i)), outs := (List.range 4).map (fun j => pair (0x40 + 16 * j))
      n := n, c := if c = 0 then ceilDiv n 8 else c, lut := BitVec.ofNat 64 (f 0x90 8)
      scaleAt := BitVec.ofNat 64 (f 0x98 8) }
  if n < 2 ^ 40 ∧ f 0x8C 4 = 0 ∧ f 0xA0 32 = 0 then some blk else none
/-- The number of chunks of a run. -/
def RunBlock.chunks (b : RunBlock) : Nat := if b.n = 0 then 0 else ceilDiv b.n b.c
/-- Whether a graph rounds by the captured MODE.RM (R303). -/
def Graph.usesRm (g : Graph) : Bool :=
  g.nodes.any (fun n => (n.opr == oCvt && n.b 5 == 7) || (n.opr == oPack && n.b 6 == 7))
/-- `srun`. -/
def execSrun (ev sh : Bool) (d a : Reg) (s : State) :=
  performSeq (.srun ev sh d a) (do
    let va ← readReg a
    legal (va.extractLsb' 0 6 == 0#6)
    let c := (← get).ctx
    let b ← loadBlock c va 192
    match runBlockOf b, graphFor ((← get).die (← get).cur.place.die) (← get).cur.tid.region with
    | some blk, some g =>
      legal (decide (blk.chunks ≤ 32))
      legal (g.nodes.all (fun n => n.opr != oPack || n.b 5 == 0 || blk.c % n.block == 0))
      legal (!(g.usesRm && rmReserved (← get).cur.csr.mode))
      fabricRoom
      let u ← get
      let tok ← newToken u.cur.place.die
      let r : FabRun :=
        { token := tok, tid := u.cur.tid, slot := u.cur.slotNo, ev := ev, shadow := sh, blk := blk, graph := g, mode := u.cur.csr.mode
          q31 := u.window 31, seed := u.cur.csr.seed, started := false, cannot := false, doneChunks := [], failed := []
          bmc := [], flags := 0#64, poison := false, overrun := [], sealed := false, good := 0, stallCycles := 0
          stalls := [], aborted := false, owed := [] }
      postFabric (.srun r)
      writeReg d (tok.setWidth 64)
    | _, _ => illop) s
/-- A result that comes later: register d waits for it (R312). -/
def pendScalar (d : Reg) : Exec Unit := do
  check (!(← get).cur.pendRegs.contains d) .wait
  if d = 0#5 then pure () else modCur fun t => { t with pendRegs := d :: t.pendRegs }
/-- `spub`. -/
def execSpub (p : Scope) (d a : Reg) (s : State) :=
  performSeq (.spub p d a) (do
    let x ← readReg a
    fabricRoom
    pendScalar d
    let u ← get
    let _ ← newToken u.cur.place.die
    postFabric (.spub u.cur.tid u.cur.slotNo (x.setWidth 32) p d)) s
/-- `sdisc`. -/
def execSdisc (d a : Reg) (s : State) :=
  performSeq (.sdisc d a) (do
    let x ← readReg a
    fabricRoom
    pendScalar d
    let u ← get
    let _ ← newToken u.cur.place.die
    postFabric (.sdisc u.cur.tid u.cur.slotNo (x.setWidth 32) d)) s
/-- `cpy`. -/
def execCpy (ev sh : Bool) (d a b : Reg) (s : State) :=
  performSeq (.cpy ev sh d a b) (do
    let n ← readReg d
    let src ← readReg a
    let dst ← readReg b
    legal (decide (n.toNat < 2 ^ 40))
    let u ← get
    let die := u.cur.place.die
    check (decide ((u.die die).cpyQueue.length < 64)) .wait
    performOwn u.cur.tid .pkg
    let tok ← newToken die
    let c : CpyCmd :=
      { token := tok, tid := u.cur.tid, slot := u.cur.slotNo, ev := ev, shadow := sh, src := src, dst := dst, count := n.toNat
        started := false, cannot := false, chunk := 0, failed := [], poison := false, sealed := false, good := 0
        stallCycles := 0, stallTo := 0, aborted := false, owed := [] }
    modDie die fun x => { x with cpyQueue := x.cpyQueue ++ [c] }
    writeReg d (tok.setWidth 64)) s

/-! ### Shadows (R311, R312, R365) -/

/-- The pages of `n` bytes at an address. -/
def pagesOf (va n : Nat) : List Nat :=
  if n = 0 then [] else (List.range ((va + n - 1) / 65536 - va / 65536 + 1)).map (va / 65536 + ·)
/-- The elements of a PACK's output (an SCL in extract mode feeds it one per block). -/
def Graph.packCount (g : Graph) (n : Nat) (p : GNode) : Nat :=
  match g.nodes[srcNum p.src0]? with
  | some m => if m.extracts then ceilDiv n m.block else n
  | none => n
/-- The scale bytes a PACK of a scaled tag writes. -/
def scaleBytes (blk : RunBlock) (p : GNode) : Nat := ceilDiv blk.n p.block
/-- The pages of a run's shadow targets (R311). -/
def FabRun.targets (r : FabRun) : List Nat :=
  (r.graph.nodes.filter (·.isOut)).foldl (fun l n =>
    let (va, len) := r.blk.outs.getD n.outNo (0#64, 0)
    let sc := if n.opr = oPack ∧ n.b 5 ≠ 0 then pagesOf r.blk.scaleAt.toNat (scaleBytes r.blk n) else []
    (pagesOf va.toNat len ++ sc).foldl setAdd l) []
/-- Whether a target page is shadow-eligible; a page that is not mapped is first served (R311). -/
def pageEligible (c : Ctx) (page : Nat) : Exec Bool := do
  if 2 ^ 39 ≤ page then return false
  else
    let s ← get
    if unresolvable s c page then return false
    else
      check (!entryOut s c page) .wait
      match ← translation c (page * 65536) with
      | .ok (e, _) => return e.getLsbD 7
      | .error .waits => stop .wait
      | .error .error => return false
      | .error (.ask q) => stop (.remote [(c.who, q)])
      | .error (.invalid l) => stop (.faults [c.fault .write (BitVec.ofNat 64 (page * 65536)) l])
/-- Free shadow pages of a die (R311). -/
def poolFree (x : DieSt) : Nat := 2048 - (x.shadows.map (fun k => k.pages.length)).sum
/-- Start a shadowed command: whether its pages are eligible and can be had. It waits for free pages. -/
def claimShadow (c : Ctx) (token : Word32) (pages : List Nat) : Exec Bool := do
  let ok ← foldEach pages true fun ok p => do
    if ok then pageEligible c p else return false
  let fits := ok && decide (pages.length ≤ 2048)
  check (!fits || decide (pages.length ≤ poolFree (← getDie c.die))) .wait
  let k : Shadow :=
    { token := token, region := c.tid.region, die := c.die, pages := if fits then pages else [], bytes := [], poison := []
      complete := false, publishing := false }
  modDie c.die fun x => { x with shadows := x.shadows ++ [k] }
  modify (dropUnres c)
  return fits
/-- Change the shadow of a command. -/
def modShadow (d : Nat) (token : Word32) (f : Shadow → Shadow) : Exec Unit :=
  modDie d fun x => { x with shadows := x.shadows.map (fun k => if k.token = token then f k else k) }
/-- Where a byte of a shadow lies: its physical address. -/
def shadowByte (k : Option Shadow) (pa : Nat) : Option Byte :=
  match k with
  | none => none
  | some x => if x.bytes.any (fun b => b.1 == pa) then some (spGet 0#8 x.bytes pa) else none
/-- Write a table of bytes into a shadow: bytes written in part keep what they hold. -/
def writeShadow (c : Ctx) (token : Word32) (pm : PageMap) (t : Sparse ByteBits) : Exec Unit :=
  forEach t fun (a, y) => do
    let x := xlatAt (← get).fw c pm a
    let old ← if y.mask = 0xFF#8 then pure 0#8
      else do
        let k := ((← getDie c.die).shadows.find? (fun k => k.token == token))
        match shadowByte k x.pa with
        | some b => pure b
        | none => do
          let (b, _) ← readPiece c a 1 x
          pure (b.headD 0#8)
    let v := (old &&& ~~~ y.mask) ||| y.val
    modShadow c.die token fun k =>
      { k with bytes := spSet k.bytes x.pa v
               poison := if y.bad then setAdd k.poison (x.pa / 32) else k.poison }
/-- Write a table of bytes where a command writes: its shadow, or memory. -/
def writeOut (c : Ctx) (sh : Bool) (token : Word32) (pm : PageMap) (t : Sparse ByteBits) : Exec Unit :=
  if sh then writeShadow c token pm t else writeTable c pm t

/-- A command of a region that has a shadow and has not completed. -/
def shadowBusy (s : State) (r : RegionId) (token : Word32) : Bool :=
  s.dies.any (fun (_, x) =>
    x.shadows.any (fun k => k.region == r && k.token == token && !k.complete) ||
    x.fabQueue.any (fun c => match c with
      | .srun q => q.shadow && q.token == token && q.tid.region == r
      | _ => false) ||
    x.cpyQueue.any (fun q => q.shadow && q.token == token && q.tid.region == r))
/-- The pending shadow of a region with this token, its command complete. -/
def shadowReady (s : State) (r : RegionId) (token : Word32) : Option Shadow :=
  (s.dies.flatMap (fun (_, x) => x.shadows)).find? (fun k => k.region == r && k.token == token && k.complete)
/-- The state without a shadow: its pages return to the pool. -/
def dropShadow (s : State) (k : Shadow) : State :=
  s.setDie k.die { s.die k.die with shadows := (s.die k.die).shadows.filter (fun y => y.token != k.token) }
/-- The physical bytes of a shadow as runs within lines. -/
def shadowRuns (k : Shadow) : List (Nat × List ByteBits) :=
  byteRuns (k.bytes.map (fun (a, v) => (a, { mask := 0xFF#8, val := v, bad := k.poison.contains (a / 32) })))
/-- The physical pages of a shadow's targets, by number: those its bytes lie in and those its pages are mapped to. -/
def shadowPages (s : State) (c : Ctx) (k : Shadow) : List Nat :=
  let mapped := k.pages.filterMap (fun p => match walk s c.who c.sec (p * 65536) with
    | .ok (e, b) => some ((entryPa e + p * 65536 % 2 ^ b) / 65536)
    | .error _ => none)
  k.bytes.foldl (fun l (a, _) => setAdd l (a / 65536)) (mapped.foldl setAdd [])
/-- The state in which no TLB holds a translation of a shadow's pages. -/
def dropTranslations (s : State) (k : Shadow) : State :=
  let keep := fun (t : TlbEnt) => !(t.sec == k.region.sec && k.pages.any (fun p => p / 2 ^ (t.bits - 16) == t.vpn))
  { s with dies := s.dies.map fun (d, x) =>
      (d, { x with tlb := x.tlb.filter keep
                   cores := x.cores.map (fun (i, y) => (i, { y with tlb := y.tlb.filter keep })) }) }
/-- Publish a shadow: every byte it holds becomes memory's at once, and every die drops its copies and translations of
the pages (R312). It waits for writes to these lines that are still on their way, which it supersedes; bytes on another
node are sent before those of this package are replaced, and no access of the world to the pages is made meanwhile. -/
def publishShadow (c : Ctx) (k : Shadow) : Exec Unit := do
  let s ← get
  let runs := (shadowRuns k).map (fun (pa, l) =>
    (pa, l.map (·.val), (granulesOf pa l.length).filter (fun g =>
      (List.range l.length).any (fun i => (pa + i) / 32 == g && ((l.map (·.bad)).getD i false)))))
  let here := runs.filterMap (fun (pa, b, bad) => match locate s.fw pa with
    | .here key => some (key, b, bad.map (fun g => g + key / 32 - pa / 32))
    | _ => none)
  let far := runs.filterMap (fun (pa, b, bad) => match locate s.fw pa with
    | .far _ => some (LinkReq.write pa b bad)
    | _ => none)
  check (!s.xwrites.any (fun w => here.any (fun r => r.1 / 128 == w.pa / 128))) .wait
  if far.isEmpty then pure ()
  else
    modDie k.die fun x => { x with shadows := x.shadows.map (fun y => if y.token = k.token then { y with publishing := true } else y) }
    match ← attempt (remoteAll c far) with
    | .ok _ => pure ()
    | .error e => stopKeep e
  writeThrough c here
  let pages := (shadowPages s c k).filterMap (fun p => match locate s.fw (p * 65536) with
    | .here key => some (key / 65536)
    | _ => none)
  modify fun u => dropShadow (dropTranslations (u.dropLines (fun line => pages.contains (line / 512))) k) k
/-- `spub` reaches the head of the queue (R312): it waits for its command, is a release at its scope, and publishes. -/
def spubApply (die : Nat) (s : State) : Option State :=
  match (s.die die).fabQueue with
  | .spub t slot target scope d :: _ =>
    let c := unitCtx die 4 target.toNat t slot
    unitStep c (do
      let u ← get
      check (!shadowBusy u t.region target) .wait
      match shadowReady u t.region target with
      | some k =>
        publishShadow c k
        releaseOn [die] scope
        lateReg t d 0#64
      | none => lateReg t d 1#64
      modDie die fun x => { x with fabQueue := x.fabQueue.tail }) s
  | _ => none
def execSpubApply (die : Nat) (s : State) : Host.Outcome State Fault Refusal := goes s (spubApply die s)
/-- `sdisc` reaches the head of the queue (R312). -/
def sdiscApply (die : Nat) (s : State) : Option State :=
  match (s.die die).fabQueue with
  | .sdisc t slot target d :: _ =>
    unitStep (unitCtx die 4 target.toNat t slot) (do
      let u ← get
      check (!shadowBusy u t.region target) .wait
      match shadowReady u t.region target with
      | some k =>
        modify fun v => dropShadow v k
        lateReg t d 0#64
      | none => lateReg t d 1#64
      modDie die fun x => { x with fabQueue := x.fabQueue.tail }) s
  | _ => none
def execSdiscApply (die : Nat) (s : State) : Host.Outcome State Fault Refusal := goes s (sdiscApply die s)
/-- `pub` (R365). -/
def execPub (f : Scope) (a : Reg) (s : State) :=
  performSeq (.pub f a) (do
    let tok : Word32 := (← readReg a).setWidth 32
    release f
    let u ← get
    check (!shadowBusy u u.cur.tid.region tok) .wait
    match shadowReady u u.cur.tid.region tok with
    | some k => publishShadow u.ctx k
    | none => pure ()) s

/-! ### The head of the queue -/

/-- The configuration of an `sgraph` is put in place (R296, R302). -/
def sgraphConfig (die : Nat) (s : State) : Option State :=
  match (s.die die).fabQueue with
  | .sgraph tok t slot g ev :: _ =>
    let c := unitCtx die 2 tok.toNat t slot
    unitStep c (do
      let x ← getDie die
      let mine := x.configs.any (fun p => p.1 == t.region)
      check (mine || decide (x.configs.length < 8)) .wait
      whenB ev (postRecord c (makeRecord 1 0 0 tok 0 0))
      modDie die fun y => { y with
        configs := y.configs.filter (fun p => p.1 != t.region) ++ [(t.region, g)]
        fabQueue := y.fabQueue.tail }) s
  | _ => none
def execSgraphConfig (die : Nat) (s : State) : Host.Outcome State Fault Refusal := goes s (sgraphConfig die s)

/-- Run `r` of a die's runs in progress; the next one is the `srun` at the head of the queue, if there is one. -/
def runAt (x : DieSt) (r : Nat) : Option FabRun :=
  match x.runs[r]? with
  | some q => some q
  | none =>
    if r = x.runs.length then
      match x.fabQueue with
      | .srun q :: _ => some q
      | _ => none
    else none
/-- The contexts of a run: of one of its chunks, or of its end (chunk 32). -/
def FabRun.ctx (q : FabRun) (die k : Nat) : Ctx := unitCtx die 2 (64 * q.token.toNat + k) q.tid q.slot
/-- Chunks of a run that have neither finished nor failed. -/
def FabRun.left (q : FabRun) : Nat := if q.cannot then 0 else q.blk.chunks - q.doneChunks.length
/-- A run leaves the queue, if it has not yet: its shadow pages are taken (R311). Every chunk of every earlier run has
been dispatched, which 8 lanes can do only for 8 chunks at a time (R295, R304). -/
def startRun (die r : Nat) : Exec FabRun := do
  let x ← getDie die
  let q ← enabledSome (runAt x r)
  if q.started then return q
  else
    check (decide (((x.runs.take r).map FabRun.left).sum ≤ 7)) .wait
    let can ← if q.shadow then claimShadow (q.ctx die 33) q.token q.targets else pure true
    let q2 : FabRun := { q with started := true, cannot := !can }
    modDie die fun y => { y with runs := y.runs ++ [q2], fabQueue := y.fabQueue.tail }
    return q2
/-- Change run `r` of a die. -/
def modRun (die r : Nat) (f : FabRun → FabRun) : Exec Unit :=
  modDie die fun y => { y with runs := (List.range y.runs.length).zip y.runs |>.map (fun (i, q) => if i = r then f q else q) }
/-- A chunk of a run (32: its end) stalls until a cycle: the cycles of it that are not counted yet are (R305, R310). -/
def noteStall (die r k till : Nat) : Exec Unit := do
  let now := (← get).cycle
  modRun die r fun q => { q with stallCycles := q.stallCycles + (till - max now (spGet 0 q.stalls k)), stalls := spSet q.stalls k till }

/-! ### Streams (R298, R304, R305, R307, R313) -/

/-- An element of a stream: its code, its value, and whether it is poisoned. -/
structure FItem where
  code : Nat
  val : Val
  bad : Bool
  deriving DecidableEq, Repr
/-- The elements a node has put out, by element. -/
abbrev Stream := Sparse FItem
/-- A decoder lane during a chunk (R298): its LFSR, the flags of the chunk, whether it met a poisoned granule, and the
pages it reads. -/
structure Lane where
  lfsr : Word32
  flags : Flg
  met : Bool
  pm : PageMap
  deriving DecidableEq, Repr
/-- The lane at the start of chunk `k` (R298). -/
def laneStart (seed : Word64) (k : Nat) : Lane :=
  { lfsr := lfsrSeed (seed.setWidth 32) k, flags := flgNone, met := false, pm := [] }
/-- Rising lists joined. -/
def joinNeeds (x y : List Nat) : List Nat := y.foldl setAdd x
/-- What the elements `ns` of node `n` need of its sources: the node and the elements. -/
def sourceNeeds (count : Nat) (n : GNode) (ns : List Nat) : List (Nat × List Nat) :=
  match n.opr with
  | 1 => []
  | 5 => []
  | 4 =>
    if n.b 4 = 1 then
      [(srcNum n.src0, ns.flatMap (fun j => (List.range n.block).filterMap (fun i =>
        if j * n.block + i < count then some (j * n.block + i) else none)))]
    else [(srcNum n.src0, ns), (srcNum n.src1, ns.foldl (fun l e => setAdd l (e / n.block)) [])]
  | _ => [(srcNum n.src0, ns)]
/-- The elements of a node's stream that are made where these are needed: a PACK of a scaled tag makes whole blocks, since
R60 scales a block by all its elements. -/
def wholeBlocks (g : Graph) (count : Nat) (n : GNode) (ns : List Nat) : List Nat :=
  if n.opr = oPack ∧ n.b 5 ≠ 0 then
    (ns.foldl (fun js e => setAdd js (e / n.block)) []).flatMap fun j =>
      ((List.range n.block).map (j * n.block + ·)).filter (fun e => decide (e < g.packCount count n))
  else ns
/-- The elements of every node's stream that are needed, from the last node down; `own` are those each node's own output
takes. -/
def needsFrom (g : Graph) (count : Nat) (own : Nat → GNode → List Nat) : Nat → List (List Nat) → List (List Nat)
  | 0, acc => acc
  | i + 1, acc =>
    match g.nodes[i]? with
    | none => needsFrom g count own i acc
    | some n =>
      let mine := wholeBlocks g count n (joinNeeds (own i n) (acc.getD i []))
      let acc1 := listSet acc i mine
      needsFrom g count own i ((sourceNeeds count n mine).foldl (fun a (j, l) =>
        listSet a j (joinNeeds (a.getD j []) l)) acc1)
/-- The elements of a node's own output that chunk elements `lo` to `hi` − 1 hold: for a PACK fed by an SCL in extract
mode, the blocks that begin there. -/
def ownOf (g : Graph) (lo hi : Nat) (_ : Nat) (n : GNode) : List Nat :=
  if !n.isOut then []
  else
    let (a, b) := match g.nodes[srcNum n.src0]? with
      | some m => if n.opr = oPack ∧ m.extracts then (ceilDiv lo m.block, ceilDiv hi m.block) else (lo, hi)
      | none => (lo, hi)
    (List.range (b - a)).map (a + ·)
/-- The number of elements of every node's stream that the whole run needs: the index past the last. -/
def countsOf (g : Graph) (n : Nat) : List Nat :=
  let step := fun (acc : List Nat) (i : Nat) =>
    match g.nodes[i]? with
    | none => acc
    | some m =>
      let own := if m.isOut then g.packCount n m else 0
      let c := max own (acc.getD i 0)
      let raise := fun (a : List Nat) (j v : Nat) => listSet a j (max (a.getD j 0) v)
      let acc1 := listSet acc i c
      match m.opr with
      | 1 => acc1
      | 5 => acc1
      | 4 => if m.b 4 = 1 then raise acc1 (srcNum m.src0) (min n (c * m.block))
        else raise (raise acc1 (srcNum m.src0) c) (srcNum m.src1) (ceilDiv c m.block)
      | _ => raise acc1 (srcNum m.src0) c
  (List.range g.nodes.length).reverse.foldl step (List.replicate g.nodes.length 0)
/-- Bytes of a LUT table, and its stride (R305). -/
def GNode.tableBytes (n : GNode) : Nat := n.w4 * (tyWidth (n.ty 6) / 8)
def GNode.tableStride (n : GNode) : Nat := roundUp n.tableBytes 128
/-- The table that serves an element. -/
def GNode.tableOf (n : GNode) (e : Nat) : Nat := if n.w8 = 0 then 0 else e / n.w8
/-- The offset of node `i`'s first table from the table base. -/
def tableStart (g : Graph) (counts : List Nat) (i : Nat) : Nat :=
  (((List.range i).zip g.nodes).map (fun (j, n) =>
    if n.opr = oLut then
      (if counts.getD j 0 = 0 then 0 else if n.w8 = 0 then 1 else ceilDiv (counts.getD j 0) n.w8) * n.tableStride
    else 0)).sum

/-- An access of a lane. -/
def Lane.acc {α : Type} (l : Lane) (acc : Acc) (x : Exec α) : Exec α := engAcc acc l.met x l.flags
/-- A lane reads `n` bytes: each with whether its granule is poisoned. -/
def laneRead (c : Ctx) (l : Lane) (va n : Nat) : Exec (List (Byte × Bool) × Lane) := do
  let pm ← l.acc .read (needBytes c .read false va n l.pm)
  let out ← foldEach (granParts (n / 32 + 2) va n) [] fun done (a, k) => do
    let (b, p) ← l.acc .read (readPiece c a k (xlatAt (← get).fw c pm a))
    return done ++ b.map (fun v => (v, !p.isEmpty))
  return (out, { l with pm := pm, met := l.met || out.any (·.2) })
/-- A field of `w` bits at bit `bit` of a graph input, bits at or beyond its length zero (R304). -/
def inputField (c : Ctx) (l : Lane) (input : Word64 × Nat) (bit w : Nat) : Exec (Nat × Bool × Lane) := do
  let (first, n) := bitBytes bit w
  let k := min n (input.2 - first)
  if k = 0 then return (0, false, l)
  else
    let (b, l2) ← laneRead c l (input.1.toNat + first) k
    return (bitField (b.map (·.1)) bit w, b.any (·.2), l2)
/-- A draw of a lane (R62, R298). Where several nodes round stochastically, the manual does not say in which order they
draw, and the draw is a free value (log entry 8). -/
def laneDraw (many : Bool) (l : Lane) : Exec (Nat × Lane) := do
  if many then
    let n ← drawNo
    return (Config.freeCode n % 65536, l)
  else return (lfsrDraw l.lfsr, { l with lfsr := lfsrNext l.lfsr })
/-- The rounding mode of an RM field (R298). -/
def rmOfField (mode : Word64) (f : Nat) : Rm := rmOf (if f = 7 then modeRm mode else f)
/-- The environment of a node: CVT, PACK, or one that takes MODE's own. -/
def GNode.env (n : GNode) (mode q31 : Word64) : Env :=
  let e := envOf mode q31
  match n.opr with
  | 3 =>
    { e with rm := rmOfField mode (n.b 5), nsat := n.b 6 % 2 == 1
             sub := .code (if 2 ≤ n.b 6 then n.w8 else tyZero (n.ty 4)) }
  | 7 => { e with rm := rmOfField mode (n.b 6), nsat := n.b 7 == 1, sub := .code n.w8 }
  | _ => { e with rm := .rne }
/-- Whether several nodes of a graph round stochastically. -/
def manyDraws (g : Graph) (mode q31 : Word64) : Bool :=
  decide (2 ≤ (g.nodes.filter (fun n => (n.opr == oCvt || n.opr == oPack) && (n.env mode q31).rm == .sto)).length)
/-- Convert a value in a lane: its code. -/
def laneConvert (many : Bool) (env : Env) (t : BitVec 4) (v : Val) (l : Lane) : Exec (Nat × Lane) := do
  let draws := takesDraw env { ty := t, bl := 0#2 } v
  let (draw, l2) ← if draws then laneDraw many l else pure (0, l)
  let c := convert env t v draw
  return (c.code, { l2 with flags := l2.flags ||| c.flags })
/-- Keep the five flags of R306. -/
def fabFlags : Flg := flgNV ||| flgOF ||| flgUF ||| flgNX ||| flgSB
/-- A bitmask-plus-values record read as far as word `last` of its mask: its count, and the mask words with their poison
(R307, R313). -/
structure BmxView where
  count : Nat
  headBad : Bool
  words : List (Nat × Bool)
  deriving DecidableEq, Repr
def bmxView (c : Ctx) (l : Lane) (input : Word64 × Nat) (last : Nat) : Exec (BmxView × Lane) := do
  let (n, bad, l1) ← inputField c l input 0 32
  let (ws, l2) ← foldEach (List.range (last + 1)) ([], l1) fun (ws, l1) i => do
    let (w, b, l2) ← inputField c l1 input (8 * (8 + 4 * i)) 32
    return (ws ++ [(w, b)], l2)
  return ({ count := n, headBad := bad, words := ws }, l2)
/-- Ones of the mask before element `e`. -/
def BmxView.rank (v : BmxView) (e : Nat) : Nat :=
  ((v.words.take (e / 32)).map (fun (w, _) => popCount w 32)).sum + popCount ((v.words.getD (e / 32) (0, false)).1) (e % 32)
/-- Whether element `e` is present. -/
def BmxView.has (v : BmxView) (e : Nat) : Bool :=
  decide (e < v.count) && (v.words.getD (e / 32) (0, false)).1.testBit (e % 32)
/-- One element of a record. -/
def bmxElem (c : Ctx) (l : Lane) (input : Word64 × Nat) (t : BitVec 4) (v : BmxView) (e : Nat) : Exec (FItem × Lane) := do
  let span := (v.words.getD (e / 32) (0, false)).2 || v.headBad
  let before := (v.words.take (e / 32)).any (·.2)
  if v.has e then
    let (k, b, l2) ← inputField c l input (8 * (8 + 4 * ceilDiv v.count 32) + v.rank e * tyWidth t) (tyWidth t)
    return ({ code := k, val := decodeVal t k, bad := b || span || before }, l2)
  else return ({ code := tyZero t, val := decodeVal t (tyZero t), bad := span }, l)
/-- One element of SCL in apply mode: a value times 2^(s − 127), as FP32 (R63, R298). -/
def sclApply (n : GNode) (sub : SubSpec) (v : Val) (s : Nat) : Nat × Flg :=
  let x := v.toF
  let t := n.ty 6
  if s = 255 then
    if t = 12#4 ∨ t = 13#4 then ((ffmt tyFP32).nan, flgNone)
    else
      let c := convertF envNearest tyFP32 (decodeVal t (substitute sub t x.sign)).toF 0
      (c.code, flgSB)
  else
    let (y, f) := scaleProd x ((s : Int) - 127)
    let c := convertF envNearest tyFP32 y 0
    (c.code, f ||| c.flags)
/-- The scale byte of a block in extract mode: the e of R60. -/
def sclExtract (n : GNode) (xs : List FItem) : Nat := blockScale (n.ty 6) (xs.map (fun x => x.val.toF))
/-- The tables of a LUT node that these elements reach (R305): their entries, each with its poison. A table that does not
lie in the weight store fails the chunk. -/
def lutTables (c : Ctx) (base : Nat) (n : GNode) (ns : List Nat) (l : Lane) :
    Exec (Sparse (List (Nat × Bool)) × Lane) :=
  foldEach (ns.foldl (fun ts e => setAdd ts (n.tableOf e)) []) ([], l) fun (tabs, l) t => do
    let va := base + t * n.tableStride
    let pm ← l.acc .read (needBytes c .read false va n.tableBytes l.pm)
    let s ← get
    l.acc .read (check ((pagesOf va n.tableBytes).all (fun p => match (xlatAt s.fw c pm (p * 65536)).loc with
      | .here key => isWs key
      | .far node => node % 2 == 1
      | .nowhere => false)) (.trap 0 0 (BitVec.ofNat 64 va)))
    let (b, l2) ← laneRead c.atHome { l with pm := pm } va n.tableBytes
    let w := tyWidth (n.ty 6) / 8
    return (spSet tabs t ((List.range n.w4).map (fun i =>
      let e := (b.drop (i * w)).take w
      (natOfBytes (e.map (·.1)), e.any (·.2)))), l2)
/-- The integer a stream element holds. One that comes from a PACK of a scaled integer tag may hold a fraction: a LUT takes it
for an index that names no entry (DESIGN CHOICE, log entry 43). -/
def indexOf : Val → Option Int
  | .int n => some n
  | .flt (.fin neg m e _) =>
    let k := if 0 ≤ e then some (m * 2 ^ e.toNat) else if m % 2 ^ (-e).toNat = 0 then some (m / 2 ^ (-e).toNat) else none
    k.map (fun n => if neg then -(n : Int) else n)
  | _ => none
/-- The elements `ns` of a node's stream, in increasing order. -/
def nodeStream (c : Ctx) (q : FabRun) (counts : List Nat) (many : Bool) (i : Nat) (n : GNode) (src : Nat → Stream)
    (ns : List Nat) (l : Lane) : Exec (Stream × Lane) := do
  let none_ : FItem := { code := 0, val := .int 0, bad := false }
  let from_ := fun (b : Byte) (e : Nat) => spGet none_ (src (srcNum b)) e
  let env := n.env q.mode q.q31
  match n.opr with
  | 1 =>
    foldEach ns ([], l) fun (out, l) e => do
      let (x, b, l2) ← inputField c l (q.blk.ins.getD (srcNum n.src0) (0#64, 0)) (n.w8 + e * n.b 4) (n.b 4)
      let v : Int := if n.b 5 = 1 ∧ x.testBit (n.b 4 - 1) then (x : Int) - (2 ^ n.b 4 : Nat) else x
      return (out ++ [(e, { code := (v.emod (2 ^ 32 : Nat)).toNat, val := .int v, bad := b })], l2)
  | 2 =>
    let (tabs, l1) ← lutTables c (q.blk.lut.toNat + tableStart q.graph counts i) n ns l
    foldEach ns ([], l1) fun (out, l) e => do
      let x := from_ n.src0 e
      let idx := (indexOf x.val).getD (-1)
      let tab := spGet [] tabs (n.tableOf e)
      if 0 ≤ idx ∧ idx < n.w4 then
        let (k, b) := tab.getD idx.toNat (0, false)
        return (out ++ [(e, { code := k, val := decodeVal (n.ty 6) k, bad := x.bad || b })], l)
      else
        return (out ++ [(e, { code := 0, val := decodeVal (n.ty 6) 0, bad := x.bad })],
          { l with flags := l.flags ||| flgSB })
  | 4 =>
    if n.b 4 = 1 then
      foldEach ns ([], l) fun (out, l) j => do
        let xs := (src (srcNum n.src0)).filterMap (fun (e, x) => if e / n.block = j then some x else none)
        let k := sclExtract n xs
        return (out ++ [(j, { code := k, val := .int k, bad := xs.any (·.bad) })], l)
    else
      foldEach ns ([], l) fun (out, l) e => do
        let x := from_ n.src0 e
        let s := from_ n.src1 (e / n.block)
        let (k, f) := sclApply n (envOf q.mode q.q31).sub x.val s.code
        return (out ++ [(e, { code := k, val := decodeVal tyFP32 k, bad := x.bad || s.bad })],
          { l with flags := l.flags ||| f })
  | 5 =>
    let input := q.blk.ins.getD (srcNum n.src0) (0#64, 0)
    match ns.getLast? with
    | none => return ([], l)
    | some e1 =>
      let (v, l1) ← bmxView c l input (e1 / 32)
      foldEach ns ([], l1) fun (out, l) e => do
        let (x, l2) ← bmxElem c l input (n.ty 4) v e
        return (out ++ [(e, x)], l2)
  | 7 =>
    if n.b 5 = 0 then
      foldEach ns ([], l) fun (out, l) e => do
        let x := from_ n.src0 e
        let (k, l2) ← laneConvert many env (n.ty 4) x.val l
        return (out ++ [(e, { code := k, val := decodeVal (n.ty 4) k, bad := x.bad })], l2)
    else
      -- blocks of a scaled tag: the scale byte first, then the codes (R60)
      foldEach (ns.foldl (fun js e => setAdd js (e / n.block)) []) ([], l) fun (out, l) j => do
        let es := ns.filter (fun e => e / n.block == j)
        let sc := blockScale (n.ty 4) (es.map (fun e => (from_ n.src0 e).val.toF))
        foldEach es (out, l) fun (out, l) e => do
          let x := from_ n.src0 e
          let t : Tag := { ty := n.ty 4, bl := BitVec.ofNat 2 (n.b 5) }
          let (draw, l2) ← if takesDraw env t x.val then laneDraw many l else pure (0, l)
          let k := convTag env t sc x.val draw
          let v := (decodeVal (n.ty 4) k.code).toF.scale ((sc : Int) - 127)
          return (out ++ [(e, { code := k.code, val := .flt v, bad := x.bad })], { l2 with flags := l2.flags ||| k.flags })
  | _ =>
    -- CVT and BMC
    foldEach ns ([], l) fun (out, l) e => do
      let x := from_ n.src0 e
      let (k, l2) ← laneConvert many env (n.ty 4) x.val l
      return (out ++ [(e, { code := k, val := decodeVal (n.ty 4) k, bad := x.bad })], l2)
/-- The streams in chunk `k` that the elements `own` gives each node's own output need. -/
def streamsFor (c : Ctx) (q : FabRun) (k : Nat) (own : Nat → GNode → List Nat) (many : Bool) : Exec (List Stream × Lane) := do
  let g := q.graph
  let counts := countsOf g q.blk.n
  let needs := needsFrom g q.blk.n own g.nodes.length (List.replicate g.nodes.length [])
  foldEach ((List.range g.nodes.length).zip g.nodes) ([], laneStart q.seed k) fun (done, l) (i, n) => do
    let (st, l2) ← nodeStream c q counts many i n (fun j => done.getD j []) (needs.getD i []) l
    return (done ++ [st], l2)
/-- All streams of a chunk. -/
def chunkStreams (c : Ctx) (q : FabRun) (k : Nat) : Exec (List Stream × Lane) :=
  streamsFor c q k (ownOf q.graph (k * q.blk.c) (min ((k + 1) * q.blk.c) q.blk.n)) (manyDraws q.graph q.mode q.q31)

/-! ### Outputs of a chunk (R298, R307 to R309) -/

/-- The fields a chunk writes to an output: bit address, width, code, poison. -/
structure OutFields where
  node : Nat
  base : Nat
  limit : Nat
  w : Nat
  fields : List (Nat × Nat × Bool)
  /-- Whether some field crosses the limit (R308). -/
  ended : Bool
  deriving DecidableEq, Repr
/-- Fields of one width with the limit of their output. -/
def outFields (q : FabRun) (i : Nat) (n : GNode) (w : Nat) (fs : List (Nat × Nat × Bool)) : OutFields :=
  let (va, len) := q.blk.outs.getD n.outNo (0#64, 0)
  { node := i, base := va.toNat, limit := va.toNat + len, w := w
    fields := fs.map (fun (b, c, x) => (8 * va.toNat + b, c, x))
    ended := fs.any (fun (b, _, _) => decide (8 * len < b + w)) }
/-- Present values of a BMC output in the chunks before `k`. -/
def bmcBefore (q : FabRun) (i k : Nat) : Nat :=
  ((q.bmc.filter (fun (j, h, _) => j == i && decide (h < k))).map (·.2.2)).sum
/-- Where the values of a record of `n` elements begin, in bits. -/
def bmcValues (n : Nat) : Nat := 8 * (8 + 4 * ceilDiv n 32)
/-- Whether an element is present (R307): it is not zero. -/
def present (x : FItem) : Bool :=
  match x.val with
  | .int n => n != 0
  | .flt y => !y.isZero
  | .pow _ _ => true
/-- The zero bits that pad the mask words and the `v` values of a record (R307). -/
def bmcPad (q : FabRun) (n : GNode) (v : Nat) : List (Nat × Nat × Bool) :=
  let m := q.blk.n
  let top := bmcValues m + v * tyWidth (n.ty 4)
  (List.range (32 * ceilDiv m 32 - m)).map (fun e => (64 + m + e, 0, false)) ++
    (List.range (roundUp top 32 - top)).map (fun e => (top + e, 0, false))
/-- What node `i` writes to its output for chunk `k`: fields of its own width, and mask bits. A record's padding is written
by the last chunk (log entry 43). -/
def nodeFields (q : FabRun) (k i : Nat) (n : GNode) (st : Stream) (own : List Nat) : List OutFields :=
  let items := own.map (fun e => (e, spGet { code := 0, val := .int 0, bad := false } st e))
  if n.opr = oBmc then
    let w := tyWidth (n.ty 4)
    let vals := items.filter (fun (_, x) => present x)
    let first := bmcBefore q i k
    [outFields q i n 1 (items.map (fun (e, x) => (64 + e, if present x then 1 else 0, x.bad))),
     outFields q i n w (((List.range vals.length).zip vals).map (fun (j, (_, x)) =>
       (bmcValues q.blk.n + (first + j) * w, x.code, x.bad))),
     outFields q i n 1 (if k + 1 = q.blk.chunks then bmcPad q n (first + vals.length) else [])]
  else
    let w := tyWidth n.stream
    [outFields q i n w (items.map (fun (e, x) => (e * w, x.code, x.bad)))]
/-- The bytes of output fields, below the limit. -/
def OutFields.table (o : OutFields) : Sparse ByteBits := (fieldsTable o.w o.fields).filter (fun (a, _) => decide (a < o.limit))
/-- The scale bytes a scaled PACK writes for a chunk: address, byte (R60, R298). -/
def packScales (q : FabRun) (n : GNode) (src : Stream) (own : List Nat) : List (Nat × Nat) :=
  if n.opr = oPack ∧ n.b 5 ≠ 0 then
    (own.foldl (fun js e => setAdd js (e / n.block)) []).map (fun j =>
      let xs := src.filterMap (fun (e, x) => if e / n.block = j ∧ own.contains e then some x.val.toF else none)
      (q.blk.scaleAt.toNat + j, blockScale (n.ty 4) xs))
  else []
/-- Bytes as a table. -/
def bytesTable (l : List (Nat × Nat)) : Sparse ByteBits :=
  l.foldl (fun t (a, v) => spSet t a { mask := 0xFF#8, val := BitVec.ofNat 8 v, bad := false }) []
/-- Write tables of bytes, every page of them being translated first; a trap carries what the lane has met. -/
def writeTables (c : Ctx) (l : Lane) (sh : Bool) (token : Word32) (ts : List (Sparse ByteBits)) : Exec Unit := do
  let pm ← foldEach ts [] fun pm t =>
    foldEach t pm fun pm (a, _) => l.acc .write (needBytes c .write false a 1 pm)
  forEach ts fun t => l.acc .write (writeOut c sh token pm t)
/-- Write the part of a table that can be written: pages that fault or are forbidden are left out. -/
def writeWhatCan (c : Ctx) (sh : Bool) (token : Word32) (t : Sparse ByteBits) : Exec Unit := do
  let pages := t.foldl (fun l (a, _) => setAdd l (a / 65536)) []
  forEach pages fun p => do
    let part := t.filter (fun (a, _) => a / 65536 == p)
    let x := do
      let pm ← needBytes c .write false (p * 65536) 1 []
      writeOut c sh token pm part
    match ← attempt x with
    | .ok _ => pure ()
    | .error (.remote qs) => stop (.remote qs)
    | .error .wait => stop .wait
    | .error (.faults fs) => stop (.faults fs)
    | .error (.refresh n) => stop (.refresh n)
    | .error _ => pure ()
/-- The nodes that write graph outputs, with the elements a chunk has for each. -/
def outNodes (q : FabRun) (k : Nat) : List (Nat × GNode × List Nat) :=
  let lo := k * q.blk.c
  let hi := min ((k + 1) * q.blk.c) q.blk.n
  ((List.range q.graph.nodes.length).zip q.graph.nodes).filterMap (fun (i, n) =>
    if n.isOut then some (i, n, ownOf q.graph lo hi i n) else none)
/-- Every output of a chunk. -/
def chunkOuts (q : FabRun) (k : Nat) (sts : List Stream) : List OutFields :=
  (outNodes q k).flatMap (fun (i, n, own) => nodeFields q k i n (sts.getD i []) own)
/-- All scale bytes of a chunk. -/
def chunkScales (q : FabRun) (k : Nat) (sts : List Stream) : List (Nat × Nat) :=
  (outNodes q k).flatMap (fun (_, n, own) => packScales q n (sts.getD (srcNum n.src0) []) own)
/-- What the conversions of elements that a failed chunk leaves new have raised, and whether they met poison (R306, R313). -/
structure Left where
  flags : Flg
  met : Bool
  deriving DecidableEq, Repr
/-- The new value of element `e` of node `i`'s output in a chunk that failed before it was reached, if all that it takes can
be read, and what its lane raised; where it rounds stochastically its draw is a free value (log entry 14). -/
def newElem (c : Ctx) (q : FabRun) (k i : Nat) (n : GNode) (own : List Nat) (e : Nat) : Exec (Option (FItem × Left)) := do
  let es := if n.opr = oPack ∧ n.b 5 ≠ 0 then own.filter (fun x => x / n.block == e / n.block) else [e]
  match ← attempt (streamsFor c q k (fun j _ => if j = i then es else []) true) with
  | .ok (sts, l) => return ((sts.getD i []).find? (fun p => p.1 == e)).map (fun x => (x.2, { flags := l.flags, met := l.met }))
  | .error _ => return none
/-- What a failed chunk leaves (R309), and what making it has raised. With S, substitutes, scale bytes 0x7F and no BMC values;
without S, each element holds its old value or its new one (log entry 14); one whose new value cannot be computed keeps the
old. -/
def failFields (c : Ctx) (q : FabRun) (k : Nat) (sts : Option (List Stream)) :
    Exec (List OutFields × List (Nat × Nat) × Left) := do
  let (outs, left) ← foldEach (outNodes q k) ([], { flags := flgNone, met := false }) fun (acc, left) (i, n, own) => do
    let w := tyWidth n.stream
    if n.opr = oBmc then return (acc ++ [outFields q i n 1 (own.map (fun e => (64 + e, 0, false)))], left)
    else if q.shadow && n.opr == oPack then
      return (acc ++ [outFields q i n w (own.map (fun e => (e * w, n.w8 % 2 ^ w, false)))], left)
    else
      let (fs, left) ← foldEach own ([], left) fun (fs, left) e => do
        let new : Option (FItem × Left) ← match sts with
          | some l => pure (((l.getD i []).find? (fun p => p.1 == e)).map (fun p => (p.2, { flags := flgNone, met := false })))
          | none => newElem c q k i n own e
        let j ← drawNo
        return match new with
          | some (x, m) =>
            if Config.freeKeepsNew j then
              (fs ++ [(e * w, x.code, x.bad)], { flags := left.flags ||| m.flags, met := left.met || m.met || x.bad })
            else (fs, left)
          | none => (fs, left)
      return (acc ++ [outFields q i n w fs], left)
  let scales ← foldEach (outNodes q k) [] fun acc (_, n, own) => do
    if n.opr = oPack ∧ n.b 5 ≠ 0 then
      let js := own.foldl (fun js e => setAdd js (e / n.block)) []
      if q.shadow then return acc ++ js.map (fun j => (q.blk.scaleAt.toNat + j, 0x7F))
      else foldEach js acc fun acc j => do
        let m ← drawNo
        return acc ++ [(q.blk.scaleAt.toNat + j, (Config.freeByte m).toNat)]
    else return acc
  return (outs, scales, left)
/-- Leave the outputs of a failed chunk; what that raised. `over` are the outputs whose limit it met: without S these keep what
was written below it (R308). -/
def leaveFailed (c : Ctx) (q : FabRun) (k : Nat) (sts : Option (List Stream)) (ended : List OutFields) : Exec Left := do
  let (outs, scales, left) ← failFields c q k sts
  let kept := fun (i : Nat) => ended.any (fun o => o.node == i && o.ended)
  let bmc := fun (i : Nat) => match q.graph.nodes[i]? with
    | some n => n.opr == oBmc
    | none => false
  forEach outs fun o =>
    if !q.shadow && kept o.node && !bmc o.node then
      forEach (ended.filter (fun p => p.node == o.node)) fun p => writeWhatCan c q.shadow q.token p.table
    else writeWhatCan c q.shadow q.token o.table
  writeWhatCan c q.shadow q.token (bytesTable scales)
  return left
/-- A failed chunk with what its outputs have raised. -/
def ChunkFail.add (f : ChunkFail) (l : Left) : ChunkFail := { f with flags := f.flags ||| l.flags, met := f.met || l.met }
/-- How a chunk ended. -/
inductive ChunkEnd
  | good (l : Lane) (bmc : List (Nat × Nat × Nat)) (took : Bool)
  | ended (l : Lane) (outs : List Nat) (took : Bool)
  | failed (f : ChunkFail)
  deriving DecidableEq, Repr
/-- Run chunk `k`. -/
def chunkBody (c : Ctx) (q : FabRun) (k : Nat) : Exec ChunkEnd := do
  match ← tryChunk (chunkStreams c q k) with
  | .error f => return .failed (f.add (← leaveFailed c q k none []))
  | .ok (sts, l) =>
    let outs := chunkOuts q k sts
    let took := (sts.any (fun st => st.any (fun (_, x) => x.bad)))
    let late := fun (i : Nat) => q.overrun.any (fun (j, h) => j == i && decide (h < k))
    let ended := outs.filter (fun o => o.ended || (late o.node && !o.fields.isEmpty))
    if ended.isEmpty then
      match ← tryChunk (writeTables c l q.shadow q.token (outs.map OutFields.table ++ [bytesTable (chunkScales q k sts)])) with
      | .ok _ =>
        let cnt := (outNodes q k).filterMap (fun (i, n, own) =>
          if n.opr = oBmc then
            some (i, k, (own.filter (fun e => present (spGet { code := 0, val := .int 0, bad := false } (sts.getD i []) e))).length)
          else none)
        return .good l cnt took
      | .error f => return .failed (f.add (← leaveFailed c q k (some sts) []))
    else
      let _ ← leaveFailed c q k (some sts) outs
      return .ended l (ended.map (·.node)) took
/-- Whether a graph has a BMC. -/
def Graph.hasBmc (g : Graph) : Bool := g.nodes.any (fun n => n.opr == oBmc)
/-- Whether chunk `k` of run `r` can have been dispatched: fewer than 8 chunks dispatched before it are still on their
lanes; with a BMC, every earlier chunk has to be known (R304). -/
def chunkReady (x : DieSt) (r : Nat) (q : FabRun) (k : Nat) : Bool :=
  let before := ((x.runs.take r).map FabRun.left).sum
  let mine := ((List.range k).filter (fun j => !q.doneChunks.contains j)).length
  decide (before + mine ≤ 7) && (!q.graph.hasBmc || mine == 0)
/-- A lane finishes or fails chunk `k` of run `r` (R304, R308, R309). -/
def srunChunk (die r k : Nat) (s : State) : Option State :=
  match runAt (s.die die) r with
  | none => none
  | some q0 =>
    let c := q0.ctx die k
    unitStep c (do
      let q ← startRun die r
      enabled (!q.cannot && !q.aborted && decide (k < q.blk.chunks) && !q.doneChunks.contains k)
      check (chunkReady (← getDie die) r q k) .wait
      let size := min q.blk.c (q.blk.n - k * q.blk.c)
      stalling (noteStall die r k) (do
        match ← chunkBody c q k with
        | .good l bmc took =>
          modRun die r fun q => { q with
            doneChunks := setAdd q.doneChunks k, bmc := q.bmc ++ bmc, flags := q.flags ||| flgWord (l.flags &&& fabFlags)
            poison := q.poison || took, good := q.good + size }
        | .ended l outs took =>
          modRun die r fun q => { q with
            doneChunks := setAdd q.doneChunks k, failed := setAdd q.failed k
            overrun := q.overrun ++ outs.map (fun i => (i, k))
            flags := q.flags ||| flgWord (l.flags &&& fabFlags), poison := q.poison || took }
        | .failed f =>
          modRun die r fun q => { q with
            doneChunks := setAdd q.doneChunks k, failed := setAdd q.failed k, poison := q.poison || f.met
            sealed := q.sealed || f.cause == cSealed, flags := q.flags ||| flgWord (f.flags &&& fabFlags) }
          let owed ← chunkFailed c q.token 1 k f
          modRun die r fun q => { q with owed := q.owed ++ owed })) s
def execSrunChunkDone (die r k : Nat) (s : State) : Host.Outcome State Fault Refusal := goes s (srunChunk die r k s)

/-! ### The end of a run (R306, R308, R310) -/

/-- Present values of a BMC output that have been written. -/
def bmcCount (q : FabRun) (i : Nat) : Nat := ((q.bmc.filter (fun (j, _, _) => j == i)).map (·.2.2)).sum
/-- The header of a BMC record, and the bits that pad its mask and its values (R307, R308). -/
def bmcTail (q : FabRun) (i : Nat) (n : GNode) : List OutFields :=
  let v := bmcCount q i
  [outFields q i n 1 (bmcPad q n v), outFields q i n 32 [(0, q.blk.n, false), (32, v, false)]]
/-- The bytes that a tail writes: its padding as far as the limit, its header whole or not at all. -/
def OutFields.tail (o : OutFields) : Sparse ByteBits := if o.ended && o.w != 1 then [] else o.table
/-- The headers of a run's BMC records are written last. One that faults fails the run's last chunk (log entry 43). -/
def writeTails (die r : Nat) (c : Ctx) (q : FabRun) : Exec FabRun := do
  let tails := if q.cannot || q.aborted then [] else
    (outNodes q 0).flatMap (fun (i, n, _) => if n.opr = oBmc then bmcTail q i n else [])
  let past := (tails.filter (·.ended)).map (fun o => (o.node, q.blk.chunks))
  match ← tryChunk (writeTables c (laneStart 0#64 0) q.shadow q.token (tails.map OutFields.tail)) with
  | .ok _ => return { q with overrun := q.overrun ++ past }
  | .error f =>
    forEach tails fun o => writeWhatCan c q.shadow q.token o.tail
    let k := q.blk.chunks - 1
    let size := if q.failed.contains k then 0 else q.blk.n - k * q.blk.c
    let fails := decide (0 < q.blk.chunks)
    let owed ← if fails then chunkFailed c q.token 1 k f else pure []
    let q2 : FabRun := { q with
      overrun := q.overrun ++ past, sealed := q.sealed || f.cause == cSealed, owed := q.owed ++ owed
      failed := if fails then setAdd q.failed k else q.failed, good := q.good - size }
    modRun die r fun _ => q2
    return q2
/-- Status of a command from its chunks (R310): `n` chunks, those that failed, whether it could not start or wrote to a
sealed slot, which fails the command (R261, log entry 43). -/
def chunkStatus (n : Nat) (failed : List Nat) (cannot : Bool) : Nat :=
  if cannot || (decide (failed ≠ []) && failed.length == n) then 2 else if failed = [] then 0 else 1
/-- The bitmap of failed chunks. -/
def failedBits (failed : List Nat) : Nat := (failed.map (fun k => 2 ^ k)).sum
/-- A run completes: BMC headers, FLAGS, the records that are owed, and its own. -/
def srunComplete (die r : Nat) (s : State) : Option State :=
  match runAt (s.die die) r with
  | none => none
  | some q0 =>
    let c := q0.ctx die 32
    unitStep c (do
      let q ← startRun die r
      let all := List.range q.blk.chunks
      enabled (q.cannot || q.aborted || all.all (fun k => q.doneChunks.contains k))
      stalling (noteStall die r 32) (do
        let q ← writeTails die r c q
        let failed := if q.cannot then [] else if q.aborted then all.filter (fun k => !q.doneChunks.contains k || q.failed.contains k)
          else q.failed
        let status := if q.aborted then (if q.good = 0 then 2 else 1)
          else chunkStatus q.blk.chunks failed (q.cannot || q.sealed)
        let rec_ := makeRecord 1 status (recordFlags q.flags q.poison (!q.overrun.isEmpty)) q.token q.good q.stallCycles
          (failed.headD 0xFFFFFFFF) (failedBits failed)
        postRecords c (fun l => modRun die r fun q => { q with owed := l }) q.owed (if q.ev then [rec_] else [])
        mergeFlags q.tid q.flags
        whenB q.shadow (modShadow die q.token fun k => { k with complete := true })
        modDie die fun y => { y with runs := y.runs.take r ++ y.runs.drop (r + 1) })) s
def execSrunComplete (die r : Nat) (s : State) : Host.Outcome State Fault Refusal := goes s (srunComplete die r s)

/-! ### The copy engine (R314) -/

/-- Bytes of a chunk. -/
def cpyChunk (count : Nat) : Nat := roundUp (max (2 ^ 20) (ceilDiv count 32)) 128
/-- The number of chunks. -/
def CpyCmd.chunks (q : CpyCmd) : Nat := if q.count = 0 then 0 else ceilDiv q.count (cpyChunk q.count)
/-- Change the copy at the head of a die's queue. -/
def modCpy (die : Nat) (f : CpyCmd → CpyCmd) : Exec Unit :=
  modDie die fun y => { y with cpyQueue := match y.cpyQueue with
    | [] => []
    | q :: l => f q :: l }
/-- Bytes of a copy as a table; each carries whether its source granule is poisoned. -/
def copyTable (dst : Nat) (bs : List (Byte × Bool)) : Sparse ByteBits :=
  ((List.range bs.length).zip bs).map (fun (i, (b, p)) => (dst + i, { mask := 0xFF#8, val := b, bad := p }))
/-- Source bytes of a copy at an address. Without S, those that overlap the destination read as free values (R314, log
entry 15). -/
def copySource (c : Ctx) (q : CpyCmd) (l : Lane) (va n : Nat) : Exec (List (Byte × Bool) × Lane) := do
  let (bs, l2) ← laneRead c l va n
  let inDst := fun (a : Nat) => decide (q.dst.toNat ≤ a) && decide (a < q.dst.toNat + q.count)
  if q.shadow then return (bs, l2)
  else
    let out ← mapEach ((List.range n).zip bs) fun (i, x) => do
      if inDst (va + i) then return (Config.freeByte (← drawNo), x.2) else return x
    return (out, l2)
/-- Offset and length of chunk `k` of a copy. -/
def CpyCmd.part (q : CpyCmd) (k : Nat) : Nat × Nat :=
  let size := cpyChunk q.count
  (k * size, min size (q.count - k * size))
/-- Copy chunk `k`: whether it met poison. -/
def copyChunk (c : Ctx) (q : CpyCmd) (k : Nat) : Exec Bool := do
  let (off, n) := q.part k
  let (bs, l) ← copySource c q (laneStart 0#64 0) (q.src.toNat + off) n
  writeTables c l q.shadow q.token [copyTable (q.dst.toNat + off) bs]
  return l.met
/-- What a failed chunk of an unshadowed copy leaves: each byte its old value or that of its source, where the source can be
read (R309, log entry 14). -/
def copyFailed (c : Ctx) (q : CpyCmd) (k : Nat) : Exec Unit := do
  let (off, n) := q.part k
  if q.shadow then pure ()
  else
    let t ← foldEach (granParts (n / 32 + 2) (q.src.toNat + off) n) [] fun t (a, m) => do
      let bs ← attempt (copySource c q (laneStart 0#64 0) a m)
      match bs with
      | .error _ => return t
      | .ok (bs, _) =>
        foldEach (copyTable (a - q.src.toNat + q.dst.toNat) bs) t fun t x => do
          return if Config.freeKeepsNew (← drawNo) then t ++ [x] else t
    writeWhatCan c false q.token t
/-- The copy at the head of a die's queue stalls until a cycle. -/
def noteCopyStall (die till : Nat) : Exec Unit := do
  let now := (← get).cycle
  modCpy die fun q => { q with stallCycles := q.stallCycles + (till - max now q.stallTo), stallTo := till }
/-- The chunks of the copy at the head of the queue that are left, by a bound on their number; each that ends is kept. -/
def copyRest (die : Nat) (c : Ctx) : Nat → Exec Unit
  | 0 => pure ()
  | f + 1 => do
    match (← getDie die).cpyQueue with
    | [] => pure ()
    | q :: _ =>
      if q.chunks ≤ q.chunk then pure ()
      else
        let one := do
          match ← tryChunk (copyChunk c q q.chunk) with
          | .ok met =>
            modCpy die fun q => { q with chunk := q.chunk + 1, good := q.good + (q.part q.chunk).2, poison := q.poison || met }
          | .error g =>
            copyFailed c q q.chunk
            let owed ← chunkFailed c q.token 3 q.chunk g
            modCpy die fun q => { q with chunk := q.chunk + 1, failed := q.failed ++ [q.chunk], poison := q.poison || g.met
                                         sealed := q.sealed || g.cause == cSealed, owed := q.owed ++ owed }
        match ← attempt (stalling (noteCopyStall die) one) with
        | .error (.keep u e) =>
          set u
          stopKeep e
        | .ok _ =>
          modify fun s => dropRemotes s c.who
          copyRest die c f
        | .error e => stopKeep e
/-- The copy at the head of the queue completes (R311, R314). -/
def cpyComplete (die : Nat) (s : State) : Option State :=
  match (s.die die).cpyQueue with
  | [] => none
  | q0 :: _ =>
    let c := unitCtx die 3 q0.token.toNat q0.tid q0.slot
    unitStep c (do
      if q0.started then pure ()
      else
        let can ← if q0.shadow then
            claimShadow c q0.token ((pagesOf q0.dst.toNat q0.count))
          else pure true
        modCpy die fun q => { q with started := true, cannot := !can }
      whenB (!q0.aborted && !((← getDie die).cpyQueue.any (fun q => q.token == q0.token && q.cannot)))
        (copyRest die c 33)
      match (← getDie die).cpyQueue with
      | [] => pure ()
      | q :: _ =>
        let failed := if q.cannot then [] else if q.aborted then
            q.failed ++ (List.range q.chunks).filter (fun k => decide (q.chunk ≤ k)) else q.failed
        let status := if q.aborted then (if q.good = 0 then 2 else 1) else chunkStatus q.chunks failed (q.cannot || q.sealed)
        let rec_ := makeRecord 3 status (if q.poison then 32 else 0) q.token q.good q.stallCycles
          (failed.headD 0xFFFFFFFF) (failedBits failed)
        postRecords c (fun l => modCpy die fun q => { q with owed := l }) q.owed (if q.ev then [rec_] else [])
        whenB q.shadow (modShadow die q.token fun k => { k with complete := true })
        modDie die fun y => { y with cpyQueue := y.cpyQueue.tail }) s
def execCpyComplete (die : Nat) (s : State) : Host.Outcome State Fault Refusal := goes s (cpyComplete die s)

end Sys2Proof.Machine
end

