-- ==== Sys2Proof/Machine/Vp.lean ====
section
/-!
DEFINITION. `each` and its virtual processors (R208 to R214, R399): starting the groups, one step of a group, what an
interruption leaves, and the instructions that only a block may hold.
-/
namespace Sys2Proof.Machine

/-! ### One step of a group of VPs (R210, R211) -/

/-- The v registers an instruction of a block names are v0 to v15 (R211, R117). -/
def blockRegsOk : Instr → Bool
  | .add _ d a b | .sub _ d a b | .mul _ d a b | .mulh _ _ d a b | .div _ _ d a b | .rem _ _ d a b
  | .and _ d a b | .or _ d a b | .xor _ d a b | .shl _ d a b | .shr _ _ d a b | .min _ _ d a b
  | .max _ _ d a b | .slt _ _ d a b | .fadd _ d a b | .fsub _ d a b | .fmul _ d a b | .fdiv _ d a b
  | .fma _ d a b | .fmin _ d a b | .fmax _ d a b | .fcmp _ _ d a b =>
    decide (d.toNat < 16) && decide (a.toNat < 16) && (match b with
      | .reg r => decide (r.toNat < 16)
      | .lit _ => true)
  | .cnt _ _ d a | .addi d a _ | .andi d a _ | .ori d a _ | .xori d a _ | .shli d a _ | .shri _ d a _
  | .slti d a _ | .ldd d a _ | .ldw d a _ | .ldh d a _ | .ldb d a _ | .std d a _ | .stw d a _ | .sth d a _
  | .stb d a _ | .fcvt _ d a => decide (d.toNat < 16) && decide (a.toNat < 16)
  | .lui d _ | .lpc d _ | .fli d _ | .vget d => decide (d.toNat < 16)
  | .beq a b _ | .bne a b _ | .blt a b _ | .bge a b _ | .bltu a b _ | .bgeu a b _ =>
    decide (a.toNat < 16) && decide (b.toNat < 16)
  | .vput a | .ecomb a => decide (a.toNat < 16)
  | _ => true
/-- How the fetch of a block word ends when it does not go on. -/
def stopOfExc : Exc → VpStop
  | .trap c ax v => .trap c ax v
  | .trapAt c ax v _ => .trap c ax v
  | .wait => .wait
  | .faults fs => .faults fs
  | .remote qs => .remote qs
  | .refresh _ => .wait
  | .keep _ e => stopOfExc e
  | .idle => .wait
/-- The instruction at `pc` of a block: where its word begins a convoy, the whole convoy is checked first. -/
def blockInstr (edge : Bool) (m : OpMap) (pc : Word64) : Exec Instr := do
  let w ← blockWord pc
  let ok := fun i => blockAllowed edge i && blockRegsOk i
  if cBit w then
    match ← convoyFrom blockWord ok m pc 9 pc [] with
    | i :: _ => return i
    | [] => stop .wait
  else
    let ext ← extWords blockWord m pc pc w (lengthOf m w - 1) 1 []
    match decodeWith m w ext with
    | .error r => trapNow cIllop (tvalWord pc r.idx)
    | .ok d => if ok d.instr then return d.instr else trapNow cIllop (tvalWord pc 0)
/-- Execute `i` for one VP: the VP after it and the state, or why it cannot go on. -/
def runOneVp (ex : Meaning) (runner : Runner) (i : Instr) (p : Vp) (s : State) : Except VpStop (Vp × State) :=
  match ex i { s with runner := runner, vp := p, vpStop := none } with
  | .next u =>
    match u.vpStop with
    | some e => .error e
    | none => .ok (u.vp, u)
  | _ => .error .wait
/-- What is sent to other nodes while a VP of a step waits for them: while a read is still to come, of which a table entry may
be one, only reads, which have no effect; so every VP's address has been translated before the step writes anything (R399). -/
def stepAsks (waits : Bool) (qs : List (Agent × LinkReq)) : List (Agent × LinkReq) :=
  if waits || qs.any (fun q => reqReads q.2) then qs.filter (fun q => reqReads q.2) else qs
/-- What else the VPs from `n` on meet where one before them waits for another node: the first page fault among them, for
which no access of the step is performed (R399), or the requests of them all. -/
def otherVps (ex : Meaning) (runner : Nat → Runner) (i : Instr) (pc : Word64) (s : State) (at_ : Nat) :
    Nat → List Vp → Bool → List (Agent × LinkReq) → Nat × VpStop
  | _, [], waits, qs => (at_, .remote (stepAsks waits qs))
  | n, p :: r, waits, qs =>
    if p.live && p.pc == pc then
      match runOneVp ex (runner n) i p s with
      | .error (.faults fs) => (n, .faults fs)
      | .error (.remote q) => otherVps ex runner i pc s at_ (n + 1) r waits (qs ++ q)
      | .error .wait => otherVps ex runner i pc s at_ (n + 1) r true qs
      | _ => otherVps ex runner i pc s at_ (n + 1) r waits qs
    else otherVps ex runner i pc s at_ (n + 1) r waits qs
/-- Execute `i` for every live VP at `pc`, in order; the first that cannot go on ends the step. -/
def runVps (ex : Meaning) (runner : Nat → Runner) (i : Instr) (pc : Word64) :
    Nat → List Vp → State → Except (Nat × VpStop) (List Vp × State)
  | _, [], s => .ok ([], s)
  | n, p :: r, s =>
    if p.live && p.pc == pc then
      match runOneVp ex (runner n) i p s with
      | .error (.remote qs) => .error (otherVps ex runner i pc s n (n + 1) r false qs)
      | .error e => .error (n, e)
      | .ok (q, u) =>
        match runVps ex runner i pc (n + 1) r u with
        | .ok (ps, v) => .ok (q :: ps, v)
        | .error e => .error e
    else
      match runVps ex runner i pc (n + 1) r s with
      | .ok (ps, v) => .ok (p :: ps, v)
      | .error e => .error e
/-- The lowest program counter held by a live VP, and the lowest-numbered VP at it. -/
def lowestPc : Nat → List Vp → Option (Word64 × Nat)
  | _, [] => none
  | n, p :: r =>
    match lowestPc (n + 1) r with
    | none => if p.live then some (p.pc, n) else none
    | some (q, k) => if p.live && decide (p.pc.toNat ≤ q.toNat) then some (p.pc, n) else some (q, k)
/-- The stores that a step of VPs has made, those of the state past the first `n`, are performed together with what their
threads held back of the same lines: the lower lines first (R210, R367). Those that `keep` picks stay held. -/
def stepStores (n : Nat) (keep : HeldStore → Bool) : Exec Unit := do
  let s ← get
  let new := (s.stores.drop n).filter (fun h => !keep h)
  performEach (s.stores.filter (fun h => new.any (fun g => g.tid == h.tid && g.key / 128 == h.key / 128)))
/-- One step of a group: the VPs after it, or the VP that cannot go on and why. A turn whose plain stores are held back leaves
those of an `each` for later (R368). -/
def stepVps (ex : Meaning) (edge : Bool) (m : OpMap) (runner : Nat → Runner) (vps : List Vp) (s : State) :
    Except (Nat × VpStop) (List Vp × State) :=
  match lowestPc 0 vps with
  | none => .ok (vps, s)
  | some (pc, n) =>
    match blockInstr edge m pc { s with runner := runner n } with
    | .error e => .error (n, stopOfExc e)
    | .ok (i, u) =>
      match runVps ex runner i pc 0 vps { u with holding := true } with
      | .error e => .error e
      | .ok (ps, v) =>
        match stepStores u.stores.length (fun h => s.holding && !edge && !isWs h.key) { v with holding := s.holding } with
        | .ok (_, w) => .ok (ps, w)
        | .error e => .error (n, stopOfExc e)
/-- The state with no VP in it. -/
def State.noVp (s : State) : State := { s with runner := .thread, vp := Vp.reset, vpStop := none }

/-! ### Groups of an `each` (R208 to R210) -/

/-- A VP at its start (R209). -/
def newVp (block : Word64) (n cell : Nat) : Vp :=
  (({ Vp.reset with pc := block, live := true }).setReg 14#5 (BitVec.ofNat 64 n)).setReg 15#5 (BitVec.ofNat 64 cell)
/-- Group `g` at its start. -/
def newGroup (j : EachJob) (g : Nat) : VpGroup :=
  { g := g, parked := none, flags := 0#64
    vps := ((List.range 8).filter (fun i => decide (8 * g + i < extProd j.frame))).map
      (fun i => newVp j.block (8 * g + i) j.cell) }
/-- The groups an `each` has. -/
def EachJob.groupCount (j : EachJob) : Nat := ceilDiv (extProd j.frame) 8
/-- The job with groups started on free lanes, by a bound on their number: 16 run at once, those of all attached dies of a gang
together; R210 speaks of the lanes of one core (DESIGN CHOICE, log entry 25). -/
def startGroups : Nat → EachJob → EachJob
  | 0, j => j
  | n + 1, j =>
    if j.groups.length < 16 ∧ j.nextGroup < j.groupCount then
      startGroups n { j with groups := j.groups ++ [newGroup j j.nextGroup], nextGroup := j.nextGroup + 1 }
    else j
/-- Every group has finished. -/
def EachJob.isDone (j : EachJob) : Bool := j.groups.isEmpty && decide (j.groupCount ≤ j.nextGroup)
/-- The lowest group that has not finished (R213). -/
def EachJob.lowest (j : EachJob) : Nat := j.groups.foldl (fun m x => min m x.g) j.nextGroup
/-- The job after a group took a step: a group that has finished leaves its results and flags, and frees its lane. -/
def EachJob.put (j : EachJob) (g : Nat) (vps : List Vp) : EachJob :=
  if vps.any (·.live) then { j with groups := j.groups.map (fun x => if x.g = g then { x with vps := vps } else x) }
  else
    let fl := match j.groups.find? (fun x => x.g == g) with
      | some x => x.flags
      | none => 0#64
    let outs := (vps.zip (List.range vps.length)).foldl (fun o (p, i) => match p.out with
      | some v => spSet o (8 * g + i) v
      | none => o) j.outs
    startGroups 1 { j with groups := j.groups.filter (fun x => x.g != g), finished := setAdd j.finished g
                           outs := outs, flags := j.flags ||| fl }

/-- What a register value put by a VP is in a type (R212). -/
def putValue (t : BitVec 4) (x : Word32) : Val :=
  if tyFloat t then .flt (decodeF tyFP32 x.toNat) else if t = tyN32 then .int (x.toNat : Nat) else .int x.toInt
/-- The result of an `each` in the tag of its destination. Elements below its start are kept; where it stops early,
those from `low` on hold unspecified codes (R42, log entry 8). -/
def eachEmit (j : EachJob) (old : ArrReg) (low n : Nat) : Emit :=
  let w := tyWidth old.ty
  { tag := old.tag, ext := j.frame, old := old, env := envOf j.mode j.q31
    mask := if j.start = 0 then none else some (fun i => decide (j.start ≤ i))
    give := fun i =>
      if low ≤ i then .ok (.code (Config.freeCode n / 2 ^ (w * i) % 2 ^ w) false flgNone)
      else .ok (.val (match j.outs.find? (fun o => o.1 == i) with
        | some (_, v) => putValue old.ty v
        | none => putValue old.ty 0#32) flgNone)
    pz := fun _ => false, whole := fun _ _ => none }
/-- Write the results of an `each` up to element `low`, and the flags of its finished groups; ASTART follows. An `each`
that goes on from ASTART keeps its storage (R42). -/
def eachWrite (j : EachJob) (low : Nat) (stopped : Bool) : Exec Unit := do
  let old := (← get).arrReg j.d
  let dies ← getDies
  let n ← drawNo
  let (r, fls) ← emitReg (eachEmit j old low n) (resultRepl dies j.frame [j.src])
  if j.start = 0 then writeArr j.d r else rewriteArr j.d r
  addFlags (allFlags (fls.drop j.start))
  modCur fun t => { t with
    each := none
    csr := { t.csr with flags := t.csr.flags ||| j.flags, astart := if stopped then BitVec.ofNat 64 low else 0#64 } }
/-- The state in which the current thread's `each` has stopped before its end (R42, R213). -/
def eachStop (s : State) : State :=
  match s.cur.each with
  | none => s
  | some j =>
    match eachWrite j (8 * j.lowest) true s with
    | .ok (_, u) => u
    | .error _ => s

/-- Under a gang, every write of the thread has reached its home before its VPs run, which are on several dies: its later
accesses see it (R214, R289). -/
def settleShares : Exec Unit := do
  if 1 < (← getDies) then
    let t := (← get).cur.tid
    performHeld t (fun _ => true)
    checkKeep (writesApplied (← get) t) .wait
  else pure ()
/-- Start an `each` (R208). -/
def eachStart (d a b : Reg) (r : BitVec 3) : Exec Flow := do
  needRm
  let base ← readReg b
  legal (base.extractLsb' 0 2 == 0#2 && base.extractLsb' 55 9 == 0#9)
  let ra ← arrReg a.toNat
  let old ← arrReg d.toNat
  check (!ra.isEmpty) (badShape 3 a.toNat)
  let k := rkVal r
  let dies ← getDies
  check (!cellSpread dies ra k) (badShape 4 0)
  let w ← fetchWord (← get).fetchCtx base
  check (cBit w) (.trap cMidConvoy 0 base)
  settleShares
  let (frame, cell) := frameCell ra.ext k
  let s ← get
  let start := if goesOn old.tag frame old s.cur.csr.astart then s.cur.csr.astart.toNat / 8 * 8 else 0
  if start = 0 then allocResult old.tag frame (resultRepl dies frame [ra]) 0 else pure ()
  let j : EachJob :=
    { d := d.toNat, srcNo := a.toNat, src := ra, cell := extProd cell, block := base, frame := frame, start := start
      groups := [], nextGroup := start / 8, finished := [], outs := [], mode := s.cur.csr.mode, q31 := s.window 31
      flags := 0#64 }
  if j.isDone then
    eachWrite j (extProd frame) false
    return .seq
  else
    modCur fun t => { t with each := some (startGroups 16 j) }
    stopKeep .wait
/-- `each` (R208): it starts its groups, and completes once every group has finished. -/
def execEach (d a b : Reg) (r : BitVec 3) (s : State) :=
  perform (.each d a b r) (do
    match (← get).cur.each with
    | none => eachStart d a b r
    | some j =>
      if j.isDone then
        eachWrite j (extProd j.frame) false
        return .seq
      else stop .wait) s

/-! ### A turn of a group (R210, R213, R399) -/

/-- The state with group `g` of the current thread's `each` changed. -/
def modGroup (s : State) (g : Nat) (f : VpGroup → VpGroup) : State :=
  { s with cur := { s.cur with each := s.cur.each.map (fun (j : EachJob) =>
      { j with groups := j.groups.map (fun x => if x.g = g then f x else x) }) } }
/-- The state in which group `g` is parked on a new fault entry for the first of these faults; the step replays with fresh
translation, so nothing that other nodes have sent for it is kept (R399). -/
def parkGroup (s : State) (g : Nat) (fs : List PageFault) : State :=
  let u := newFaults (dropRemotes s (.vp s.cur.tid g)) (fs.take 1)
  match (ownFaults s u s.cur.tid).head? with
  | some f => modGroup u g (fun x => { x with parked := some f.seq })
  | none => u
/-- One step of group `g` of thread `t`, where it can take one; a die that is stopped runs no VP (R23). -/
def eachStep (ex : Meaning) (t : Tid) (g : Nat) (s0 : State) : Option State :=
  let s := (s0.switchTo t).noVp
  if s.cur.tid ≠ t ∨ s.cur.status ≠ .bound ∨ s.cur.place.all.any (fun p => (s.die p.1).stopped) then none
  else match s.cur.each with
  | none => none
  | some j =>
    match j.groups.find? (fun x => x.g == g) with
    | none => none
    | some x =>
      if x.parked.isSome then none
      else match stepVps ex false s.cur.opMap (fun i => .vp g i) x.vps s with
        | .ok (vps, u) =>
          some (dropRemotes { u with cur := { u.cur with each := u.cur.each.map (fun (k : EachJob) => k.put g vps) } }
            (.vp t g)).noVp
        | .error (_, .trap c ax v) =>
          let u := eachStop s
          some (takeTrap u c ax v u.cur.pc)
        | .error (_, .faults fs) => some (parkGroup s g fs)
        | .error (_, .remote qs) => if qs.isEmpty then none else some (postRequests s qs)
        | .error (_, .wait) => none

/-! ### The instructions of a block (R212) -/

/-- An element as `vget` gives it (R212): an integer's low 32 bits, or the FP32 value. -/
def getValue (t : Tag) (v : Val) : Word32 × Flg :=
  match v with
  | .int n => (BitVec.ofInt 32 n, flgNone)
  | _ =>
    let c := convertF envNearest tyFP32 v.toF 0
    let f := if (c.flags &&& flgOF) = flgNone then c.flags else c.flags &&& ~~~ flgNX
    (BitVec.ofNat 32 c.code, if t.isInt then flgNone else f)
/-- `vget`. -/
def execVget (d : Reg) (s : State) :=
  performSeq (.vget d) (do
    let x ← readReg d
    let u ← get
    match u.runner, u.cur.each with
    | .vp g i, some j =>
      let idx := x.toNat % 2 ^ 32
      if j.cell ≤ idx then writeReg d 0#64
      else
        let env := envOf j.mode j.q31
        let (v, f1) ← liftE (consume env.sub j.srcNo j.src.tag (j.src.elem ((8 * g + i) * j.cell + idx)))
        let (w, f2) := getValue j.src.tag v
        addFlags (f1 ||| f2)
        writeReg d (w.setWidth 64)
    | _, _ => illop) s
/-- `vput`: the value is kept until every VP of its block has ended, then converted. -/
def execVput (a : Reg) (s : State) :=
  performSeq (.vput a) (do
    let x ← readReg a
    modify fun u => { u with vp := { u.vp with out := some (x.setWidth 32) } }) s
/-- `vnext`: the target is fetched for this VP alone. -/
def execVnext (o : BitVec 21) (s : State) :=
  perform (.vnext o) (do
    let pc ← curPc
    transferTo (pc + BitVec.ofInt 64 (4 * o.toInt))) s
/-- `vpend`: the VP ends. -/
def execVpend (s : State) :=
  performSeq .vpend (modify fun u => { u with vp := { u.vp with live := false } }) s

end Sys2Proof.Machine
end

