-- ==== Sys2Proof/Machine/Edge.lean ====
section
/-!
DEFINITION. The edge engine (R318 to R339): descriptors and edge programs, supersteps in push and pull, their chunks,
combines and activations, and the choice of direction.
-/
namespace Sys2Proof.Machine

/-! ### Bindings (R318, R321, R325, R326) -/

/-- The descriptor in 64 bytes, if it obeys R318. -/
def edgeGraphOf (b : List Byte) : Option EdgeGraph :=
  let f := fun (o n : Nat) => natOfBytes ((b.drop o).take n)
  let w := fun (o : Nat) => BitVec.ofNat 64 (f o 8)
  let g : EdgeGraph :=
    { v := f 0 4, e := f 4 4, outoff := w 8, outidx := w 16, inoff := w 24, inidx := w 32, wgt := w 40, val := w 48
      frt := w 56 }
  let ok := fun (x : Word64) => x.extractLsb' 55 9 == 0#9 && x.extractLsb' 0 2 == 0#2
  let arrays := [g.outoff, g.outidx, g.inoff, g.inidx, g.val, g.frt]
  if 1 ≤ g.v ∧ g.v < 2 ^ 31 ∧ arrays.all (fun x => ok x && x != 0#64) ∧ ok g.wgt ∧ g.frt.extractLsb' 0 7 = 0#7 then some g
  else none
/-- The commands in an edge engine's queue; those that bind take effect at its head as soon as they get there. -/
def CoreSt.edgeLoad (k : CoreSt) : Nat := (k.edge.map (fun r => 1 + r.after.length)).sum
/-- The runs of a queue without those that `gone` picks, and without the commands of the threads `mine` picks; the binding
commands that come to stand first in the queue are answered apart. -/
def dropRuns (mine : Tid → Bool) (gone : ERun → Bool) : List ERun → List Tid × List ERun
  | [] => ([], [])
  | r :: rest =>
    let (b, l) := dropRuns mine gone rest
    let after := r.after.filter (fun t => !mine t) ++ b
    if gone r then (after, l) else ([], { r with after := after } :: l)
/-- A post waits for room among 16 entries and for the thread's writes (R325). -/
def edgeRoom : Exec Unit := do
  let s ← get
  check (decide ((s.core s.cur.place.die s.cur.place.core).edgeLoad < 16)) .wait
  performOwn s.cur.tid .pkg
/-- A queue with a binding command of a thread at its end. -/
def bindBehind (t : Tid) : List ERun → List ERun
  | [] => []
  | [r] => [{ r with after := r.after ++ [t] }]
  | r :: q :: l => r :: bindBehind t (q :: l)
/-- An `egraph` or `eprog` of the current thread takes its place in the queue. -/
def postBind : Exec Unit := do
  let t := (← get).cur
  modCore t.place.die t.place.core fun k => { k with edge := bindBehind t.tid k.edge }
/-- The thread has no gang binding (R324). -/
def noGang : Exec Unit := do legal (← get).cur.place.gang.isEmpty
/-- `egraph`. -/
def execEgraph (d a : Reg) (s : State) :=
  performSeq (.egraph d a) (do
    noGang
    let va ← readReg a
    let bad : Exc := .trap cIllop 0 va
    check (va.extractLsb' 0 6 == 0#6) bad
    let b ← loadBlock (← get).ctx va 64
    match edgeGraphOf b with
    | none => stop bad
    | some g =>
      edgeRoom
      let tok ← newToken (← get).cur.place.die
      postBind
      modify fun s => (s.setMySlot { s.mySlot with graph := some g })
      modCur fun t => { t with egAddr := va }
      writeReg d (tok.setWidth 64)) s
/-- The configuration of an `eprog`: length, value type, combine (R326). -/
def edgeCfg (x : Word64) : Option (Nat × BitVec 4 × Nat) :=
  let len := (x.extractLsb' 8 8).toNat
  let vt := x.extractLsb' 4 4
  let cmb := (x.extractLsb' 0 3).toNat
  if x.extractLsb' 16 48 = 0#48 ∧ x.getLsbD 3 = false ∧ 1 ≤ len ∧ len ≤ 64 ∧ (vt = tyI32 ∨ vt = tyN32 ∨ vt = tyFP32) ∧
      cmb ≤ 4 then some (len, vt, cmb) else none
/-- The decode map of a program. -/
def EdgeProg.opMap (p : EdgeProg) : OpMap := if p.dmap.isEmpty then map0 else mapOf p.dmap
/-- What may stand in an edge block (R211, R321). -/
def edgeOk (i : Instr) : Bool := blockAllowed true i && blockRegsOk i
/-- Check the convoys of a block from word `n` on, by a bound on their number; a fault traps with the cause R117 gives
and TPC the `eprog` (R326). An instruction whose words the block does not hold whole is none. -/
def checkProg (p : EdgeProg) : Nat → Nat → Exec Unit
  | 0, _ => pure ()
  | f + 1, n => do
    if p.words.length ≤ n then pure ()
    else
      let a := p.base + BitVec.ofNat 64 (4 * n)
      let is ← fun s => match convoyFrom (fun x => pure (progWord p x)) edgeOk p.opMap a 9 a [] s with
        | .error (.trapAt c ax v _) => .error (.trap c ax v)
        | r => r
      let used := (is.map instrWords).sum
      check (decide (n + used ≤ p.words.length)) (.trap cIllop 0 (tvalWord a 0))
      checkProg p f (n + max used 1)
/-- Whether the word at `a` of a block begins an instruction, literal words being skipped (R326). -/
def instrStart (p : EdgeProg) (a : Word64) : Nat → Nat → Bool
  | 0, _ => false
  | f + 1, n =>
    if p.words.length ≤ n then false
    else if p.base + BitVec.ofNat 64 (4 * n) = a then true
    else instrStart p a f (n + max 1 (lengthOf p.opMap (p.words.getD n 0#32)))
/-- The words of a block at `va`. -/
def progAt (va : Word64) (len : Nat) (vt : BitVec 4) (cmb : Nat) : Exec EdgeProg := do
  let s ← get
  let b ← loadBlock s.ctx va (4 * len)
  return { dmap := s.cur.dmapTab, base := va, vt := vt, cmb := cmb
           words := (List.range len).map (fun i => BitVec.ofNat 32 (natOfBytes ((b.drop (4 * i)).take 4))) }
/-- `eprog`. -/
def execEprog (d a b : Reg) (s : State) :=
  performSeq (.eprog d a b) (do
    noGang
    let va ← readReg a
    let cfg ← readReg b
    match edgeCfg cfg with
    | none => illop
    | some (len, vt, cmb) =>
      legal (va.extractLsb' 0 2 == 0#2)
      let p ← progAt va len vt cmb
      legal (cBit (p.words.headD 0#32))
      checkProg p 65 0
      edgeRoom
      let tok ← newToken (← get).cur.place.die
      postBind
      modify fun s => (s.setMySlot { s.mySlot with prog := some p })
      modCur fun t => { t with epAddr := va, epCfg := cfg }
      writeReg d (tok.setWidth 64)) s
/-- An option of a piece that may fail: a fault or a failed check gives none; requests to other nodes are waited for. -/
def orNone {α : Type} (x : Exec α) : Exec (Option α) := do
  match ← attempt x with
  | .ok a => return some a
  | .error .wait => stop .wait
  | .error (.remote qs) => stop (.remote qs)
  | .error _ => return none
/-- At a rebinding the bindings are read again from the recorded addresses; what fails is dropped (R325). -/
def rebindEdge : Exec Unit := do
  let t := (← get).cur
  let g ← if t.egAddr = 0#64 then pure none else orNone (do
    let b ← loadVa (← get).ctx .read t.egAddr 64
    match edgeGraphOf b with
    | some g => pure g
    | none => stop (.trap cIllop 0 t.egAddr))
  let p ← if t.epAddr = 0#64 then pure none else orNone (do
    match edgeCfg t.epCfg with
    | none => stop (.trap cIllop 0 t.epAddr)
    | some (len, vt, cmb) =>
      let p ← progAt t.epAddr len vt cmb
      check (cBit (p.words.headD 0#32)) (.trap cIllop 0 t.epAddr)
      checkProg p 65 0
      pure p)
  modify fun s => s.setMySlot { s.mySlot with graph := g, prog := p }
/-- The mode of an `erun` as a direction: 0 auto, 1 push, 2 pull. -/
def wantOf : ErunMode → Nat
  | .auto => 0 | .push => 1 | .pull => 2
/-- `erun` (R327). -/
def execErun (m : ErunMode) (ev : Bool) (d a b : Reg) (s : State) :=
  performSeq (.erun m ev d a b) (do
    noGang
    let x ← readReg a
    let y ← readReg b
    let u ← get
    let lo := (x.extractLsb' 0 32).toNat
    let cnt := (x.extractLsb' 32 32).toNat
    let supers := (y.extractLsb' 0 16).toNat
    let parts := (y.extractLsb' 16 8).toNat
    legal (y.extractLsb' 24 40 == 0#40 && decide (1 ≤ supers) && decide (1 ≤ parts) && (parts == 1 || supers == 1))
    legal (match u.mySlot.graph with
      | some g => decide (lo + cnt ≤ g.v)
      | none => true)
    legal (!rmReserved u.cur.csr.mode)
    edgeRoom
    let tok ← newToken u.cur.place.die
    let r : ERun :=
      { token := tok, tid := u.cur.tid, slot := u.cur.slotNo, lo := lo, cnt := cnt, supers := supers, parts := parts
        mode := u.cur.csr.mode, pushDiv := max 1 u.cur.csr.epushdiv.toNat, pullDiv := max 1 u.cur.csr.epulldiv.toNat
        ev := ev, want := wantOf m, graph := u.mySlot.graph, prog := u.mySlot.prog, cur := none, aborted := false, owed := []
        after := [] }
    modCore u.cur.place.die u.cur.place.core fun k => { k with edge := k.edge ++ [r] }
    writeReg d (tok.setWidth 64)) s
/-- `emode` (R328). -/
def execEmode (d a : Reg) (s : State) :=
  performSeq (.emode d a) (do
    noGang
    let x ← readReg a
    legal (decide (x.toNat < 3))
    let old := (← get).cur.force
    modCur fun t => { t with force := x.setWidth 2 }
    writeReg d (old.setWidth 64)) s
/-- `ecomb`: a proposal, in program order (R322). -/
def execEcomb (a : Reg) (s : State) :=
  performSeq (.ecomb a) (do
    let x ← readReg a
    modify fun u => { u with vp := { u.vp with props := u.vp.props ++ [x.setWidth 32] } }) s
/-- `eact` (R322). -/
def execEact (s : State) :=
  performSeq .eact (modify fun u => { u with vp := { u.vp with act := true } }) s

/-! ### Combines (R323) -/

/-- A combine: the new value, whether it is a change, and the flags. -/
def edgeComb (cmb : Nat) (vt : BitVec 4) (c x : Word32) : Word32 × Bool × Flg :=
  let a := decodeF tyFP32 c.toNat
  let b := decodeF tyFP32 x.toNat
  let pick := fun (ch : Bool) => ((if ch then x else c), ch, flgNone)
  match cmb with
  | 0 =>
    if vt = tyFP32 then (if b.isNan then (c, false, flgNV) else pick (!a.isNan && fbelow b a))
    else pick (if vt = tyI32 then x.slt c else x.ult c)
  | 1 =>
    if vt = tyFP32 then (if b.isNan then (c, false, flgNV) else pick (!a.isNan && fbelow a b))
    else pick (if vt = tyI32 then c.slt x else c.ult x)
  | 2 =>
    if vt = tyFP32 then
      if b.isNan then (c, false, flgNV)
      else
        let (n, f) := fp32Add c.toNat x.toNat
        let w := BitVec.ofNat 32 n
        (w, w != c, f &&& (flgNV ||| flgOF ||| flgNX))
    else (c + x, c + x != c, flgNone)
  | 3 => (c ||| x, (c ||| x) != c, flgNone)
  | _ => pick (c == 0xFFFFFFFF#32)
/-- Whether a proposal is one that changes nothing but the flags (R323). -/
def nanProposal (cmb : Nat) (vt : BitVec 4) (x : Word32) : Bool :=
  decide (cmb ≤ 2) && vt == tyFP32 && (decodeF tyFP32 x.toNat).isNan
/-- Merge proposals by destination, in edge order (R331): what is to be combined at home, and the flags. -/
def mergeProps (cmb : Nat) (vt : BitVec 4) : List (Nat × Word32) → List (Nat × Word32) → Flg → List (Nat × Word32) × Flg
  | [], acc, f => (acc, f)
  | (v, x) :: r, acc, f =>
    if nanProposal cmb vt x then mergeProps cmb vt r acc (f ||| flgNV)
    else match acc.find? (fun p => p.1 == v) with
      | none => mergeProps cmb vt r (acc ++ [(v, x)]) f
      | some (_, c) =>
        let (n, _, g) := edgeComb cmb vt c x
        mergeProps cmb vt r (acc.map (fun p => if p.1 = v then (v, n) else p)) (f ||| g)
/-- The atomic of other nodes that a combine is (R415). -/
def combOp : Nat → AtomOp
  | 0 => .min | 1 => .max | 2 => .add | 3 => .or | _ => .cas

/-! ### The frontier area (R320) and accesses -/

/-- LB and BB. -/
def EdgeGraph.lb (g : EdgeGraph) : Nat := roundUp (4 * g.v) 128
def EdgeGraph.bb (g : EdgeGraph) : Nat := roundUp (4 * ceilDiv g.v 32) 128
/-- List p and bitmap p. -/
def EdgeGraph.list (g : EdgeGraph) (p : Nat) : Nat := g.frt.toNat + 128 + p * g.lb
def EdgeGraph.bits (g : EdgeGraph) (p : Nat) : Nat := g.frt.toNat + 128 + 2 * g.lb + p * g.bb
/-- The word a combine writes for a vertex (R323). -/
def EdgeGraph.target (g : EdgeGraph) (cmb v : Nat) : Nat := g.val.toNat + 4 * (if cmb = 2 then g.v + v else v)
/-- p of a superstep. -/
def SuperStep.p (q : SuperStep) : Nat := q.ss % 2
/-- The context of a run's accesses. -/
def ERun.ctx (r : ERun) (d : Nat) : Ctx := unitCtx d 5 r.token.toNat r.tid r.slot
/-- Read `n` bytes as a number; poison traps. -/
def eRead (c : Ctx) (va n : Nat) : Exec Nat := engAcc .read false (do
  let b ← loadVa c .read (BitVec.ofNat 64 va) n
  return natOfBytes b)
/-- Write a number of `n` bytes. -/
def eWrite (c : Ctx) (va n v : Nat) : Exec Unit :=
  engAcc .write false (storeVa c (BitVec.ofNat 64 va) (bytesOfNat n v))
/-- One atomic at a location's home: the old value. -/
def eAtom (c : Ctx) (va n : Nat) (op : AtomOp) (x cmp : Nat) (ty : BitVec 4) (f : Nat → Nat) : Exec Nat :=
  engAcc .atomic false (do
    let a := BitVec.ofNat 64 va
    let t ← translate c .atomic a
    let q : LinkReq := .atomic op t.pa n (BitVec.ofNat 64 x) (BitVec.ofNat 64 cmp) ty
    let (old, _) ← atomicAt c va t n a q (fun o => (f o, flgNone))
    return old)
/-- An atomic addition. -/
def eAdd (c : Ctx) (va n x : Nat) : Exec Nat := eAtom c va n .add x 0 tyN32 (fun o => o + x)
/-- What a trap of a chunk's work says of it (R270, R338): only faults of R270's list are reported. -/
def edgeFail (f : ChunkFail) : Nat × Word64 × Nat × Bool :=
  (if [cPage, cProt, cSealed, cWorld].contains f.cause then f.cause else 0, f.va, f.kind, f.met || f.cause == cPoison)

/-- Change the run at the head of a core's edge queue, and its superstep. -/
def modEdge (d c : Nat) (f : ERun → ERun) : Exec Unit :=
  modCore d c fun k => { k with edge := match k.edge with
    | [] => []
    | r :: l => f r :: l }
def modSuper (d c : Nat) (f : SuperStep → SuperStep) : Exec Unit :=
  modEdge d c fun r => { r with cur := r.cur.map f }
/-- The run at the head of a core's queue. -/
def headRun (d c : Nat) : Exec ERun := do enabledSome (← getCore d c).edge.head?

/-! ### The direction (R334, R335) -/

/-- `next_direction`. -/
def nextDirection (force want pushDiv pullDiv e v prev nv oe : Nat) : Nat :=
  if force ≠ 0 then force
  else if want ≠ 0 then want
  else if prev = 1 ∧ e < oe * pushDiv then 2
  else if prev = 2 ∧ nv * pullDiv < v then 1
  else prev
/-- The forced direction of the thread of a run, as it is now (R328). -/
def forceOf (s : State) (t : Tid) : Nat :=
  match s.thread? t with
  | some x => x.force.toNat
  | none => 0
/-- A superstep that runs nothing (R337); `failed` are its chunks. -/
def superCannot (poison : Bool) (failed : List Nat) (nv : Nat) : SuperStep :=
  { ss := 0, dir := 0, startDir := 0, nv := nv, chunk := 0, rowAt := 0, inRow := 0, nextRow := 0, nextIn := 0
    reached := 0, loaded := false, last := false, combining := false, ended := true, cannot := true, items := [], group := none
    groupItems := [], groupNo := 0, props := [], acts := [], eacts := [], row := none, fail := none, switches := 0
    examined := 0, added := 0, failed := failed, flags := 0#64, vpFlags := 0#64, poison := poison, sealed := false, phase := 0 }
/-- The chunks of a superstep whose header is poisoned, all of which fail (R338): there is one at least; how many there
would have been the header does not tell (log entry 44), and the record tells no more than 32 apart. -/
def unknownChunks : Exec (List Nat) := do
  let n ← drawNo
  return List.range (1 + Config.freeCode n % 32)
/-- A superstep starts: it takes the accumulator, reads the header and chooses its direction (R329, R339). A header that
cannot be read, or is poisoned, leaves nothing to run (R338). -/
def startSuper (d c : Nat) : Exec Unit := do
  let r ← headRun d c
  let k ← getCore d c
  check (k.accUser == .none) .wait
  match r.graph with
  | none => stop .idle
  | some g =>
    let x := r.ctx d
    let f := g.frt.toNat
    let head := do
      let ss ← eRead x f 4
      let dirb ← eRead x (f + 4) 1
      let nv ← eRead x (f + 8 + 4 * (ss % 2)) 4
      let oe ← eRead x (f + 16 + 8 * (ss % 2)) 8
      return (ss, (if dirb % 4 = 2 then 2 else 1), nv, oe)
    modCore d c fun k => { k with accUser := .edge }
    match ← tryChunk head with
    | .error e =>
      modify (dropUnres x)
      let poison := e.cause == cPoison
      let failed ← if poison then unknownChunks else pure []
      modEdge d c fun r => { r with cur := some (superCannot poison failed 0) }
    | .ok (ss, prev, nv, oe) =>
      let dir := nextDirection (forceOf (← get) r.tid) r.want r.pushDiv r.pullDiv g.e g.v prev nv oe
      modEdge d c fun r => { r with
        cur := some { superCannot false [] nv with ss := ss, dir := dir, startDir := dir, ended := false, cannot := false } }

/-! ### Loading a chunk (R329, R330) -/

/-- Whether indices strictly increase. -/
def strictly : List Nat → Bool
  | a :: b :: r => decide (a < b) && strictly (b :: r)
  | _ => true
/-- The offsets of a row; a bad one fails the chunk (R319). -/
def rowOffsets (x : Ctx) (g : EdgeGraph) (off : Nat) (v : Nat) : Exec (Nat × Nat) := do
  let a ← eRead x (off + 4 * v) 4
  let b ← eRead x (off + 4 * v + 4) 4
  check (decide (a ≤ b) && decide (b ≤ g.e)) (.trap 0 0 (BitVec.ofNat 64 (off + 4 * v)))
  return (a, b)
/-- The indices of a CSR row from position `a` on, of `n`, up to the first at or above `hi`, and no more than `need` of them that
are not below `lo`. A word that cannot be read, or is poisoned, stands for a position of the owned range: what index it has
nobody can tell (R338, log entry 44). -/
def rowIndices (x : Ctx) (idx lo hi : Nat) : Nat → Nat → Nat → Exec (List (Nat × Except ChunkFail Nat))
  | 0, _, _ => pure []
  | n + 1, a, need => do
    if need = 0 then return []
    else match ← tryChunk (eRead x (idx + 4 * a) 4) with
      | .error e => return (a, .error e) :: (← rowIndices x idx lo hi n (a + 1) (need - 1))
      | .ok v =>
        if hi ≤ v then return [(a, .ok v)]
        else return (a, .ok v) :: (← rowIndices x idx lo hi n (a + 1) (if v < lo then need else need - 1))
/-- A position of a row: its place in the index array, and its index or why that cannot be had. -/
abbrev RowPos := Nat × Except ChunkFail Nat
/-- Whether a position counts as one of the owned range. -/
def inRange (r : ERun) (e : RowPos) : Bool :=
  match e.2 with
  | .ok v => decide (r.lo ≤ v) && decide (v < r.lo + r.cnt)
  | .error _ => true
/-- The indices that could be read. -/
def readOnes (es : List RowPos) : List Nat := es.filterMap (fun e => match e.2 with
  | .ok v => some v
  | .error _ => none)
/-- The edges of list entry `i`, from position `skip` of its row on and `need` of them at most, that lie in the owned range:
the source, where its row begins, and the positions. A row whose indices break the order yields edges the manual does not
specify (R319, log entry 15). -/
def pushRow (x : Ctx) (r : ERun) (g : EdgeGraph) (q : SuperStep) (i skip need : Nat) : Exec (Nat × Nat × List RowPos) := do
  let u ← eRead x (g.list q.p + 4 * i) 4
  let (a, b) ← rowOffsets x g g.outoff.toNat u
  let es ← rowIndices x g.outidx.toNat r.lo (r.lo + r.cnt) (b - a - skip) (a + skip) need
  if strictly (readOnes es) then return (u, a, es.filter (inRange r))
  else
    let kept ← foldEach es [] fun l e => do
      let n ← drawNo
      return if Config.freeKeepsNew n then l ++ [e] else l
    return (u, a, kept)
/-- The positions of row `i` of the pass from `skip` on, `need` at most: key (source or destination), where the row begins, and
the positions. In pull the indices are read later, with the edges. -/
def rowPositions (x : Ctx) (r : ERun) (g : EdgeGraph) (q : SuperStep) (i skip need : Nat) :
    Exec (Nat × Nat × List RowPos) := do
  if q.dir = 1 then pushRow x r g q i skip need
  else
    let (a, b) ← rowOffsets x g g.inoff.toNat (r.lo + i)
    return (r.lo + i, a, (List.range (min need (b - a - skip))).map (fun j => (a + skip + j, .ok 0)))
/-- The weight of an edge (R321). -/
def edgeWeight (x : Ctx) (g : EdgeGraph) (dir pos : Nat) : Exec Word32 := do
  if g.wgt = 0#64 then return 0#32
  else return BitVec.ofNat 32 (← eRead x (g.wgt.toNat + (if dir = 2 then 4 * g.e else 0) + 4 * pos) 4)
/-- The edges to examine among positions of a row: all in push; in pull, for an unfinished vertex, those whose source is
in bitmap p (R329). -/
def rowItems (x : Ctx) (g : EdgeGraph) (p : EdgeProg) (q : SuperStep) (key : Nat) (ps : List RowPos) :
    Exec (List EdgeItem) := do
  if q.dir = 1 then
    mapEach ps fun (pos, u) => do
      let v ← match u with
        | .ok v => pure v
        | .error f => stop (.trap f.cause f.kind f.va)
      let w ← edgeWeight x g 1 pos
      return { src := key, dst := v, pos := pos, wbits := w }
  else
    let finished ← match q.row with
      | some a => if a.row = key then pure a.stopped else pure false
      | none => pure false
    let done ← if finished then pure true
      else if p.cmb = 4 ∧ !(q.row.any (fun a => a.row == key)) then do
        pure ((← eRead x (g.target p.cmb key) 4) != 0xFFFFFFFF)
      else pure false
    if done then return []
    else foldEach ps [] fun l (pos, _) => do
      let u ← eRead x (g.inidx.toNat + 4 * pos) 4
      let b ← eRead x (g.bits q.p + 4 * (u / 32)) 4
      if b.testBit (u % 32) then
        let w ← edgeWeight x g 2 pos
        return l ++ [{ src := u, dst := key, pos := pos, wbits := w }]
      else return l
/-- A chunk as it is being loaded: positions so far, edges, the first failure, the cursor after it, whether it is last. -/
structure Loading where
  n : Nat
  items : List EdgeItem
  fail : Option ChunkFail
  rowAt : Nat
  inRow : Nat
  last : Bool
  deriving DecidableEq, Repr
/-- Positions of a chunk (R330). -/
def chunkLen : Nat := 4096
/-- Load rows from row `i` on, the first of them from its position `skip` on, where the last chunk left it; a row with no
positions belongs to the chunk that holds the next row with some. Of each row the chunk reads what it takes and one position
more, which shows whether the row goes on; only what it takes can fail it (R338). Fuel bounds the rows. -/
def loadRows (x : Ctx) (r : ERun) (g : EdgeGraph) (p : EdgeProg) (q : SuperStep) (rows : Nat) :
    Nat → Nat → Nat → Loading → Exec Loading
  | 0, _, _, l => pure { l with last := true }
  | f + 1, i, skip, l => do
    if rows ≤ i then return { l with last := true, rowAt := rows, inRow := 0 }
    else match ← tryChunk (rowPositions x r g q i skip (chunkLen - l.n + 1)) with
      | .error e =>
        if l.n = chunkLen then return l
        else loadRows x r g p q rows f (i + 1) 0 { l with fail := some (l.fail.getD e), rowAt := i + 1, inRow := 0 }
      | .ok (key, base, left) =>
        if left.isEmpty then loadRows x r g p q rows f (i + 1) 0 l
        else if l.n = chunkLen then return l
        else
          let k := min (chunkLen - l.n) left.length
          let l2 := match left[k]? with
            | some e => { l with n := l.n + k, rowAt := i, inRow := e.1 - base }
            | none => { l with n := l.n + k, rowAt := i + 1, inRow := 0 }
          let l3 ← if l.fail.isSome then pure l2
            else match ← tryChunk (rowItems x g p q key (left.take k)) with
              | .ok is => pure { l2 with items := l2.items ++ is }
              | .error e => pure { l2 with fail := some e }
          if k < left.length then return l3 else loadRows x r g p q rows f (i + 1) 0 l3
/-- The rows of a pass. -/
def passRows (r : ERun) (q : SuperStep) : Nat := if q.dir = 1 then q.nv else r.cnt
/-- Load the next chunk. -/
def loadChunk (d c : Nat) : Exec Unit := do
  let r ← headRun d c
  match r.graph, r.prog, r.cur with
  | some g, some p, some q =>
    let rows := passRows r q
    let l ← loadRows (r.ctx d) r g p q rows (rows + 1 - q.rowAt) q.rowAt q.inRow
      { n := 0, items := [], fail := none, rowAt := q.rowAt, inRow := q.inRow, last := false }
    modSuper d c fun q => { q with
      loaded := true, last := l.last, nextRow := l.rowAt, nextIn := l.inRow, groupNo := 0
      items := if l.fail.isSome then [] else l.items, fail := l.fail.map edgeFail }
  | _, _, _ => stop .idle

/-! ### Groups and rows (R321, R329, R331) -/

/-- Whether the row a pull is in goes on in the next chunk. -/
def rowGoesOn (r : ERun) (q : SuperStep) (a : RowAcc) : Bool :=
  !q.last && decide (0 < q.nextIn) && r.lo + q.nextRow == a.row
/-- Whether the row a pull is in has ended. -/
def rowEnded (r : ERun) (q : SuperStep) : Bool :=
  match q.row with
  | none => false
  | some a =>
    match q.items with
    | i :: _ => i.dst != a.row
    | [] => !rowGoesOn r q a
/-- A row ends: its value is written back if it changed, and the vertex is to be activated (R331). -/
def endRow (d c : Nat) : Exec Unit := do
  let r ← headRun d c
  match r.graph, r.prog, r.cur with
  | some g, some p, some q =>
    match q.row with
    | none => pure ()
    | some a =>
      let wr := if a.changed then eWrite (r.ctx d) (g.target p.cmb a.row) 4 a.cur.toNat else pure ()
      match ← tryChunk wr with
      | .ok _ => modSuper d c fun q => { q with
          row := none, acts := if a.changed || a.act then q.acts ++ [a.row] else q.acts }
      | .error e => modSuper d c fun q => { q with row := none, items := [], fail := some (edgeFail e) }
  | _, _, _ => stop .idle
/-- A VP at its start (R321). -/
def edgeVpOf (p : EdgeProg) (dir : Nat) (i : EdgeItem) (src dst : Nat) : Vp :=
  let w := fun (v : Vp) (r : Nat) (x : Nat) => v.setReg (BitVec.ofNat 5 r) (BitVec.ofNat 64 x)
  w (w (w (w (w (w (w { Vp.reset with pc := p.base, live := true } 0 i.src) 1 i.dst) 2 i.wbits.toNat) 3 src) 4 dst) 14 i.pos)
    15 dir
/-- The edges of the next group: 8 in push, up to 8 of one row in pull. -/
def nextItems (q : SuperStep) : List EdgeItem :=
  match q.items with
  | [] => []
  | i :: _ => if q.dir = 1 then q.items.take 8 else (q.items.takeWhile (fun j => j.dst == i.dst)).take 8
/-- Start the next group: v3 and v4 are read now (R321). A row of the claim combine whose vertex is no longer unfinished
is passed over. -/
def startGroup (d c : Nat) : Exec Unit := do
  let r ← headRun d c
  match r.graph, r.prog, r.cur with
  | some g, some p, some q =>
    let x := r.ctx d
    let is := nextItems q
    let body := do
      let row ← if q.dir = 1 then pure none
        else match q.row with
          | some a => pure (some a)
          | none => do
            let v := (is.map (·.dst)).headD 0
            let cur ← eRead x (g.target p.cmb v) 4
            let stopped := p.cmb == 4 && cur != 0xFFFFFFFF
            let a : RowAcc := { row := v, cur := BitVec.ofNat 32 cur, changed := false, stopped := stopped, act := false }
            pure (some a)
      let vps ← if row.any (·.stopped) then pure []
        else mapEach is fun i => do
          let src ← eRead x (g.val.toNat + 4 * i.src) 4
          let dst ← match row with
            | some a => pure a.cur.toNat
            | none => eRead x (g.target p.cmb i.dst) 4
          return edgeVpOf p q.dir i src dst
      return (row, vps)
    match ← tryChunk body with
    | .error e => modSuper d c fun q => { q with items := [], fail := some (edgeFail e) }
    | .ok (row, vps) =>
      if row.any (·.stopped) then
        modSuper d c fun q => { q with row := row, items := q.items.dropWhile (fun j => some j.dst == row.map (·.row)) }
      else
        modSuper d c fun q => { q with
          row := row, items := q.items.drop is.length, groupItems := is, groupNo := q.groupNo + 1
          examined := q.examined + is.length
          group := some { g := q.groupNo, vps := vps, parked := none, flags := 0#64 } }
  | _, _, _ => stop .idle
/-- Combine a VP's proposals into a row's running value, in program order. -/
def rowCombine (p : EdgeProg) (a : RowAcc) (f : Flg) : List Word32 → RowAcc × Flg
  | [] => (a, f)
  | x :: r =>
    let (n, ch, g) := edgeComb p.cmb p.vt a.cur x
    rowCombine p { a with cur := n, changed := a.changed || ch, stopped := a.stopped || (ch && p.cmb == 4) } (f ||| g) r
/-- The superstep after a group has finished: proposals in edge order (R331). -/
def groupDone (p : EdgeProg) (q : SuperStep) (vps : List Vp) : SuperStep :=
  let q1 := { q with group := none, groupItems := [] }
  let pairs := q.groupItems.zip vps
  match q.row with
  | none =>
    { q1 with
      props := q.props ++ pairs.flatMap (fun (i, v) => v.props.map (fun x => (i.dst, x)))
      eacts := q.eacts ++ pairs.filterMap (fun (i, v) => if v.act then some i.dst else none) }
  | some a =>
    let (b, f) := pairs.foldl (fun (acc : RowAcc × Flg) (_, v) =>
      let (b, f) := rowCombine p acc.1 acc.2 v.props
      ({ b with act := b.act || v.act }, f)) (a, flgNone)
    { q1 with
      row := some b, flags := q.flags ||| flgWord f
      items := if b.stopped then q.items.dropWhile (fun j => j.dst == b.row) else q.items }
/-- The state with thread `t` in `cur`, the one that was there in its place among the others. -/
def State.swapTo (s : State) (t : Tid) : State :=
  match s.others.find? (fun x => x.tid == t) with
  | none => s
  | some x => if s.cur.tid = t then s
    else { s with cur := x, others := s.others.map (fun y => if y.tid = t then s.cur else y) }
/-- Whether an instruction stores. -/
def isStore : Instr → Bool
  | .std _ _ _ | .stw _ _ _ | .sth _ _ _ | .stb _ _ _ => true
  | _ => false
/-- How a trap of a VP fails its chunk (R338): the kind of the access is that of the instruction. -/
def vpFail (p : EdgeProg) (vps : List Vp) (n cause : Nat) (va : Word64) : Nat × Word64 × Nat × Bool :=
  let pc := (vps.getD n Vp.reset).pc
  let w := progWord p pc
  let st := match decodeWith p.opMap w ((List.range 4).map (fun i => progWord p (pc + BitVec.ofNat 64 (4 * i + 4)))) with
    | .ok x => isStore x.instr
    | .error _ => false
  edgeFail { cause := cause, va := va, kind := if st then 1 else 0, met := false, flags := flgNone }
/-- The state with the superstep of a core's running edge command changed. -/
def State.modSuper (s : State) (d c : Nat) (f : SuperStep → SuperStep) : State :=
  match Sys2Proof.Machine.modSuper d c f s with
  | .ok (_, u) => u
  | .error _ => s
/-- One step of the group that runs (R210, R321, R338). A VP that fails the chunk has used up the unresolvable pages that came
back for its group. -/
def edgeGroupStep (ex : Meaning) (d c : Nat) (r : ERun) (p : EdgeProg) (x : VpGroup) (s0 : State) : Option State :=
  let back := fun (u : State) => u.noVp.swapTo s0.cur.tid
  let failed := fun (f : Nat × Word64 × Nat × Bool) =>
    some (dropUnres { r.ctx d with what := .engine 0 r.token.toNat x.g } (s0.modSuper d c fun q =>
      { q with group := none, groupItems := [], items := [], fail := some f }))
  match lowestPc 0 x.vps with
  | none => none
  | some (pc, n) =>
    if !instrStart p pc 65 0 then failed (vpFail p x.vps n cIllop pc)
    else
      let s := (s0.swapTo r.tid).noVp
      match stepVps ex true p.opMap (fun i => .edgeVp d c x.g i) x.vps s with
      | .ok (vps, u) =>
        let v := u.modSuper d c fun q =>
          if vps.any (·.live) then { q with group := some { x with vps := vps } } else groupDone p q vps
        some (dropRemotes (back v) (.engine r.tid 0 r.token.toNat))
      | .error (m, .trap cause _ va) => failed (vpFail p x.vps m cause va)
      | .error (_, .faults fs) => changed s0 (newFaults (dropRemotes s0 (.engine r.tid 0 r.token.toNat)) fs)
      | .error (_, .remote qs) => if qs.isEmpty then none else some (postRequests s0 qs)
      | .error (_, .wait) => none
/-- One turn of a core's edge engine: a superstep starts, a chunk is loaded, a row ends, a group starts or steps. -/
def edgeTurn (ex : Meaning) (d c : Nat) (s : State) : Option State :=
  match (s.core d c).edge with
  | [] => none
  | r :: _ =>
    let dev := fun (x : Exec Unit) => unitStep (r.ctx d) x s
    match r.graph, r.prog with
    | some _, some p =>
      match r.cur with
      | none => if r.aborted then none else dev (startSuper d c)
      | some q =>
        if q.ended || q.combining then none
        else if !q.loaded then (if r.aborted then none else dev (loadChunk d c))
        else match q.group with
          | some x => edgeGroupStep ex d c r p x s
          | none =>
            if q.fail.isSome then none
            else if rowEnded r q then dev (endRow d c)
            else if q.items.isEmpty then none
            else dev (startGroup d c)
    | _, _ => none

/-! ### The end of a chunk (R331, R332, R335, R338) -/

/-- The combine of one destination at its home (R331): whether it changed it, and flags. -/
def homeCombine (x : Ctx) (g : EdgeGraph) (p : EdgeProg) (v : Nat) (prop : Word32) : Exec (Bool × Flg) := do
  let f := fun (o : Nat) => edgeComb p.cmb p.vt (BitVec.ofNat 32 o) prop
  let old ← eAtom x (g.target p.cmb v) 4 (combOp p.cmb) prop.toNat 0xFFFFFFFF p.vt (fun o => (f o).1.toNat)
  return ((f old).2.1, (f old).2.2)
/-- Activate a vertex (R332): whether it entered the list. A bad offset fails the chunk that reads it, here too (R319). -/
def activate (x : Ctx) (g : EdgeGraph) (q : SuperStep) (v : Nat) : Exec Bool := do
  let n := 1 - q.p
  let bit := 2 ^ (v % 32)
  let old ← eAtom x (g.bits n + 4 * (v / 32)) 4 .or bit 0 tyN32 (fun o => o ||| bit)
  if old.testBit (v % 32) then return false
  else
    let at_ ← eAdd x (g.frt.toNat + 8 + 4 * n) 4 1
    let (a, b) ← rowOffsets x g g.outoff.toNat v
    let _ ← eAdd x (g.frt.toNat + 16 + 8 * n) 8 (b - a)
    eWrite x (g.list n + 4 * at_) 4 v
    return true
/-- A piece of a chunk's end: what it has done stays if a later piece has to wait. -/
def piece (x : Exec Unit) : Exec Unit := do
  match ← attempt x with
  | .ok _ => pure ()
  | .error e => stopKeep e
/-- The chunk's examination is over: proposals are merged; those of a failed push are dropped, and so is a row that was
to end in a failed chunk (R331, R338). -/
def beginCombine (r : ERun) (p : EdgeProg) (q : SuperStep) : SuperStep :=
  if q.fail.isSome then
    { q with combining := true, props := [], eacts := []
             row := match q.row with
               | some a => if rowGoesOn r q a then some a else none
               | none => none }
  else
    let (acc, f) := mergeProps p.cmb p.vt q.props [] flgNone
    { q with combining := true, props := acc, flags := q.flags ||| flgWord f }
/-- Make the combines that are left, then the activations, by a bound on their number. -/
def combineRest (d c : Nat) : Nat → Exec Unit
  | 0 => pure ()
  | f + 1 => do
    let r ← headRun d c
    match r.graph, r.prog, r.cur with
    | some g, some p, some q =>
      let x := r.ctx d
      let failIt := fun (e : ChunkFail) (q : SuperStep) =>
        { q with props := [], eacts := [], fail := some (q.fail.getD (edgeFail e)) }
      match q.props, q.acts ++ q.eacts with
      | (v, w) :: _, _ =>
        piece (do
          match ← tryChunk (homeCombine x g p v w) with
          | .ok (ch, fl) => modSuper d c fun q => { q with
              props := q.props.tail, acts := if ch then q.acts ++ [v] else q.acts, flags := q.flags ||| flgWord fl }
          | .error e => modSuper d c (failIt e))
        combineRest d c f
      | [], v :: _ =>
        piece (do
          match ← tryChunk (activate x g q v) with
          | .ok new => modSuper d c fun q => { q with
              acts := q.acts.filter (· != v), eacts := q.eacts.filter (· != v)
              added := if new then q.added + 1 else q.added }
          | .error e => modSuper d c fun q => failIt e { q with acts := [] })
        combineRest d c f
      | [], [] => pure ()
    | _, _, _ => stop .idle
/-- The direction after a chunk that is not the last (R335). -/
def switchPoint (d c : Nat) : Exec Unit := do
  let r ← headRun d c
  match r.graph, r.prog, r.cur with
  | some g, some p, some q =>
    if p.cmb = 2 then pure ()
    else
      let n := 1 - q.p
      let x := r.ctx d
      let force := forceOf (← get) r.tid
      if q.dir = 1 then
        match ← tryChunk (do
            let nv ← eRead x (g.frt.toNat + 8 + 4 * n) 4
            let oe ← eRead x (g.frt.toNat + 16 + 8 * n) 8
            return (nv, oe)) with
        | .error _ => pure ()
        | .ok (nv, oe) =>
          if nextDirection force r.want r.pushDiv r.pullDiv g.e g.v 1 nv oe = 2 then
            modSuper d c fun q => { q with
              dir := 2, switches := q.switches + 1, row := none, rowAt := 0, inRow := 0
              reached := q.rowAt + (if q.inRow = 0 then 0 else 1) }
          else pure ()
      else if force = 1 ∨ (force = 0 ∧ r.want = 1) then
        modSuper d c fun q => { q with dir := 1, switches := q.switches + 1, row := none, rowAt := q.reached, inRow := 0 }
      else pure ()
  | _, _, _ => stop .idle
/-- A chunk ends. -/
def edgeChunkDone (d c : Nat) (s : State) : Option State :=
  match (s.core d c).edge with
  | [] => none
  | r :: _ =>
    match r.graph, r.prog, r.cur with
    | some _, some p, some q =>
      let x := r.ctx d
      unitStep x (do
        enabled (q.loaded && !q.ended && q.group.isNone && (q.combining || q.fail.isSome || (q.items.isEmpty && !rowEnded r q)))
        if q.combining then pure () else modSuper d c (beginCombine r p)
        combineRest d c (q.props.length + q.acts.length + q.eacts.length + q.props.length + 1)
        piece (do
          let r ← headRun d c
          let q ← enabledSome r.cur
          enabled (q.props.isEmpty && q.acts.isEmpty && q.eacts.isEmpty)
          let owed ← match q.fail with
            | some (cause, va, kind, met) =>
              chunkFailed x r.token 2 q.chunk { cause := cause, va := va, kind := kind, met := met, flags := flgNone }
            | none => pure []
          modEdge d c fun r => { r with owed := r.owed ++ owed }
          modSuper d c fun q => { q with
            chunk := q.chunk + 1, failed := if q.fail.isSome then q.failed ++ [q.chunk] else q.failed
            poison := q.poison || q.fail.any (fun f => f.2.2.2), sealed := q.sealed || q.fail.any (fun f => f.1 == cSealed), fail := none, loaded := false, combining := false
            rowAt := q.nextRow, inRow := q.nextIn, ended := q.last, items := [] }
          if q.last then pure () else switchPoint d c)) s
    | _, _, _ => none
/-- A chunk of the edge engine ends. -/
def execEdgeChunkDone (d c : Nat) (s : State) : Host.Outcome State Fault Refusal := goes s (edgeChunkDone d c s)

/-! ### The end of a superstep (R333, R337) -/

/-- The record of a superstep (R337). -/
def superRecord (r : ERun) (q : SuperStep) (status : Nat) : List Byte :=
  makeRecord 2 status ((q.flags &&& 0xB#64).toNat + if q.poison then 32 else 0) r.token
    (q.examined % 2 ^ 40 + 2 ^ 40 * q.startDir + 2 ^ 42 * q.dir + 2 ^ 44 * (q.switches % 2 ^ 12))
    (q.nv % 2 ^ 32 + 2 ^ 32 * (q.added % 2 ^ 32)) (q.failed.headD 0xFFFFFFFF)
    ((q.failed.foldl (fun l k => setAdd l (min k 31)) []).map (fun k => 2 ^ k)).sum
/-- Clear a bitmap. -/
def clearBits (x : Ctx) (a n : Nat) : Exec Unit :=
  forEach (piecesOf a n) fun (b, k) => engAcc .write false (storeVa x (BitVec.ofNat 64 b) (List.replicate k 0#8))
/-- The steps of R333 up to the third; true if this part ends the superstep. -/
def endSteps (x : Ctx) (r : ERun) (g : EdgeGraph) (q : SuperStep) : Exec Bool := do
  let f := g.frt.toNat
  let old ← eAdd x (f + 5) 1 1
  if old + 1 < r.parts then return false
  else
    eWrite x (f + 4) 1 q.dir
    clearBits x (g.bits q.p) (4 * ceilDiv g.v 32)
    eWrite x (f + 8 + 4 * q.p) 4 0
    eWrite x (f + 16 + 8 * q.p) 8 0
    eWrite x (f + 5) 1 0
    return true
/-- Positions of the rows that are left, by a bound on the rows. -/
def restPositions (x : Ctx) (r : ERun) (g : EdgeGraph) (q : SuperStep) : Nat → Nat → Nat → Exec Nat
  | 0, _, _ => pure 0
  | f + 1, i, skip => do
    let n ← match ← tryChunk (rowPositions x r g q i skip (2 ^ 32)) with
      | .ok (_, _, ps) => pure ps.length
      | .error _ => pure 0
    return n + (← restPositions x r g q f (i + 1) 0)
/-- The command leaves the queue, or goes on to its next superstep; the accumulator is free (R333, R339). -/
def superOver (d c : Nat) (goOn : Bool) : Exec Unit := do
  modCore d c fun k => { k with accUser := if k.accUser = .edge then .none else k.accUser }
  if goOn then modEdge d c fun r => { r with cur := none, supers := r.supers - 1 }
  else modCore d c fun k => { k with edge := k.edge.tail }
/-- The records of a superstep, and its flags (R337). -/
def superReport (d c : Nat) (x : Ctx) (r : ERun) (q : SuperStep) (status : Nat) : Exec Unit := do
  postRecords x (fun l => modEdge d c fun r => { r with owed := l }) r.owed (if r.ev then [superRecord r q status] else [])
  mergeFlags r.tid ((q.flags &&& 0xB#64) ||| q.vpFlags)
/-- The superstep after one of its last accesses has failed: what is left of R333 is not done; in a sealed slot the command's
status is 2 (R261). -/
def SuperStep.endFailed (e : ChunkFail) (q : SuperStep) : SuperStep :=
  { q with phase := 3, sealed := q.sealed || e.cause == cSealed }
/-- A superstep ends. -/
def edgeSuperEnd (d c : Nat) (s : State) : Option State :=
  match (s.core d c).edge with
  | [] => none
  | r :: _ =>
    let x := r.ctx d
    unitStep x (match r.graph, r.prog, r.cur with
      | some g, some _, some q =>
        if r.aborted then do
          enabled (!q.loaded)
          let rest ← if q.ended then pure 0
            else restPositions x r g q (passRows r q - q.rowAt) q.rowAt q.inRow
          let left := (List.range (if q.ended then 0 else max 1 (ceilDiv rest chunkLen))).map (q.chunk + ·)
          let q2 := { q with failed := q.failed ++ left }
          superReport d c x r q2 (if q.chunk ≤ q.failed.length then 2 else 1)
          superOver d c false
        else if q.cannot then do
          superReport d c x r q 2
          superOver d c false
        else do
          enabled q.ended
          check (writesApplied (← get) r.tid) .wait
          if q.phase = 0 then
            match ← tryChunk (endSteps x r g q) with
            | .ok true =>
              modSuper d c fun q => { q with phase := 1 }
              stopKeep .wait
            | .ok false => modSuper d c fun q => { q with phase := 3 }
            | .error e => modSuper d c (SuperStep.endFailed e)
          else pure ()
          if q.phase = 1 then
            match ← tryChunk (eWrite x g.frt.toNat 4 ((q.ss + 1) % 2 ^ 32)) with
            | .ok _ => modSuper d c fun q => { q with phase := 2 }
            | .error e => modSuper d c (SuperStep.endFailed e)
            stopKeep .wait
          else pure ()
          let more ← if q.phase = 2 then
              match ← tryChunk (eRead x (g.frt.toNat + 8 + 4 * (1 - q.p)) 4) with
              | .ok n => pure (decide (n ≠ 0) && decide (1 < r.supers))
              | .error e => do
                modSuper d c (SuperStep.endFailed e)
                pure false
            else pure false
          let now ← enabledSome (← headRun d c).cur
          superReport d c x r now (chunkStatus now.chunk now.failed now.sealed)
          superOver d c more
      | some _, some _, none => do
        enabled r.aborted
        superOver d c false
      | _, _, _ => do
        postRecords x (fun l => modEdge d c fun r => { r with owed := l }) r.owed
          (if r.ev then [makeRecord 2 2 0 r.token 0 0] else [])
        superOver d c false) s
/-- A superstep of the edge engine ends. -/
def execEdgeSuperstepEnd (d c : Nat) (s : State) : Host.Outcome State Fault Refusal := goes s (edgeSuperEnd d c s)

end Sys2Proof.Machine
end

