-- ==== Sys2Proof/Machine/Experts.lean ====
section
/-!
DEFINITION. Routed experts (R340 to R351): top-k inserts, the topology table, the sequencer with its staging pages, and
the directory of expert slots.
-/
namespace Sys2Proof.Machine

/-! ### Top-k records (R340 to R342) -/

/-- A BF16 score that is a NaN. -/
def scoreNan (x : BitVec 16) : Bool := decide (0x7F80 < (x &&& 0x7FFF#16).toNat)
/-- A BF16 score as a value, by rank: −0 equals +0. -/
def scoreRank (x : BitVec 16) : Int := if x.msb then -((x &&& 0x7FFF#16).toNat : Int) else (x.toNat : Int)
/-- An entry: its score and ID. -/
abbrev TopEntry := BitVec 16 × BitVec 16
/-- The empty entry. -/
def emptyEntry : TopEntry := (0xFF80#16, 0xFFFF#16)
/-- `e` ranks above `f` (R340). -/
def ranksAbove (e f : TopEntry) : Bool :=
  decide (scoreRank f.1 < scoreRank e.1) || (scoreRank e.1 == scoreRank f.1 && decide (e.2.toNat < f.2.toNat))
/-- The entries of a record of 16 bytes. -/
def recordEntries (b : List Byte) : List TopEntry :=
  (List.range 4).map fun j =>
    let w := natOfBytes ((b.drop (4 * j)).take 4)
    (BitVec.ofNat 16 (w / 65536), BitVec.ofNat 16 w)
/-- The bytes of a record. -/
def entryBytes (l : List TopEntry) : List Byte := l.flatMap (fun e => bytesOfNat 4 (e.1.toNat * 65536 + e.2.toNat))
/-- Entries in descending rank, the empty ones last, with no NaN and no ID twice: what inserts into an empty record
leave (R340). -/
def recordOk : List TopEntry → Bool
  | [] => true
  | e :: r =>
    (if e.2 = 0xFFFF#16 then e == emptyEntry && r.all (· == emptyEntry)
     else !scoreNan e.1 && r.all (fun f => ranksAbove e f && f.2 != e.2)) && recordOk r
/-- `topk_insert` on the entries of a record (R341); the score is not a NaN. -/
def insertEntry (l : List TopEntry) (e : TopEntry) (k : Nat) : List TopEntry :=
  let place := fun (l : List TopEntry) =>
    let at_ := (l.takeWhile (fun f => !ranksAbove e f)).length
    let m := (l.take at_ ++ [e] ++ l.drop at_).take 4
    m.take k ++ List.replicate (4 - k) emptyEntry
  match l.find? (fun f => f.2 == e.2) with
  | some f => if ranksAbove e f then place (l.filter (fun g => g.2 != e.2) ++ [emptyEntry]) else l
  | none => place l
/-- The bytes that an insert leaves in a record (R341): a record that holds anything else than inserts leave, or is poisoned,
gives unspecified results. -/
def insertedBytes (key : Nat) (e : TopEntry) (k : Nat) : Exec (List Byte) := do
  let s ← get
  let l := recordEntries (s.mem.readN key 16)
  if recordOk l && !s.mem.poisoned key then pure (entryBytes (insertEntry l e k)) else freeBytes 16
/-- Perform an insert at a record's home. -/
def insertAt (t : Tid) (d key : Nat) (e : TopEntry) (k : Nat) : Exec Unit := do
  landAtom t d key (← insertedBytes key e k)
/-- `topk` (R341, R342). -/
def execTopk (k : BitVec 2) (d a b : Reg) (s : State) :=
  performSeq (.topk k d a b) (do
    let va ← readReg a
    let x ← readReg b
    legal (x.extractLsb' 32 32 == 0#32 && x.extractLsb' 0 16 != 0xFFFF#16 && va.extractLsb' 0 4 == 0#4)
    let c := (← get).ctx
    let t ← named va (translate c .atomic va)
    let score : BitVec 16 := x.extractLsb' 16 16
    let id : BitVec 16 := x.setWidth 16
    match t.loc with
    | .here key =>
      waitInserts c key 16
      performLine c key
      let i : TopkIns := { tid := c.tid, die := c.die, core := c.core, key := key, msa := t.msa, score := score, id := id, k := k.toNat + 1 }
      modify fun u => { u with topks := u.topks ++ [i] }
    | _ =>
      if scoreNan score then mergeFlags c.tid (flgWord flgSB)
      else
        match ← remoteAsk c (.insert t.pa score id (k.toNat + 1)) with
        | .data _ _ => pure ()
        | .error => trapNow cProt va
    writeReg d 0#64) s
/-- Pending insert `n` is performed at its record's home (R341). -/
def topkInsert (n : Nat) (s : State) : Option State :=
  match s.topks[n]? with
  | none => none
  | some i => device (unitCtx i.die 7 n i.tid 0) (do
      if scoreNan i.score then mergeFlags i.tid (flgWord flgSB)
      else
        check (atomReady (← get) i.die i.key i.msa) .wait
        atomClocks i.die i.key i.msa
        insertAt i.tid i.die i.key (i.score, i.id) i.k
      modify fun t => { t with topks := dropAt n t.topks }) s
/-- The step TOPK_INSERT. -/
def execTopkInsert (n : Nat) (s : State) : Host.Outcome State Fault Refusal := goes s (topkInsert n s)

/-! ### Posting (R343, R345, R349) -/

/-- Post a command: it waits for room and for the thread's earlier writes (R349). -/
def postExpert (ev : Bool) (d : Reg) (work : ExpWork) : Exec Unit := do
  let s ← get
  let die := s.cur.place.die
  check (decide ((s.die die).expQueue.length < 64)) .wait
  performOwn s.cur.tid .pkg
  let tok ← newToken die
  let c : ExpCmd :=
    { id := (s.die die).tokens, token := tok, tid := s.cur.tid, core := s.cur.place.core, slot := s.cur.slotNo
      nth := s.cur.csr.instret.toNat, ev := ev, work := work
      aborted := false, owed := [] }
  modDie die fun x => { x with expQueue := x.expQueue ++ [c] }
  writeReg d (tok.setWidth 64)
/-- The field of `n` bytes at offset `o` of a block. -/
def blkField (b : List Byte) (o n : Nat) : Nat := natOfBytes ((b.drop o).take n)
/-- An address field: bits 63 to 55 are zero (R265). -/
def addrOk (a : Nat) : Bool := decide (a < 2 ^ 55)
/-- The build block in 64 bytes, if every field is within R343. -/
def ttJobOf (b : List Byte) : Option TtJob :=
  let f := blkField b
  let j : TtJob :=
    { t := f 0 4, x := f 4 2, k := f 6 1, recs := BitVec.ofNat 64 (f 8 8), rmap := BitVec.ofNat 64 (f 16 8)
      nid := f 24 4, tbl := BitVec.ofNat 64 (f 32 8), cap := f 40 8 }
  if 1 ≤ j.t ∧ j.t ≤ 2 ^ 24 ∧ 1 ≤ j.x ∧ j.x ≤ 1024 ∧ 1 ≤ j.k ∧ j.k ≤ 4 ∧ f 7 1 = 0 ∧ f 28 4 = 0 ∧ f 48 16 = 0 ∧
      j.tbl.toNat % 128 = 0 ∧ addrOk j.recs.toNat = true ∧ addrOk j.rmap.toNat = true ∧ addrOk j.tbl.toNat = true
  then some j else none
/-- `ttbld`. -/
def execTtbld (ev : Bool) (d a : Reg) (s : State) :=
  performSeq (.ttbld ev d a) (do
    let va ← readReg a
    legal (va.extractLsb' 0 6 == 0#6)
    let b ← loadBlock (← get).ctx va 64
    match ttJobOf b with
    | none => illop
    | some j => postExpert ev d (.ttbld j)) s
/-- The job block in 128 bytes, if it is well formed (R345); MODE, q31 and MSWAP are those captured. -/
def seqJobOf (b : List Byte) (mode q31 mswap : Word64) : Option SeqJob :=
  let f := blkField b
  let j : SeqJob :=
    { tbl := BitVec.ofNat 64 (f 0 8), act := BitVec.ofNat 64 (f 8 8), apitch := f 16 4, aty := BitVec.ofNat 4 (f 20 1)
      km := f 21 1 + 1, nm := f 22 1 + 1, tile := f 23 1, smap := BitVec.ofNat 64 (f 24 8)
      out := BitVec.ofNat 64 (f 32 8), opitch := f 40 4, mode := mode, q31 := q31, mswap := mswap.toNat }
  if f 20 1 < 16 ∧ matrixTy j.aty = true ∧ j.aty ≠ tyFP32 ∧ j.km ≤ 128 ∧ j.nm ≤ 128 ∧ j.tile < 4 ∧ f 44 84 = 0 ∧
      [j.tbl, j.act, j.smap, j.out].all (fun x => addrOk x.toNat) = true
  then some j else none
/-- `tseq`. -/
def execTseq (ev : Bool) (d a : Reg) (s : State) :=
  performSeq (.tseq ev d a) (do
    let va ← readReg a
    legal (va.extractLsb' 0 6 == 0#6)
    let b ← loadBlock (← get).ctx va 128
    let u ← get
    match seqJobOf b u.cur.csr.mode (u.window 31) u.cur.csr.mswap with
    | none => illop
    | some j => postExpert ev d (.tseq
        { job := j, hdr := none, cannot := false, block := 0, row := 0, bufs := [], outs := [], combs := []
          nextComb := 0, held := none, waitFrom := none
          failed := [], flags := 0#64, poison := false, rows := 0, waits := 0 })) s

/-! ### The expert unit's queue (R349) -/

/-- A `tseq` that has started. -/
def ExpCmd.started (c : ExpCmd) : Bool :=
  match c.work with
  | .ttbld _ => false
  | .tseq q => q.hdr.isSome || q.cannot
/-- Whether a command of a die may run: the thread's earlier ones, on whatever die, have completed, and at most 8 `tseq` run
at once (R349). -/
def expReady (s : State) (die : Nat) (c : ExpCmd) : Bool :=
  !s.dies.any (fun (_, x) => x.expQueue.any (fun e => e.tid == c.tid && decide (e.nth < c.nth))) &&
  (match c.work with
    | .ttbld _ => true
    | .tseq _ => c.started || decide (((s.die die).expQueue.filter ExpCmd.started).length < 8))
/-- The sequencer `id` of a die. -/
def seqOf (x : DieSt) (id : Nat) : Option (ExpCmd × SeqState) :=
  match x.expQueue.find? (fun c => c.id == id) with
  | some c => match c.work with
    | .tseq q => some (c, q)
    | .ttbld _ => none
  | none => none
/-- The context of a command's accesses; `n` numbers the requests of its combines. -/
def ExpCmd.ctx (c : ExpCmd) (die n : Nat) : Ctx := unitCtx die 6 (c.id * 2 ^ 32 + n) c.tid c.slot
/-- Change a command. -/
def modExp (die id : Nat) (f : ExpCmd → ExpCmd) : Exec Unit :=
  modDie die fun x => { x with expQueue := x.expQueue.map (fun c => if c.id = id then f c else c) }
/-- Change a sequencer. -/
def modSeq (die id : Nat) (f : SeqState → SeqState) : Exec Unit :=
  modExp die id fun c => { c with work := match c.work with
    | .tseq q => .tseq (f q)
    | w => w }
/-- A command leaves the queue. -/
def dropExp (die id : Nat) : Exec Unit :=
  modDie die fun x => { x with expQueue := x.expQueue.filter (fun c => c.id != id) }
/-- Read `n` bytes for a command: what a poisoned granule holds is a free value (log entry 15). -/
def expRead (c : Ctx) (l : Lane) (va n : Nat) : Exec (List Byte × Lane) := do
  let (b, l2) ← laneRead c l va n
  let v ← mapEach b fun (x, bad) => do
    if bad then
      let d ← drawNo
      return Config.freeByte d
    else return x
  return (v, l2)

/-! ### The topology table (R343, R344) -/

/-- The FP32 value of a BF16 score, exactly. -/
def scoreFp (x : BitVec 16) : Nat := x.toNat * 65536
/-- What one entry of a record is routed to: an expert and its weight, nothing, or NV (R343). -/
def routeOf (c : Ctx) (j : TtJob) (l : Lane) (e : TopEntry) : Exec (Option (Nat × Nat) × Flg × Lane) := do
  if e.2 = 0xFFFF#16 then return (none, flgNone, l)
  else
    let id := e.2.toNat
    if j.rmap ≠ 0#64 ∧ j.nid ≤ id then return (none, flgNV, l)
    else
      let (p, l2) ← if j.rmap = 0#64 then pure (id, l) else do
        let (b, l2) ← expRead c l (j.rmap.toNat + 2 * id) 2
        pure (natOfBytes b, l2)
      if p = 0xFFFF then return (none, flgNone, l2)
      else if j.x ≤ p then return (none, flgNV, l2)
      else return (some (p, scoreFp e.1), flgNone, l2)
/-- A weight added to the routes of one token: two routes to one expert are summed in order (R343). -/
def addRoute (l : List (Nat × Nat)) (p w : Nat) : List (Nat × Nat) × Flg :=
  match l.find? (fun x => x.1 == p) with
  | none => (l ++ [(p, w)], flgNone)
  | some (_, v) =>
    let (z, f) := fp32Add v w
    (l.map (fun x => if x.1 = p then (p, z) else x), f)
/-- The routes of token `r`. -/
def tokenRoutes (c : Ctx) (j : TtJob) (l : Lane) (r : Nat) : Exec (List (Nat × Nat) × Flg × Lane) := do
  let (b, l1) ← expRead c l (j.recs.toNat + 16 * r) 16
  foldEach ((recordEntries b).take j.k) ([], flgNone, l1) fun (acc, f, l) e => do
    let (x, g, l2) ← routeOf c j l e
    match x with
    | none => return (acc, f ||| g, l2)
    | some (p, w) =>
      let (acc2, h) := addRoute acc p w
      return (acc2, f ||| g ||| h, l2)
/-- An entry of the table: expert, token, weight. -/
abbrev TtEntry := Nat × Nat × Nat
/-- The bytes of the table of ordered entries, and the number of blocks (R344). -/
def tableBytes (j : TtJob) (es : List TtEntry) : List Byte × Nat :=
  let ne := es.length
  let counts := (List.range j.x).map (fun p => (es.filter (fun e => e.1 == p)).length)
  let firsts := offsetsSum counts
  let blocks := (List.range (ceilDiv j.t 128)).flatMap (fun m => (List.range j.x).filterMap (fun p =>
    let mine := ((List.range ne).zip es).filter (fun x => x.2.1 == p && x.2.2.1 / 128 == m)
    match mine with
    | [] => none
    | (i, _) :: _ => some (p + 65536 * mine.length + 2 ^ 32 * i)))
  let header := bytesOfNat 4 j.x ++ bytesOfNat 4 j.t ++ bytesOfNat 4 ne ++ bytesOfNat 4 blocks.length ++
    bytesOfNat 4 (64 + 8 * j.x + 8 * ne) ++ List.replicate 44 0#8
  (header ++ (counts.zip firsts).flatMap (fun (n, i) => bytesOfNat 4 n ++ bytesOfNat 4 i) ++
    es.flatMap (fun (_, r, w) => bytesOfNat 4 r ++ bytesOfNat 4 w) ++ blocks.flatMap (bytesOfNat 8), blocks.length)
where
  /-- The sums of the elements before each. -/
  offsetsSum (l : List Nat) : List Nat := (List.range l.length).map (fun i => (l.take i).sum)
/-- The entries of a build, ordered by expert, then by token. -/
def ttEntries (c : Ctx) (j : TtJob) : Exec (List TtEntry × Flg × Lane) := do
  let (all, f, l) ← foldEach (List.range j.t) ([], flgNone, laneStart 0#64 0) fun (acc, f, l) r => do
    let (rs, g, l2) ← tokenRoutes c j l r
    return (acc ++ rs.map (fun (p, w) => (p, r, w)), f ||| g, l2)
  return ((List.range j.x).flatMap (fun p => all.filter (fun e => e.1 == p)), f, l)
/-- Write bytes for a command: every page is translated first. -/
def expWrite (c : Ctx) (met : Bool) (va : Nat) (b : List Byte) : Exec Unit := do
  let pm ← engAcc .write met (needBytes c .write false va b.length [])
  engAcc .write met (writeTable c pm (tableOf va b))
/-- The first `ttbld` that may run builds its table and posts its record (R343, R344, R347). -/
def ttbldComplete (die : Nat) (s : State) : Option State :=
  match (s.die die).expQueue.find? (fun c => (match c.work with
      | .ttbld _ => true
      | .tseq _ => false) && expReady s die c) with
  | some q =>
    match q.work with
    | .tseq _ => none
    | .ttbld j =>
      let c := q.ctx die 0
      let ends := fun (status ne nb : Nat) (f : Flg) (poison : Bool) (owed : List (List Byte)) => do
        postOwed c (fun _ => pure ()) (owed ++ if q.ev then
          [makeRecord 5 status (recordFlags (flgWord f) poison false) q.token ne nb] else [])
        mergeFlags q.tid (flgWord f)
        dropExp die q.id
      unitStep c (do
        let work := do
          let (es, f, l) ← ttEntries c j
          let (b, nb) := tableBytes j es
          expWrite c l.met j.tbl.toNat (b.take j.cap)
          return (es.length, nb, f, l.met, decide (j.cap < b.length))
        match ← tryChunk work with
        | .ok (ne, nb, f, met, cut) => ends (if cut then 2 else 0) ne nb f met []
        | .error f => ends 2 0 0 flgNone f.met (if f.cause = 0 then [] else [faultRecord q.token 5 0 f])) s
  | none => none
/-- The step TTBLD_COMPLETE. -/
def execTtbldComplete (die : Nat) (s : State) : Host.Outcome State Fault Refusal := goes s (ttbldComplete die s)

/-! ### The sequencer's walk (R346, R348) -/

/-- A block of the table: its expert, its entry count and its first entry. -/
def blockOf (c : Ctx) (hdr : Nat × Nat × Nat) (j : SeqJob) (b : Nat) : Exec (Nat × Nat × Nat × Bool) := do
  let (v, l) ← expRead c (laneStart 0#64 0) (j.tbl.toNat + hdr.2.2 + 8 * b) 8
  let w := natOfBytes v
  return (w % 65536, w / 65536 % 65536, w / 2 ^ 32, l.met)
/-- Whether one of `n` blocks from `b` on is expert `p`'s; one that cannot be read is none of its. -/
def blockAhead (c : Ctx) (hdr : Nat × Nat × Nat) (j : SeqJob) (p : Nat) : Nat → Nat → Exec Bool
  | 0, _ => pure false
  | n + 1, b => do
    match ← tryChunk (blockOf c hdr j b) with
    | .ok (q, _, _, _) => if q = p then return true else blockAhead c hdr j p n (b + 1)
    | .error _ => blockAhead c hdr j p n (b + 1)
/-- A block fails: the first time, with its fault record (R270, R346). -/
def seqBlockFails (die : Nat) (q : ExpCmd) (b : Nat) (f : Option ChunkFail) : Exec Unit := do
  modify (dropUnres (q.ctx die 0))
  match seqOf (← getDie die) q.id with
  | some (_, z) =>
    let first := !z.failed.contains b
    modSeq die q.id fun z => { z with failed := setAdd z.failed b, poison := z.poison || (match f with
      | some x => x.met
      | none => false) }
    match f with
    | some x =>
      if first && x.cause != 0 then
        modExp die q.id fun c => { c with owed := c.owed ++ [faultRecord q.token 5 b x] }
      else pure ()
    | none => pure ()
  | none => pure ()
/-- Where the walk is to go on after a row, or after a block that holds no more rows. -/
def seqNextRow (die id n : Nat) : Exec Unit :=
  modSeq die id fun z => if z.row + 1 < n then { z with row := z.row + 1 } else { z with row := 0, block := z.block + 1 }
/-- Buffers with expert `p`'s open one changed. -/
def modBuf (p : Nat) (f : StageBuf → StageBuf) (l : List StageBuf) : List StageBuf :=
  l.map (fun b => if b.p = p ∧ b.closed = false then f b else b)
/-- The fullest of buffers, ties to the lowest expert. -/
def fullest : List StageBuf → Option StageBuf
  | [] => none
  | b :: r =>
    match fullest r with
    | none => some b
    | some c =>
      if b.rows.length < c.rows.length ∨ (b.rows.length = c.rows.length ∧ c.p < b.p) then some c else some b
/-- A fault as a buffer keeps it, and back. -/
def ChunkFail.kept (f : ChunkFail) : Nat × Word64 × Nat × Bool := (f.cause, f.va, f.kind, f.met)
def failKept : Nat × Word64 × Nat × Bool → ChunkFail
  | (cause, va, kind, met) => { cause := cause, va := va, kind := kind, met := met, flags := flgNone }
/-- Add a row to its expert's open buffer, which is to start once it holds 128 (R348); `bad` says why it could not be read. -/
def addRow (p : Nat) (r : StageRow) (bad : Option ChunkFail) (l : List StageBuf) : List StageBuf :=
  modBuf p (fun b => { b with rows := b.rows ++ [r], bad := b.bad.orElse (fun _ => bad.map ChunkFail.kept), closed := decide (128 ≤ b.rows.length + 1) }) l
/-- Stage the row the walk stands at; `true` says that the walk went on (R348). -/
def stageRow (die : Nat) (q : ExpCmd) (z : SeqState) (hdr : Nat × Nat × Nat) (p n first : Nat) : Exec Bool := do
  let s ← get
  let c := q.ctx die 0
  if !z.bufs.any (fun b => b.p == p && !b.closed) then
    if (s.die die).staged < 256 then
      modDie die fun x => { x with staged := x.staged + 1 }
      modSeq die q.id fun z => { z with
        bufs := z.bufs ++ [{ p := p, rows := [], closed := false, short := false, bad := none }], waitFrom := none
        waits := z.waits + (match z.waitFrom with
          | some t => s.cycle - t
          | none => 0) }
      return true
    else
      -- it waits, from now on; where it holds partial buffers alone, the fullest of them starts short
      let partial_ := !z.outs.any (·.page)
      modSeq die q.id fun z => { z with
        waitFrom := some (z.waitFrom.getD s.cycle)
        bufs := match fullest z.bufs with
          | some b => if partial_ then modBuf b.p (fun b => { b with closed := true, short := true }) z.bufs else z.bufs
          | none => z.bufs }
      return partial_ && !z.bufs.isEmpty
  else
    let entry := expRead c (laneStart 0#64 0) (z.job.tbl.toNat + 64 + 8 * hdr.1 + 8 * (first + z.row)) 8
    match ← tryChunk entry with
    | .error f =>
      seqBlockFails die q z.block (some f)
      seqNextRow die q.id n
      return true
    | .ok (e, l) =>
      let tok := natOfBytes (e.take 4)
      let bits := z.job.km * tyWidth z.job.aty
      let act := laneRead c (laneStart 0#64 0) (z.job.act.toNat + tok * z.job.apitch) (ceilDiv bits 8)
      let row : StageRow := { token := tok, weight := BitVec.ofNat 32 (natOfBytes (e.drop 4)), bytes := [], block := z.block }
      modSeq die q.id fun z => { z with poison := z.poison || l.met }
      match ← tryChunk act with
      | .ok (b, l2) =>
        modSeq die q.id fun z => { z with bufs := addRow p { row with bytes := b } none z.bufs, poison := z.poison || l2.met }
      | .error f =>
        seqBlockFails die q z.block (some f)
        modSeq die q.id fun z => { z with bufs := addRow p row (some f) z.bufs }
      seqNextRow die q.id n
      return true
/-- The walk has passed a block: the open buffers whose expert has no block ahead are to start (R348). -/
def closePassed (die : Nat) (q : ExpCmd) (hdr : Nat × Nat × Nat) (from_ : Nat) : Exec Unit := do
  match seqOf (← getDie die) q.id with
  | none => pure ()
  | some (_, y) =>
    if y.block ≤ from_ then pure ()
    else forEach ((y.bufs.filter (fun b => !b.closed)).map (·.p)) fun p => do
      let more ← blockAhead (q.ctx die 0) hdr y.job p (hdr.2.1 - y.block) y.block
      whenB (!more) (modSeq die q.id fun z => { z with bufs := modBuf p (fun b => { b with closed := true }) z.bufs })
/-- One move of the walk; `true` says that it went on. -/
def seqMove (die : Nat) (q : ExpCmd) (z : SeqState) (hdr : Nat × Nat × Nat) : Exec Bool := do
  let pass := modSeq die q.id fun z => { z with block := z.block + 1, row := 0 }
  let go ← match ← tryChunk (blockOf (q.ctx die 0) hdr z.job z.block) with
    | .error f => do
      seqBlockFails die q z.block (some f)
      pass
      pure true
    | .ok (p, n, first, met) => do
      whenB met (modSeq die q.id fun z => { z with poison := true })
      if n = 0 then do
        pass
        pure true
      else stageRow die q z hdr p n first
  closePassed die q hdr z.block
  return go

/-! ### A buffer (R346) -/

/-- The codes of a row. -/
def rowCodes (j : SeqJob) (r : StageRow) : List Nat :=
  let bits := natOfBytes (r.bytes.map (·.1))
  (List.range j.km).map fun k => bits >>> (k * tyWidth j.aty) % 2 ^ tyWidth j.aty
/-- A row as elements of the product. -/
def rowElems (sub : SubSpec) (j : SeqJob) (r : StageRow) : List MElem :=
  ((rowCodes j r).zip (List.range j.km)).map fun (code, k) =>
    let (a, n) := bitBytes (k * tyWidth j.aty) (tyWidth j.aty)
    mElem sub { ty := j.aty, bl := 0#2 }
      { code := code, scale := 0x7F, gran := 0, poison := ((r.bytes.drop a).take n).any (·.2) }
/-- `mmul.ip.z` of staged rows with a macro set (R235, R346). -/
def seqProduct (sub : SubSpec) (j : SeqJob) (sw : Bool) (rows : List StageRow) (b : MacroSet) : TileOut :=
  let a := rows.map (rowElems sub j)
  let out := mmulCells (b.bl != 0#2) (j.aty == tyL6 && b.ty == tyL6) true 128 rows.length b.n { lo := 0, hi := rows.length } sw
    (fun _ => a) (fun _ => (List.range b.n).map (b.column sub j.km)) [0] { tile := Tile.reset, fl := flgNone, poison := false }
  { out with tile := out.tile.extend rows.length b.n sw }
/-- What the row buffer holds once staged rows have been streamed (R216). -/
def bufferStaged (j : SeqJob) (rows : List StageRow) : List (List (Nat × Byte)) :=
  (rows.drop (rows.length - 2)).map fun r => (rowCodes j r).map fun x => (x, 0x7F#8)
/-- The trap `mbwl` would take for an SMAP word's slot (R234, R409): one of the secure world, or of a retired slice. -/
def smapTrap (f : Firmware) (die : Nat) (sec : Bool) (w : Word64) : Option Nat :=
  let slot := (w.extractLsb' 0 7).toNat
  if !sec && secureSlot f die slot then some cWorld
  else if (retiredOf f .wslice die).contains (slot / 8) then some cProt
  else none
/-- Whether an SMAP word names an image the thread may load (R346, R409, R422). -/
def smapOk (f : Firmware) (die : Nat) (sec : Bool) (w : Word64) : Bool := mbwlOk w && (smapTrap f die sec w).isNone
/-- Load an image into a buffer's macro set; a bad header leaves the set as at first binding, and NV (R234). -/
def seqLoad (die : Nat) (q : ExpCmd) (m : Nat) (w : Word64) : Exec (Bool × Flg) := do
  let s ← get
  let key := mbwlKey die w
  check (refreshLeft s.cycle (wsSlice key) == 0) .wait
  match setOfImage s.mem key with
  | some x =>
    modCore die q.core fun k => k.setMset m x
    modSeq die q.id fun z => { z with held := some (w, x) }
    return (true, flgNone)
  | none =>
    modCore die q.core fun k => { k.setMset m MacroSet.reset with mqStatus := addStatus k.mqStatus q.tid 1#64 }
    modSeq die q.id fun z => { z with held := none }
    return (false, flgNV)
/-- The translated places of a buffer's output elements: every one, before the first combine; those on another node are read
first, so that an error there is met before any combine is made. -/
def outPlaces (c : Ctx) (j : SeqJob) (rows : List StageRow) : Exec (List (Nat × Nat × Nat × Xlat)) := do
  let ls ← mapEach ((List.range rows.length).zip rows) fun (i, r) =>
    mapEach (List.range j.nm) fun k => engAcc .atomic false (do
      let va := j.out.toNat + r.token * j.opitch + 4 * k
      check (decide (va % 4 = 0) && addrOk va) (.trap cProt 0 (BitVec.ofNat 64 va))
      let x ← translate c .atomic (BitVec.ofNat 64 va)
      check (x.loc != .nowhere) (.trap cProt 0 (BitVec.ofNat 64 va))
      return (i, k, va, x))
  let ps := ls.flatten
  let far := ps.filter (fun (_, _, _, x) => match x.loc with
    | .far _ => true
    | _ => false)
  let rs ← remoteAll c (far.map (fun (_, _, _, x) => .read x.pa 4))
  forEach (rs.zip far) fun (r, _, _, va, _) =>
    engAcc .atomic false (check (r != .error) (.trap cProt 0 (BitVec.ofNat 64 va)))
  return ps
/-- One combine (R346): an atomic FP32 addition at the element's home; its flags, and whether it met poison. What a poisoned
granule holds afterwards is a free value (log entry 15). -/
def combineOne (c : Ctx) (b : SeqComb) : Exec (Flg × Bool) := do
  let s ← get
  let x : Xlat := { pa := b.pa, loc := locate s.fw b.pa, msa := b.msa, sh := false }
  let r : LinkReq := .atomic .add b.pa 4 (BitVec.ofNat 64 b.v) 0#64 tyFP32
  let whole := do
    let (_, f) ← engAcc .atomic false (atomicAt c b.va x 4 (BitVec.ofNat 64 b.va) r (fun old => fp32Add old b.v))
    return (f, false)
  match x.loc with
  | .far _ =>
    match ← remoteAsk c r with
    | .data old p => return (if p.isEmpty then (fp32Add (natOfBytes old) b.v).2 else flgNone, !p.isEmpty)
    | .error => engAcc .atomic false (trapNow cProt (BitVec.ofNat 64 b.va))
  | .here key =>
    if s.mem.poisoned key then do
      check (atomReady s c.die key b.msa) .wait
      atomClocks c.die key b.msa
      landAtom c.tid c.die key (← freeBytes 4)
      return (flgNone, true)
    else whole
  | .nowhere => whole
/-- The combines of a buffer, from the tile (R346), numbered from `n` on, which is the number of the buffer, and the flags of their values. -/
def combinesOf (sw : Bool) (t : Tile) (rows : List StageRow) (n : Nat) (ps : List (Nat × Nat × Nat × Xlat)) :
    List SeqComb × Flg :=
  let each := ((List.range ps.length).zip ps).map (fun (m, i, k, va, x) =>
    let r := rows.getD i { token := 0, weight := 0#32, bytes := [], block := 0 }
    let y := if sw then t.at k i else t.at i k
    let (z, g) := fmulV (decodeF tyFP32 r.weight.toNat) (decodeF tyFP32 y.val.toNat)
    let (v, h) := toTile z
    let c : SeqComb := { id := n + m, block := r.block, va := va, pa := x.pa, msa := x.msa, v := v.toNat, buf := n }
    (c, g ||| h))
  (each.map (·.1), each.foldl (fun f x => f ||| x.2) flgNone)
/-- The requests of a command's combines are answered. -/
def dropCombines (q : ExpCmd) : Exec Unit :=
  modify fun s => { s with fw := { s.fw with remotes := s.fw.remotes.filter (fun r => match r.who with
    | .engine t 6 n => t != q.tid || n / 2 ^ 32 != q.id
    | _ => true) } }
/-- A buffer's page is released. -/
def releasePage (die : Nat) : Exec Unit := modDie die fun x => { x with staged := x.staged - 1 }
/-- A buffer fails: with it every block it holds rows of (R346), for fault `f` if it is one that R270 reports. -/
def bufFails (die : Nat) (q : ExpCmd) (b : StageBuf) (f : Option ChunkFail) : Exec Unit := do
  forEach b.rows fun r => seqBlockFails die q r.block f
  modSeq die q.id fun z => { z with bufs := z.bufs.filter (· != b) }
  releasePage die
/-- Run a buffer in the posting core's matrix queue: its load and its product, after which its combines are on their way (R346).
The page is released with the last of them (step 4); that of a buffer that starts short, once its product has read it (R348). A buffer whose slot is of the secure world or retired fails as `mbwl` would trap (log entry 45). -/
def runBuf (die : Nat) (q : ExpCmd) (z : SeqState) (b : StageBuf) : Exec Unit := do
  let j := z.job
  let c := q.ctx die 0
  match b.bad with
  | some f => bufFails die q b (some (failKept f))
  | none =>
    match ← tryChunk (expRead c (laneStart 0#64 0) (j.smap.toNat + 2 * b.p) 2) with
    | .error f => bufFails die q b (some f)
    | .ok (sw_, l) =>
      let word := BitVec.ofNat 64 (natOfBytes sw_)
      let s ← get
      if !smapOk s.fw die q.tid.region.sec word then
        bufFails die q b (if mbwlOk word then (smapTrap s.fw die q.tid.region.sec word).map (fun cause =>
          { cause := cause, va := word, kind := 0, met := l.met, flags := flgNone }) else none)
      else
        let k ← getCore die q.core
        let m := j.tile % 2
        check (unitsFree k.queue [j.tile, 4 + m]) .wait
        let have_ := z.held == some (word, k.mset m)
        let (good, fl) ← if have_ then pure (true, flgNone) else seqLoad die q m word
        let set := (← getCore die q.core).mset m
        let sub := (envOf j.mode j.q31).sub
        let sw := decide (b.rows.length < j.mswap)
        let o := seqProduct sub j sw b.rows set
        modCore die q.core fun k =>
          let k2 := { k.setTile j.tile o.tile with rowBuf := bufferStaged j b.rows }
          if o.poison then { k2 with mqStatus := addStatus k2.mqStatus q.tid 2#64 } else k2
        modSeq die q.id fun z => { z with flags := z.flags ||| flgWord (fl ||| o.fl), poison := z.poison || l.met || o.poison }
        if !good || set.k != j.km || set.n != j.nm then bufFails die q b none
        else
          match ← tryChunk (outPlaces c j b.rows) with
          | .error f => bufFails die q b (some f)
          | .ok ps =>
            let (cs, g) := combinesOf sw o.tile b.rows z.nextComb ps
            modSeq die q.id fun z => { z with
              bufs := z.bufs.filter (· != b), combs := z.combs ++ cs, nextComb := z.nextComb + cs.length
              flags := z.flags ||| flgWord g
              outs := if cs.isEmpty then z.outs
                else z.outs ++ [{ id := z.nextComb, blocks := b.rows.map (·.block), page := !b.short }] }
            whenB (cs.isEmpty || b.short) (releasePage die)

/-! ### TSEQ_BUFFER_START and TSEQ_COMPLETE (R346 to R348) -/

/-- A sequencer starts: it reads the table's header, and cannot run where that cannot be read. -/
def startSeq (die : Nat) (q : ExpCmd) (z : SeqState) : Exec Unit := do
  if z.hdr.isSome || z.cannot then pure ()
  else
    match ← tryChunk (expRead (q.ctx die 0) (laneStart 0#64 0) z.job.tbl.toNat 20) with
    | .ok (b, l) =>
      modSeq die q.id fun z => { z with hdr := some (blkField b 0 4, blkField b 12 4, blkField b 16 4), poison := l.met }
    | .error f =>
      modify (dropUnres (q.ctx die 0))
      modSeq die q.id fun z => { z with cannot := true, poison := f.met }
      if f.cause = 0 then pure ()
      else modExp die q.id fun c => { c with owed := c.owed ++ [faultRecord q.token 5 0 f] }
/-- Walk on until a buffer is to start, or nothing is left to walk, by a bound on the moves. -/
def walkOn (die id : Nat) : Nat → Exec Unit
  | 0 => pure ()
  | n + 1 => do
    match seqOf (← getDie die) id with
    | none => pure ()
    | some (q, z) =>
      match z.hdr with
      | none => pure ()
      | some hdr =>
        if z.bufs.any (·.closed) || decide (hdr.2.1 ≤ z.block) then pure ()
        else
          match ← attempt (seqMove die q z hdr) with
          | .error e => stopKeep e
          | .ok false => stopKeep .wait
          | .ok true => walkOn die id n
/-- The most moves a walk makes: two for every row of every block. -/
def walkBound (z : SeqState) : Nat :=
  match z.hdr with
  | some (_, nb, _) => (nb - z.block) * (2 * 65536 + 2) + 1
  | none => 0
/-- The sequencer stages rows until a buffer starts, and that buffer runs. -/
def tseqBufferStart (die job : Nat) (s : State) : Option State :=
  match seqOf (s.die die) job with
  | none => none
  | some (q, z0) =>
    let c := q.ctx die 0
    unitStep c (do
      enabled (!q.aborted && expReady s die q && !z0.cannot)
      startSeq die q z0
      let (_, z1) ← enabledSome (seqOf (← getDie die) job)
      walkOn die job (walkBound z1)
      let (q2, z) ← enabledSome (seqOf (← getDie die) job)
      match z.bufs.find? (·.closed) with
      | none => check ((← getDie die) != s.die die) .wait
      | some b =>
        match ← attempt (runBuf die q2 z b) with
        | .ok _ => pure ()
        | .error e => stopKeep e) s
/-- The step TSEQ_BUFFER_START. -/
def execTseqBufferStart (die job : Nat) (s : State) : Host.Outcome State Fault Refusal := goes s (tseqBufferStart die job s)
/-- A buffer that has run is done with: with its last combine its rows count, or it has failed, and none of its other combines
is made (R346, R347). Its page is released. -/
def endOut (die : Nat) (q : ExpCmd) (o : SeqOut) (fail : Option ChunkFail) : Exec Unit := do
  match fail with
  | none => modSeq die q.id fun z => { z with rows := z.rows + o.blocks.length }
  | some f => forEach o.blocks fun b => seqBlockFails die q b (some f)
  modSeq die q.id fun z => { z with outs := z.outs.filter (·.id != o.id), combs := z.combs.filter (·.buf != o.id) }
  whenB o.page (releasePage die)
/-- The `n`-th combine of a sequencer that is still on its way reaches its home, in whatever order (R346). -/
def combineTurn (die job n : Nat) (s : State) : Option State :=
  match seqOf (s.die die) job with
  | none => none
  | some (q, z) =>
    match z.combs[n]? with
    | none => none
    | some b =>
      let c := q.ctx die (1 + b.id)
      let out := z.outs.find? (·.id == b.buf)
      unitStep c (do
        match ← tryChunk (combineOne c b) with
        | .ok (f, p) =>
          let left := dropAt n z.combs
          modSeq die q.id fun z => { z with flags := z.flags ||| flgWord f, poison := z.poison || p, combs := left }
          match out with
          | some o => if left.any (·.buf == b.buf) then pure () else endOut die q o none
          | none => pure ()
        | .error f =>
          match out with
          | some o => endOut die q o (some f)
          | none => modSeq die q.id fun z => { z with combs := dropAt n z.combs }) s
/-- The blocks that failed, where the walk was stopped those it did not reach included (R95). -/
def seqFailed (q : ExpCmd) (z : SeqState) (nb : Nat) : List Nat :=
  if q.aborted then
    ((List.range nb).filter (fun b => decide (z.block ≤ b)) ++ (z.bufs.flatMap (fun b => b.rows.map (·.block)))).foldl
      setAdd z.failed
  else z.failed
/-- The cycles a sequencer has waited for pages, those of a wait that goes on included (R347, R348). -/
def SeqState.waited (z : SeqState) (now : Nat) : Nat :=
  z.waits + match z.waitFrom with
    | some t => now - t
    | none => 0
/-- Every buffer has run and every combine has been made; the command's flags are merged and its record is posted. -/
def tseqComplete (die job : Nat) (s : State) : Option State :=
  match seqOf (s.die die) job with
  | none => none
  | some (q, z) =>
    let c := q.ctx die 0
    unitStep c (do
      let nb := match z.hdr with
        | some h => h.2.1
        | none => 0
      enabled (z.combs.isEmpty &&
        (q.aborted || z.cannot || (z.hdr.isSome && decide (nb ≤ z.block) && z.bufs.isEmpty)))
      let failed := seqFailed q z nb
      let status := if q.aborted then (if failed.length < nb then 1 else 2) else chunkStatus nb failed z.cannot
      let bits := (List.range 32).map (fun k => if failed.any (fun b => min b 31 == k) then 2 ^ k else 0)
      let rec_ := makeRecord 5 status (recordFlags z.flags z.poison false) q.token z.rows (z.waited s.cycle)
        (failed.headD 0xFFFFFFFF) bits.sum
      postRecords c (fun l => modExp die q.id fun e => { e with owed := l }) q.owed (if q.ev then [rec_] else [])
      mergeFlags q.tid z.flags
      dropCombines q
      modDie die fun x => { x with staged := x.staged - z.bufs.length }
      dropExp die q.id) s
/-- The step TSEQ_COMPLETE. -/
def execTseqComplete (die job : Nat) (s : State) : Host.Outcome State Fault Refusal := goes s (tseqComplete die job s)

/-! ### Expert slots (R350, R351) -/

/-- Slot `i` of a die's directory. -/
def DieSt.xslot (x : DieSt) (i : Nat) : XSlot := spGet XSlot.reset x.xslots i
def DieSt.setXslot (x : DieSt) (i : Nat) (k : XSlot) : DieSt := { x with xslots := spSet x.xslots i k }
/-- The slots of a world that are in the directory (R350, R409). -/
def slotsOfWorld (f : Firmware) (d : Nat) (sec : Bool) : List Nat :=
  (List.range 128).filter (fun i => secureSlot f d i == sec && !(retiredOf f .wslice d).contains (i / 8))
/-- The result of `xslot`. -/
def xslotResult (hit : Bool) (slot : Nat) : Word64 := BitVec.ofNat 64 (slot + if hit then 256 else 0)
def xslotFail : Word64 := 0x8000000000000000#64
/-- The steps of `acquire` from the hand, by their number: the die, and the slot found (R351). -/
def xslotClock (own : List Nat) (key : Word64) (r : RegionId) : Nat → DieSt → DieSt × Option Nat
  | 0, x => (x, none)
  | n + 1, x =>
    let i := x.hand % 128
    let k := x.xslot i
    let next := { x with hand := (x.hand + 1) % 128 }
    if !own.contains i then xslotClock own key r n next
    else if k.ref == 0#16 && !k.use then (next.setXslot i { key := some key, use := true, ref := 1#16, refs := [r] }, some i)
    else if k.ref == 0#16 then xslotClock own key r n (next.setXslot i { k with use := false })
    else xslotClock own key r n next
/-- The slots of the package that a region holds references of (R351): with MAXSLOT, which is the region's (R74), count those on
every die where it has run. -/
def heldSlots (s : State) (r : RegionId) : Nat :=
  (s.dies.map (fun (_, x) => (x.xslots.filter (fun (_, k) => k.ref != 0#16 && k.refs.contains r)).length)).sum
/-- `acquire`: the die after it, and the result; `full` says that the region holds all it may. REF counts in its 16 bits (log
entry 30). -/
def xslotAcquire (own : List Nat) (full : Bool) (key : Word64) (r : RegionId) (x : DieSt) : DieSt × Word64 :=
  match own.find? (fun i => (x.xslot i).key == some key) with
  | some i =>
    let k := x.xslot i
    (x.setXslot i { k with use := true, ref := k.ref + 1#16, refs := k.refs ++ [r] }, xslotResult true i)
  | none =>
    if full then (x, xslotFail)
    else match xslotClock own key r 256 x with
      | (y, some i) => (y, xslotResult false i)
      | (y, none) => (y, xslotFail)
/-- `release`. -/
def xslotRelease (own : List Nat) (key : Word64) (r : RegionId) (x : DieSt) : DieSt × Word64 :=
  match own.find? (fun i => (x.xslot i).key == some key && (x.xslot i).refs.contains r) with
  | some i =>
    let k := x.xslot i
    (x.setXslot i { k with ref := k.ref - 1#16, refs := k.refs.erase r }, xslotResult false i)
  | none => (x, xslotFail)
/-- `xslot`. -/
def execXslot (o : XslotOp) (d a : Reg) (s : State) :=
  performSeq (.xslot o d a) (do
    let key ← readReg a
    let u ← get
    let die := u.cur.place.die
    let r := u.cur.tid.region
    let own := slotsOfWorld u.fw die r.sec
    let most := match u.rcb? r with
      | some x => x.maxslot
      | none => 0
    let (x, y) := match o with
      | .acq => xslotAcquire own (decide (most ≤ heldSlots u r)) key r (u.die die)
      | .rel => xslotRelease own key r (u.die die)
    setDie die x
    writeReg d y) s

end Sys2Proof.Machine
end

