-- ==== Sys2Proof/Machine/Tree.lean ====
section
/-!
DEFINITION. The region tree: what the device writes to control blocks and save areas (R77, R78, R387, R424), stopping
regions and discarding their work (R94, R95, R404), the end of a thread and of a region (R92, R93, R154), and leaving
slots (R90).
-/
namespace Sys2Proof.Machine

/-! ### Discarding work (R94, R95, R404) -/

/-- The record of a command that is discarded or stopped before any of its `n` chunks ran. -/
def unrunRecord (type : Nat) (token : Word32) (n : Nat) : List Byte :=
  makeRecord type 2 0 token 0 0 (if n = 0 then 0xFFFFFFFF else 0) (2 ^ min n 32 - 1)
/-- The record a fabric command that is discarded owes. -/
def FabCmd.unrun : FabCmd → Option (Tid × List Byte)
  | .sgraph k t _ _ ev => if ev then some (t, unrunRecord 1 k 0) else none
  | .srun r => if r.ev then some (r.tid, unrunRecord 1 r.token r.blk.chunks) else none
  | .spub _ _ _ _ _ => none
  | .sdisc _ _ _ _ => none
/-- The thread of a fabric command. -/
def FabCmd.tid : FabCmd → Tid
  | .sgraph _ t _ _ _ => t
  | .srun r => r.tid
  | .spub t _ _ _ _ => t
  | .sdisc t _ _ _ => t
/-- The record an expert command that is discarded owes. -/
def ExpCmd.unrun (c : ExpCmd) : Option (Tid × List Byte) := if c.ev then some (c.tid, unrunRecord 5 c.token 0) else none
/-- A core without the matrix entries that `gone` picks, with what they reserve and pin; tiles and macro sets keep what was
written (R95), and the accumulator is released where they held it (R222). -/
def CoreSt.dropEntries (k : CoreSt) (gone : MEntry → Bool) : CoreSt :=
  let ids := (k.queue.filter gone).map (·.id)
  if ids.isEmpty then k
  else
    { k with
      queue := k.queue.filter (fun e => !gone e)
      slots := k.slots.map (fun (z, x) => (z, { x with
        flight := x.flight.filter (fun f => match f.kind with
          | .entry id => !ids.contains id
          | .unknown _ _ => true)
        pins := (x.pins.map (fun p => { p with ids := p.ids.filter (fun i => !ids.contains i) })).filter
          (fun p => !p.ids.isEmpty) })) : CoreSt }.freeAcc
/-- A die without the commands of these threads that have not started, and with those in progress stopped at their next
boundary; the records that are owed for the former. -/
def DieSt.discardCommands (x : DieSt) (mine : Tid → Bool) : DieSt × List (Tid × List Byte) :=
  let fab := x.fabQueue.filter (fun c => mine c.tid)
  let cpy := x.cpyQueue.filter (fun c => mine c.tid && !c.started)
  let exp := x.expQueue.filter (fun c => mine c.tid && !c.started)
  let idle := fun (r : ERun) => mine r.tid && r.cur.isNone
  let edge := x.cores.flatMap (fun (_, k) => k.edge.filter idle)
  let owed := fab.filterMap FabCmd.unrun ++
    cpy.filterMap (fun c => if c.ev then some (c.tid, unrunRecord 3 c.token c.chunks) else none) ++
    exp.filterMap ExpCmd.unrun ++
    edge.filterMap (fun r => if r.ev then some (r.tid, unrunRecord 2 r.token 0) else none)
  let stopEdge := fun (r : ERun) => if mine r.tid then { r with aborted := true } else r
  ({ x with
     fabQueue := x.fabQueue.filter (fun c => !mine c.tid)
     runs := x.runs.map (fun r => if mine r.tid then { r with aborted := true } else r)
     cpyQueue := (x.cpyQueue.filter (fun c => !(mine c.tid && !c.started))).map
       (fun c => if mine c.tid then { c with aborted := true } else c)
     expQueue := (x.expQueue.filter (fun c => !(mine c.tid && !c.started))).map
       (fun c => if mine c.tid then { c with aborted := true } else c)
     cores := x.cores.map (fun (i, k) =>
       (i, { k with edge := (dropRuns mine idle k.edge).2.map stopEdge })) }, owed)
/-- The state in which the posted work of these threads is discarded or stopped. -/
def discardWork (s : State) (mine : Tid → Bool) : State :=
  let step := fun (acc : State × List (Tid × List Byte)) (p : Nat × DieSt) =>
    let (x, owed) := p.2.discardCommands mine
    (acc.1.setDie p.1 { x with cores := x.cores.map (fun (i, k) => (i, k.dropEntries (fun e => mine e.tid))) }, acc.2 ++ owed)
  let (t, owed) := s.dies.foldl step (s, [])
  { t with
    topks := t.topks.filter (fun k => !mine k.tid)
    regions := t.regions.map (fun r => { r with owed := r.owed ++
      (owed.filter (fun o => o.1.region == r.id)).map (·.2) }) }
/-- The regions of a list and those below them in the tree, which is at most 8 deep (R78). -/
def withDescendants (s : State) (roots : List RegionId) : List RegionId :=
  (List.range 8).foldl (fun l _ =>
    l ++ ((s.regions.filter (fun r => !l.contains r.id && (match r.parent with
      | some p => l.contains p
      | none => false))).map (·.id))) roots
/-- A thread of an aborted region: it stops at once, as by pre-emption, and then ends (R94). -/
def Thread.abort (t : Thread) : Thread :=
  match t.status with
  | .bound => { t with leaving := true, yielding := false, csr := { t.csr with yreq := true, count := some 0 } }
  | .unbound => { t with status := .ending, endRec := none }
  | _ => t
/-- The state in which these regions and their descendants are being aborted (R94). -/
def startAbort (s : State) (roots : List RegionId) : State :=
  let rs := (withDescendants s roots).filter (fun r => s.regions.any (fun x => x.id == r && !x.aborting))
  let t := discardWork s (fun t => rs.contains t.region)
  let f := fun (x : Thread) => if rs.contains x.tid.region then x.abort else x
  { t with
    cur := f t.cur, others := t.others.map f
    regions := t.regions.map (fun r => if rs.contains r.id then { r with aborting := true } else r)
    dies := t.dies.map (fun (d, x) => (d, { x with arrivals := x.arrivals.filter (fun r => !rs.contains r) })) }

/-! ### Device writes (R424) -/

/-- A piece of a step that goes on as a whole or not at all: where it stops, only what it asked of other nodes stays. -/
def whole {α : Type} (x : Exec α) : Exec α := fun s =>
  match x s with
  | .error (.keep u e) => .error (.keep { s with fw := { s.fw with remotes := u.fw.remotes } } e)
  | r => r
/-- The context of what the device does for a region, or for thread `t`, on die `d`. -/
def deviceCtx (d : Nat) (t : Tid) : Ctx := unitCtx d 8 t.idx t 0
/-- The context of what the device does for a thread in its place. -/
def Thread.deviceCtx (x : Thread) : Ctx := unitCtx x.place.die 8 x.tid.idx x.tid x.slotNo
/-- The home die of a region. -/
def State.homeDie (s : State) (r : RegionId) : Nat :=
  match s.region? r with
  | some x => x.home
  | none => 0
/-- Thread 0 of a region, in whose name its control block is written. -/
def regionTid (r : RegionId) : Tid := { region := r, idx := 0 }
/-- Write bytes of a control block or save area of region `r` (R424): a write that cannot be made aborts the region. -/
def deviceWrite (c : Ctx) (r : RegionId) (va : Nat) (b : List Byte) : Exec Unit := do
  match ← attempt (writeQueue c va b) with
  | .ok _ => pure ()
  | .error (.trap _ _ _) => modify fun s => startAbort (dropUnres c s) [r]
  | .error e => stop e
/-- Read bytes at their home; what a poisoned granule holds is a free value (log entry 15). -/
def deviceRead (c : Ctx) (va n : Nat) : Exec (List Byte) := do
  let pm ← needBytes c.atHome .read false va n []
  let parts ← mapEach (granParts (n / 32 + 2) va n) fun (a, k) => do
    let (b, bad) ← readPiece c.atHome a k (xlatAt (← get).fw c.atHome pm a)
    if bad.isEmpty then return b else freeBytes k
  return parts.flatten
/-- The number of a region code (R77). -/
def codeNo : RegionCode → Nat
  | .pending => 1 | .bound => 2 | .unbound => 3 | .draining => 6
/-- A state word (R77). -/
def stateWord (code depth livech livect : Nat) : Nat := code + 256 * depth + 65536 * livech + 2 ^ 32 * livect
/-- Write the state word of a region. -/
def writeState (r : RegionId) : Exec Unit := do
  let s ← get
  match s.region? r with
  | none => pure ()
  | some x =>
    deviceWrite (deviceCtx x.home (regionTid r)) r (r.rcb.toNat + 0x70)
      (bytesOfNat 8 (stateWord (codeNo x.code) x.depth x.children.length x.livect))
/-- Change a region and write its state word. -/
def setRegion (r : RegionId) (f : Region → Region) : Exec Unit := do
  modRegion r f
  writeState r
/-- A region's link fields in memory (R74). -/
def writeLink (r : RegionId) (off : Nat) (dest : Option RegionId) : Exec Unit := do
  let s ← get
  deviceWrite (deviceCtx (s.homeDie r) (regionTid r)) r (r.rcb.toNat + off) (bytesOfNat 8 (match dest with
    | some p => p.rcb.toNat
    | none => 0))

/-! ### Save areas (R387) -/

/-- Address of a thread's save area. -/
def saveArea (s : State) (t : Tid) : Nat :=
  match s.rcb? t.region with
  | some r => r.save.toNat + 1024 * t.idx
  | none => 0
/-- The first 0x198 bytes of the save area: scalar registers, CSRs, decode map and constant bank. -/
def saveBytes (t : Thread) : List Byte :=
  let c := t.csr
  ([t.pc] ++ t.s.toList.tail ++
    [c.mode, c.flags, c.exmsel, c.astart, c.qgrant, c.cbase, c.seed, c.tcause, c.tpc, c.tval, c.tscratch, c.tvec, ydeadOf c,
     c.epushdiv, c.epulldiv, c.mswap, c.instret, t.dmapAddr, t.lastCbld]).flatMap (fun x => bytesOfNat 8 x.toNat)
/-- The bytes from 0x3B8 on: the edge engine's bindings (R325). -/
def saveEdge (t : Thread) : List Byte :=
  [t.egAddr, t.epAddr, t.epCfg, t.force.setWidth 64].flatMap (fun x => bytesOfNat 8 x.toNat)
/-- A thread with what a save area holds restored (R151, R387); reserved bits read zero whatever was saved (R3). -/
def loadSave (t : Thread) (lo hi : List Byte) : Thread :=
  let w := fun (i : Nat) => BitVec.ofNat 64 (blkField lo (8 * i) 8)
  let e := fun (i : Nat) => BitVec.ofNat 64 (blkField hi (8 * i) 8)
  { t with
    pc := w 0
    s := Vector.ofFn (fun i : Fin 32 => if i.val = 0 then 0#64 else w i.val)
    csr :=
      let c := [(0x00, 32), (0x01, 33), (0x02, 34), (0x03, 35), (0x05, 37), (0x10, 39), (0x11, 40), (0x12, 41), (0x13, 42),
        (0x14, 43), (0x30, 45), (0x31, 46), (0x32, 47)].foldl (fun (x : Csrs) (p : Nat × Nat) => csrWrite x p.1 (w p.2)) t.csr
      { c with
        qgrant := w 36, seed := w 38, tcause := (c.tcause &&& 0x7FF#64) ||| (w 39 &&& 0x10000#64)
        pcnt := (w 44).extractLsb' 48 16, instret := w 48 }
    dmapAddr := w 49, lastCbld := w 50, egAddr := e 0, epAddr := e 1, epCfg := e 2, force := (e 3).setWidth 2 }
/-- The word ASTAT of a thread whose state a slot holds (R387). -/
def heldStat (die slot : Nat) : Nat := 2 ^ 63 + 256 * (die % 8) + slot % 128
def imgStat : Nat := 2 ^ 62
def lostStat : Nat := 2 ^ 61
/-- Write ASTAT of a thread. -/
def writeStat (c : Ctx) (t : Tid) (v : Nat) : Exec Unit := do
  let s ← get
  deviceWrite c t.region (saveArea s t + 0x3F0) (bytesOfNat 8 v)
/-- Write a thread's scalar state to its save area. -/
def writeSave (t : Tid) : Exec Unit := do
  let s ← get
  match s.thread? t with
  | none => pure ()
  | some x =>
    deviceWrite x.deviceCtx t.region (saveArea s t) (saveBytes x)
    deviceWrite x.deviceCtx t.region (saveArea s t + 0x3B8) (saveEdge x)

/-- Write LOST in the ASTAT of a thread whose state was lost with a core, if that is still to be done (R404, R424). -/
def writeLost (t : Tid) : Exec Unit := do
  match (← get).thread? t with
  | none => pure ()
  | some x =>
    if x.lost then
      writeStat x.deviceCtx t lostStat
      modThread t fun y => { y with lost := false }
    else pure ()

/-! ### The end of a region (R92, R93, R95) -/

/-- A slot without its array state: nothing owns it. What belongs to the thread bound on it stays. -/
def Slot.freed (x : Slot) : Slot := { x with owner := none, arr := ArrState.reset, grant := 0, flight := [], pins := [] }
/-- A core as when a region is first bound to it, its slots and queues kept (R217). The status that `mqry` selector 3 reads goes
with it for every thread: it is kept per core and thread, and a thread that is rebound to another core finds it zero there,
which R243 leaves open (DESIGN CHOICE, log entry 20). -/
def CoreSt.clearMatrix (k : CoreSt) : CoreSt :=
  { k with mown := none, tiles := [], sets := [], rowBuf := [], sparse := SparseRes.reset
           accUser := if k.accUser = .matrix then .none else k.accUser, mqStatus := [] }
/-- A core without the array states of these threads: they are discarded (R386), and S is recomputed (R249, R252). A sparse
result that one of them holds is emptied, and the accumulator released (R237). -/
def CoreSt.dropOwners (k : CoreSt) (mine : Tid → Bool) : CoreSt :=
  let l : CoreSt := { k with
    slots := k.slots.map (fun (z, x) => (z, match x.owner with
      | some t => if mine t then x.freed else x
      | none => x))
    mown := match k.mown with
      | some t => if mine t then none else some t
      | none => none
    sparse := match k.sparse.holder with
      | some t => if mine t then SparseRes.reset else k.sparse
      | none => k.sparse
    mqStatus := k.mqStatus.filter (fun x => !mine x.1) }
  if k.slots.any (fun (_, x) => x.owner.any mine) then l.freeAcc.fitBanks else l.freeAcc
/-- The world of a die's gang entry: that of the bind record it goes with (R85). -/
def DieSt.gangSec (x : DieSt) (d : Nat) (g : GangRec) : Bool :=
  match g.slots.find? (fun p => p.1 == d) with
  | some (_, z) => (spGet BindRec.reset x.slotTab z).sec
  | none => false
/-- Die `d` with V cleared in the records of these threads (R84, R85). -/
def DieSt.clearRecords (x : DieSt) (d : Nat) (mine : Tid → Bool) : DieSt :=
  let of_ := fun (rcb : Word64) (sec : Bool) (i : Nat) => mine { region := { sec := sec, rcb := rcb }, idx := i }
  { x with
    slotTab := x.slotTab.map (fun (i, b) => (i, if of_ b.rcb b.sec b.ctidx then { b with valid := false } else b))
    gangTab := x.gangTab.map (fun (i, g) => (i, if of_ g.rcb (x.gangSec d g) g.ctidx then { g with valid := false } else g)) }
/-- The state with V cleared in the records of these threads on every die. -/
def State.clearRecords (s : State) (mine : Tid → Bool) : State :=
  { s with dies := s.dies.map (fun (d, x) => (d, x.clearRecords d mine)) }
/-- An expert slot without a region's references (R351). -/
def XSlot.dropRefs (k : XSlot) (r : RegionId) : XSlot :=
  { k with refs := k.refs.filter (· != r), ref := k.ref - BitVec.ofNat 16 (k.refs.filter (· == r)).length }
/-- A die without anything of a region that has ended (R95). -/
def DieSt.dropRegion (x0 : DieSt) (d : Nat) (r : RegionId) (squares : List Nat) : DieSt :=
  let x := x0.clearRecords d (fun t => t.region == r)
  { x with
    cores := x.cores.map (fun (i, k) =>
      let k2 := k.dropOwners (fun t => t.region == r)
      (i, if squares.contains (i / 4) then k2.clearMatrix else k2))
    configs := x.configs.filter (fun p => p.1 != r)
    shadows := x.shadows.filter (fun k => k.region != r)
    xslots := x.xslots.map (fun (i, k) => (i, k.dropRefs r))
    arrivals := x.arrivals.filter (· != r) }
/-- The state with every fault entry of a region's threads orphaned (R395). -/
def orphanRegion (s : State) (r : RegionId) : State :=
  s.dies.foldl (fun acc (d, x) => (x.faults.filter (fun f => f.tid.region == r)).foldl (fun a f =>
    let b := setFaultStatus a d f.seq 3
    b.setDie d { b.die d with faults := (b.die d).faults.filter (fun g => g.seq != f.seq) }) acc) s
/-- The state without a region: its squares are free and its threads are gone. A DRAINING region, which has no living
thread, holds its squares until then, which R92 leaves open (DESIGN CHOICE, log entry 31). -/
def removeRegion (s : State) (r : RegionId) : State :=
  let held := match s.region? r with
    | some x => x.squares
    | none => []
  let t := orphanRegion s r
  { t with
    regions := t.regions.filter (fun x => x.id != r)
    others := t.others.filter (fun x => x.tid.region != r)
    unres := t.unres.filter (fun u => u.1.region != r)
    dies := t.dies.map (fun (d, x) => (d, x.dropRegion d r ((held.filter (fun q => q.1 == d)).map (·.2)))) }
/-- The completion record of a region (R93). -/
def Region.record (x : Region) : List Byte :=
  makeRecord 4 (if x.aborting ∨ x.trapCt ≠ 0 then 2 else 0) (recordFlags x.flags false false) x.rcb.token x.doneCt x.trapCt
/-- Unlink a child from its parent's list (R78, R92). -/
def unlinkChild (p c : RegionId) : Exec Unit := do
  let s ← get
  match s.region? p with
  | none => pure ()
  | some x =>
    let i := x.children.findIdx (· == c)
    let next := x.children[i + 1]?
    if i = 0 then writeLink p 0x08 next
    else writeLink (x.children.getD (i - 1) c) 0x10 next
    setRegion p fun y => { y with children := y.children.filter (· != c) }
/-- The dies that a region's threads have run on, with its home die. -/
def regionDies (s : State) (x : Region) : List Nat :=
  ((s.threads.filter (fun t => t.tid.region == x.id && t.started)).flatMap (·.place.dieList)).foldl setAdd [x.home]
/-- A release of a region at package scope (R92, R369): the writes of its threads, and those their dies had heard of when they
ended, are at their homes; its dies send their beacons (R371). -/
def releaseRegion (x : Region) : Exec Unit := do
  modify fun u => (u.stores.filter (fun h => h.tid.region == x.id)).foldl (fun v h => performStore h v) u
  let s ← get
  check (!s.xwrites.any (fun w => w.tid.any (·.region == x.id)) && clkApplied s x.endClk) .wait
  releaseOn (regionDies s x) .pkg
/-- End a region whose last thread and last child have ended, and then each ancestor of which that is so, by a bound on
the depth (R92). An ancestor that cannot end yet does so by a step of its home die. -/
def endRegion : Nat → RegionId → Exec Unit
  | 0, _ => pure ()
  | n + 1, r => do
    let s ← get
    match s.region? r with
    | none => pure ()
    | some x =>
      if x.livect ≠ 0 ∨ x.children ≠ [] then pure ()
      else
        releaseRegion x
        let c := deviceCtx x.home (regionTid r)
        forEach x.owed fun b => postRecord c b
        deviceWrite c r (r.rcb.toNat + 0x70) (bytesOfNat 8 (stateWord (if x.aborting then 5 else 4) x.depth 0 0))
        -- a write that could not be made has aborted the region, whose record then says so (R424)
        let y := ((← get).region? r).getD x
        match x.parent with
        | some p =>
          unlinkChild p r
          modify fun u => removeRegion u r
          postRecord (deviceCtx x.home (regionTid p)) y.record
          match ← attempt (endRegion n p) with
          | _ => pure ()
        | none =>
          let dst := BitVec.ofNat 16 x.host
          modify fun u => sendHeaded (removeRegion u r) dst (ownNode u.fw) 0#16 (fun p h => .message p h 0x100 y.record)

/-! ### The end of a thread (R92, R154) -/

/-- Whether everything a thread posted is complete (R92). -/
def threadDrained (s : State) (t : Tid) : Bool :=
  !matrixBusy s t && !engineBusy s t &&
  !s.dies.any (fun (_, x) => x.cores.any (fun (_, k) => k.slots.any (fun (_, z) => z.owner == some t && !z.flight.isEmpty)))
/-- The state in which the paused entries of a thread are discarded (R245). -/
def dropPaused (s : State) (t : Tid) : State :=
  let gone := fun (e : MEntry) => e.tid == t && (e.stat == .paused || e.stat == .trapped)
  { s with dies := s.dies.map (fun (d, x) => (d, { x with cores := x.cores.map (fun (i, k) => (i, k.dropEntries gone)) })) }
/-! ### Leaving slots (R90) -/

/-- Whether a running sequencer of a region holds its squares (R90, R347). -/
def seqHolds (s : State) (r : RegionId) : Bool :=
  s.dies.any (fun (_, x) => x.expQueue.any (fun c => c.tid.region == r && (match c.work with
    | .tseq _ => true
    | .ttbld _ => false)))
/-- Whether work of a region still holds its squares: a sequencer (R90), or, but on a die that is stopped (R23), entries of its
threads in a matrix queue and results in flight, which need the slots' array state (log entry 17). -/
def heldBack (s : State) (r : RegionId) : Bool :=
  seqHolds s r || s.dies.any (fun (_, x) =>
    (!x.stopped && x.cores.any (fun (_, k) => k.queue.any (fun e => e.tid.region == r) ||
      k.slots.any (fun (_, z) => (match z.owner with
        | some t => t.region == r
        | none => false) && !z.flight.isEmpty))))
/-- The living threads of a region. -/
def livingOf (s : State) (r : RegionId) : List Thread :=
  s.threads.filter (fun t => t.tid.region == r && t.status != .ended)
/-- The lowest-indexed living thread of a region on a square. A gang's threads use the registers of the squares of their LEAD
die alone, where their scalar instructions run (R86), so that only those are saved and restored (log entry 31). -/
def lowestOn (s : State) (r : RegionId) (d q : Nat) : Option Tid :=
  ((livingOf s r).filter (fun t => t.place.die == d && t.place.core / 4 == q)).foldl (fun m t =>
    match m with
    | none => some t.tid
    | some u => if t.tid.idx < u.idx then some t.tid else some u) none
/-- The bytes of a square's communication registers in a save area, from 0x1B0 on. -/
def squareBytes (q : Square) : List Byte := bytesOfNat 8 q.sems.toNat ++ q.data.flatMap (fun x => bytesOfNat 8 x.toNat)
/-- Save the communication registers of a region's squares, and free the squares (R90). -/
def releaseSquares (r : RegionId) : Exec Unit := do
  let s ← get
  match s.region? r with
  | none => pure ()
  | some x =>
    forEach x.squares fun (d, q) => do
      let u ← get
      match lowestOn u r d q with
      | none => pure ()
      | some t => deviceWrite (deviceCtx d t) r (saveArea u t + 0x1B0) (squareBytes ((u.die d).square q))
    modRegion r fun y => { y with squares := [] }
/-- Whether a bind record of a region is in force: its thread is bound, or is to be. -/
def State.hasRecords (s : State) (r : RegionId) : Bool :=
  s.dies.any (fun (_, x) => x.slotTab.any (fun (_, b) => b.valid && b.rcb == r.rcb && b.sec == r.sec))
/-- Whether every living thread of a BOUND region has left its slot, or lost it (R90). -/
def hasLeft (s : State) (x : Region) : Bool :=
  x.code == .bound && !x.aborting && x.livect != 0 && (livingOf s x.id).all (fun t => t.status == .unbound) &&
    !s.hasRecords x.id
/-- A region whose living threads have all left their slots is UNBOUND and pending again (R90). -/
def regionLeft (r : RegionId) : Exec Unit := do
  let s ← get
  match s.region? r with
  | none => pure ()
  | some x =>
    if hasLeft s x then
      setRegion r fun y => { y with code := .unbound }
      modDie x.home fun d => { d with arrivals := d.arrivals ++ [r] }
      if heldBack (← get) r then pure () else releaseSquares r
    else pure ()
/-- Thread `t` leaves its slots: the die performs what it held back of the thread's stores, its scalar state goes to its
save area and the hen clears its bind records. -/
def unbindThread (t : Tid) : Exec Unit := do
  performHeld t (fun _ => true)
  modify fun s => dropWatch t (dropOwnRemotes (orphanFaults (dropWaits s t) t) t)
  let s ← get
  modThread t fun x => { x.dropWork with
    leaving := false, yieldTrap := false
    clk := (x.place.dieList.map (fun d => (s.die d).vc)).foldl clkMerge (List.replicate 8 0#32) }
  writeSave t
  writeLost t
  modify fun s =>
    let ending := match s.region? t.region with
      | some r => r.aborting
      | none => true
    let out := fun (x : Thread) => { x with
      status := if ending then ThreadStatus.ending else .unbound
      endRec := none
      csr := { x.csr with yreq := false, count := none } }
    (s.modThread t out).clearRecords (· == t)
  regionLeft t.region

/-! ### The end of a thread (R92, R154) -/

/-- Thread `t` ends: its slots, grant and history storage are free, its region counts it, and the region ends with its
last thread and child (R92, R93), now, or by a step of its home die where it has to wait; where the threads that still live
have all left their slots, it is pending again (R90). -/
def endThread (t : Tid) (byDone : Bool) : Exec Unit := do
  let s ← get
  let x ← enabledSome (s.thread? t)
  performHeld t (fun _ => true)
  modify fun u =>
    let v := (dropWatch t u).modThread t (fun y => { y.dropWork with status := .ended, leaving := false })
    let free := fun (y : DieSt) => { y with cores := y.cores.map (fun (i, k) => (i, k.dropOwners (· == t))) }
    let w := { v with dies := v.dies.map (fun (d, y) => (d, free y)) }
    w.clearRecords (· == t)
  setRegion t.region fun r => { r with
    livect := r.livect - 1
    doneCt := r.doneCt + if byDone then 1 else 0
    trapCt := r.trapCt + if byDone then 0 else 1
    flags := r.flags ||| x.csr.flags ||| x.lateFlags
    endClk := (x.acq :: x.place.dieList.map (fun d => (s.die d).vc)).foldl clkMerge r.endClk
    code := if r.livect ≤ 1 then .draining else r.code }
  regionLeft t.region
  match ← attempt (endRegion 9 t.region) with
  | _ => pure ()
/-- The turn of a thread that is ending (R154): its end record is written; then, once its work has drained, it ends. -/
def finishEnding (t : Tid) : Exec Unit := do
  let s ← get
  let x ← enabledSome (s.thread? t)
  enabled (x.status == .ending)
  match x.endRec with
  | some (cause, tpc, tval) =>
    deviceWrite x.deviceCtx t.region (saveArea s t + 0x198)
      (bytesOfNat 8 cause ++ bytesOfNat 8 tpc.toNat ++ bytesOfNat 8 tval.toNat)
    modThread t fun y => { y with endRec := none }
  | none =>
    modify fun s => dropPaused s t
    check (threadDrained (← get) t) .wait
    endThread t false

end Sys2Proof.Machine
end

