-- ==== Sys2Proof/Machine/Context.lean ====
section
/-!
DEFINITION. Array state in and out of a slot: `quota` (R251), the array image (R388), `asave` and `arest` (R389, R390);
translations dropped by `tlbinv` (R397); fault entries served and acted on (R393 to R396); the phase of the weight store
(R262).
-/
namespace Sys2Proof.Machine

/-! ### Grants (R249, R251) -/

/-- Granules granted on a core to owners other than `t` (R249). -/
def grantedOthers (s : State) (d c : Nat) (t : Tid) : Nat :=
  (((s.core d c).slots.filter (fun p => p.2.owner.isSome && p.2.owner != some t)).map (fun p => p.2.grant)).sum
/-- What the other owners leave a thread, the least over its attached dies. -/
def roomFor (s : State) (t : Thread) : Nat :=
  t.place.all.foldl (fun m (d, c, _) => min m (maxGranules - grantedOthers s d c t.tid)) maxGranules
/-- Granules in the largest block of any register's BL, 1 where there is none. -/
def largestBlock (a : ArrState) : Nat := a.regs.foldl (fun m r => max m (blkOf r.bl)) 1
/-- The state with the current thread's grant set on every attached die (R44), and S recomputed there (R252). -/
def setGrant (s : State) (g : Nat) : State :=
  let put := fun (u : State) ((d, c, z) : Nat × Nat × Nat) => u.setSlotAt d c z { u.slotAt d c z with grant := g }
  let t := (s.cur.place.all.foldl put s).fitBanks s.cur.place.all
  { t with cur := { t.cur with csr := { t.cur.csr with qgrant := BitVec.ofNat 64 g } } }
/-- `quota` (R251). -/
def execQuota (d a : Reg) (s : State) :=
  performSeq (.quota d a) (do
    check (!(← get).unknownBusy) .wait
    let req ← readReg a
    let u ← get
    let g := min (min (min req.toNat maxGranules) u.cur.place.maxgran) (roomFor u u.cur)
    let g2 := max (g / largestBlock u.mySlot.arr * largestBlock u.mySlot.arr) u.held
    modify fun v => setGrant v g2
    writeReg d (BitVec.ofNat 64 g2)) s

/-! ### The array image (R388) -/

/-- Image bytes, each with whether it comes from something poisoned. -/
abbrev ImgBytes := List (Byte × Bool)
/-- `n` bytes of a number. -/
def plainBytes (n v : Nat) : ImgBytes := (bytesOfNat n v).map (fun b => (b, false))
/-- Image bytes with zeros up to the next multiple of `k`. -/
def padTo (k : Nat) (b : ImgBytes) : ImgBytes := b ++ List.replicate (roundUp b.length k - b.length) (0#8, false)
/-- The granules of a mask register: bit j of granule g is bit 256·g + j. -/
def MaskReg.granules (m : MaskReg) : List Granule :=
  (List.range m.held).map fun g =>
    { data := BitVec.ofNat 256 (packCodes 1 (((m.bits.drop (256 * g)).take 256).map (·.toNat)))
      scale := 0x7F#8, poison := m.poison.contains g }
/-- The descriptor image of a register whose first granule in the image is `base` (R25). SLEN is the storage it takes on one
die; the image holds the granules of every die of a gang (log entry 32). -/
def descriptorBytes (r : ArrReg) (base : Nat) : ImgBytes :=
  plainBytes 8 ((if r.isEmpty then 0 else needOn r.parts r.tag r.ext false) * 2 ^ 48 + base % 65536 * 2 ^ 32 + (if r.isEmpty then 2 ^ 15 else 0) +
    (if r.repl then 2 ^ 13 else 0) + r.ext.length * 256 + r.bl.toNat * 16 + r.ty.toNat) ++
  (List.range 8).flatMap (fun k => plainBytes 4 (r.ext.getD k 0))
/-- The descriptors of registers laid out one after the other. -/
def descriptorsFrom : Nat → List ArrReg → ImgBytes
  | _, [] => []
  | base, r :: rest => descriptorBytes r base ++ descriptorsFrom (base + r.gran.length) rest
/-- Every granule of an array state, in the order of the image. -/
def ArrState.granules (a : ArrState) : List Granule := a.regs.flatMap (·.gran) ++ a.masks.flatMap MaskReg.granules
/-- The image without its matrix part. -/
def arrayPart (o : Tid) (a : ArrState) (grant : Nat) (tiles : Bool) : ImgBytes :=
  let gs := a.granules
  padTo 128 (
    plainBytes 8 (2 ^ 63 + o.region.rcb.toNat % 2 ^ 55) ++ plainBytes 4 o.idx ++ plainBytes 4 grant ++
    plainBytes 4 gs.length ++ plainBytes 4 tiles.toNat ++ a.masks.flatMap (fun m => plainBytes 4 m.bits.length) ++
    a.lfsr.flatMap (fun x => plainBytes 4 x.toNat) ++ plainBytes 8 0 ++ descriptorsFrom 0 a.regs ++
    gs.flatMap (fun g => (bytesOfNat 32 g.data.toNat).map (fun b => (b, g.poison))) ++ gs.map (fun g => (g.scale, false)))
/-- The values at `n` keys from `i` up of a sparse table. -/
def denseFrom {α : Type} (d : α) : Nat → Nat → Sparse α → List α
  | 0, _, _ => []
  | n + 1, i, [] => d :: denseFrom d n (i + 1) []
  | n + 1, i, (j, v) :: r =>
    if j ≤ i then v :: denseFrom d n (i + 1) r else d :: denseFrom d n (i + 1) ((j, v) :: r)
/-- A tile in the image: 128 rows of 128 values. -/
def tileBytes (x : Tile) : ImgBytes :=
  (denseFrom TileCell.zero 16384 0 x.cells).flatMap (fun c => (bytesOfNat 4 c.val.toNat).map (fun b => (b, c.mark)))
/-- A row of codes in 128 bytes, four granules of it (R234); the granule of a marked code is poisoned. -/
def codeRow (ty : BitVec 4) : List (Byte × Bool) → ImgBytes := fun row =>
  (List.range 4).flatMap (fun g =>
    let here := (row.drop (g * tyPer ty)).take (tyPer ty)
    (bytesOfNat 32 (packCodes (tyWidth ty) (here.map (·.1.toNat)))).map (fun b => (b, here.any (·.2))))
/-- A macro set in the image: 128 rows of codes, then 512 scale bytes. -/
def setBytes (x : MacroSet) : ImgBytes :=
  let codes := denseFrom (BitVec.ofNat 8 (tyZero x.ty)) 16384 0 x.codes
  let marks := denseFrom false 16384 0 ((x.marks.foldl setAdd []).map (fun k => (k, true)))
  let cells := codes.zip marks
  (List.range 128).flatMap (fun r => codeRow x.ty ((cells.drop (128 * r)).take 128)) ++
  (denseFrom 0x7F#8 512 0 x.scales).map (fun b => (b, false))
/-- The entry of a macro set in the header of the matrix part. -/
def setHeader (x : MacroSet) : ImgBytes :=
  plainBytes 2 (x.ty.toNat + 16 * x.bl.toNat) ++ plainBytes 2 x.k ++ plainBytes 2 x.n ++ plainBytes 2 0
/-- The run offsets: where each run's entries begin, and the end. -/
def runOffsets : Nat → List SpRun → List Nat
  | n, [] => [n]
  | n, r :: rest => n :: runOffsets (n + r.entries.length) rest
/-- The matrix part of an image. -/
def matrixPart (k : CoreSt) : ImgBytes :=
  let es := k.sparse.runs.flatMap (·.entries)
  padTo 128 (
    (List.range 4).flatMap (fun t => plainBytes 4 ((k.tile t).rows * 65536 + (k.tile t).cols)) ++
    setHeader (k.mset 0) ++ setHeader (k.mset 1) ++
    plainBytes 4 es.length ++ plainBytes 4 k.sparse.runs.length ++ plainBytes 4 k.sparse.m) ++
  (List.range 4).flatMap (fun t => tileBytes (k.tile t)) ++ setBytes (k.mset 0) ++ setBytes (k.mset 1) ++
  (runOffsets 0 k.sparse.runs).flatMap (plainBytes 4) ++ k.sparse.runs.flatMap (fun r => plainBytes 4 r.row) ++
  es.flatMap (fun e => plainBytes 4 e.col) ++
  es.flatMap (fun e => (bytesOfNat 4 e.val.toNat).map (fun b => (b, e.mark)))

/-! ### Saving (R386, R389) -/

/-- The slots a thread owns. -/
def ownedSlots (s : State) (t : Tid) : List (Nat × Nat × Nat) :=
  s.dies.flatMap (fun (d, x) => x.cores.flatMap (fun (c, k) =>
    (k.slots.filter (fun p => p.2.owner == some t)).map (fun p => (d, c, p.1))))
/-- Whether a core's matrix state is not as at first binding (R217). -/
def CoreSt.hasMatrix (k : CoreSt) : Bool := !(k.tiles.isEmpty && k.sets.isEmpty) || k.sparse != SparseRes.reset
/-- The slot whose core holds the matrix state of a thread, of those it owns: of a gang, one that has any (log entry 20). -/
def dataSlot (s : State) (t : Tid) : Option (Nat × Nat × Nat) :=
  let own := (ownedSlots s t).filter (fun (d, c, _) => (s.core d c).mown == some t)
  (own.find? (fun (d, c, _) => (s.core d c).hasMatrix)).orElse fun _ => own.head?.orElse fun _ => (ownedSlots s t).head?
/-- Whether work of a thread still needs its array state in its slot. -/
def stateInUse (s : State) (t : Tid) : Bool :=
  matrixBusy s t || (ownedSlots s t).any (fun (d, c, z) =>
    !(s.slotAt d c z).flight.isEmpty || !(s.slotAt d c z).pins.isEmpty)
/-- A 64-bit word at its home; a poisoned granule traps. -/
def homeWord (c : Ctx) (va : Nat) : Exec Nat := do
  let pm ← needBytes c.atHome .read false va 8 []
  match ← readBytes c.atHome pm va 8 with
  | (_, g :: _) => trapNow cPoison (BitVec.ofNat 64 g)
  | (b, []) => return natOfBytes b
/-- Address of ASTAT and ASA of a thread (R387). -/
def astatAt (s : State) (t : Tid) : Nat := saveArea s t + 0x3F0
def asaAt (s : State) (t : Tid) : Nat := saveArea s t + 0x3F8
/-- The image of a thread's array state, of which a slot holds all or a share, with the core's matrix state where the
thread is its owner. -/
def imageOf (s : State) (t : Tid) (d c z : Nat) : ImgBytes :=
  let x := s.slotAt d c z
  let k := s.core d c
  let tiles := k.mown == some t
  let whole := (x.arr.regs.zip (List.range 32)).map (fun (r, i) => s.regOn (ownedSlots s t) r i)
  arrayPart t { x.arr with regs := whole } x.grant tiles ++ (if tiles then matrixPart k else [])
/-- The state in which a thread owns no slot and no matrix state: their storage is free. -/
def freeState (s : State) (t : Tid) : State :=
  let free := fun (u : State) ((d, c, z) : Nat × Nat × Nat) =>
    let k := u.core d c
    let k2 := k.setSlot z (k.slot z).freed
    u.setCore d c (if k.mown = some t then k2.clearMatrix else k2)
  ((ownedSlots s t).foldl free s).fitBanks (ownedSlots s t)
/-- Write an image at its home, every page of it translated before the first byte is written (R144). -/
def storeHome (c : Ctx) (va : Nat) (b : ImgBytes) : Exec Unit := do
  let pm ← needBytes c.atHome .write false va b.length []
  writeTable c.atHome pm (((List.range b.length).zip b).map (fun (i, x, bad) =>
    (va + i, { mask := 0xFF#8, val := x, bad := bad })))
/-- Save the array state of thread `o` at `dest`, or at its ASA (R389). -/
def saveState (c : Ctx) (o : Tid) (dest : Option Nat) : Exec Unit := do
  let s ← get
  check (!stateInUse s o) .wait
  match dataSlot s o with
  | none => pure ()
  | some (d, k, z) =>
    let va ← match dest with
      | some a => pure a
      | none => homeWord c (asaAt s o)
    legal (va != 0 && va % 128 == 0 && decide (va < 2 ^ 55))
    storeHome c va (imageOf s o d k z)
    writeQueue c (astatAt s o) (bytesOfNat 8 (if dest.isNone then imgStat else 0))
    modify fun u => freeState u o
/-- `asave` (R389). -/
def execAsave (a : Reg) (s : State) :=
  performSeq (.asave a) (do
    let x ← readReg a
    let u ← get
    match u.mySlot.owner with
    | none => pure ()
    | some o => saveState u.ctx o (if x = 0#64 then none else some x.toNat)) s

/-! ### Restoring (R390) -/

/-- Bytes of an image as read, each with whether its granule is poisoned. -/
structure ImgRead where
  bytes : Array Byte
  bad : Array Bool
/-- A field of `n` bytes. -/
def ImgRead.nat (x : ImgRead) (o n : Nat) : Nat := natOfBytes ((List.range n).map (fun i => x.bytes.getD (o + i) 0#8))
/-- Whether byte `o` lies in a poisoned granule. -/
def ImgRead.badAt (x : ImgRead) (o : Nat) : Bool := x.bad.getD o false
/-- Read `n` bytes of an image. -/
def readImage (c : Ctx) (va n : Nat) : Exec ImgRead := do
  let pm ← needBytes c.atHome .read false va n []
  let parts ← mapEach (granParts (n / 32 + 2) va n) fun (a, k) => do
    let (b, bad) ← readPiece c.atHome a k (xlatAt (← get).fw c.atHome pm a)
    return (b, List.replicate k (!bad.isEmpty))
  return { bytes := (parts.flatMap (·.1)).toArray, bad := (parts.flatMap (·.2)).toArray }
/-- The granule `i` of an image of `ng` granules. -/
def ImgRead.granule (x : ImgRead) (ng i : Nat) : Granule :=
  { data := BitVec.ofNat 256 (x.nat (0x580 + 32 * i) 32), scale := x.bytes.getD (0x580 + 32 * ng + i) 0x7F#8
    poison := x.badAt (0x580 + 32 * i) }
/-- The descriptor of register `n` in an image of a thread that runs across `dies` dies, and the granules its shares take in
the image; `none` for one that no register holds, or whose SLEN is not what it needs (R25, R26, R28). -/
def ImgRead.desc (x : ImgRead) (dies n : Nat) : Option (ArrReg × Nat) :=
  let o := 0x80 + 40 * n
  let w := BitVec.ofNat 64 (x.nat o 8)
  let rank := (w.extractLsb' 8 4).toNat
  let ext := (List.range rank).map (fun k => x.nat (o + 8 + 4 * k) 4 % 2 ^ 31)
  let tag : Tag := { ty := w.extractLsb' 0 4, bl := w.extractLsb' 4 2 }
  let e := w.getLsbD 15
  let parts := partsOf dies ext (w.getLsbD 13)
  let slen := if e then 0 else needOn parts tag ext false
  if rank ≤ 8 ∧ blOk tag.ty tag.bl ∧ (w.extractLsb' 48 16).toNat = slen then
    some ({ ty := tag.ty, bl := tag.bl, ext := if e then [] else ext, isEmpty := e, pending := false
            repl := w.getLsbD 13, parts := if e then 1 else parts, sbase := 0#16, gran := [] },
          if e then 0 else allGranules parts tag ext)
  else none
/-- Registers `n` on of an image, each with its granules, from granule `base` on. -/
def ImgRead.regs (x : ImgRead) (ng dies : Nat) : Nat → Nat → Nat → Option (List ArrReg × Nat)
  | 0, _, base => some ([], base)
  | left + 1, n, base =>
    match x.desc dies n with
    | none => none
    | some (r, need) =>
      (x.regs ng dies left (n + 1) (base + need)).map (fun (rs, e) =>
        ({ r with gran := (List.range need).map (fun i => x.granule ng (base + i)) } :: rs, e))
/-- Mask registers `n` on of an image. -/
def ImgRead.masks (x : ImgRead) (ng : Nat) : Nat → Nat → Nat → List MaskReg × Nat
  | 0, _, base => ([], base)
  | left + 1, n, base =>
    let len := x.nat (0x18 + 4 * n) 4
    let held := ceilDiv len 256
    let m : MaskReg :=
      { bits := (List.range len).map (fun i => (x.bytes.getD (0x580 + 32 * base + i / 8) 0#8).getLsbD (i % 8))
        sbase := 0#16, poison := (List.range held).filter (fun g => (x.granule ng (base + g)).poison) }
    let (ms, e) := x.masks ng left (n + 1) (base + held)
    (m :: ms, e)
/-- The array state of an image of `ng` granules, `none` where NG or a descriptor is not as it must be. -/
def ImgRead.arrState (x : ImgRead) (ng dies : Nat) : Option ArrState :=
  match x.regs ng dies 32 0 0 with
  | none => none
  | some (rs, b) =>
    let (ms, e) := x.masks ng 7 0 b
    if e = ng then
      some { regs := rs, masks := ms, lfsr := (List.range 17).map (fun i => BitVec.ofNat 32 (x.nat (0x34 + 4 * i) 4)) }
    else none
/-- Granules a header and its descriptors ask for, whatever NG says, if every descriptor is as it must be. -/
def ImgRead.asks (x : ImgRead) (dies : Nat) : Option Nat :=
  (List.range 32).foldl (fun acc n => acc.bind fun m => (x.desc dies n).map (fun p => m + p.2))
    (some ((List.range 7).map (fun n => ceilDiv (x.nat (0x18 + 4 * n) 4) 256)).sum)
/-- A tile of a matrix part. -/
def ImgRead.tile (x : ImgRead) (t : Nat) : Tile :=
  let o := 128 + 65536 * t
  let cells := (List.range 16384).map (fun i =>
    (i, ({ val := BitVec.ofNat 32 (x.nat (o + 4 * i) 4), mark := x.badAt (o + 4 * i) } : TileCell)))
  { rows := x.nat (4 * t + 2) 2, cols := x.nat (4 * t) 2, cells := cells.filter (fun p => p.2 != TileCell.zero) }
/-- A macro set of a matrix part: every code of a poisoned granule is marked. -/
def ImgRead.set (x : ImgRead) (m : Nat) : MacroSet :=
  let h := 16 + 8 * m
  let o := 262272 + 16896 * m
  let ty : BitVec 4 := BitVec.ofNat 4 (x.nat h 1)
  let bl : BitVec 2 := BitVec.ofNat 2 (x.nat h 1 / 16)
  let per := tyPer ty
  let grans := ((List.range 512).map (fun i => (x.nat (o + 32 * i) 32, x.badAt (o + 32 * i)))).toArray
  let at_ := (List.range 16384).map (fun i =>
    let g := grans.getD (4 * (i / 128) + i % 128 / per) (0, false)
    (i, g.1 >>> (i % 128 % per * tyWidth ty) % 2 ^ tyWidth ty, g.2))
  { ty := ty, bl := bl, k := x.nat (h + 2) 2, n := x.nat (h + 4) 2
    codes := (at_.filter (fun p => p.2.1 != tyZero ty)).map (fun p => (p.1, BitVec.ofNat 8 p.2.1))
    scales := if bl = 0#2 then [] else ((List.range 512).map (fun i => (i, x.bytes.getD (o + 16384 + i) 0x7F#8))).filter
      (fun p => p.2 != 0x7F#8)
    marks := (at_.filter (fun p => p.2.2)).map (·.1) }
/-- E, M′ and M of a matrix part. -/
def ImgRead.runCounts (x : ImgRead) : Nat × Nat × Nat := (x.nat 32 4, x.nat 36 4, x.nat 40 4)
/-- The runs of a matrix part. -/
def ImgRead.runs (x : ImgRead) : List SpRun :=
  let (e, r, _) := x.runCounts
  let o := 296064
  let entry := fun (i : Nat) =>
    let c := o + 4 * (2 * r + 1) + 4 * i
    ({ col := x.nat c 4, val := BitVec.ofNat 32 (x.nat (c + 4 * e) 4), mark := x.badAt (c + 4 * e) } : SpEntry)
  (List.range r).map (fun j =>
    let lo := x.nat (o + 4 * j) 4
    let hi := x.nat (o + 4 * (j + 1)) 4
    { row := x.nat (o + 4 * (r + 1) + 4 * j) 4, entries := (List.range (min hi e - lo)).map (fun i => entry (lo + i)) })
/-- Granules the restored runs of a matrix part are charged (R237). -/
def ImgRead.runGranules (x : ImgRead) : Nat :=
  let (e, r, m) := x.runCounts
  if r = 0 then 0 else sparseGranules e m
/-- A core with a matrix part restored for thread `t`; which place its sparse result gets of those that fit is free (R25). -/
def CoreSt.restoreMatrix (k : CoreSt) (t : Tid) (x : ImgRead) (free : Nat) : CoreSt :=
  let (_, r, m) := x.runCounts
  { k with
    mown := some t
    tiles := (List.range 4).map (fun i => (i, x.tile i))
    sets := (List.range 2).map (fun i => (i, x.set i))
    rowBuf := []
    sparse := { runs := x.runs, m := m, holder := if r = 0 then none else some t, charge := x.runGranules
                base := ({ k with sparse := SparseRes.reset } : CoreSt).place x.runGranules free }
    accUser := if r = 0 then k.accUser else .matrix }
/-- The current thread owns its slots with an array state and a grant; each die takes its shares, and where its storage lies
is free (R25, R43). -/
def installState (a : ArrState) (grant : Nat) : Exec Unit := do
  modify fun s =>
    let own := fun (u : State) ((d, c, z) : Nat × Nat × Nat) => u.setSlotAt d c z
      { u.slotAt d c z with owner := some s.cur.tid, arr := { ArrState.reset with lfsr := a.lfsr }, grant := grant }
    let t := (s.cur.place.all.foldl own s).fitBanks s.cur.place.all
    { t with cur := { t.cur with everHeld := true } }
  forEach ((List.range 32).zip a.regs) fun (i, r) =>
    if r.isEmpty then rewriteArr i r else writeArr i r
  forEach ((List.range 7).zip a.masks) fun (i, m) => do
    whenB (!m.bits.isEmpty) (writeMask (i + 1) m.bits)
    modify fun s => s.modArr fun _ x =>
      { x with masks := listSet x.masks i { x.masks.getD i MaskReg.reset with poison := m.poison } }
/-- The state in which the current thread's array state, but no matrix state, is gone from its slots. -/
def freeOwn (s : State) : State :=
  s.cur.place.all.foldl (fun (u : State) (d, c, z) =>
    let x := u.slotAt d c z
    if x.owner = some s.cur.tid then u.setSlotAt d c z x.freed else u) s
/-- Restore the image at `va` (R390): every check comes before the first change. -/
def restoreImage (c : Ctx) (va : Nat) : Exec Unit := do
  let s ← get
  let me := s.cur.tid
  let h ← readImage c va 0x580
  match (List.range 44).find? (fun g => h.badAt (32 * g)) with
  | some g => trapNow cPoison (BitVec.ofNat 64 (va + 32 * g))
  | none => pure ()
  let grant := h.nat 0x0C 4
  let ng := h.nat 0x10 4
  legal (h.nat 0 8 == 2 ^ 63 + me.region.rcb.toNat % 2 ^ 55 && h.nat 8 4 == me.idx && decide (grant ≤ s.cur.place.maxgran) &&
    h.asks s.cur.place.dies == some ng)
  let m := roundUp (0x580 + 33 * ng) 128
  let x ← readImage c va m
  match x.arrState ng s.cur.place.dies with
  | none => illop
  | some a =>
    let tiles := h.nat 0x14 4 % 2 == 1 && (s.core s.cur.place.die s.cur.place.core).mown.isNone
    let y ← if tiles then do
        let head ← readImage c (va + m) 296064
        let (e, r, _) := head.runCounts
        readImage c (va + m) (296064 + 4 * (2 * r + 1 + 2 * e))
      else pure { bytes := #[], bad := #[] }
    let dies := s.cur.place.dies
    let need := (a.regs.map (ArrReg.held dies)).sum + (a.masks.map MaskReg.held).sum + (if tiles then y.runGranules else 0)
    check (decide (grant ≤ roomFor s s.cur) && decide (need ≤ grant)) (.trap cQuota 0 (BitVec.ofNat 64 (max grant need)))
    -- a sparse result takes the accumulator, which serves one user at a time (R222)
    check (!tiles || y.runCounts.2.1 == 0 || (s.core s.cur.place.die s.cur.place.core).accUser != .edge) .wait
    modify freeOwn
    installState a grant
    modify fun u => setGrant u grant
    let n ← drawNo
    whenB tiles (modify fun u => (u.setCore s.cur.place.die s.cur.place.core
      ((u.core s.cur.place.die s.cur.place.core).restoreMatrix me y (Config.freeSbase n).toNat)).growBanks s.cur.place)
/-- `arest` (R390). -/
def execArest (a : Reg) (s : State) :=
  performSeq (.arest a) (do
    let x ← readReg a
    let u ← get
    let me := u.cur.tid
    let c := u.ctx
    check (!stateInUse u me) .wait
    forEach u.cur.place.all fun (d, k, z) => do
      match ((← get).slotAt d k z).owner with
      | some o => if o = me then pure () else saveState c o none
      | none => pure ()
    let mine := u.cur.place.all
    whenB ((ownedSlots u me).any (fun p => !mine.contains p)) (saveState c me none)
    let stat ← homeWord c (astatAt u me)
    let asa ← homeWord c (asaAt u me)
    check (stat / lostStat % 2 == 0 && !u.cur.lost) (.trap cPoison 0 (BitVec.ofNat 64 asa))
    let v ← get
    if x = 0#64 ∧ !v.arrAbsent then pure ()
    else if x = 0#64 ∧ stat / imgStat % 2 = 0 then
      modify freeOwn
      installState ArrState.reset 0
      modify fun w => setGrant w 0
    else restoreImage c (if x = 0#64 then asa else x.toNat)
    writeQueue c (astatAt u me) (bytesOfNat 8 (heldStat u.cur.place.die u.cur.slotNo))) s

/-! ### Cached translations (R397) -/

/-- Whether a cached translation is in the range of a `tlbinv`. -/
def tlbHit (sec : Bool) (range : Nat) (va : Nat) (e : TlbEnt) : Bool :=
  e.sec == sec && (match range with
    | 0 => e.vpn == va / 2 ^ e.bits
    | 1 => e.vpn * 2 ^ e.bits / 2 ^ 29 == va / 2 ^ 29
    | _ => true)
/-- Whether an access that has been translated on one of these dies is still to be performed: an insert, a combine of a
sequencer, or what is out at another node for anyone but thread `t`, which has waited for its own (R397). -/
def translatedOut (s : State) (t : Tid) (dies : List Nat) : Bool :=
  s.topks.any (fun k => dies.contains k.die) ||
  s.dies.any (fun (d, x) => dies.contains d && x.expQueue.any (fun c => match c.work with
    | .tseq z => !z.combs.isEmpty
    | .ttbld _ => false)) ||
  s.fw.remotes.any (fun r => r.reply.isNone && r.who.tid?.any (· != t))
/-- `tlbinv`: the TLBs of the dies and of their cores drop the entries; the accesses that used them are performed. -/
def execTlbinv (a b : Reg) (s : State) :=
  performSeq (.tlbinv a b) (do
    let va ← readReg a
    let r ← readReg b
    legal (r.extractLsb' 3 61 == 0#61 && r.extractLsb' 0 2 != 3#2)
    let pkg := r.getLsbD 2
    release (if pkg then .pkg else .die)
    let u ← get
    let dies := if pkg then List.range 8 else [u.cur.place.die]
    checkKeep (!translatedOut u u.cur.tid dies) .wait
    let kept := fun (l : List TlbEnt) => l.filter (fun e => !tlbHit u.cur.tid.region.sec (r.extractLsb' 0 2).toNat va.toNat e)
    modify fun v => (v.stores.filter (fun h => dies.contains h.die)).foldl (fun w h => performStore h w) v
    forEach ((← get).loads.filter (fun h => (u.thread? h.tid).any (fun t => dies.contains t.place.die))) performLoad
    forEach dies fun d => modDie d fun x =>
      { x with tlb := kept x.tlb, cores := x.cores.map (fun (i, k) => (i, { k with tlb := kept k.tlb })) }) s

/-! ### Fault entries (R393 to R396) -/

/-- The state with entry `idx` of a die's queue returned, if it is pending (R394). -/
def returnFault (s : State) (d idx : Nat) (bad : Bool) : State :=
  match (s.die d).faults.find? (fun f => f.seq % 4096 == idx && f.status == 0) with
  | some f => setFaultStatus s d f.seq (if bad then 2 else 1)
  | none => s
/-- `fqret`. From a non-secure thread it traps 0x0F; it accesses no address, and that TVAL is then 0 is the model's choice
(DESIGN CHOICE, log entry 33). -/
def execFqret (a : Reg) (s : State) :=
  performSeq (.fqret a) (do
    let x ← readReg a
    legal (x.extractLsb' 13 51 == 0#51)
    check (← get).cur.tid.region.sec (.trap cWorld 0 0#64)
    release .pkg
    modify fun u => returnFault u u.cur.place.die (x.extractLsb' 0 12).toNat (x.getLsbD 12)) s
/-- The hen returns a pending entry after a fresh walk, where fault service is its own. -/
def henFaultService (die seq : Nat) (s : State) : Option State :=
  let c := unitCtx die 9 seq s.cur.tid 0
  device c (do
    enabled (!s.fw.inForce.getLsbD 0)
    let f ← enabledSome ((s.die die).faults.find? (fun f => f.seq == seq && f.status == 0))
    match walk s c.who f.tid.region.sec f.va.toNat with
    | .ok _ => set (setFaultStatus s die seq 1)
    | .error (.invalid _) => set (setFaultStatus s die seq 2)
    | .error .error => set (setFaultStatus s die seq 2)
    | .error (.ask q) => stop (.remote [(c.who, q)])
    | .error .waits => stop .wait) s
/-- The step HEN_FAULT_SERVICE. -/
def execHenFaultService (die seq : Nat) (s : State) : Host.Outcome State Fault Refusal := goes s (henFaultService die seq s)
/-- The state after a returned entry of a thread's own instruction is acted on: it goes on, or takes trap 0x06, whose TVAL
is, for a scalar access, the address the instruction gave (R144, log entry 22). -/
def actOnThread (s : State) (t : Tid) (resolved : State → State) (f : FaultRec) : State :=
  if f.status = 2 then
    let u := eachStop (s.switchTo t)
    takeTrap u cPage 0 f.tval u.cur.pc
  else resolved s
/-- A returned entry is acted on, once every earlier one of its thread has been (R395). An unresolvable one of an engine's work
fails the access that is held for it. -/
def faultEntryAct (die seq : Nat) (s : State) : Option State :=
  device (unitCtx die 9 seq s.cur.tid 0) (do
    let x := s.die die
    let f ← enabledSome (x.faults.find? (fun f => f.seq == seq && f.status != 0))
    enabled (!x.faults.any (fun g => g.tid == f.tid && decide (g.seq < seq)))
    modDie die fun y => { y with faults := y.faults.filter (fun g => g.seq != seq) }
    modify (dropWalks f.tid)
    modify fun u => match f.what with
      | .stall => actOnThread u f.tid (fun v => v.modThread f.tid (fun t => { t with stall := none })) f
      | .vp g => actOnThread u f.tid (fun v => v.modThread f.tid (fun t => { t with each := t.each.map (fun (j : EachJob) =>
          { j with groups := j.groups.map (fun y => if y.g = g then { y with parked := none } else y) }) })) f
      | .group g => u.modThread f.tid (fun t => { t with park := t.park.map (fun (p : Park) =>
          { p with entries := p.entries.filter (fun e => e.1 != seq)
                   failed := if f.status = 2 then some (p.failed.getD (g, f.va)) else p.failed }) })
      | .engine _ _ _ =>
        let w := (f.tid, f.va.toNat / 65536, f.what)
        if f.status = 2 ∧ !u.unres.contains w then { u with unres := u.unres ++ [w] } else u) s
/-- The step FAULT_ENTRY_ACT. -/
def execFaultEntryAct (die seq : Nat) (s : State) : Host.Outcome State Fault Refusal := goes s (faultEntryAct die seq s)

/-! ### The phase of the weight store (R262) -/

/-- `wsph`: the thread waits until the hen has applied its request. One that seals is a release at die scope. -/
def execWsph (a : Reg) (s : State) :=
  performSeq (.wsph a) (do
    let p ← readReg a
    legal (p.extractLsb' 1 63 == 0#63)
    let u ← get
    if u.cur.wsDone then modCur fun t => { t with wsPending := false, wsDone := false }
    else
      check (!u.unknownBusy && !u.cur.wsPending) .wait
      whenB (!p.getLsbD 0) (performOwn u.cur.tid .die)
      let q : WsReq := { tid := some u.cur.tid, hdr := none, sec := u.cur.tid.region.sec, toOpen := p.getLsbD 0, taken := false
                         entries := [], chunks := [] }
      modDie u.cur.place.die fun x => { x with wsQueue := x.wsQueue ++ [q] }
      modCur fun t => { t with wsPending := true }
      stopKeep .wait) s
/-- The phase of a world's slots on a die: whether they are open. -/
def DieSt.phaseOpen (x : DieSt) (sec : Bool) : Bool := if sec then x.openSec else x.openNs
/-- A die with the phase of a world set. -/
def DieSt.setPhase (x : DieSt) (sec v : Bool) : DieSt := if sec then { x with openSec := v } else { x with openNs := v }
/-- Whether an accepted write to the world's slots of a die has not completed. -/
def wsWritePending (s : State) (d : Nat) (sec : Bool) : Bool :=
  s.xwrites.any (fun w => isWs w.pa && w.home == d && secureKey s.fw w.pa == sec)
/-- The request with the reads of its world's slots that have been accepted and not completed: `mbwl` entries, and chunks
whose codebook fetches stall for a refresh window. -/
def WsReq.noteReads (s : State) (d : Nat) (q : WsReq) : WsReq :=
  let x := s.die d
  { q with
    taken := true
    entries := x.cores.flatMap (fun (c, k) => (k.queue.filter (fun e => e.stat != .done && (match e.op with
      | .mbwl _ src => secureSlot s.fw d (src.extractLsb' 0 7).toNat == q.sec
      | _ => false))).map (fun e => (c, e.id)))
    chunks := (x.runs.filter (fun r => r.blk.lut != 0#64 && r.tid.region.sec == q.sec)).flatMap (fun r =>
      (r.stalls.filter (fun p => decide (s.cycle < p.2))).map (fun p => (r.token, p.1))) }
/-- Whether a read that was accepted before a request has not completed. -/
def WsReq.readPending (s : State) (d : Nat) (q : WsReq) : Bool :=
  let x := s.die d
  q.entries.any (fun (c, id) => (x.core c).queue.any (fun e => e.id == id && e.stat != .done)) ||
  q.chunks.any (fun (t, k) => x.runs.any (fun r => r.token == t && r.stalls.any (fun p => p.1 == k && decide (s.cycle < p.2))))
/-- The reply to a command message (R417): from the node it was addressed to, which is this package's own for one that was
sent to 0xFFF before the package had a number. -/
def replyTo (s : State) (h : MsgHdr) (type : Nat) (status : Byte) (rest : List Byte) : State :=
  let src := if h.dst.toNat % 4096 = 0xFFF ∧ s.fw.m.isSome then ownNode s.fw else h.dst
  sendHeaded s h.src src h.tag (fun p g => .command p g (type + 0x8000) status rest)
/-- The state in which a request of die `d` has been applied: its thread goes on, or the host's command is answered once
no die holds it. -/
def wsphDone (s : State) (q : WsReq) : State :=
  let s1 := match q.tid with
    | some t => s.modThread t (fun x => { x with wsDone := true })
    | none => s
  match q.hdr with
  | some h =>
    if s1.dies.any (fun (_, x) => x.wsQueue.any (fun r => r.hdr == some h)) then s1 else replyTo s1 h 0x000A 0#8 []
  | none => s1
/-- The hen of a die applies the request at the head of its queue. -/
def wsphApply (die : Nat) (s : State) : Option State :=
  device (unitCtx die 9 0 s.cur.tid 0) (do
    let x := s.die die
    let q0 ← enabledSome x.wsQueue.head?
    let q := if q0.taken then q0 else q0.noteReads s die
    let same := x.phaseOpen q.sec == q.toOpen
    let busy := if q.toOpen then q.readPending s die else wsWritePending s die q.sec
    if !same && busy then
      -- reads that come from now on are not waited for, and writes are rejected while a seal is under way
      enabled (!q0.taken)
      modDie die fun y => { y with wsQueue := q :: y.wsQueue.tail }
    else
      modDie die fun y => ({ y with wsQueue := y.wsQueue.tail }).setPhase q.sec q.toOpen
      modify fun u => wsphDone u q) s
/-- The step WSPH_APPLY. -/
def execWsphApply (die : Nat) (s : State) : Host.Outcome State Fault Refusal := goes s (wsphApply die s)

end Sys2Proof.Machine
end

