-- ==== Sys2Proof/Machine/Regions.lean ====
section
/-!
DEFINITION. Launching and placing work: offering a control block (R71 to R78), placing regions on squares (R81 to R85,
R407), binding a thread (R79, R86, R384), and the ways it leaves: `yield`, `done`, deadlines and pre-emption (R87 to R92,
R391).
-/
namespace Sys2Proof.Machine

/-! ### The units of a world (R81, R407, R422) -/

/-- Whether a physical core of a die is a secure one. -/
def secureCore (f : Firmware) (d c : Nat) : Bool := (f.part.cores.getD d 0#32).getLsbD c
/-- The working cores of a world on a square, rising. -/
def squareCores (s : State) (sec : Bool) (d q : Nat) : List Nat :=
  (workingCores s d).filter (fun c => c / 4 == q && secureCore s.fw d c == sec)
/-- Squares taken in increasing number until their cores number at least `c`. -/
def gatherSquares (s : State) (sec : Bool) (d c : Nat) : List Nat → List Nat → Option (List Nat)
  | [], _ => none
  | q :: r, cores =>
    let mine := squareCores s sec d q
    if mine.isEmpty then gatherSquares s sec d c r cores
    else if c ≤ (cores ++ mine).length then some (cores ++ mine)
    else gatherSquares s sec d c r (cores ++ mine)
/-- The cores a region of `c` cores takes on a die whose free squares are given: those of its squares (R82, R407). -/
def coresOn (s : State) (sec : Bool) (d c : Nat) (free : Nat → Bool) : Option (List Nat) :=
  let qs := (List.range 8).filter free
  if c ≤ 4 then
    (qs.find? (fun q => decide (c ≤ (squareCores s sec d q).length))).map (squareCores s sec d)
  else gatherSquares s sec d c qs []

/-! ### Offering a region (R73 to R78) -/

/-- The statuses of R73. -/
def stAccepted : Nat := 0
def stBadRcb : Nat := 1
def stBusy : Nat := 2
def stDepth : Nat := 3
def stNoFit : Nat := 4
def stWorld : Nat := 5
/-- The fields of a control block as they stand in memory (R74). -/
def rcbFields (b : List Byte) : Rcb :=
  let f := blkField b
  let a := fun o => BitVec.ofNat 64 (f o 8)
  { entry := a 0x18, tvec := a 0x20, args := a 0x28, cbank := a 0x30, dmap := a 0x38, evq := a 0x40, save := a 0x48
    nct := f 0x50 4, maxcore := f 0x54 2, gang := f 0x56 1, prio := f 0x57 1, maxgran := f 0x58 4, maxslot := f 0x5C 2
    linksh := f 0x5E 1, sec := f 0x5F 1 % 2 == 1, fdom := f 0x60 2, ydl := f 0x64 4, token := BitVec.ofNat 32 (f 0x6C 4) }
/-- The fields of a child before clamping: its own where OVR says so, else its parent's (R76). -/
def inheritFields (own p : Rcb) (ovr : Nat) : Rcb :=
  let o := fun (i : Nat) => ovr.testBit i
  { entry := if o 0 then own.entry else p.entry, tvec := if o 1 then own.tvec else p.tvec
    args := if o 2 then own.args else p.args, cbank := if o 3 then own.cbank else p.cbank
    dmap := if o 4 then own.dmap else p.dmap, evq := if o 5 then own.evq else p.evq
    save := if o 6 then own.save else p.save, nct := if o 7 then own.nct else p.nct
    maxcore := if o 8 then own.maxcore else p.maxcore, gang := if o 9 then own.gang else p.gang
    prio := if o 10 then own.prio else p.prio, maxgran := if o 11 then own.maxgran else p.maxgran
    maxslot := if o 12 then own.maxslot else p.maxslot, linksh := if o 13 then own.linksh else p.linksh
    sec := if o 14 then own.sec else p.sec, fdom := if o 15 then own.fdom else p.fdom
    ydl := if o 16 then own.ydl else p.ydl, token := own.token }
/-- Clamping to the parent's budgets (R76). -/
def clampFields (x p : Rcb) : Rcb :=
  { x with maxcore := min x.maxcore p.maxcore, gang := min x.gang p.gang, prio := min x.prio p.prio
           maxgran := min x.maxgran p.maxgran, maxslot := min x.maxslot p.maxslot, linksh := min x.linksh p.linksh }
/-- The limits of R74 and R75. -/
def fieldsOk (x : Rcb) : Bool :=
  let addr := fun (a : Word64) => a.extractLsb' 55 9 == 0#9
  addr x.entry && addr x.tvec && addr x.args && addr x.cbank && addr x.dmap && addr x.evq && addr x.save &&
  x.entry.toNat % 4 == 0 && x.tvec.toNat % 4 == 0 && x.cbank.toNat % 8 == 0 && x.save.toNat % 1024 == 0 &&
  x.save != 0#64 && decide (1 ≤ x.nct) && decide (x.nct ≤ 1024) && decide (1 ≤ x.maxcore) && decide (x.maxcore ≤ 32) &&
  decide (1 ≤ x.gang) && decide (x.gang ≤ 8) && decide (x.prio < 16) && decide (x.maxgran ≤ 57344) && decide (x.maxslot ≤ 1024)
/-- The reserved bits of a control block; those of a field that a child inherits, and OVR's of a root, do not count. Those of
STATE, which only the device writes once software has zeroed it (R77), are not looked at: R75 does not say whether they
count (DESIGN CHOICE, log entry 31). -/
def reservedOk (b : List Byte) (child : Bool) (ovr : Nat) : Bool :=
  let f := blkField b
  (child && !ovr.testBit 10 || decide (f 0x57 1 < 16)) && (child && !ovr.testBit 14 || decide (f 0x5F 1 < 2)) &&
  f 0x62 2 == 0 && f 0x78 8 == 0 && (!child || decide (ovr < 2 ^ 17))
/-- Cores per die and slots per core (R82). -/
def Rcb.cores (x : Rcb) : Nat := min x.nct x.maxcore
def Rcb.perCore (x : Rcb) : Nat := ceilDiv x.nct x.cores
/-- Whether the configuration in force could ever place a region (R82, R421). -/
def couldFit (s : State) (x : Rcb) : Bool :=
  decide (x.perCore ≤ 4) && decide (x.gang = 1 ∨ (x.nct ≤ 16 ∧ s.fw.inForce.getLsbD 3)) &&
  decide (x.gang ≤ ((List.range 8).filter (fun d => (coresOn s x.sec d x.cores (fun _ => true)).isSome)).length)
/-- Where a control block lies and whether in memory of the secure world, or the status that says why it cannot be used: one
that is not mapped both readable and writable is BADRCB before its world is looked at (R73). -/
def rcbPlace (c : Ctx) (va : Word64) : Exec (Except Nat (Xlat × Bool)) := do
  if va.toNat % 256 ≠ 0 ∨ va.extractLsb' 55 9 ≠ 0#9 then return .error stBadRcb
  else match ← translation c va.toNat with
    | .error .waits => stop .wait
    | .error (.ask q) => stop (.remote [(c.who, q)])
    | .error _ => return .error stBadRcb
    | .ok (e, _) =>
      if !(permits e .read && permits e .write) then return .error stBadRcb
      else match ← attempt (translate c .write va) with
        | .error (.trap cause _ _) => return .error (if cause = cWorld then stWorld else stBadRcb)
        | .error e => stop e
        | .ok x =>
          let s ← get
          return .ok (x, match x.loc with
            | .here key => secureKey s.fw key
            | _ => e.getLsbD 6)
/-- The checks of R73 in their order, on the block as its home has it: the resolved fields, or the status. `p` is the parent, `hostSec` says
that a host of the secure world asks. -/
def checkOffer (c : Ctx) (p : Option Region) (hostSec : Bool) (va : Word64) : Exec (Except Nat Rcb) := do
  match ← rcbPlace c va with
  | .error e => return .error e
  | .ok (at_, inSec) =>
    let (b, bad) ← match ← attempt (readPiece c.atHome va.toNat 128 at_) with
      | .ok r => pure r
      | .error (.trap _ _ _) => pure ([], [0])
      | .error e => stop e
    let s ← get
    let own := rcbFields b
    let ovr := blkField b 0x68 4
    let x := match p with
      | none => own
      | some r => clampFields { inheritFields own r.rcb ovr with prio := (inheritFields own r.rcb ovr).prio % 16 } r.rcb
    let code := blkField b 0x70 8 % 16
    let upSec := match p with
      | none => hostSec
      | some r => r.rcb.sec
    let live := s.regions.any (fun r => r.id == { sec := x.sec, rcb := va })
    if !bad.isEmpty then return .error stBadRcb
    else if !(code == 0 || code == 4 || code == 5) || live then return .error stBusy
    else if (match p with
        | some r => decide (8 ≤ r.depth)
        | none => false) then return .error stDepth
    else if !(reservedOk b p.isSome ovr && fieldsOk x) then return .error stBadRcb
    else if (x.sec && !upSec) || inSec != x.sec then return .error stWorld
    else if !couldFit s x then return .error stNoFit
    else return .ok x
/-- The resolved fields as bytes: those from 0x18 to 0x61, and those at 0x64. -/
def rcbBytes (x : Rcb) : List Byte :=
  [x.entry, x.tvec, x.args, x.cbank, x.dmap, x.evq, x.save].flatMap (fun a => bytesOfNat 8 a.toNat) ++
  bytesOfNat 4 x.nct ++ bytesOfNat 2 x.maxcore ++ bytesOfNat 1 x.gang ++ bytesOfNat 1 x.prio ++ bytesOfNat 4 x.maxgran ++
  bytesOfNat 2 x.maxslot ++ bytesOfNat 1 x.linksh ++ bytesOfNat 1 x.sec.toNat ++ bytesOfNat 2 x.fdom
/-- A thread that has not begun. -/
def newThread (r : RegionId) (i : Nat) : Thread := { Thread.reset with tid := { region := r, idx := i } }
/-- The region of an accepted control block (R76 to R78). -/
def newRegion (id : RegionId) (x : Rcb) (home host : Nat) (clk : List Word32) (p : Option Region) : Region :=
  { id := id, rcb := x, clk := clk, home := home, host := host, parent := p.map (·.id), children := []
    depth := match p with
      | none => 1
      | some r => r.depth + 1
    code := .pending, livect := x.nct, doneCt := 0, trapCt := 0, flags := 0#64, aborting := false, squares := []
    boundAt := 0, owed := [], endClk := List.replicate 8 0#32 }
/-- The state with a region among the living, its threads unbound, waiting at its home die. -/
def addRegion (s : State) (r : Region) : State :=
  let y := s.die r.home
  { s.setDie r.home { y with arrivals := y.arrivals ++ [r.id] } with
    regions := s.regions ++ [r]
    cur := if s.cur.tid.region = r.id then Thread.reset else s.cur
    others := s.others.filter (fun t => t.tid.region != r.id) ++ (List.range r.rcb.nct).map (newThread r.id) }
/-- Accept a region: its control block is resolved and linked, through the translation of its own world (R76 to R78, R424).
Its threads begin after what the spawner's die has seen (R72); a host's message carries no clock. -/
def acceptRegion (id : RegionId) (x : Rcb) (home host : Nat) (p : Option Region) : Exec Unit := do
  let s ← get
  let clk := match p with
    | none => List.replicate 8 0#32
    | some _ => (s.die home).vc
  set (addRegion s (newRegion id x home host clk p))
  let word := fun (o : Option RegionId) => bytesOfNat 8 (match o with
    | some r => r.rcb.toNat
    | none => 0)
  let c := deviceCtx home (regionTid id)
  let at_ := id.rcb.toNat
  deviceWrite c id at_ (word (p.map (·.id)) ++ word none ++ word (p.bind (·.children.head?)))
  deviceWrite c id (at_ + 0x18) (rcbBytes x)
  deviceWrite c id (at_ + 0x64) (bytesOfNat 4 x.ydl)
  writeState id
/-- Offer the control block at `va` (R73): the status, and the region with status 0. -/
def offerRegion (c : Ctx) (p : Option Region) (hostSec : Bool) (host : Nat) (va : Word64) : Exec Nat := do
  match ← checkOffer c p hostSec va with
  | .error e => return e
  | .ok x =>
    let id : RegionId := { sec := x.sec, rcb := va }
    acceptRegion id x c.die host p
    match p with
    | none => return stAccepted
    | some r =>
      writeLink r.id 0x08 (some id)
      setRegion r.id fun y => { y with children := id :: y.children }
      -- a parent whose own block could not be written is being aborted, and takes its new child with it
      let s ← get
      whenB ((s.region? r.id).any (·.aborting)) (modify fun u => startAbort u [id])
      return stAccepted
/-- `spawn` (R159). -/
def execSpawn (d a : Reg) (s : State) :=
  performSeq (.spawn d a) (do
    let va ← readReg a
    release .pkg
    let u ← get
    let st ← offerRegion u.ctx (u.region? u.cur.tid.region) false 0 va
    writeReg d (BitVec.ofNat 64 st)) s

/-! ### Placing regions (R82, R83, R386, R407) -/

/-- Hops from one die to another (R12). -/
def hops (a b : Nat) : Nat :=
  let col := (a % 4 - b % 4) + (b % 4 - a % 4)
  col + if a / 4 = b / 4 then 0 else 1
/-- The candidate dies of a home die, nearest first, without those stopped (R23, R82). -/
def candidates (s : State) (home : Nat) : List Nat :=
  ((List.range 5).flatMap (fun h => (List.range 8).filter (fun d => hops home d == h))).filter (fun d => !(s.die d).stopped)
/-- What placing looks at: which squares are free, the free gang entries of a die, and the link share in use. -/
structure Room where
  free : Nat → Nat → Bool
  gang : Nat → List Nat
  link : Nat
/-- The gang entry numbers of a die that are free once these regions have left. -/
def freeGang (s : State) (gone : List RegionId) (d : Nat) : List Nat :=
  let x := s.die d
  (List.range 16).filter fun i =>
    let g := spGet GangRec.reset x.gangTab i
    !g.valid || gone.contains { sec := x.gangSec d g, rcb := g.rcb }
/-- The room there is once these regions have left (R83); a sequencer that holds a region's squares holds them on (R90). Of
regions that leave, gang entries and link share count as room beside squares, so that regions may be asked to yield for them
alone; R83 speaks of squares, and R82 has a region that would exceed the link share wait (DESIGN CHOICE, log entry 31). -/
def roomWithout (s : State) (gone : List RegionId) : Room :=
  let held := s.regions.filter (fun r => !gone.contains r.id)
  let pinned := s.regions.filter (fun r => gone.contains r.id && seqHolds s r.id)
  { free := fun d q => !(held ++ pinned).any (fun r => r.squares.contains (d, q))
    gang := freeGang s gone
    link := ((held.filter (fun r => r.code == .bound)).map (fun r => r.rcb.linksh)).sum }
/-- The gang entry numbers that are free on all of these dies (R82). -/
def Room.common (m : Room) (ds : List Nat) : List Nat :=
  (List.range 16).filter (fun i => ds.all (fun d => (m.gang d).contains i))
/-- The dies a region takes, with the cores on each (R82). -/
def takeDies (s : State) (x : Rcb) (m : Room) : List Nat → List (Nat × List Nat) → Option (List (Nat × List Nat))
  | [], _ => none
  | d :: r, got =>
    match coresOn s x.sec d x.cores (m.free d) with
    | some cs =>
      if x.gang = 1 then some [(d, cs)]
      else if x.nct ≤ (m.common (got.map (·.1) ++ [d])).length then
        if got.length + 1 = x.gang then some (got ++ [(d, cs)]) else takeDies s x m r (got ++ [(d, cs)])
      else takeDies s x m r got
    | none => takeDies s x m r got
/-- Where a region goes: the dies with the cores on each; a region that still holds its squares goes back to them (R90). -/
def placeFor (s : State) (r : Region) (m : Room) : Option (List (Nat × List Nat)) :=
  if 256 < m.link + r.rcb.linksh then none
  else if r.squares.isEmpty then takeDies s r.rcb m (candidates s r.home) []
  else
    let ds := r.squares.foldl (fun l p => if l.contains p.1 then l else l ++ [p.1]) []
    let got := ds.map (fun d => (d, coresOn s r.rcb.sec d r.rcb.cores (fun q => r.squares.contains (d, q))))
    if ds.any (fun d => (s.die d).stopped) ∨ got.any (fun p => p.2.isNone) ∨
        (r.rcb.gang ≠ 1 ∧ (m.common ds).length < r.rcb.nct) then none
    else some (got.map (fun p => (p.1, p.2.getD [])))
/-- The place of each living thread of a region: thread i on core i mod c, in the core's lowest free slot (R82); the gang
entry of each is the one of its index among those free on every chosen die. -/
def placesOf (s : State) (r : Region) (m : Room) (where_ : List (Nat × List Nat)) : List (Tid × Place) :=
  let c := r.rcb.cores
  let ts := ((livingOf s r.id).map (·.tid.idx)).foldl setAdd []
  let common := m.common (where_.map (·.1))
  ts.map (fun i =>
    let z := (ts.filter (fun j => decide (j < i) && j % c == i % c)).length
    let on := where_.map (fun (d, cs) => (d, 4 * cs.getD (i % c) 0 + z))
    let (lead, slot) := on.headD (0, 0)
    ({ region := r.id, idx := i },
     { die := lead, core := slot / 4, slot := z
       lcore := (workingCores s lead).findIdx (· == slot / 4)
       gang := if r.rcb.gang = 1 then [] else on.foldl (fun (l : Sparse Nat) p => spSet l p.1 p.2) []
       gangEntry := common.getD i 0, maxgran := r.rcb.maxgran }))
/-- Save what other regions own on a square, each into its owner's save area; a state that cannot be saved is lost
(R386). -/
def saveOthers (r : RegionId) (d q : Nat) : Exec Unit := do
  let s ← get
  let owners := ((s.die d).cores.filter (fun p => p.1 / 4 == q)).flatMap (fun (_, k) => k.slots.filterMap (fun (_, z) =>
    match z.owner with
    | some t => if t.region = r then none else some t
    | none => none))
  forEach owners fun o => do
    let c := deviceCtx d o
    match ← attempt (saveState c o none) with
    | .ok _ => pure ()
    | .error (.trap _ _ _) =>
      modify fun u => dropUnres c (freeState u o)
      writeStat c o lostStat
    | .error e => stop e
/-- The communication registers of a square as saved by the lowest thread that is now placed on it (R90). -/
def restoreSquare (r : RegionId) (d q : Nat) : Exec Unit := do
  let s ← get
  match lowestOn s r d q with
  | none => pure ()
  | some t =>
    let b ← deviceRead (deviceCtx d t) (saveArea s t + 0x1B0) 520
    let k : Square :=
      { sems := BitVec.ofNat 64 (blkField b 0 8)
        data := (List.range 64).map (fun i => BitVec.ofNat 64 (blkField b (8 + 8 * i) 8)), waiters := [], last := [] }
    modDie d fun x => x.setSquare q k
/-- The bind record of a thread on a slot (R84). -/
def bindRec (t : Thread) (x : Rcb) (p : Place) : BindRec :=
  { valid := true, rcb := t.tid.region.rcb, ctidx := t.tid.idx, gang := if p.gang.isEmpty then none else some p.gangEntry
    prio := BitVec.ofNat 4 x.prio, sec := t.tid.region.sec, res := t.started, ydl := x.ydl, maxgran := x.maxgran
    save := BitVec.ofNat 64 (x.save.toNat + 1024 * t.tid.idx) }
/-- The state with the hen's records of a thread's binding written (R84, R85). -/
def writeRecords (s : State) (t : Tid) (x : Rcb) (p : Place) : State :=
  match s.thread? t with
  | none => s
  | some th =>
    p.all.foldl (fun (u : State) (d, c, z) =>
      let y := u.die d
      let y2 := { y with slotTab := spSet y.slotTab (4 * c + z) (bindRec th x p) }
      let g : GangRec :=
        { valid := true, rcb := t.region.rcb, ctidx := t.idx, dmask := BitVec.ofNat 8 ((p.gang.map (fun g => 2 ^ g.1)).sum)
          lead := p.die, slots := p.gang }
      u.setDie d (if p.gang.isEmpty then y2 else { y2 with gangTab := spSet y2.gangTab p.gangEntry g })) s
/-- The state with the matrix state of a core as at a region's first binding (R217, R384). -/
def firstBinding (s : State) (places : List (Tid × Place)) : State :=
  places.foldl (fun (u : State) (t, p) => p.all.foldl (fun (v : State) (d, c, z) =>
    if z = 0 then v.setCore d c { (v.core d c).clearMatrix with mown := some t } else v) u) s
/-- Put a region on its squares: what others own there is saved, then its records are written and it is BOUND. -/
def bindRegion (r : Region) (m : Room) (where_ : List (Nat × List Nat)) : Exec Unit := do
  let s ← get
  let squares := where_.flatMap (fun (d, cs) => (cs.foldl (fun l c => setAdd l (c / 4)) []).map (fun q => (d, q)))
  let places := placesOf s r m where_
  forEach squares fun (d, q) => saveOthers r.id d q
  modify fun u => places.foldl (fun (v : State) (t, p) => v.modThread t (fun x => { x with place := p })) u
  whenB r.squares.isEmpty (forEach squares fun (d, q) =>
    if r.code = .pending then modDie d fun x => x.setSquare q Square.reset else restoreSquare r.id d q)
  whenB (r.code == .pending) (modify fun u => firstBinding u places)
  modify fun u => places.foldl (fun (v : State) (t, p) => writeRecords v t r.rcb p) u
  modDie r.home fun x => { x with arrivals := x.arrivals.filter (· != r.id) }
  setRegion r.id fun y => { y with code := .bound, squares := squares, boundAt := s.cycle }
/-- An element put into a list before the first that it comes before. -/
def insertBy {α : Type} (before : α → α → Bool) (x : α) : List α → List α
  | [] => [x]
  | y :: r => if before x y then x :: y :: r else y :: insertBy before x r
/-- Whether a region could go somewhere once these others have left. -/
def fitsWithout (s : State) (r : Region) (gone : List RegionId) : Bool := (placeFor s r (roomWithout s gone)).isSome
/-- Regions that are leaving their squares already: every thread of theirs that is bound has been asked to yield, or none is
left and what holds the squares runs down. -/
def leavingNow (s : State) : List RegionId :=
  (s.regions.filter (fun v => !seqHolds s v.id &&
    s.threads.all (fun t => t.tid.region != v.id || t.status != .bound || t.csr.yreq || t.leaving) &&
    ((v.code == .unbound && !v.squares.isEmpty) ||
      (v.code == .bound && s.threads.any (fun t => t.tid.region == v.id && t.status == .bound))))).map (·.id)
/-- Regions whose leaving would make room for one, as many as it needs beside those that leave already (R83): lowest priority
first, then the most recently bound. -/
def victims (s : State) (r : Region) : List RegionId :=
  let base := (leavingNow s).filter (· != r.id)
  let below := s.regions.filter (fun v => v.code == .bound && decide (v.rcb.prio < r.rcb.prio))
  let before := fun (a b : Region) => decide (a.rcb.prio < b.rcb.prio) || (a.rcb.prio == b.rcb.prio && decide (b.boundAt ≤ a.boundAt))
  let order := (below.foldl (fun l r => insertBy before r l) []).map (·.id)
  match ((List.range (order.length + 1)).map (order.take ·)).find? (fun l => fitsWithout s r (base ++ l)) with
  | none => []
  | some l => l.reverse.foldl (fun keep v =>
      let fewer := keep.filter (· != v)
      if fitsWithout s r (base ++ fewer) then fewer else keep) l
/-- A thread is asked to yield (R83, R87). -/
def Thread.askYield (t : Thread) : Thread :=
  if t.status = .bound ∧ t.csr.yreq = false then
    { t with csr := { t.csr with yreq := true, count := some 4096 }, yieldTrap := true }
  else t
/-- The state in which every thread of these regions is asked to yield. -/
def askRegions (s : State) (vs : List RegionId) : State :=
  let f := fun (t : Thread) => if vs.contains t.tid.region then t.askYield else t
  { s with cur := f s.cur, others := s.others.map f }
/-- The first of these pending regions that can be placed, or can have room made for it, is; whether one was. -/
def placeFirst : List Region → Exec Bool
  | [] => return false
  | r :: rest => do
    let s ← get
    let m := roomWithout s []
    match placeFor s r m with
    | some w =>
      bindRegion r m w
      return true
    | none =>
      let vs := victims s r
      if s.threads.any (fun t => vs.contains t.tid.region && t.status == .bound && !t.csr.yreq) then
        modify fun u => askRegions u vs
        return true
      else placeFirst rest
/-- The pending regions of a die: by priority, highest first, then by arrival (R82). -/
def pendingOf (s : State) (die : Nat) : List Region :=
  let rs := (s.die die).arrivals.filterMap s.region?
  ((List.range 16).reverse).flatMap (fun p => rs.filter (fun r => r.rcb.prio == p))
/-- The BOUND regions of a home die whose threads have all left their slots by losing them, not by leaving last (R23, R404). -/
def strandedOf (s : State) (die : Nat) : List Region := s.regions.filter (fun r => r.home == die && hasLeft s r)
/-- The first of these pieces of work that has something to do is done; where none has, and one of them waits for a page or for
another node, that is asked for. -/
def firstDone : List (Exec Bool) → Exec Unit
  | [] => stop .idle
  | x :: r => do
    match ← attempt x with
    | .ok true => pure ()
    | .ok false => firstDone r
    | .error e =>
      match ← attempt (firstDone r) with
      | .ok _ => pure ()
      | .error .idle => stop e
      | .error f => stop (match e with
        | .wait => f
        | _ => e)
/-- The records that a region is owed for commands that were discarded are posted as the queue takes them (R95, R404). -/
def postRegionOwed (x : Region) : Exec Bool := do
  match x.owed with
  | [] => return false
  | b :: _ =>
    postRecord (deviceCtx x.home (regionTid x.id)) b
    modRegion x.id fun y => { y with owed := y.owed.tail }
    return true
/-- What the hen of a die has to do for the regions whose home it is: those that have lost their slots or their squares' work
leave (R90, R404), records that are owed are posted, those that are to end do (R92), and a pending region is placed, or others
are asked to make room for it. -/
def henWork (s : State) (die : Nat) : List (Exec Bool) :=
  let mine := s.regions.filter (fun r => r.home == die)
  let then_ := fun (x : Exec Unit) => do
    x
    return true
  (strandedOf s die).map (fun r => then_ (regionLeft r.id)) ++
  ((pendingOf s die).filter (fun r => !r.squares.isEmpty && !heldBack s r.id)).map (fun r => then_ (releaseSquares r.id)) ++
  mine.map postRegionOwed ++
  (mine.filter (fun r => r.livect == 0 && r.children.isEmpty)).map (fun r => then_ (endRegion 9 r.id)) ++
  [placeFirst (pendingOf s die)]
/-- The hen of a die does the first thing it has to do. -/
def placeRegion (die : Nat) (s : State) : Option State :=
  device (deviceCtx die s.cur.tid) (whole (firstDone (henWork s die))) s
/-- The step PLACE_REGION: the hen of a die places a pending region, or asks others to make room for it. -/
def execPlaceRegion (die : Nat) (s : State) : Host.Outcome State Fault Refusal := goes s (placeRegion die s)

/-! ### Binding a thread (R79, R84, R86, R384) -/

/-- The thread as it begins (R79). -/
def Thread.begin_ (t : Thread) (x : Rcb) : Thread :=
  let regs := ((((Vector.replicate 32 0#64).set 1 x.args).set 2 t.tid.region.rcb).set 3 (BitVec.ofNat 64 t.tid.idx)).set 4
    (BitVec.ofNat 64 x.nct)
  { t with pc := x.entry, s := regs, csr := { Csrs.reset with tvec := x.tvec }, dmapAddr := x.dmap, lastCbld := 0#64
           egAddr := 0#64, epAddr := 0#64, epCfg := 0#64, force := 0#2, entryCheck := true }
/-- The thread with the results that arrived while it was away. -/
def Thread.takeLate (t : Thread) : Thread :=
  let u := t.lateRegs.foldl (fun (x : Thread) p => x.setReg p.1 p.2) t
  { u with lateRegs := [], lateFlags := 0#64, csr := { u.csr with flags := u.csr.flags ||| t.lateFlags } }
/-- The decode map and the constants a thread is bound with (R79, R114). A thread that was pre-empted in a convoy after its `dmap`
is bound with the map that `dmap` selected, which then decodes the rest of the convoy: the save area holds that one address
(R387), though R114 has the convoy keep the old map (DESIGN CHOICE, log entry 22). -/
def readMaps (c : Ctx) (t : Thread) (x : Rcb) : Exec (List Word32 × List Word64) := do
  let m ← if t.dmapAddr = 0#64 then pure [] else do
    let (b, bad) ← readVa c .read t.dmapAddr 4096
    match bad with
    | g :: _ => trapNow cPoison (BitVec.ofNat 64 g)
    | [] => measureMap b
    pure (wordsOf b)
  let bank := if t.lastCbld = 0#64 then x.cbank else t.lastCbld
  let k ← if bank = 0#64 then pure (List.replicate 256 0#64) else readBank c bank.toNat
  return (m, k)
/-- Whether every record of a thread's binding is in force, on cores that work. -/
def recordsValid (s : State) (t : Thread) : Bool :=
  t.place.all.all (fun (d, c, z) =>
    let b := spGet BindRec.reset (s.die d).slotTab (4 * c + z)
    b.valid && b.rcb == t.tid.region.rcb && b.sec == t.tid.region.sec && b.ctidx == t.tid.idx && !(s.die d).stopped &&
      !(s.die d).deadCores.contains c)
/-- The bound thread becomes the owner of slots that nothing owns, if it never held array state (R384). -/
def ownFirst : Exec Unit := do
  let s ← get
  if !s.cur.everHeld && s.cur.place.all.all (fun (d, c, z) => (s.slotAt d c z).owner.isNone) then
    installState ArrState.reset 0
    let t := s.cur.tid
    writeStat s.cur.deviceCtx t (heldStat s.cur.place.die s.cur.slotNo)
  else pure ()
/-- A thread that cannot be bound ends by trap before its first instruction (R79). -/
def Thread.failBind (t : Thread) (cause : Nat) (va : Word64) : Thread :=
  { t with status := .ending, started := true, endRec := some (cause, t.pc, va) }
/-- Bind the current thread: on each of its dies it acquires what those it left had seen, or at first what its spawner's had (R72,
R369). Where
its save area cannot be read, which R79 and R424 do not settle for a read, the step waits, and the thread is not bound
(DESIGN CHOICE, log entry 31). -/
def dispatch : Exec Unit := do
  let s ← get
  let t := s.cur
  let r ← enabledSome (s.region? t.tid.region)
  let c := t.deviceCtx
  forEach t.place.dieList fun d => modDie d fun x => x.setClock (clkMerge x.vc (if t.started then t.clk else r.clk)) s.cycle
  acquirePkg
  writeLost t.tid
  if t.started then
    let area := saveArea s t.tid
    let lo ← deviceRead c area 0x198
    let hi ← deviceRead c (area + 0x3B8) 32
    modCur fun x => loadSave x lo hi
  else modCur fun x => x.begin_ r.rcb
  match ← attempt (readMaps c (← get).cur r.rcb) with
  | .error (.trap cause _ va) =>
    modify (dropUnres c)
    modCur fun x => x.failBind cause va
  | .error e => stop e
  | .ok _ =>
    let (m, k) ← readMaps c (← get).cur r.rcb
    modCur fun x => { x.takeLate with
      status := .bound, started := true, dmapTab := m, yieldTrap := false, convoy := []
      csr := { x.takeLate.csr with yreq := false, count := if r.rcb.ydl = 0 then none else some r.rcb.ydl } }
    modify fun u => u.setMySlot { u.mySlot with consts := k, graph := none, prog := none }
    ownFirst
    whenB t.started rebindEdge
/-- The dispatch hardware binds a thread whose records the hen has written. -/
def threadDispatch (t : Tid) (s : State) : Option State :=
  match s.thread? t with
  | none => none
  | some x =>
    if x.status = .unbound ∧ recordsValid s x then device x.deviceCtx (whole dispatch) (s.switchTo t) else none
/-- The step THREAD_DISPATCH. -/
def execThreadDispatch (t : Tid) (s : State) : Host.Outcome State Fault Refusal := goes s (threadDispatch t s)

/-! ### Leaving (R87 to R92, R157, R158, R391) -/

/-- `yield` (R158): from the cycle in which it issues no deadline pre-empts the thread; it waits for the thread's arrays and matrix
entries, and for its save area to be written. -/
def execYield (s : State) :=
  perform .yield (do
    checkPaused
    modCur fun t => { t with yielding := true }
    let u ← get
    checkKeep (!(u.unknownBusy || matrixBusy u u.cur.tid)) .wait
    match ← attempt (do
      modCur fun t => { t with pc := t.pc + 4#64, entryCheck := true, csr := { t.csr with instret := t.csr.instret + 1#64 } }
      unbindThread u.cur.tid) with
    | .ok _ => stopKeep .wait
    | .error e => stopKeep e) s
/-- `done` (R92, R160, R245). -/
def execDone (s : State) :=
  perform .done (do
    checkPaused
    modify fun u => dropPaused u u.cur.tid
    let u ← get
    if u.unknownBusy || !threadDrained u u.cur.tid then stopKeep .wait
    else
      endThread u.cur.tid true
      stopKeep .wait) s
/-- A thread's deadline has run out (R87). -/
def deadlineExpiry (t : Tid) (s : State) : Option State :=
  match s.thread? t with
  | none => none
  | some x =>
    if x.status = .bound ∧ x.csr.count = some 0 ∧ x.csr.yreq = false ∧ x.yielding = false then
      some (s.modThread t Thread.askYield)
    else none
/-- The step YIELD_DEADLINE_EXPIRY. -/
def execYieldDeadlineExpiry (t : Tid) (s : State) : Host.Outcome State Fault Refusal := goes s (deadlineExpiry t s)
/-- Whether a thread is to be pre-empted now (R87, R391): a deadline does not pre-empt one whose `yield` has issued (R158); a
stop does (R23, R94, R404). -/
def Thread.preemptDue (t : Thread) : Bool :=
  t.status == .bound && (t.leaving || (t.csr.yreq && t.csr.count == some 0 && !t.yielding))
/-- Whether a thread has an instruction under way that an interruption cannot take back. -/
def mustFinish (s : State) (t : Thread) : Bool := t.park.isSome || t.semTaken || t.wsPending || s.farOut t.tid
/-- Whether trap 0x0B is taken at this boundary (R88): TVEC is looked at here, and not when YREQ becomes 1, which R88 leaves
open (DESIGN CHOICE, log entry 21). -/
def Thread.trapDue (s : State) (t : Thread) : Bool :=
  t.status == .bound && t.yieldTrap && !t.csr.inh && t.csr.tvec != 0#64 && !t.preemptDue && !t.yielding &&
  t.stall.isNone && t.each.isNone && !mustFinish s t
/-- The thread takes trap 0x0B at an instruction boundary, which its matrix posts that have not run may have moved back (R228). -/
def deadlineTrap (t : Tid) (s : State) : Option State :=
  match s.thread? t with
  | none => none
  | some x =>
    if x.trapDue s then
      device x.deviceCtx (do
        interruptTail
        modCur fun y => { y with yieldTrap := false }
        modify fun u => takeTrap u cDeadline 0 0#64 u.cur.pc) (s.switchTo t)
    else none
/-- The step YIELD_DEADLINE_TRAP. -/
def execYieldDeadlineTrap (t : Tid) (s : State) : Host.Outcome State Fault Refusal := goes s (deadlineTrap t s)
/-- Pre-empt the current thread: it stops before the instruction it was in, and leaves its slots. -/
def preempt : Exec Unit := do
  let s ← get
  check (!mustFinish s s.cur && !s.unknownBusy) .wait
  interruptTail
  modify eachStop
  modCur fun t => { t with csr := { t.csr with pcnt := if t.csr.pcnt = 0xFFFF#16 then t.csr.pcnt else t.csr.pcnt + 1#16 } }
  unbindThread s.cur.tid
/-- From here on the thread executes nothing more, and it leaves as soon as it can. -/
def preEmption (t : Tid) (s : State) : Option State :=
  match s.thread? t with
  | none => none
  | some x =>
    if x.preemptDue then
      let u := (s.switchTo t).modThread t (fun y => { y with leaving := true })
      match device x.deviceCtx (whole preempt) u with
      | none => if x.leaving then none else some u
      | r => r
    else none
/-- The step PRE_EMPTION. -/
def execPreEmption (t : Tid) (s : State) : Host.Outcome State Fault Refusal := goes s (preEmption t s)

end Sys2Proof.Machine
end

