-- ==== Sys2Proof/Machine/Errors.lean ====
section
/-!
DEFINITION. Errors, retirement and stops: the error log (R402), marking units (R403, R405), poison that arises (R398), a
failed core (R404), a thermal stop (R23), a failed link lane, and the loss of power (R405).
-/
namespace Sys2Proof.Machine

/-! ### Marking (R403, R405) -/

/-- The firmware with a new current table, written into the copy that does not hold the current GEN. -/
def writeRetTable (f : Firmware) (entries : List RetEntry) : Firmware :=
  let gen := match curTable f with
    | some t => t.gen
    | none => 0#64
  let t : RetTable := { gen := gen + 1#64, entries := entries, valid := true }
  if f.tabA.valid && curTable f == some f.tabA then { f with tabB := t } else { f with tabA := t }
/-- The entries of the current table. -/
def retEntries (f : Firmware) : List RetEntry :=
  match curTable f with
  | some t => t.entries
  | none => []
/-- The state with a unit marked for retirement, once. -/
def markUnit (s : State) (d cls : Nat) (k : UnitKind) (unit : Nat) : State :=
  let es := retEntries s.fw
  if es.any (fun e => e.kind == k && e.die == d && e.unit == unit) ∨ 512 ≤ es.length then s
  else
    let e : RetEntry := { kind := k, die := d, unit := unit, reason := cls, retired := false
                          stamp := BitVec.ofNat 64 s.fw.resetCount }
    { s with fw := writeRetTable s.fw (es ++ [e]) }
/-- Corrected errors of a core's bank pool. -/
def bankErrors (x : DieSt) (core : Nat) : Nat :=
  ((x.errs.filter (fun e => e.cls == clsCorrected && e.kind == .bank && e.unit / 64 == core)).map (·.count)).sum
/-- Whether a die has such a unit, and it is the one that holds the granule at `pa` (R256, R258, R408, R409); for a bank `pa` is
the granule within it. -/
def errorAt (f : Firmware) (d : Nat) (k : UnitKind) (unit pa : Nat) : Bool :=
  let mine := fun (p : Nat → Bool) (u : Nat → Nat) => match locate f pa with
    | .here key => homeOf key == d && p key && u key == unit
    | _ => false
  decide (d < 8) && (match k with
    | .core => decide (unit < 32)
    | .lane => decide (unit < 144) && portDie (unit / 8) == d
    | .bank => decide (unit < 2048) && decide (pa < 1024)
    | .channel => mine (fun key => !isWs key) (fun key => channelOf f d (key % 2 ^ 37 / 128))
    | .l2 => mine (fun _ => true) (fun _ => sliceOf f d pa)
    | .wslice => mine isWs wsSlice)
/-- The physical address an entry names: that of the granule, or 0 for a unit that holds no memory (R402). -/
def errorPa (k : UnitKind) (pa : Nat) : Nat :=
  match k with
  | .core | .lane | .bank => 0
  | _ => pa / 32 * 32
/-- The step CORRECTED_ERROR: no value changes; the unit is marked with its 256th. -/
def execCorrectedError (die : Nat) (kind : UnitKind) (unit pa : Nat) (s : State) : Host.Outcome State Fault Refusal :=
  let t := logError s die clsCorrected kind unit (errorPa kind pa)
  let x := t.die die
  if !errorAt s.fw die kind unit pa then .next s
  else .next (match kind with
    | .core => t
    | .bank => if 256 ≤ bankErrors x (unit / 64) then markUnit t die clsCorrected .core (unit / 64) else t
    | k => if 256 ≤ errCount x clsCorrected k unit then markUnit t die clsCorrected k unit else t)
/-- A granule of a register's storage poisoned, if it is the granule of the core's storage that is named. -/
def ArrReg.strike (r : ArrReg) (g : Nat) : ArrReg :=
  let i := g - r.sbase.toNat
  if r.sbase.toNat ≤ g ∧ i < r.gran.length then
    { r with gran := listSet r.gran i { r.gran.getD i Granule.zero with poison := true } }
  else r
/-- The same of a mask register. -/
def MaskReg.strike (m : MaskReg) (g : Nat) : MaskReg :=
  let i := g - m.sbase.toNat
  if m.sbase.toNat ≤ g ∧ i < m.held then { m with poison := setAdd m.poison i } else m
/-- A core with granule `g` of its array storage poisoned. -/
def CoreSt.strike (k : CoreSt) (g : Nat) : CoreSt :=
  { k with slots := k.slots.map (fun (z, x) => (z, { x with arr := { x.arr with
      regs := x.arr.regs.map (fun r => r.strike g), masks := x.arr.masks.map (fun m => m.strike g) } })) }
/-- What an instruction reads under a mask: the mask, the tag and shape whose units it covers (R165, R190), and for each place
under the mask the elements of each register that are read for it. -/
structure MaskedRead where
  m : BitVec 3
  tag : Tag
  ext : List Nat
  reads : List (Nat × (Nat → List Nat))
/-- A register read at one element for each place. -/
def readsAt (n : Reg) (f : Nat → Nat) : Nat × (Nat → List Nat) := (n.toNat, fun i => [f i])
/-- A register of which elements are moved. -/
def readsMoved (n : Reg) (mv : Nat → Move) : Nat × (Nat → List Nat) :=
  (n.toNat, fun i => match mv i with
    | some (k, _, j) => if k = n.toNat then [j] else []
    | none => [])
/-- A result written into `d` under a mask: beside what is read for it, the old elements where the old descriptor matches (R166). -/
def maskedInto (s : State) (m : BitVec 3) (d : Reg) (ext : List Nat) (reads : List (Nat × (Nat → List Nat))) : MaskedRead :=
  let old := s.arrReg d.toNat
  { m := m, tag := old.tag, ext := ext, reads := if !old.isEmpty && old.ext == ext then reads ++ [readsAt d id] else reads }
/-- What an element-wise instruction of two operands reads under its mask. -/
def ewReads (s : State) (k : EwSrc) (a : Reg) (r : BitVec 3) : Option (List Nat × List (Nat × (Nat → List Nat))) :=
  let ea := (s.arrReg a.toNat).ext
  match k with
  | .arr b =>
    let eb := (s.arrReg b.toNat).ext
    match agree ea eb (rkVal r) with
    | .ok (f, c) => some (f ++ c, [readsAt a (spreadIdx ea (rkVal r) f c), readsAt b (spreadIdx eb (rkVal r) f c)])
    | .error _ => none
  | _ => some (ea, [readsAt a id])
/-- What an instruction of the current thread reads under a mask: element-wise ones, but for the compares and `asel`, whose k is
no mask (R174, R175), and for `asplat`, which does not read its source (R180); reductions and scans, whose mask covers the
source; the structural ones with a mask (R190), of which `afrom` and the searches read their indices and keys under it; stores,
scatters, gathers and array atomics. -/
def maskedRead (s : State) : Instr → Option MaskedRead
  | .aadd k d a m r | .asub k d a m r | .amul k d a m r | .amin k d a m r | .amax k d a m r | .adiv k d a m r
  | .aand k d a m r | .aor k d a m r | .axor k d a m r | .ashl k d a m r | .ashr k d a m r | .acvt k d a m r
  | .ascl k d a m r => (ewReads s k a r).map (fun (ext, l) => maskedInto s m d ext l)
  | .afma k d a m r => (ewReads s k a r).bind fun (sh, l) =>
    let old := s.arrReg d.toNat
    match agree sh old.ext (rkVal r) with
    | .ok (f, c) =>
      let up := spreadIdx sh (rkVal r) f c
      some { m := m, tag := old.tag, ext := f ++ c
             reads := l.map (fun (n, g) => (n, fun i => g (up i))) ++ [readsAt d (spreadIdx old.ext (rkVal r) f c)] }
    | .error _ => none
  | .asplat _ d a m _ => some (maskedInto s m d (s.arrReg a.toNat).ext [])
  | .aabs d a m _ | .aneg d a m _ | .anot d a m _ | .asqrt d a m _ | .arcp d a m _ | .aexp2 d a m _ | .alog2 d a m _
  | .amov d a m _ => some (maskedInto s m d (s.arrReg a.toNat).ext [readsAt a id])
  | .agscl d a m _ => some (maskedInto s m d (blockShape (s.arrReg a.toNat)) [])
  | .aredsum _ a m _ | .aredmax _ a m _ | .aredmin _ a m _ | .aredand _ a m _ | .aredor _ a m _ | .aredxor _ a m _
  | .acount _ a m _ | .ascansum _ a m _ | .ascanmax _ a m _ | .ascanmin _ a m _ =>
    some { m := m, tag := (s.arrReg a.toNat).tag, ext := (s.arrReg a.toNat).ext, reads := [readsAt a id] }
  | .arev d a m r =>
    let (ext, mv) := revMoves a.toNat (s.arrReg a.toNat) (rkVal r)
    some (maskedInto s m d ext [readsMoved a mv])
  | .atrans d a m r =>
    let (ext, mv) := transMoves a.toNat (s.arrReg a.toNat) (rkVal r)
    some (maskedInto s m d ext [readsMoved a mv])
  | .acat d a b m r =>
    match catMoves a.toNat b.toNat (s.arrReg a.toNat) (s.arrReg b.toNat) (rkVal r) with
    | .ok (ext, mv) => some (maskedInto s m d ext [readsMoved a mv, readsMoved b mv])
    | .error _ => none
  | .aoutmul d a b m r | .aoutadd d a b m r | .aouteq d a b m r =>
    match outerIdx (s.arrReg a.toNat).ext (s.arrReg b.toNat).ext (rkVal r) with
    | .ok (ext, ia, ib) => some (maskedInto s m d ext [readsAt a ia, readsAt b ib])
    | .error _ => none
  | .afrom d a b m r =>
    let (fa, ca) := frameCell (s.arrReg a.toNat).ext (rkVal r)
    let (fb, cb) := frameCell (s.arrReg b.toNat).ext (rkVal r)
    match agreeFrames fa fb with
    | .ok frame =>
      let item := (leadOf cb).2
      let na := extProd ca
      some (maskedInto s m d (frame ++ ca ++ item) [readsAt a (fun i =>
        frameIdx frame fa (i / extProd item / na) * na + i / extProd item % na)])
    | .error _ => none
  | .aidxof d a b m r => keyReads d b a m r
  | .amembr d a b m r => keyReads d a b m r
  | .ast d _ _ m _ | .wsst d _ _ m _ => some { m := m, tag := (s.arrReg d.toNat).tag, ext := (s.arrReg d.toNat).ext, reads := [readsAt d id] }
  | .asct d _ b m =>
    some { m := m, tag := (s.arrReg d.toNat).tag, ext := (s.arrReg d.toNat).ext, reads := [readsAt d id, readsAt b id] }
  | .agat d _ b m => some (maskedInto s m d (s.arrReg b.toNat).ext [readsAt b id])
  | _ => none
where
  /-- A search reads the cells of its keys `a` under the mask; the table `b` it reads for every place (R204). -/
  keyReads (d a b : Reg) (m r : BitVec 3) : Option MaskedRead :=
    let (fa, ca) := frameCell (s.arrReg a.toNat).ext (rkVal r)
    let (fb, cb) := frameCell (s.arrReg b.toNat).ext (rkVal r)
    match agreeFrames fa fb with
    | .ok frame =>
      let item := (leadOf cb).2
      let lead := ca.take (ca.length - item.length)
      let per := extProd lead
      some (maskedInto s m d (frame ++ lead) [(a.toNat, fun i =>
        (List.range (extProd item)).map (fun j => (frameIdx frame fa (i / per) * per + i % per) * extProd item + j))])
    | .error _ => none
/-- Whether element `e` of a register lies in granule `i` of share `j`. -/
def ArrReg.inGranule (r : ArrReg) (j i e : Nat) : Bool :=
  (r.elem e).gran == i && (r.parts ≤ 1 || (shareOf r.parts r.ext e).1 == j)
/-- Whether an instruction meets granule `g` of share `j` of its thread's storage, which `own` holds, under mask bit 0 alone:
some place of a unit that is not skipped reads an element in it, and every such place lies under a 0 (R165, R398). -/
def MaskedRead.latent (q : MaskedRead) (s : State) (own : ArrState) (j g : Nat) : Bool :=
  let bit := maskBit own.masks q.m.toNat
  let dies := s.cur.place.dies
  let units := unitsOf (partsOf dies q.ext false) q.tag q.ext
  let places := (units.filter (fun (f, n) => (List.range n).any (fun i => bit (f + i)))).flatMap
    (fun (f, n) => (List.range n).map (f + ·))
  let met := q.reads.flatMap fun (n, idx) =>
    let x := own.regs.getD n ArrReg.reset
    let i := g - x.sbase.toNat
    if x.sbase.toNat ≤ g ∧ i < x.gran.length then
      let r := s.arrReg n
      places.filter (fun p => (idx p).any (r.inGranule j i))
    else []
  q.m != 0#3 && !met.isEmpty && met.all (fun p => !bit p)
/-- The thread whose next instruction meets granule `g` of a core's array storage under mask bit 0 alone (R398). -/
def maskedIn (s : State) (d c g : Nat) : Option Tid :=
  (s.core d c).slots.findSome? fun (z, x) => x.owner.bind fun t =>
    let u := s.switchTo t
    match u.cur.convoy with
    | [] => none
    | op :: _ =>
      let j := u.cur.place.shares.findIdx (· == (d, c, z))
      if u.cur.tid = t ∧ u.cur.status = .bound ∧ (maskedRead u op).any (fun q => q.latent u x.arr j g) then some t else none
/-- An uncorrectable error in granule `g` of a core's array storage: it is poisoned, and the error is latent where the
instruction that meets it does so under mask bit 0 alone, which sets PZ (R398). -/
def strikeBank (d unit g : Nat) (s : State) : State :=
  let c := unit / 64
  let hit := fun (u : State) => u.setCore d c ((u.core d c).strike g)
  match maskedIn s d c g with
  | some t => (hit (logError s d clsLatent .bank unit 0)).modThread t (fun x => x.orFlags flgPZ)
  | none => hit (logError s d clsPoisoned .bank unit 0)
/-- The step UNCORRECTABLE_ERROR (R398): the granule is poisoned, in memory at `pa`, or, for a bank, granule `pa` of it;
the unit is marked with its 4th. -/
def execUncorrectableError (die : Nat) (kind : UnitKind) (unit pa : Nat) (s : State) : Host.Outcome State Fault Refusal :=
  if !errorAt s.fw die kind unit pa then .next s
  else match kind with
    | .core | .lane => .next s
    | .bank => .next (strikeBank die unit (1024 * (unit % 64) + pa) s)
    | k =>
      let t := logError s die clsPoisoned k unit (errorPa k pa)
      let u := match locate s.fw pa with
        | .here key => { t with mem := t.mem.setPoison (key / 32) }
        | _ => t
      .next (if 4 ≤ errCount (u.die die) clsPoisoned k unit then markUnit u die clsPoisoned k unit else u)

/-! ### Limits and the status word (R410, R411) -/

/-- Units of a kind of a die that are retired, a failed core among them (R404). -/
def goneOf (s : State) (k : UnitKind) (d : Nat) : List Nat :=
  let r := retiredOf s.fw k d
  if k = .core then (s.die d).deadCores.foldl setAdd r else r
/-- Ports retired whole. -/
def deadPorts (f : Firmware) : Nat := ((List.range 18).filter (retiredPort f)).length
/-- Counts beside their limits (R410). -/
def limitCounts (s : State) : List (Nat × Nat) :=
  (deadPorts s.fw, 2) :: (List.range 8).flatMap (fun d =>
    let ch := retiredOf s.fw .channel d
    [((goneOf s .core d).length, 4), ((ch.filter (fun c => decide (c < 512))).length, 16),
     ((ch.filter (fun c => decide (512 ≤ c))).length, 16), ((retiredOf s.fw .l2 d).length, 2),
     ((retiredOf s.fw .wslice d).length, 2)])
/-- Whether a limit is reached. -/
def limitReached (s : State) : Bool := (limitCounts s).any (fun c => decide (c.2 ≤ c.1))
/-- The device status word. -/
def statusWord (s : State) : Nat :=
  let bit := fun (i : Nat) (b : Bool) => if b then 2 ^ i else 0
  bit 7 s.fw.corrupt + bit 6 ((limitCounts s).any (fun c => decide (c.2 < c.1))) + bit 5 s.fw.replace +
  bit 4 ((retEntries s.fw).any (fun e => !e.retired)) + bit 3 (s.dies.any (fun p => p.2.stopped))

/-! ### A failed core (R404) -/

/-- What a failed core's commands leave: records that are owed, and registers that no result will reach. -/
structure Dropped where
  owed : List (Tid × List Byte)
  regs : List (Tid × Reg)
/-- A die without the matrix entries and the engine commands that were posted from core `c`, and what they leave (R404). -/
def DieSt.dropCommands (x : DieSt) (c : Nat) : DieSt × Dropped :=
  let from_ := fun (slot : Nat) => slot / 4 == c
  let fabFrom := fun (q : FabCmd) => match q with
    | .sgraph _ _ z _ _ => from_ z
    | .srun r => from_ r.slot
    | .spub _ z _ _ _ => from_ z
    | .sdisc _ z _ _ => from_ z
  let fab := x.fabQueue.filter fabFrom
  let runs := x.runs.filter (fun r => from_ r.slot)
  let cpy := x.cpyQueue.filter (fun q => from_ q.slot)
  let exp := x.expQueue.filter (fun q => from_ q.slot)
  let k := x.core c
  let gone := (runs.map (·.token)) ++ (cpy.map (·.token)) ++ fab.filterMap (fun q => match q with
    | .srun r => some r.token
    | _ => none)
  let staged := (exp.map (fun q => match q.work with
    | .tseq z => z.bufs.length + (z.outs.filter (·.page)).length
    | .ttbld _ => 0)).sum
  let y := { x with
    fabQueue := x.fabQueue.filter (fun q => !fabFrom q), runs := x.runs.filter (fun r => !from_ r.slot)
    cpyQueue := x.cpyQueue.filter (fun q => !from_ q.slot), expQueue := x.expQueue.filter (fun q => !from_ q.slot)
    staged := x.staged - staged, shadows := x.shadows.filter (fun k => !gone.contains k.token) }
  (y.setCore c { k.dropEntries (fun _ => true) with edge := [] },
    { owed := fab.filterMap FabCmd.unrun ++
        runs.filterMap (fun r => if r.ev then some (r.tid, unrunRecord 1 r.token r.blk.chunks) else none) ++
        cpy.filterMap (fun q => if q.ev then some (q.tid, unrunRecord 3 q.token q.chunks) else none) ++
        exp.filterMap ExpCmd.unrun ++
        k.edge.filterMap (fun r => if r.ev then some (r.tid, unrunRecord 2 r.token 0) else none)
      regs := fab.filterMap (fun q => match q with
          | .spub t _ _ _ r => some (t, r)
          | .sdisc t _ _ r => some (t, r)
          | _ => none) ++
        k.queue.filterMap (fun e => match e.op with
          | .mqry _ _ r => some (e.tid, r)
          | _ => none) })
/-- Whether a thread's slots lie on a core. -/
def Thread.onCore (t : Thread) (d c : Nat) : Bool := t.place.all.any (fun p => p.1 == d && p.2.1 == c)
/-- Threads that are bound on a core, or whose array state lies in its slots: it is lost (R404). -/
def threadsOnCore (s : State) (d c : Nat) : List Tid :=
  let bound := (s.threads.filter (fun t => t.status == .bound && t.onCore d c)).map (·.tid)
  let owners := (s.core d c).slots.filterMap (fun p => p.2.owner)
  owners.foldl (fun l t => if l.contains t then l else l ++ [t]) bound
/-- A thread of a core that has failed: what it has under way there is cut off, a resumable instruction at its lowest group that
has not finished (R391, R404). -/
def Thread.cutOff (t : Thread) : Thread :=
  let at_ := match t.park, t.each with
    | some p, _ => some (p.todo.headD 0)
    | none, some j => some (8 * j.lowest)
    | none, none => none
  match at_ with
  | some n => { t with park := none, each := none, stall := none, csr := { t.csr with astart := BitVec.ofNat 64 n } }
  | none => t
/-- The state in which these bound threads are stopped at once, as by ABORT (R94), their regions not aborted; those that are
still to be dispatched are not (R23, R404). -/
def stopThreads (s : State) (mine : Thread → Bool) : State :=
  let f := fun (t : Thread) =>
    if mine t && t.status == .bound then { t with leaving := true, csr := { t.csr with yreq := true, count := some 0 } } else t
  let idle := (s.threads.filter (fun t => mine t && t.status == .unbound)).map (·.tid)
  let u := if idle.isEmpty then s else s.clearRecords (idle.contains ·)
  { u with cur := f u.cur, others := u.others.map f }
/-- A core fails. The state of a thread that is lost is marked LOST at once, or where that write is held, before the thread
goes on (R424). -/
def failCore (d c : Nat) : Exec Unit := do
  let s ← get
  let ts := threadsOnCore s d c
  modify fun u => markUnit (logError u d clsFailure .core c 0) d clsFailure .core c
  modDie d fun x => { x with deadCores := setAdd x.deadCores c }
  modify fun u => { u with fw := { u.fw with replace := u.fw.replace || limitReached u } }
  let (x, gone) := ((← get).die d).dropCommands c
  setDie d x
  forEach gone.regs fun (t, r) => modThread t fun y => { y with pendRegs := y.pendRegs.erase r }
  modify fun v =>
    let w := stopThreads v (fun t => t.onCore d c)
    let cut := fun (t : Thread) => if t.status == .bound && t.onCore d c then t.cutOff else t
    { w with cur := cut w.cur, others := w.others.map cut, topks := w.topks.filter (fun k => !(k.die == d && k.core == c)) }
  modify fun v => ts.foldl (fun u t => (freeState u t).modThread t (fun y => { y with lost := true })) v
  forEach ts fun t => do
    match ← attempt (writeLost t) with
    | _ => pure ()
  forEach gone.owed fun (t, b) => do
    match ← attempt (postRecord (deviceCtx d t) b) with
    | .ok _ => pure ()
    | .error _ => modRegion t.region fun r => { r with owed := r.owed ++ [b] }
/-- The step CORE_FAILURE. -/
def execCoreFailure (die core : Nat) (s : State) : Host.Outcome State Fault Refusal :=
  goes s (device (deviceCtx die s.cur.tid) (do
    enabled (decide (die < 8) && decide (core < 32) && (workingCores s die).contains core)
    failCore die core) s)

/-! ### Thermal stops (R22, R23) -/

/-- The step THERMAL_STOP. -/
def execThermalStop (die : Nat) (s : State) : Host.Outcome State Fault Refusal :=
  if (s.die die).stopped then .next s
  else
    let t := s.setDie die { s.die die with stopped := true }
    .next (stopThreads t (fun x => x.place.all.any (fun p => p.1 == die)))
/-- The step THERMAL_RESUME. -/
def execThermalResume (die : Nat) (s : State) : Host.Outcome State Fault Refusal :=
  if (s.die die).stopped then .next (s.setDie die { s.die die with stopped := false }) else .next s

/-! ### Link lanes and power (R403, R405, R413) -/

/-- The step LINK_TRAINING_FAILURE. -/
def execLinkTrainingFailure (port lane : Nat) (s : State) : Host.Outcome State Fault Refusal :=
  if port < 18 ∧ lane < 8 then
    let d := portDie port
    .next (markUnit (logError s d clsFailure .lane (8 * port + lane) 0) d clsFailure .lane (8 * port + lane))
  else .next s
/-- The machine without power keeps only its nonvolatile store: the retirement table, and the count of RESETs (R405,
R419). `sign` says that the copy that was being written has lost its signature. -/
def coldState (s : State) (torn : Bool) : State :=
  let f := s.fw
  let a := if torn && curTable f != some f.tabA then { f.tabA with valid := false } else f.tabA
  let b := if torn && curTable f == some f.tabA then { f.tabB with valid := false } else f.tabB
  { State.reset with
    fw := { Firmware.reset with resetCount := f.resetCount, tabA := a, tabB := b, replace := f.replace }
    agenda := s.agenda, draws := s.draws }
/-- The step POWER_LOSS. -/
def execPowerLoss (midWrite : Bool) (s : State) : Host.Outcome State Fault Refusal :=
  .next { coldState s midWrite with powered := false }
/-- The step POWER_UP. -/
def execPowerUp (s : State) : Host.Outcome State Fault Refusal :=
  if s.powered then .next s else .next { coldState s false with powered := true }

end Sys2Proof.Machine
end

