-- ==== Sys2Proof/Machine/Host.lean ====
section
/-!
DEFINITION. The host and the link: command messages and their replies (R413, R416 to R418), RESET with its retirements,
partition and patches (R406, R420, R422), the records of ENUM, RETIRE-READ and ATTEST (R405, R419, R423), and the traffic
of other nodes (R415).
-/
namespace Sys2Proof.Machine

/-! ### Host memory (R418) -/

/-- The firmware's requests for the pieces of an access, answered; what is not yet asked for is asked for at once, and an
error fails the command. -/
def hostAsk (qs : List LinkReq) : Exec (List (List Byte)) := do
  let s ← get
  let mine := s.fw.remotes.filter (fun r => r.who == .firmware)
  let missing := qs.filter (fun q => !mine.any (fun r => r.req == q))
  if !missing.isEmpty then stop (.remote (missing.map (fun q => (.firmware, q))))
  else mapEach qs fun q => do
    match (mine.find? (fun r => r.req == q)).bind (·.reply) with
    | none => stop .wait
    | some .error => stop (.trap 0 0 0#64)
    | some (.data b bad) =>
      check bad.isEmpty (.trap 0 0 0#64)
      return b
/-- Read `n` bytes at a node-qualified physical address. -/
def hostRead (pa n : Nat) : Exec (List Byte) := do
  let s ← get
  match locate s.fw pa with
  | .here key =>
    check (poisonHere s key n).isEmpty (.trap 0 0 0#64)
    return s.mem.readN key n
  | .nowhere => stop (.trap 0 0 0#64)
  | .far _ => do
    let parts ← hostAsk ((piecesOf pa n).map (fun (a, k) => .read a k))
    return parts.flatten
/-- Write bytes at a node-qualified physical address. -/
def hostWrite (pa : Nat) (b : List Byte) : Exec Unit := do
  let s ← get
  match locate s.fw pa with
  | .here key => set (landBytes key b [] s)
  | .nowhere => stop (.trap 0 0 0#64)
  | .far _ => do
    let _ ← hostAsk ((piecesOf pa b.length).map (fun (a, k) => .write a ((b.drop (a - pa)).take k) []))
/-- Bytes of a value, the most significant first. -/
def bigEndian (n v : Nat) : List Byte := (bytesOfNat n v).reverse

/-! ### Commands (R413, R416, R417) -/

/-- Statuses of R417. -/
def rOk : Byte := 0#8
def rBad : Byte := 1#8
def rBusy : Byte := 2#8
def rWorld : Byte := 5#8
/-- A node identifier of a header. -/
def hostNode (x : BitVec 16) : Nat := x.toNat % 4096
/-- Whether a message is addressed to this package (R413). -/
def forUs (f : Firmware) (h : MsgHdr) : Bool :=
  match f.m with
  | none => hostNode h.dst == 0xFFF
  | some m => hostNode h.dst == 2 * m || hostNode h.dst == 2 * m + 1
/-- Whether a message comes from the secure host (R422). -/
def fromSecure (f : Firmware) (h : MsgHdr) : Bool :=
  f.inForce.getLsbD 1 && f.secHost != 0xFFF#16 && hostNode h.src == hostNode f.secHost
/-- WORLD of a message. -/
def hdrSec (h : MsgHdr) : Bool := h.world.getLsbD 0
/-- Whether a header holds nothing reserved. -/
def hdrOk (h : MsgHdr) : Bool :=
  !h.rsv && decide (h.dst.toNat < 4096) && decide (h.src.toNat < 4096) && decide (h.world.toNat < 2)
/-- A reply of the current command, `rest` being its bytes from 24 on. -/
def answer (h : MsgHdr) (type : Nat) (status : Byte) (rest : List Byte) : Exec Unit :=
  modify fun s => replyTo s h type status (if rest.isEmpty then [] else List.replicate 7 0#8 ++ rest)
/-- The header of a command. -/
def headerOf : Instr → Option MsgHdr
  | .reset h _ _ _ _ _ => some h
  | .enum h _ => some h
  | .negotiate h _ => some h
  | .map h _ _ => some h
  | .spawnMessage h _ _ => some h
  | .abort h _ _ => some h
  | .health h _ => some h
  | .retireRead h _ => some h
  | .attest h _ _ => some h
  | .wsphase h _ _ => some h
  | .remoteRequest _ _ _ (.message _ h) => some h
  | _ => none
/-- What a command does once its turn has come: the checks of R413, R417 and R422, then its own effect. -/
def takeCommand (h : MsgHdr) (type : Nat) (ok : Bool) (body : Exec Unit) : Exec Unit := do
  let s ← get
  if s.fw.m.isNone && type != 1 then answer h type rBusy []
  else if !hdrOk h || !ok then answer h type rBad []
  else if hdrSec h && !fromSecure s.fw h then answer h type rWorld []
  else body
/-- The state in which the writes that a command's header counts are no longer owed by its sender (R416, R417). -/
def countedOff (h : MsgHdr) (s : State) : State :=
  { s with fw := { s.fw with wcnt := spSet s.fw.wcnt h.src.toNat (spGet 0 s.fw.wcnt h.src.toNat - h.wcnt.toNat) } }
/-- The state with a command waiting. -/
def queueCommand (s : State) (i : Instr) : State := { s with fw := { s.fw with commands := s.fw.commands ++ [i] } }
/-- The state with a command done. -/
def dropCommand (s : State) (i : Instr) : State :=
  { s with fw := { s.fw with commands := s.fw.commands.erase i
                             remotes := s.fw.remotes.filter (fun r => r.who != .firmware) } }
/-- The state with a request of the firmware, or of the device for a region, sent. Before the first RESET no route is known: it
leaves by the port the RESET came by, which is written as port 0. -/
def postFirmware (s : State) (q : Agent × LinkReq) : State :=
  if s.fw.m.isSome then postRequest s q.1 q.2
  else
    let tag := s.fw.nextTag
    let r : Remote := { tag := tag, who := q.1, req := q.2, sent := s.cycle, port := 0, reply := none }
    { s with fw := { s.fw with nextTag := tag + 1, remotes := s.fw.remotes ++ [r]
                               linkOut := s.fw.linkOut ++ [.request 0 tag q.2] } }
/-- A step of a command message: it waits for earlier commands of its sender, for the writes its header counts (R416), and
for what it reads and writes over the link. One addressed to another node has no effect here (R413). -/
def commandStep (i : Instr) (h : MsgHdr) (type : Nat) (ok : Bool) (body : Exec Unit) (s : State) :
    Host.Outcome State Fault Refusal :=
  let s0 := if s.fw.commands.contains i then s else queueCommand s i
  let first := s0.fw.commands.find? (fun j => (headerOf j).any (fun g => g.src == h.src)) == some i
  if !forUs s.fw h then .next s
  else if !first || decide (spGet 0 s.fw.wcnt h.src.toNat < h.wcnt.toNat) then .next s0
  else match takeCommand h type ok body (countedOff h s0) with
    | .ok (_, u) => .next (dropCommand u i)
    | .error (.remote qs) => .next (qs.foldl postFirmware s0)
    | .error (.keep u .wait) => .next { u with fw := { u.fw with wcnt := s0.fw.wcnt } }
    | .error (.trap _ _ _) => match (answer h type rBad []) (countedOff h s0) with
      | .ok (_, u) => .next (dropCommand u i)
      | .error _ => .next s0
    | .error _ => .next s0

/-! ### RESET (R406, R413, R418, R420 to R423) -/

/-- The state with every write that is still to be applied, or to be performed, applied at its home. -/
def settleWrites (s : State) : State :=
  s.stores.foldl (fun (t : State) h => landBytes h.key h.bytes h.poison t)
    (s.xwrites.foldl (fun (t : State) w => landBytes w.pa w.bytes w.poison t) { s with xwrites := [], stores := [] })
/-- The route table of the bytes of its 4096 words: the words that are not 0. -/
def routesOf (b : List Byte) : Sparse Word32 :=
  (((wordsOf b).zip (List.range 4096)).filter (fun p => p.1 != 0#32)).map (fun p => (p.2, p.1 &&& 0x3FFFF#32))
/-- The partition record (R422). -/
def partitionOf (b : List Byte) : Partition :=
  { cores := (List.range 8).map (fun d => BitVec.ofNat 32 (blkField b (4 * d) 4))
    ways := (List.range 8).map (fun d => BitVec.ofNat 8 (blkField b (32 + d) 1))
    wslc := (List.range 8).map (fun d => BitVec.ofNat 16 (blkField b (40 + 2 * d) 2))
    preg := BitVec.ofNat 64 (blkField b 56 8) }
/-- A patch as the list names it, its image read. -/
structure Patch where
  length : Nat
  tail : Nat
  image : List Byte
/-- Read the patch list and its images; none for a list that is not as R420 has it. -/
def readPatches (pa : Nat) : Exec (Option (List Patch)) := do
  let h ← hostRead pa 16
  let n := blkField h 0 4
  if 16 < n ∨ blkField h 4 4 ≠ 1 ∨ blkField h 8 8 ≠ 0 then return none
  else
    let l ← hostRead pa (16 + 16 * n)
    let ps ← mapEach (List.range n) fun i => do
      let o := 16 + 16 * i
      let len := blkField l (o + 8) 4
      let img ← if len = 0 then pure [] else hostRead (blkField l o 8) len
      return ({ length := len, tail := blkField l (o + 12) 4, image := img } : Patch)
    return some ps
/-- Whether a patch is accepted (R420). -/
def Patch.ok (p : Patch) : Bool :=
  let f := blkField p.image
  let c := f 0x04 4
  p.tail == 0 && p.length == c + 128 && f 0 4 == 1 && c % 4 == 0 && f 0x08 4 % 4 == 0 && decide (f 0x08 4 + c ≤ 262144) &&
  f 0x0C 4 % 2 == 0 && decide (f 0x0C 4 < c) && (p.image.drop 0x11).take 47 == List.replicate 47 0#8 &&
  Config.firmwareVerify (p.image.take (0x40 + c)) (BitVec.ofNat 512 (natOfBytes ((p.image.drop (0x40 + c)).take 64).reverse))
/-- A patch memory with a patch loaded. -/
def loadPatch (m : List Host.Cell) (p : Patch) : List Host.Cell :=
  let o := blkField p.image 0x08 4
  (((p.image.drop 0x40).take (blkField p.image 0x04 4)).zip (List.range p.image.length)).foldl
    (fun (l : List Host.Cell) q => cellSet l (o + q.2) q.1) m
/-- The patch memory of a die's hen once these patches are loaded. -/
def patchMemOf (ps : List Patch) (d : Nat) : List Host.Cell :=
  (ps.filter (fun p => p.ok && (BitVec.ofNat 8 (blkField p.image 0x10 1)).getLsbD d)).foldl loadPatch []
/-- The entry points that a die's hen calls, in list order, once its patches are loaded (R420). A patch changes no behaviour that
the manual states, so that a call has no other effect here. -/
def patchCallsOf (ps : List Patch) (d : Nat) : List Nat :=
  (ps.filter (fun p => p.ok && (BitVec.ofNat 8 (blkField p.image 0x10 1)).getLsbD d)).map
    (fun p => blkField p.image 0x08 4 + blkField p.image 0x0C 4)
/-- The mask of refused patches. -/
def refusedMask (ps : List Patch) : Nat :=
  ((List.range ps.length).zip ps).foldl (fun m (i, p) => if p.ok then m else m + 2 ^ i) 0
/-- The firmware with every marked entry retired (R406), and CORRUPT where no copy verifies. -/
def applyMarks (f : Firmware) : Firmware :=
  match curTable f with
  | none => { f with corrupt := true }
  | some t =>
    let g := { f with corrupt := false }
    if t.entries.all (·.retired) then g else writeRetTable g (t.entries.map (fun e => { e with retired := true }))
/-- Whether marked entries of the table would lose the contents of DRAM (R406). -/
def losesDram (f : Firmware) : Bool :=
  (retEntries f).any (fun e => !e.retired && (e.kind == .channel || e.kind == .l2))
/-- Memory without its DRAM. -/
def dropDram (m : Memory) : Memory :=
  { cells := m.cells.filter (fun c => isWs c.1), poison := m.poison.filter (fun g => isWs (32 * g)) }
/-- The module as RESET leaves it. A die that is stopped stays so until its sensors let it resume (R23). -/
def resetState (s : State) (m : Nat) (secHost : BitVec 16) (routes : Sparse Word32) (part : Partition) (ps : List Patch) : State :=
  let f := applyMarks s.fw
  let kept := (settleWrites s).mem
  let fw : Firmware :=
    { f with
      m := some m, secHost := secHost, resetCount := min (f.resetCount + 1) 0xFFFF, inForce := f.accepted, routes := routes
      part := part, tableNs := none, tableSec := none
      log := (1, Config.romDigest) :: ps.map (fun p => (2, Config.sha256 p.image)), logOvf := false, remotes := []
      refused := BitVec.ofNat 16 (refusedMask ps) }
  let t : State :=
    { State.reset with
      mem := if losesDram s.fw then dropDram kept else kept
      dies := (List.range 8).map (fun d => (d,
        { DieSt.reset with
          patchMem := patchMemOf ps d
          patchCalls := patchCallsOf ps d
          stopped := (s.die d).stopped }))
      fw := fw
      agenda := s.agenda, draws := s.draws }
  { t with fw := { t.fw with replace := t.fw.replace || limitReached t } }
/-- The step RESET: the place of a patch list counts only where one is read (R420, R421). -/
def execReset (h : MsgHdr) (m secHost : BitVec 16) (routes part patches : Word64) (s : State) :
    Host.Outcome State Fault Refusal :=
  let ok := decide (m.toNat ≤ 2046) && decide (secHost.toNat < 4096) &&
    (!s.fw.accepted.getLsbD 2 || patches.toNat % 64 == 0)
  commandStep (.reset h m secHost routes part patches) h 1 ok (do
    let u ← get
    let rt ← hostRead routes.toNat 16384
    let p ← if part = 0#64 then pure [] else hostRead part.toNat 64
    let ps ← if patches = 0#64 ∨ u.fw.accepted.getLsbD 2 = false then pure (some []) else readPatches patches.toNat
    match ps with
    | none => answer h 1 rBad []
    | some l =>
      let world := if p.isEmpty ∨ u.fw.accepted.getLsbD 1 = false then Partition.reset else partitionOf p
      modify fun v => resetState v m.toNat secHost (routesOf rt) world l
      answer h 1 rOk (bytesOfNat 8 (refusedMask l))) s

/-! ### ENUM (R419) -/

/-- The bits 0 to `n` − 1 that are not in a list. -/
def maskOfWorking (n : Nat) (gone : List Nat) : Nat :=
  (List.range n).foldl (fun m i => if gone.contains i then m else m + 2 ^ i) 0
/-- Working lanes of a port. -/
def lanesOf (f : Firmware) (port : Nat) : Nat :=
  maskOfWorking 8 (((retiredOf f .lane (portDie port)).filter (fun i => i / 8 == port)).map (· % 8))
/-- GB/s of a port per direction (R20, R409). -/
def portRate (f : Firmware) (port : Nat) : Nat := if retiredPort f port then 0 else if lanesOf f port = 255 then 224 else 112
/-- The entry of a die. -/
def enumDie (s : State) (d : Nat) : List Byte :=
  let f := s.fw
  bytesOfNat 4 (maskOfWorking 32 (goneOf s .core d)) ++ bytesOfNat 2 (maskOfWorking 16 (retiredOf f .wslice d)) ++
  bytesOfNat 1 (s.die d).stopped.toNat ++ bytesOfNat 1 0 ++ bytesOfNat 8 (maskOfWorking 64 (retiredOf f .l2 d)) ++
  bytesOfNat 8 (Config.faultQueueAddr d) ++ bytesOfNat 8 (Config.errorLogAddr d) ++ bytesOfNat 8 (dramBytes f d) ++
  bytesOfNat 24 0 ++ bytesOfNat 128 (maskOfWorking 1024 (retiredOf f .channel d)) ++ bytesOfNat 64 0
/-- The figures in force (R19, R20). -/
def enumFigures (s : State) : List Byte :=
  let f := s.fw
  let sum := fun (g : Nat → Nat) => ((List.range 8).map g).sum
  let cores := sum (fun d => (workingCores s d).length)
  let slots := sum (fun d => 8 * (16 - (retiredOf f .wslice d).length))
  let channels := sum (fun d => 1024 - (retiredOf f .channel d).length)
  bytesOfNat 4 cores ++ bytesOfNat 4 slots ++ bytesOfNat 8 (cores * 65536) ++ bytesOfNat 8 (sum (dramBytes f)) ++
  bytesOfNat 8 (channels * 128 / 10) ++ bytesOfNat 8 (sum (fun d => (64 - (retiredOf f .l2 d).length) * 3 * 2 ^ 20)) ++
  bytesOfNat 8 (((List.range 18).map (portRate f)).sum) ++ bytesOfNat 16 0
/-- The ENUM record. -/
def enumRecord (s : State) : List Byte :=
  let f := s.fw
  let cert := Config.certificate.take 2016
  let head :=
    bytesOfNat 8 0x1F ++ bytesOfNat 8 f.accepted.toNat ++ bytesOfNat 8 f.inForce.toNat ++ bytesOfNat 4 1 ++
    bytesOfNat 2 (f.m.getD 0) ++ bytesOfNat 2 f.resetCount ++ bytesOfNat 4 (statusWord s) ++ bytesOfNat 28 0 ++
    (List.range 8).flatMap (enumDie s) ++
    (List.range 18).flatMap (fun k => bytesOfNat 2 (lanesOf f k + if retiredPort f k then 256 else 0)) ++ bytesOfNat 28 0 ++
    enumFigures s ++ 4#8 :: bigEndian 64 Config.identityKey.toNat ++ bytesOfNat 15 0 ++ bytesOfNat 4 cert.length ++ bytesOfNat 12 0 ++ cert
  head ++ List.replicate (4352 - head.length) 0#8
/-- The step ENUM. -/
def execEnum (h : MsgHdr) (pa : Word64) (s : State) : Host.Outcome State Fault Refusal :=
  commandStep (.enum h pa) h 2 (pa.toNat % 128 == 0) (do
    hostWrite pa.toNat (enumRecord (← get))
    answer h 2 rOk []) s

/-! ### The other commands (R394, R405, R411, R418, R421, R423) -/

/-- The state in which no TLB holds a translation that `p` picks. -/
def dropTlb (p : TlbEnt → Bool) (s : State) : State :=
  let kept := fun (l : List TlbEnt) => l.filter (fun e => !p e)
  { s with dies := s.dies.map (fun (d, x) =>
      (d, { x with tlb := kept x.tlb, cores := x.cores.map (fun (i, k) => (i, { k with tlb := kept k.tlb })) })) }
/-- The step NEGOTIATE (R421): bits 0, 3 and 4 take effect at once, and without bit 4 no translation with MSA = 1 is valid. -/
def execNegotiate (h : MsgHdr) (req : Word64) (s : State) : Host.Outcome State Fault Refusal :=
  commandStep (.negotiate h req) h 3 true (do
    let u ← get
    if !u.regions.isEmpty then answer h 3 rBusy []
    else
      let acc := req &&& 0x1F#64
      modFw fun f => { f with accepted := acc, inForce := (f.inForce &&& 0x06#64) ||| (acc &&& 0x19#64)
                              faultHost := if acc.getLsbD 0 then h.src else f.faultHost }
      whenB (!acc.getLsbD 4) (modify (dropTlb (fun e => e.entry.getLsbD 5)))
      answer h 3 rOk (bytesOfNat 8 acc.toNat)) s
/-- The step MAP. -/
def execMap (h : MsgHdr) (world : Byte) (pa : Word64) (s : State) : Host.Outcome State Fault Refusal :=
  commandStep (.map h world pa) h 4 (decide (world.toNat < 2) && pa.toNat % 65536 == 0 && decide (pa.toNat < 2 ^ 52)) (do
    let u ← get
    let sec := world.getLsbD 0
    if sec && !fromSecure u.fw h then answer h 4 rWorld []
    else
      modFw fun f => if sec then { f with tableSec := some pa.toNat } else { f with tableNs := some pa.toNat }
      modify (dropTlb (fun e => e.sec == sec))
      answer h 4 rOk []) s
/-- The step SPAWN_MESSAGE (R71 to R78). -/
def execSpawnMessage (h : MsgHdr) (rcb : Word64) (die : Byte) (s : State) : Host.Outcome State Fault Refusal :=
  commandStep (.spawnMessage h rcb die) h 5 (decide (die.toNat < 8)) (do
    let c : Ctx := { deviceCtx die.toNat (regionTid { sec := hdrSec h, rcb := rcb }) with who := .firmware }
    let st ← offerRegion c none (hdrSec h) (hostNode h.src) rcb
    answer h 5 (BitVec.ofNat 8 st) []) s
/-- The regions an ABORT names: a root region of the message's world, or every region of a fault domain. -/
def abortRoots (s : State) (h : MsgHdr) (kind : Byte) (key : Word64) : List Region :=
  s.regions.filter (fun r =>
    if kind = 0#8 then r.parent.isNone && r.id.rcb == key && r.id.sec == hdrSec h else r.rcb.fdom == key.toNat)
/-- The step ABORT (R94). -/
def execAbort (h : MsgHdr) (kind : Byte) (key : Word64) (s : State) : Host.Outcome State Fault Refusal :=
  commandStep (.abort h kind key) h 6 (decide (kind.toNat < 2)) (do
    let u ← get
    let rs := abortRoots u h kind key
    let other := kind == 0#8 && rs.isEmpty && u.regions.any (fun r => r.parent.isNone && r.id.rcb == key && r.id.sec)
    if !fromSecure u.fw h && (other || rs.any (·.id.sec)) then answer h 6 rWorld []
    else
      let roots := rs.map (·.id)
      let n := ((withDescendants u roots).filter (fun r => u.regions.any (fun x => x.id == r && !x.aborting))).length
      modify fun v => startAbort v roots
      answer h 6 rOk (bytesOfNat 8 n)) s
/-- The error logs of every die, by slot (R402). -/
def errorLogs (s : State) : List Byte :=
  (List.range 8).flatMap (fun d => (denseFrom (List.replicate 32 0#8) 256 0 (s.die d).errLog).flatten)
/-- The step HEALTH (R411). -/
def execHealth (h : MsgHdr) (pa : Word64) (s : State) : Host.Outcome State Fault Refusal :=
  commandStep (.health h pa) h 7 true (do
    let u ← get
    if pa = 0#64 then pure () else hostWrite pa.toNat (errorLogs u)
    answer h 7 rOk (bytesOfNat 8 (statusWord u))) s
/-- The bytes of a copy of the retirement table, without and with its signature (R405). -/
def retBody (t : RetTable) : List Byte :=
  let es := t.entries.take 512
  let body := bytesOfNat 8 t.gen.toNat ++ bytesOfNat 4 es.length ++ bytesOfNat 4 1 ++ bytesOfNat 48 0 ++
    es.flatMap (fun e => bytesOfNat 1 (kindNo e.kind) ++ bytesOfNat 1 e.die ++ bytesOfNat 2 e.unit ++ bytesOfNat 1 e.reason ++
      bytesOfNat 1 (if e.retired then 2 else 1) ++ bytesOfNat 2 0 ++ bytesOfNat 8 e.stamp.toNat)
  body ++ List.replicate (8256 - body.length) 0#8
def retBytes (t : RetTable) : List Byte := retBody t ++ bigEndian 64 (Config.deviceSign (retBody t)).toNat
/-- The step RETIRE_READ. -/
def execRetireRead (h : MsgHdr) (pa : Word64) (s : State) : Host.Outcome State Fault Refusal :=
  commandStep (.retireRead h pa) h 8 true (do
    match curTable (← get).fw with
    | none => answer h 8 rBad []
    | some t =>
      hostWrite pa.toNat (retBytes t)
      answer h 8 rOk (bytesOfNat 8 t.gen.toNat)) s
/-- The report of ATTEST without its signature (R423). -/
def reportBody (f : Firmware) (nonce : BitVec 256) : List Byte :=
  bytesOfNat 32 nonce.toNat ++ bytesOfNat 4 (f.log.length + if f.logOvf then 2 ^ 31 else 0) ++
  f.log.flatMap (fun e => bytesOfNat 4 e.1 ++ bigEndian 32 e.2.toNat)
/-- The step ATTEST. -/
def execAttest (h : MsgHdr) (nonce : BitVec 256) (pa : Word64) (s : State) : Host.Outcome State Fault Refusal :=
  commandStep (.attest h nonce pa) h 9 true (do
    let body := reportBody (← get).fw nonce
    hostWrite pa.toNat (body ++ bigEndian 64 (Config.deviceSign body).toNat)
    answer h 9 rOk []) s
/-- The step WSPHASE: each die's hen takes the request in its turn, and the last answers (R262). -/
def execWsphase (h : MsgHdr) (dies phase : Byte) (s : State) : Host.Outcome State Fault Refusal :=
  commandStep (.wsphase h dies phase) h 10 (decide (phase.toNat < 2)) (do
    let q : WsReq := { tid := none, hdr := some h, sec := hdrSec h, toOpen := phase.getLsbD 0, taken := false
                       entries := [], chunks := [] }
    if dies = 0#8 then answer h 10 rOk []
    else forEach ((List.range 8).filter (fun d => dies.getLsbD d)) fun d =>
      modDie d fun x => { x with wsQueue := x.wsQueue ++ [q] }) s
/-- The step FAULT_REPLY (R394, R418): the host that serves faults returns the entry its message named. -/
def execFaultReply (h : MsgHdr) (status : Byte) (s : State) : Host.Outcome State Fault Refusal :=
  if forUs s.fw h && s.fw.m.isSome && s.fw.inForce.getLsbD 0 && hostNode h.src == hostNode s.fw.faultHost && hdrOk h &&
      (status == 1#8 || status == 2#8) then
    .next (returnFault s (h.tag.toNat / 4096 % 8) (h.tag.toNat % 4096) (status == 2#8))
  else .next s

/-! ### Requests of other nodes, and replies (R415, R416) -/

/-- The new value of a location under another node's atomic. -/
def remoteNew (op : AtomOp) (n : Nat) (x cmp : Word64) (ty : BitVec 4) (old : Nat) : Nat :=
  if ty = tyFP32 then (atomNewF op old (x.toNat % 2 ^ 32) (cmp.toNat % 2 ^ 32)).1
  else if ty = tyN32 then atomNewU op (8 * n) old (x.toNat % 256 ^ n) (cmp.toNat % 256 ^ n)
  else atomNew op (8 * n) old (x.toNat % 256 ^ n) (cmp.toNat % 256 ^ n)
/-- Perform a request at this package, the home of its address: the reply. A weight-store slice in its refresh window takes
none (R263). -/
def serveRequest (sec : Bool) (q : LinkReq) : Exec LinkReply := do
  let s ← get
  match locate s.fw (reqPa q) with
  | .here key =>
    check (!isWs key || refreshLeft s.cycle (wsSlice key) == 0) .wait
    let keyOf := fun (a : Nat) => key + a - reqPa q
    let granOf := fun (g : Nat) => key / 32 + g - reqPa q / 32
    let paGran := fun (g : Nat) => reqPa q / 32 + g - key / 32
    let bad := fun (n : Nat) => (poisonHere s key n).map paGran
    if secureKey s.fw key && !sec then return .error
    else match q with
      | .read _ n => return .data (s.mem.readN key n) (bad n)
      | .write _ b gs =>
        if isWs key && !wsOpen s key then return .error
        else
          modify (landBytes key b (gs.map granOf))
          return .data [] []
      | .writes _ runs gs =>
        if isWs key && !wsOpen s key then return .error
        else
          modify fun u => landBytes key [] (gs.map granOf) (runs.foldl (fun v (a, b) => landBytes (keyOf a) b [] v) u)
          return .data [] []
      | .atomic op _ n x cmp ty =>
        let old := s.mem.readN key n
        if isWs key then return .error
        else if !(bad n).isEmpty then return .data old (bad n)
        else
          modify (landBytes key (bytesOfNat n (remoteNew op n x cmp ty (natOfBytes old))) [])
          return .data old []
      | .insert _ score id k =>
        if isWs key then return .error
        else
          let b ← insertedBytes key (score, id) k
          modify (landBytes key b [])
          return .data [] []
      | .message _ _ => return .error
  | _ => return .error
/-- Whether two requests are of one source and concern one line: they are performed in the order in which they were sent
(R416). -/
def sameLine (src : BitVec 16) (q : LinkReq) : Instr → Bool
  | .remoteRequest src2 _ _ r => src2 == src && reqPa r / 128 == reqPa q / 128 && (headerOf (.remoteRequest src 0#16 0#8 r)).isNone
  | _ => false
/-- A request of another node that has come to be served: its reply is sent, and a write is counted (R415, R416). -/
def serveNow (src tag : BitVec 16) (world : Byte) (q : LinkReq) (s : State) : Option State :=
  let sec := world.getLsbD 0 && s.fw.inForce.getLsbD 1 && s.fw.secHost != 0xFFF#16 && hostNode src == hostNode s.fw.secHost
  match serveRequest sec q s with
  | .ok (r, u) =>
    let wcnt := if reqWrites q then spSet u.fw.wcnt src.toNat (spGet 0 u.fw.wcnt src.toNat + 1) else u.fw.wcnt
    some (sendBy (linePort (reqPa q)) { u with fw := { u.fw with wcnt := wcnt } } src (fun p => .reply p src tag r))
  | .error _ => none
/-- The step REMOTE_REQUEST: a request is performed behind its sender's earlier ones of the line, and once no refresh window
holds its slice; one for another node has no effect here. A command message of a TYPE that R418 does not name is answered BAD
(R417); one whose TYPE is that of a reply is not answered. -/
def execRemoteRequest (src tag : BitVec 16) (world : Byte) (q : LinkReq) (s : State) : Host.Outcome State Fault Refusal :=
  let i : Instr := .remoteRequest src tag world q
  match q with
  | .message type h => if type % 0x10000 < 0x8000 then commandStep i h type false (pure ()) s else .next s
  | _ =>
    match s.fw.m with
    | none => .next s
    | some m =>
      if reqPa q / 2 ^ 40 ≠ 2 * m ∧ reqPa q / 2 ^ 40 ≠ 2 * m + 1 then .next s
      else
        let s0 := if s.fw.commands.contains i then s else queueCommand s i
        if s0.fw.commands.find? (sameLine src q) == some i then
          .next ((serveNow src tag world q { s0 with fw := { s0.fw with commands := s0.fw.commands.erase i } }).getD s0)
        else .next s0
/-- The state with a reply to request `tag`. -/
def putReply (s : State) (tag : Nat) (r : LinkReply) : State :=
  { s with fw := { s.fw with remotes := s.fw.remotes.map (fun x =>
      if x.tag = tag ∧ x.reply.isNone then { x with reply := some r } else x) } }
/-- The step REMOTE_REPLY: a reply to a request that nothing waits for has no effect. -/
def execRemoteReply (tag : Nat) (r : LinkReply) (s : State) : Host.Outcome State Fault Refusal := .next (putReply s tag r)
/-- 2^24 cycles without a reply count as an error reply, and a failure of the port (R415). -/
def requestTimeout (tag : Nat) (s : State) : Option State :=
  match s.fw.remotes.find? (fun r => r.tag == tag && r.reply.isNone) with
  | none => none
  | some r =>
    if r.sent + 2 ^ 24 ≤ s.cycle then
      some (logError (putReply s tag .error) (portDie r.port) clsFailure .lane (8 * r.port) 0)
    else none
/-- The step LINK_REQUEST_TIMEOUT. -/
def execLinkRequestTimeout (tag : Nat) (s : State) : Host.Outcome State Fault Refusal := goes s (requestTimeout tag s)

end Sys2Proof.Machine
end

