-- ==== Sys2Proof/Machine/Order.lean ====
section
/-!
DEFINITION. Steps of the package's coherence (R370, R371) and of the weight store's refresh (R263).
-/
namespace Sys2Proof.Machine

/-- A die whose clock has changed tells every die its counter and what it has applied (R371). -/
def sendBeacon (die : Nat) (s : State) : Option State :=
  if die < 8 ∧ (s.die die).clockMoved then some (beaconFrom s die) else none
/-- The step BEACON. -/
def execBeacon (die : Nat) (s : State) : Host.Outcome State Fault Refusal := goes s (sendBeacon die s)
/-- The state in which a stamped write is applied at its home (R371): what the home can tell of it changes, so it owes a
beacon (log entry 5). The other dies of the gang whose thread wrote it keep no older copy (R289). -/
def applyWrite (s : State) (w : XWrite) : State :=
  let h := s.die w.home
  let count := w.stamp.getD w.src 0#32
  let known := if w.src = w.home || clkGe (h.known.getD w.src 0#32) count then h.known else listSet h.known w.src count
  let t := s.setDie w.home ({ h.setClock (clkMerge h.vc w.stamp) s.cycle with known := known }.owe s.cycle)
  let u := t.setDie w.home ((t.die w.home).noteRank s.cycle w.pa)
  landBytes w.pa w.bytes w.poison (dropShared w.tid w.src (w.pa / 128) { u with xwrites := u.xwrites.erase w })
/-- Whether a stamped write can be applied at its home now: the beacons cover its stamp, what its die wrote to its own lines
before it has been applied (R372), its place is not below what the home has written in this cycle (R367), and no refresh
window holds its slice (R263). -/
def canApply (s : State) (w : XWrite) : Bool :=
  applyTest s w.src w.home w.stamp && ownApplied s w.src (some w) && rankOk s w.home w.pa &&
  (!isWs w.pa || refreshLeft s.cycle (wsSlice w.pa) == 0)
/-- The earliest write of die `src` to die `home` is applied, once it can be. -/
def writeApply (src home : Nat) (s : State) : Option State :=
  match pendingTo s src home with
  | w :: _ => if canApply s w then some (applyWrite s w) else none
  | [] => none
/-- The step CROSS_DIE_WRITE_APPLY. -/
def execCrossDieWriteApply (src home : Nat) (s : State) : Host.Outcome State Fault Refusal := goes s (writeApply src home s)
/-- A copy is dropped 65,536 cycles after its fill (R370). -/
def copyExpiry (die line : Nat) (s : State) : Option State :=
  let x := s.die die
  if x.copies.any (fun k => k.line == line && decide (k.filled + 65536 ≤ s.cycle)) then
    some (s.setDie die { x with copies := x.copies.filter (fun k => k.line != line) })
  else none
/-- The step COPY_EXPIRY. -/
def execCopyExpiry (die line : Nat) (s : State) : Host.Outcome State Fault Refusal := goes s (copyExpiry die line s)
/-- The step REFRESH_WINDOW_START (R263): a slice's window is the cycles themselves, and holds no state. -/
def execRefreshWindowStart (_slice : BitVec 4) (s : State) : Host.Outcome State Fault Refusal := .next s
/-- The step REFRESH_WINDOW_END. -/
def execRefreshWindowEnd (_slice : BitVec 4) (s : State) : Host.Outcome State Fault Refusal := .next s

end Sys2Proof.Machine
end

