-- ==== Sys2Proof/Machine/Dispatch.lean ====
section
/-!
DEFINITION. The meaning of every instruction and of every step of the device: one arm per constructor of `Instr`.
-/
namespace Sys2Proof.Machine

/-- Execute one instruction of the current thread (or of its VP), or perform one step of the device. -/
def exec (i : Instr) (s : State) : Host.Outcome State Fault Refusal :=
  match i with
  | .nop => Sys2Proof.Machine.execNop s
  | .add w d a b => Sys2Proof.Machine.execAdd w d a b s
  | .sub w d a b => Sys2Proof.Machine.execSub w d a b s
  | .mul w d a b => Sys2Proof.Machine.execMul w d a b s
  | .mulh u w d a b => Sys2Proof.Machine.execMulh u w d a b s
  | .div u w d a b => Sys2Proof.Machine.execDiv u w d a b s
  | .rem u w d a b => Sys2Proof.Machine.execRem u w d a b s
  | .and w d a b => Sys2Proof.Machine.execAnd w d a b s
  | .or w d a b => Sys2Proof.Machine.execOr w d a b s
  | .xor w d a b => Sys2Proof.Machine.execXor w d a b s
  | .shl w d a b => Sys2Proof.Machine.execShl w d a b s
  | .shr ar w d a b => Sys2Proof.Machine.execShr ar w d a b s
  | .min u w d a b => Sys2Proof.Machine.execMin u w d a b s
  | .max u w d a b => Sys2Proof.Machine.execMax u w d a b s
  | .slt u w d a b => Sys2Proof.Machine.execSlt u w d a b s
  | .cnt f w d a => Sys2Proof.Machine.execCnt f w d a s
  | .addi d a x => Sys2Proof.Machine.execAddi d a x s
  | .andi d a x => Sys2Proof.Machine.execAndi d a x s
  | .ori d a x => Sys2Proof.Machine.execOri d a x s
  | .xori d a x => Sys2Proof.Machine.execXori d a x s
  | .shli d a x => Sys2Proof.Machine.execShli d a x s
  | .shri h d a x => Sys2Proof.Machine.execShri h d a x s
  | .slti d a x => Sys2Proof.Machine.execSlti d a x s
  | .lui d x => Sys2Proof.Machine.execLui d x s
  | .lpc d x => Sys2Proof.Machine.execLpc d x s
  | .ldd d a x => Sys2Proof.Machine.execLdd d a x s
  | .ldw d a x => Sys2Proof.Machine.execLdw d a x s
  | .ldh d a x => Sys2Proof.Machine.execLdh d a x s
  | .ldb d a x => Sys2Proof.Machine.execLdb d a x s
  | .std d a x => Sys2Proof.Machine.execStd d a x s
  | .stw d a x => Sys2Proof.Machine.execStw d a x s
  | .sth d a x => Sys2Proof.Machine.execSth d a x s
  | .stb d a x => Sys2Proof.Machine.execStb d a x s
  | .fadd w d a b => Sys2Proof.Machine.execFadd w d a b s
  | .fsub w d a b => Sys2Proof.Machine.execFsub w d a b s
  | .fmul w d a b => Sys2Proof.Machine.execFmul w d a b s
  | .fdiv w d a b => Sys2Proof.Machine.execFdiv w d a b s
  | .fma w d a b => Sys2Proof.Machine.execFma w d a b s
  | .fmin w d a b => Sys2Proof.Machine.execFmin w d a b s
  | .fmax w d a b => Sys2Proof.Machine.execFmax w d a b s
  | .fcmp f w d a b => Sys2Proof.Machine.execFcmp f w d a b s
  | .fcvt f d a => Sys2Proof.Machine.execFcvt f d a s
  | .beq a b o => Sys2Proof.Machine.execBeq a b o s
  | .bne a b o => Sys2Proof.Machine.execBne a b o s
  | .blt a b o => Sys2Proof.Machine.execBlt a b o s
  | .bge a b o => Sys2Proof.Machine.execBge a b o s
  | .bltu a b o => Sys2Proof.Machine.execBltu a b o s
  | .bgeu a b o => Sys2Proof.Machine.execBgeu a b o s
  | .jal o => Sys2Proof.Machine.execJal o s
  | .jr d a => Sys2Proof.Machine.execJr d a s
  | .fli d x => Sys2Proof.Machine.execFli d x s
  | .aadd k d a m r => Sys2Proof.Machine.execAadd k d a m r s
  | .asub k d a m r => Sys2Proof.Machine.execAsub k d a m r s
  | .amul k d a m r => Sys2Proof.Machine.execAmul k d a m r s
  | .afma k d a m r => Sys2Proof.Machine.execAfma k d a m r s
  | .amin k d a m r => Sys2Proof.Machine.execAmin k d a m r s
  | .amax k d a m r => Sys2Proof.Machine.execAmax k d a m r s
  | .adiv k d a m r => Sys2Proof.Machine.execAdiv k d a m r s
  | .aand k d a m r => Sys2Proof.Machine.execAand k d a m r s
  | .aor k d a m r => Sys2Proof.Machine.execAor k d a m r s
  | .axor k d a m r => Sys2Proof.Machine.execAxor k d a m r s
  | .ashl k d a m r => Sys2Proof.Machine.execAshl k d a m r s
  | .ashr k d a m r => Sys2Proof.Machine.execAshr k d a m r s
  | .aceq k d a m r => Sys2Proof.Machine.execAceq k d a m r s
  | .acne k d a m r => Sys2Proof.Machine.execAcne k d a m r s
  | .aclt k d a m r => Sys2Proof.Machine.execAclt k d a m r s
  | .acle k d a m r => Sys2Proof.Machine.execAcle k d a m r s
  | .asel k d a m r => Sys2Proof.Machine.execAsel k d a m r s
  | .aabs d a m r => Sys2Proof.Machine.execAabs d a m r s
  | .aneg d a m r => Sys2Proof.Machine.execAneg d a m r s
  | .anot d a m r => Sys2Proof.Machine.execAnot d a m r s
  | .asqrt d a m r => Sys2Proof.Machine.execAsqrt d a m r s
  | .arcp d a m r => Sys2Proof.Machine.execArcp d a m r s
  | .aexp2 d a m r => Sys2Proof.Machine.execAexp2 d a m r s
  | .alog2 d a m r => Sys2Proof.Machine.execAlog2 d a m r s
  | .acvt k d a m r => Sys2Proof.Machine.execAcvt k d a m r s
  | .amov d a m r => Sys2Proof.Machine.execAmov d a m r s
  | .asplat k d a m r => Sys2Proof.Machine.execAsplat k d a m r s
  | .ascl k d a m r => Sys2Proof.Machine.execAscl k d a m r s
  | .agscl d a m r => Sys2Proof.Machine.execAgscl d a m r s
  | .atype d t l => Sys2Proof.Machine.execAtype d t l s
  | .ashp d a b => Sys2Proof.Machine.execAshp d a b s
  | .aiota d b => Sys2Proof.Machine.execAiota d b s
  | .ashape d a b => Sys2Proof.Machine.execAshape d a b s
  | .ashapep d a p => Sys2Proof.Machine.execAshapep d a p s
  | .aredsum d a m r => Sys2Proof.Machine.execAredsum d a m r s
  | .aredmax d a m r => Sys2Proof.Machine.execAredmax d a m r s
  | .aredmin d a m r => Sys2Proof.Machine.execAredmin d a m r s
  | .aredand d a m r => Sys2Proof.Machine.execAredand d a m r s
  | .aredor d a m r => Sys2Proof.Machine.execAredor d a m r s
  | .aredxor d a m r => Sys2Proof.Machine.execAredxor d a m r s
  | .acount d a m r => Sys2Proof.Machine.execAcount d a m r s
  | .ascansum d a m r => Sys2Proof.Machine.execAscansum d a m r s
  | .ascanmax d a m r => Sys2Proof.Machine.execAscanmax d a m r s
  | .ascanmin d a m r => Sys2Proof.Machine.execAscanmin d a m r s
  | .agrade d a r => Sys2Proof.Machine.execAgrade d a r s
  | .agraded d a r => Sys2Proof.Machine.execAgraded d a r s
  | .arot d a b r => Sys2Proof.Machine.execArot d a b r s
  | .atake d a b r => Sys2Proof.Machine.execAtake d a b r s
  | .adrop d a b r => Sys2Proof.Machine.execAdrop d a b r s
  | .arev d a m r => Sys2Proof.Machine.execArev d a m r s
  | .atrans d a m r => Sys2Proof.Machine.execAtrans d a m r s
  | .acat d a b m r => Sys2Proof.Machine.execAcat d a b m r s
  | .aoutmul d a b m r => Sys2Proof.Machine.execAoutmul d a b m r s
  | .aoutadd d a b m r => Sys2Proof.Machine.execAoutadd d a b m r s
  | .aouteq d a b m r => Sys2Proof.Machine.execAouteq d a b m r s
  | .acomp d a b r => Sys2Proof.Machine.execAcomp d a b r s
  | .aexpd d a b r => Sys2Proof.Machine.execAexpd d a b r s
  | .afrom d a b m r => Sys2Proof.Machine.execAfrom d a b m r s
  | .aidxof d a b m r => Sys2Proof.Machine.execAidxof d a b m r s
  | .amembr d a b m r => Sys2Proof.Machine.execAmembr d a b m r s
  | .each d a b r => Sys2Proof.Machine.execEach d a b r s
  | .vnext o => Sys2Proof.Machine.execVnext o s
  | .vpend => Sys2Proof.Machine.execVpend s
  | .vget d => Sys2Proof.Machine.execVget d s
  | .vput a => Sys2Proof.Machine.execVput a s
  | .xstep k d a b => Sys2Proof.Machine.execXstep k d a b s
  | .amoviFrom d a => Sys2Proof.Machine.execAmoviFrom d a s
  | .amoviTo a b => Sys2Proof.Machine.execAmoviTo a b s
  | .mbld sh a => Sys2Proof.Machine.execMbld sh a s
  | .mbwl sh a => Sys2Proof.Machine.execMbwl sh a s
  | .mmul f w z t a b => Sys2Proof.Machine.execMmul f w z t a b s
  | .mzero t => Sys2Proof.Machine.execMzero t s
  | .mrd t a => Sys2Proof.Machine.execMrd t a s
  | .mwr t a => Sys2Proof.Machine.execMwr t a s
  | .mwait => Sys2Proof.Machine.execMwait s
  | .mspa a => Sys2Proof.Machine.execMspa a s
  | .mqry t a b => Sys2Proof.Machine.execMqry t a b s
  | .ald d a b m p => Sys2Proof.Machine.execAld d a b m p s
  | .ast d a b m p => Sys2Proof.Machine.execAst d a b m p s
  | .agat d a b m => Sys2Proof.Machine.execAgat d a b m s
  | .asct d a b m => Sys2Proof.Machine.execAsct d a b m s
  | .wsld d a b m p => Sys2Proof.Machine.execWsld d a b m p s
  | .wsst d a b m p => Sys2Proof.Machine.execWsst d a b m p s
  | .wsstImage d a b m p => Sys2Proof.Machine.execWsstImage d a b m p s
  | .apf a p => Sys2Proof.Machine.execApf a p s
  | .cbld a x => Sys2Proof.Machine.execCbld a x s
  | .sgraph ev d a => Sys2Proof.Machine.execSgraph ev d a s
  | .srun ev sh d a => Sys2Proof.Machine.execSrun ev sh d a s
  | .spub p d a => Sys2Proof.Machine.execSpub p d a s
  | .sdisc d a => Sys2Proof.Machine.execSdisc d a s
  | .egraph d a => Sys2Proof.Machine.execEgraph d a s
  | .eprog d a b => Sys2Proof.Machine.execEprog d a b s
  | .erun m ev d a b => Sys2Proof.Machine.execErun m ev d a b s
  | .emode d a => Sys2Proof.Machine.execEmode d a s
  | .ecomb a => Sys2Proof.Machine.execEcomb a s
  | .eact => Sys2Proof.Machine.execEact s
  | .topk k d a b => Sys2Proof.Machine.execTopk k d a b s
  | .ttbld ev d a => Sys2Proof.Machine.execTtbld ev d a s
  | .tseq ev d a => Sys2Proof.Machine.execTseq ev d a s
  | .xslot o d a => Sys2Proof.Machine.execXslot o d a s
  | .cpy ev sh d a b => Sys2Proof.Machine.execCpy ev sh d a b s
  | .amo f w d a b => Sys2Proof.Machine.execAmo f w d a b s
  | .amoa o d a b m => Sys2Proof.Machine.execAmoa o d a b m s
  | .mredadd a b m => Sys2Proof.Machine.execMredadd a b m s
  | .mredmin a b m => Sys2Proof.Machine.execMredmin a b m s
  | .mredmax a b m => Sys2Proof.Machine.execMredmax a b m s
  | .mredor a b m => Sys2Proof.Machine.execMredor a b m s
  | .fence k sh => Sys2Proof.Machine.execFence k sh s
  | .semtas a x => Sys2Proof.Machine.execSemtas a x s
  | .semtry d a x => Sys2Proof.Machine.execSemtry d a x s
  | .semclr a x => Sys2Proof.Machine.execSemclr a x s
  | .crld d a x => Sys2Proof.Machine.execCrld d a x s
  | .crst d a x => Sys2Proof.Machine.execCrst d a x s
  | .evwait d a => Sys2Proof.Machine.execEvwait d a s
  | .evget d a => Sys2Proof.Machine.execEvget d a s
  | .evpost a b => Sys2Proof.Machine.execEvpost a b s
  | .pub f a => Sys2Proof.Machine.execPub f a s
  | .mon w d a b => Sys2Proof.Machine.execMon w d a b s
  | .csrr d x => Sys2Proof.Machine.execCsrr d x s
  | .csrw d x => Sys2Proof.Machine.execCsrw d x s
  | .csrs d x => Sys2Proof.Machine.execCsrs d x s
  | .csrc d x => Sys2Proof.Machine.execCsrc d x s
  | .ecall => Sys2Proof.Machine.execEcall s
  | .ebreak => Sys2Proof.Machine.execEbreak s
  | .tret => Sys2Proof.Machine.execTret s
  | .yield => Sys2Proof.Machine.execYield s
  | .quota d a => Sys2Proof.Machine.execQuota d a s
  | .spawn d a => Sys2Proof.Machine.execSpawn d a s
  | .done => Sys2Proof.Machine.execDone s
  | .asave a => Sys2Proof.Machine.execAsave a s
  | .arest a => Sys2Proof.Machine.execArest a s
  | .dmap a => Sys2Proof.Machine.execDmap a s
  | .tlbinv a b => Sys2Proof.Machine.execTlbinv a b s
  | .fqret a => Sys2Proof.Machine.execFqret a s
  | .wsph a => Sys2Proof.Machine.execWsph a s
  | .seedWrite v => Sys2Proof.Machine.execSeedWrite v s
  | .convoyStart => Sys2Proof.Machine.execConvoyStart s
  | .unknownSizeComplete t => Sys2Proof.Machine.execUnknownSizeComplete t s
  | .powerUp => Sys2Proof.Machine.execPowerUp s
  | .reset h m secHost routes part patches => Sys2Proof.Machine.execReset h m secHost routes part patches s
  | .enum h pa => Sys2Proof.Machine.execEnum h pa s
  | .negotiate h req => Sys2Proof.Machine.execNegotiate h req s
  | .map h world pa => Sys2Proof.Machine.execMap h world pa s
  | .spawnMessage h rcb die => Sys2Proof.Machine.execSpawnMessage h rcb die s
  | .abort h kind key => Sys2Proof.Machine.execAbort h kind key s
  | .health h pa => Sys2Proof.Machine.execHealth h pa s
  | .retireRead h pa => Sys2Proof.Machine.execRetireRead h pa s
  | .attest h nonce pa => Sys2Proof.Machine.execAttest h nonce pa s
  | .wsphase h dies phase => Sys2Proof.Machine.execWsphase h dies phase s
  | .faultReply h status => Sys2Proof.Machine.execFaultReply h status s
  | .remoteRequest src tag world q => Sys2Proof.Machine.execRemoteRequest src tag world q s
  | .linkRequestTimeout tag => Sys2Proof.Machine.execLinkRequestTimeout tag s
  | .placeRegion die => Sys2Proof.Machine.execPlaceRegion die s
  | .threadDispatch t => Sys2Proof.Machine.execThreadDispatch t s
  | .yieldDeadlineExpiry t => Sys2Proof.Machine.execYieldDeadlineExpiry t s
  | .yieldDeadlineTrap t => Sys2Proof.Machine.execYieldDeadlineTrap t s
  | .preEmption t => Sys2Proof.Machine.execPreEmption t s
  | .thermalStop die => Sys2Proof.Machine.execThermalStop die s
  | .thermalResume die => Sys2Proof.Machine.execThermalResume die s
  | .refreshWindowStart slice => Sys2Proof.Machine.execRefreshWindowStart slice s
  | .refreshWindowEnd slice => Sys2Proof.Machine.execRefreshWindowEnd slice s
  | .copyExpiry die line => Sys2Proof.Machine.execCopyExpiry die line s
  | .beacon die => Sys2Proof.Machine.execBeacon die s
  | .crossDieWriteApply src home => Sys2Proof.Machine.execCrossDieWriteApply src home s
  | .topkInsert n => Sys2Proof.Machine.execTopkInsert n s
  | .wsphApply die => Sys2Proof.Machine.execWsphApply die s
  | .matrixEntryStart die core n => Sys2Proof.Machine.execMatrixEntryStart die core n s
  | .matrixEntryComplete die core n => Sys2Proof.Machine.execMatrixEntryComplete die core n s
  | .sgraphConfig die => Sys2Proof.Machine.execSgraphConfig die s
  | .srunChunkDone die run chunk => Sys2Proof.Machine.execSrunChunkDone die run chunk s
  | .srunComplete die run => Sys2Proof.Machine.execSrunComplete die run s
  | .spubApply die => Sys2Proof.Machine.execSpubApply die s
  | .sdiscApply die => Sys2Proof.Machine.execSdiscApply die s
  | .cpyComplete die => Sys2Proof.Machine.execCpyComplete die s
  | .edgeChunkDone die core => Sys2Proof.Machine.execEdgeChunkDone die core s
  | .edgeSuperstepEnd die core => Sys2Proof.Machine.execEdgeSuperstepEnd die core s
  | .ttbldComplete die => Sys2Proof.Machine.execTtbldComplete die s
  | .tseqBufferStart die job => Sys2Proof.Machine.execTseqBufferStart die job s
  | .tseqComplete die job => Sys2Proof.Machine.execTseqComplete die job s
  | .henFaultService die seq => Sys2Proof.Machine.execHenFaultService die seq s
  | .faultEntryAct die seq => Sys2Proof.Machine.execFaultEntryAct die seq s
  | .correctedError die kind unit pa => Sys2Proof.Machine.execCorrectedError die kind unit pa s
  | .uncorrectableError die kind unit pa => Sys2Proof.Machine.execUncorrectableError die kind unit pa s
  | .coreFailure die core => Sys2Proof.Machine.execCoreFailure die core s
  | .powerLoss midWrite => Sys2Proof.Machine.execPowerLoss midWrite s
  | .remoteReply tag r => Sys2Proof.Machine.execRemoteReply tag r s
  | .linkTrainingFailure port lane => Sys2Proof.Machine.execLinkTrainingFailure port lane s

end Sys2Proof.Machine
end

