-- ==== Sys2Proof/Machine/Schedule.lean ====
section
/-!
DEFINITION. Whose turn a step is (log entry 4): the head of the agenda after its cycles have passed, or, where the
agenda is empty, work the device has pending, else a thread. `ex` is the meaning of an instruction or a device step.
-/
namespace Sys2Proof.Machine

/-- The work a core has pending; its edge engine's own turns come on even cycles, so that threads go on beside it. -/
def coreWork (d c : Nat) (even : Bool) (k : CoreSt) : List Who :=
  k.queue.map (fun e => .event (match e.stat with
    | .done => .matrixEntryComplete d c e.id
    | _ => .matrixEntryStart d c e.id)) ++
  (if k.edge.isEmpty then []
   else [.event (.edgeSuperstepEnd d c), .event (.edgeChunkDone d c)] ++ (if even then [.edge d c] else [])) ++
  k.slots.flatMap (fun (_, z) => match z.owner with
    | some t => z.flight.filterMap (fun f => match f.kind with
      | .unknown _ _ => some (.event (.unknownSizeComplete t))
      | .entry _ => none)
    | none => [])
/-- The work a die has pending. -/
def dieWork (even : Bool) (d : Nat) (x : DieSt) : List Who :=
  x.faults.map (fun f => .event (if f.status = 0 then .henFaultService d f.seq else .faultEntryAct d f.seq)) ++
  x.slotTab.filterMap (fun (_, r) => if r.valid then
    some (.event (.threadDispatch { region := { sec := r.sec, rcb := r.rcb }, idx := r.ctidx })) else none) ++
  (if x.wsQueue.isEmpty then [] else [.event (.wsphApply d)]) ++
  x.cores.flatMap (fun (c, k) => coreWork d c even k) ++
  (match x.fabQueue with
    | .sgraph _ _ _ _ _ :: _ => [.event (.sgraphConfig d)]
    | .spub _ _ _ _ _ :: _ => [.event (.spubApply d)]
    | .sdisc _ _ _ _ :: _ => [.event (.sdiscApply d)]
    | _ => []) ++
  (List.range x.runs.length).flatMap (fun r =>
    .event (.srunComplete d r) :: (List.range 32).map (fun k => .event (.srunChunkDone d r k))) ++
  (match x.fabQueue with
    | .srun _ :: _ => (List.range 32).map (fun k => .event (.srunChunkDone d x.runs.length k)) ++
        [.event (.srunComplete d x.runs.length)]
    | _ => []) ++
  (if x.cpyQueue.isEmpty then [] else [.event (.cpyComplete d)]) ++
  x.expQueue.flatMap (fun c => match c.work with
    | .ttbld _ => [.event (.ttbldComplete d)]
    | .tseq z => (if z.combs.isEmpty then [] else [.combines d c.id 0]) ++
        [.event (.tseqBufferStart d c.id), .event (.tseqComplete d c.id)]) ++
  (if x.clockMoved then [.event (.beacon d)] else []) ++
  (if x.arrivals.isEmpty then [] else [.event (.placeRegion d)])
/-- What a thread's own binding has pending: its deadline, its pre-emption, and what it still has to finish. -/
def threadWork (s : State) (t : Thread) : List Who :=
  (if t.status = .bound ∧ t.csr.count = some 0 ∧ t.csr.yreq = false then [.event (.yieldDeadlineExpiry t.tid)] else []) ++
  (if t.preemptDue then [.event (.preEmption t.tid)] else []) ++
  (if t.status = .ending ∨ (t.status = .bound ∧ t.leaving ∧ mustFinish s t) then [.thread t.tid] else [])
/-- Whether a region's home hen has something to do for it other than to place it. -/
def regionDue (s : State) (r : Region) : Bool := hasLeft s r || !r.owed.isEmpty || (r.livect == 0 && r.children.isEmpty)
/-- The work the package has pending, what comes first in it being tried first. -/
def pendingWork (s : State) : List Who :=
  s.threads.flatMap (threadWork s) ++
  s.dies.flatMap (fun (d, x) => dieWork (s.cycle % 2 == 0) d x) ++
  s.regions.filterMap (fun r => if regionDue s r then some (.event (.placeRegion r.home)) else none) ++
  s.stores.map (fun h => .performs h.tid 0) ++
  s.loads.map (fun h => .loads h.tid 0) ++
  (List.range s.topks.length).map (fun n => .event (.topkInsert n)) ++
  s.xwrites.map (fun w => .event (.crossDieWriteApply w.src w.home)) ++
  s.fw.commands.map .event ++
  s.fw.remotes.filterMap (fun r => if r.reply.isNone ∧ r.sent + 2 ^ 24 ≤ s.cycle then
    some (.event (.linkRequestTimeout r.tag)) else none)
/-- The thread that runs when nothing else is due: of the bound ones, the one that has waited longest. -/
def nextThread (s : State) : Option Tid :=
  let runs := fun (t : Thread) => t.status == .bound && !t.leaving
  match (s.others.filter runs).getLast? with
  | some t => some t.tid
  | none => if runs s.cur then some s.cur.tid else none

/-- The next instruction of the current thread, its convoy being started first where it begins one. -/
def nextInstr (ex : Meaning) (s : State) : Host.Outcome State Fault Refusal :=
  match s.cur.convoy with
  | i :: _ => ex i s
  | [] =>
    match startConvoy s with
    | .error e => settle s e
    | .ok (_, u) =>
      match u.cur.convoy with
      | i :: _ => ex i u
      | [] => .next u
/-- The current thread's turn, where it goes on: a group of its `each` that can step (R210), or the next instruction. -/
def goOn (ex : Meaning) (s : State) : Option (Host.Outcome State Fault Refusal) :=
  match s.cur.each with
  | none => some (nextInstr ex s)
  | some j =>
    if j.isDone then some (nextInstr ex s)
    else (j.groups.findSome? (fun g => eachStep ex s.cur.tid g.g s)).map .next
/-- The current thread's turn where trap 0x0B is due at this boundary: it is taken, unless the next instruction traps here (R88,
R382). -/
def trapTurn (ex : Meaning) (s : State) : Host.Outcome State Fault Refusal :=
  match nextInstr ex s with
  | .next u => if u.cur.csr.inh then .next u else goes s (deadlineTrap s.cur.tid s)
  | _ => goes s (deadlineTrap s.cur.tid s)
/-- The current thread's turn, if it can take one. One that is due to be pre-empted leaves, once nothing it cannot take back is
under way (R87, R391). -/
def boundTurn (ex : Meaning) (s : State) : Option (Host.Outcome State Fault Refusal) :=
  if s.cur.preemptDue && !mustFinish s s.cur then (preEmption s.cur.tid s).map .next
  else if s.cur.stall.isSome then none
  else if s.cur.trapDue s then some (trapTurn ex s)
  else if s.cur.preemptDue then goOn ex { s with cur := { s.cur with leaving := true } }
  else goOn ex s
/-- A thread's turn, if it can take one; one that is ending ends once its work has drained (R154). -/
def threadTurn (ex : Meaning) (t : Tid) (s0 : State) : Option (Host.Outcome State Fault Refusal) :=
  let s := { s0.switchTo t with runner := .thread }
  if s.cur.tid ≠ t then none
  else match s.cur.status with
    | .bound => boundTurn ex s
    | .ending => (device s.cur.deviceCtx (whole (finishEnding t)) s).map .next
    | _ => none

/-- The `n`-th of a thread's held accesses, unless an earlier one of its line is still held (R289). -/
def heldAt {α : Type} (key : α → Nat) (l : List α) (n : Nat) : Option α :=
  l[n]?.bind fun h => if (l.take n).any (fun g => key g / 128 == key h / 128) then none else some h
/-- The die performs the `n`-th store it has held back of a thread, in the order of R367. -/
def storeTurn (t : Tid) (n : Nat) (s : State) : Option State :=
  (heldAt (·.key) (s.stores.filter (fun h => h.tid == t)) n).bind fun h =>
    if rankOk s h.die h.key then some (performStore h s) else none
/-- The die performs the `n`-th load it has held back of a thread. -/
def loadTurn (t : Tid) (n : Nat) (s : State) : Option State :=
  (heldAt (·.key) (s.loads.filter (fun h => h.tid == t)) n).bind fun h =>
    match performLoad h s with
    | .ok (_, u) => some u
    | .error _ => none
/-- A step of the device's own, where it has something to do; a command or a request that waits is tried again. -/
def ownStep (ex : Meaning) (i : Instr) (s : State) : Option State :=
  match i with
  | .matrixEntryStart d c n => matrixStart d c n s
  | .matrixEntryComplete d c n => matrixComplete d c n s
  | .unknownSizeComplete t => unknownSizeStep t s
  | .edgeSuperstepEnd d c => edgeSuperEnd d c s
  | .edgeChunkDone d c => edgeChunkDone d c s
  | .henFaultService d n => henFaultService d n s
  | .faultEntryAct d n => faultEntryAct d n s
  | .threadDispatch t => threadDispatch t s
  | .wsphApply d => wsphApply d s
  | .sgraphConfig d => sgraphConfig d s
  | .spubApply d => spubApply d s
  | .sdiscApply d => sdiscApply d s
  | .srunChunkDone d r k => srunChunk d r k s
  | .srunComplete d r => srunComplete d r s
  | .cpyComplete d => cpyComplete d s
  | .ttbldComplete d => ttbldComplete d s
  | .tseqBufferStart d n => tseqBufferStart d n s
  | .tseqComplete d n => tseqComplete d n s
  | .beacon d => sendBeacon d s
  | .placeRegion d => placeRegion d s
  | .yieldDeadlineExpiry t => deadlineExpiry t s
  | .preEmption t => preEmption t s
  | .topkInsert n => topkInsert n s
  | .crossDieWriteApply k h => writeApply k h s
  | .linkRequestTimeout n => requestTimeout n s
  | _ =>
    match ex i s with
    | .next u => if u.fw.commands = s.fw.commands then changed s u else some u
    | _ => none
/-- One turn of a given agent, if it can take one. -/
def agentTurn (ex : Meaning) (w : Who) (s : State) : Option (Host.Outcome State Fault Refusal) :=
  let u := { s with runner := .thread }
  match w with
  | .event i => (ownStep ex i u).map .next
  | .thread t => threadTurn ex t s
  | .group t g =>
    match s.thread? t with
    | some x => if x.preemptDue then none else (eachStep ex t g s).map .next
    | none => none
  | .edge d c => if (s.die d).stopped then none else (edgeTurn ex d c u).map .next
  | .performs t n => (storeTurn t n u).map .next
  | .loads t n => (loadTurn t n u).map .next
  | .combines d job n => (combineTurn d job n u).map .next
/-- One turn that the agenda names; nothing happens but time where its agent has nothing to do. -/
def turnOf (ex : Meaning) (w : Who) (s : State) : Host.Outcome State Fault Refusal :=
  match w with
  | .event i =>
    if i.isWord then .refused .notAnEvent
    else match i with
      | .yieldDeadlineTrap t =>
        if (s.thread? t).any (fun x => x.trapDue s) then (threadTurn ex t s).getD (.next s) else .next s
      | _ => ex i { s with runner := .thread }
  | _ => (agentTurn ex w s).getD (.next s)
/-- A turn of pending work, if it can be taken; that of a thread which still only waits is none. -/
def pendingTurn (ex : Meaning) (w : Who) (s : State) : Option (Host.Outcome State Fault Refusal) :=
  match w with
  | .thread t =>
    match threadTurn ex t s with
    | some (.next u) => (if u.cur = (s.switchTo t).cur then changed s u else some u).map .next
    | o => o
  | _ => agentTurn ex w s
/-- The first of these turns that can be taken; nothing happens but time where none can. -/
def firstOf (ex : Meaning) (s : State) : List Who → Host.Outcome State Fault Refusal
  | [] =>
    match nextThread s with
    | some t => (threadTurn ex t s).getD (.next (s.switchTo t))
    | none => .next s
  | w :: r => (pendingTurn ex w s).getD (firstOf ex s r)
/-- The cycles a turn takes: its own, and for a refresh row those up to its window's edge (R263). -/
def spanOf (cycle : Nat) (t : Turn) : Nat :=
  let edge := fun (at_ : Nat) => t.dt + (at_ + 64000 - phaseOf (cycle + t.dt)) % 64000
  match t.who with
  | .event (.refreshWindowStart i) => edge (4000 * i.toNat)
  | .event (.refreshWindowEnd i) => edge (4000 * i.toNat + 2000)
  | _ => t.dt
/-- Cycles until some thread's deadline or grace runs out, if one does (R87). -/
def nextDue (s : State) : Option Nat :=
  s.threads.foldl (fun acc t =>
    if t.status = .bound ∧ !t.yielding ∧ !t.leaving then
      match t.csr.count, acc with
      | some n, some m => some (min n m)
      | some n, none => some n
      | none, a => a
    else acc) none
/-- Cycles until a die that owes a beacon must have sent it, if one does (R371). -/
def beaconDue (s : State) : Option Nat :=
  s.dies.foldl (fun acc (_, x) =>
    if x.clockMoved then
      let n := x.movedAt + 256 - s.cycle
      match acc with
      | some m => some (min m n)
      | none => some n
    else acc) none
/-- A die whose beacon can wait no longer. -/
def overdue (s : State) : Option Nat :=
  (s.dies.find? (fun p => p.2.clockMoved && decide (p.2.movedAt + 256 ≤ s.cycle))).map (·.1)
/-- What happens on a cycle for which the agenda has nothing: a beacon that is due, else pending work, else a thread. -/
def dueWork (ex : Meaning) (s : State) : Host.Outcome State Fault Refusal :=
  match overdue s with
  | some d => goes s (sendBeacon d s)
  | none => firstOf ex s (pendingWork s)
/-- The state after a turn: nothing is held back any more but what is, and what the turn has written ranks before what is
written after it (R367). -/
def endTurn (s : State) : State := { s.closeRanks with holding := false }
/-- A turn that has gone on, ended. -/
def ended : Host.Outcome State Fault Refusal → Host.Outcome State Fault Refusal
  | .next u => .next (endTurn u)
  | o => o
/-- One step of a powered machine; a deadline, or the last cycle for a beacon, that falls before the turn is met first. -/
def runTurn (ex : Meaning) (s : State) : Host.Outcome State Fault Refusal :=
  match s.agenda with
  | [] => ended (dueWork ex (advance 1 s))
  | t :: rest =>
    let n := spanOf s.cycle t
    let due := ((nextDue s).getD n).min ((beaconDue s).getD n)
    if due < n then ended (dueWork ex { advance due s with agenda := { t with dt := t.dt - due } :: rest })
    else ended (turnOf ex t.who { advance n s with agenda := rest, holding := t.hold })

end Sys2Proof.Machine
end

