-- ==== Sys2Proof/Machine/Place.lean ====
section
/-!
DEFINITION. Powering up, and placing a program from outside (log entry 1): a page table, the words, and a bound
thread.
-/
namespace Sys2Proof.Machine

/-- A turn of a powered machine; without power only POWER_UP is a step (R405, R413). -/
def turnOrPower (ex : Meaning) (s : State) : Host.Outcome State Fault Refusal :=
  if s.powered then runTurn ex s
  else match s.agenda with
    | ⟨_, .event .powerUp, _⟩ :: rest => ex .powerUp { s with agenda := rest }
    | _ => .fault .unpowered

/-- The physical address of the level-1 table of a placed program, on die 0; its level-2 table follows it. -/
def placedTable : Nat := 0x10000
/-- The virtual and physical address a placed program's first word stands at. -/
def placedPc : Nat := 0x40000
/-- Memory with an identity map of the first 512 MiB of die 0, readable, writable and executable: one level-1 entry,
and one block entry (R265). -/
def placedMap (m : Memory) : Memory :=
  (m.writeN placedTable (bytesOfNat 8 (placedTable + 0x10000 + 3))).writeN (placedTable + 0x10000) (bytesOfNat 8 0x1D)
/-- Memory without poison in what a placed program's fetch reads. -/
def placedClean (m : Memory) : Memory :=
  { m with poison := m.poison.filter (fun g =>
      !(granulesOf placedTable 8 ++ granulesOf (placedTable + 0x10000) 8 ++ granulesOf placedPc 128).contains g) }
/-- The words laid out in memory, each little-endian, then a `nop` that begins a convoy. -/
def placedWords (m : Memory) (ws : List Word32) : Memory :=
  m.writeN placedPc ((ws ++ [0x80000000#32]).flatMap (fun x => bytesOfNat 4 x.toNat))
/-- The length in words of the instruction whose first word is given, by map 0. -/
def placedLen (w : Word32) : Nat := lengthOf map0 w
/-- Thread 0 of a region at RCB address 0x100, bound at die 0, core 0, slot 0. -/
def placedTid : Tid := { region := { sec := false, rcb := 0x100#64 }, idx := 0 }
/-- The placed thread: at `placedPc`, as after a `tret`, whose target is exempt from the C check (R112). -/
def placedThread (t : Thread) : Thread :=
  { t with tid := placedTid, status := .bound, started := true, pc := BitVec.ofNat 64 placedPc, convoy := []
           entryCheck := false, stall := none, park := none, each := none, dmapTab := [], pendRegs := []
           yieldTrap := false, leaving := false, yielding := false, csr := { t.csr with yreq := false, count := none }
           place := { Place.reset with maxgran := 57344 } }
/-- The region of the placed thread. -/
def placedRegion : Region :=
  { id := placedTid.region
    rcb := { entry := BitVec.ofNat 64 placedPc, tvec := 0#64, args := 0#64, cbank := 0#64, dmap := 0#64, evq := 0#64
             save := 0x1000#64, nct := 1, maxcore := 1, gang := 1, prio := 0, maxgran := 57344, maxslot := 1024
             linksh := 0, sec := false, fdom := 0, ydl := 0, token := 0#32 }
    clk := List.replicate 8 0#32, home := 0, host := 0, parent := none, children := [], depth := 1, code := .bound, livect := 1, doneCt := 0
    trapCt := 0, flags := 0#64, aborting := false, squares := [(0, 0)], boundAt := 0, owed := [], endClk := List.replicate 8 0#32 }
/-- An `each` of the placed thread with one VP, at the placed word, on a source of one element. -/
def placedEach : EachJob :=
  let j : EachJob :=
    { d := 0, srcNo := 1, src := { ArrReg.reset with isEmpty := false, gran := [Granule.zero] }, cell := 1
      block := BitVec.ofNat 64 placedPc, frame := [], start := 0, groups := [], nextGroup := 1, finished := [], outs := []
      mode := 0#64, q31 := 0#64, flags := 0#64 }
  { j with groups := [newGroup j 0] }
/-- A run of the placed thread on its core's edge engine: a push superstep over a graph of one vertex and one edge, whose
program is the placed words, with the VP of that edge at the first of them. -/
def placedRun (ws : List Word32) : ERun :=
  let e : EdgeItem := { src := 0, dst := 0, pos := 0, wbits := 0#32 }
  let g : EdgeGraph :=
    { v := 1, e := 1, outoff := 0x50000#64, outidx := 0x50100#64, inoff := 0x50200#64, inidx := 0x50300#64, wgt := 0#64
      val := 0x50400#64, frt := 0x50500#64 }
  let p : EdgeProg := { dmap := [], base := BitVec.ofNat 64 placedPc, words := ws, vt := tyN32, cmb := 0 }
  let x : VpGroup := { g := 0, parked := none, flags := 0#64, vps := [{ Vp.reset with pc := p.base, live := true }] }
  let q : SuperStep :=
    { ss := 0, dir := 1, startDir := 1, nv := 1, chunk := 0, rowAt := 0, inRow := 0, nextRow := 1, nextIn := 0, reached := 0
      loaded := true, last := true, combining := false, ended := false, cannot := false, items := [], group := some x
      groupItems := [e], groupNo := 0, props := [], acts := [], eacts := [], row := none, fail := none, switches := 0
      examined := 1, added := 0, failed := [], flags := 0#64, vpFlags := 0#64, poison := false, sealed := false, phase := 0 }
  { token := 1#32, tid := placedTid, slot := 0, lo := 0, cnt := 1, supers := 1, parts := 1, mode := 0#64, pushDiv := 14
    pullDiv := 24, ev := false, want := 1, graph := some g, prog := some p, cur := some q, aborted := false, owed := []
    after := [] }
/-- How a placed word comes to be executed: by the thread, by a VP of its `each`, or by a VP of an edge run (R116, R211,
R321). -/
def placedWho (i : Option Instr) : Who :=
  match i with
  | some (.vnext _) => .group placedTid 0
  | some .vpend => .group placedTid 0
  | some (.vget _) => .group placedTid 0
  | some (.vput _) => .group placedTid 0
  | some (.ecomb _) => .edge 0 0
  | some .eact => .edge 0 0
  | _ => .thread placedTid
/-- A die whose caches hold nothing that would stand before a placed program. -/
def placedDie (x : DieSt) : DieSt :=
  { x with tlb := [], shadows := [], rank := (0, 0), top := (0, 0), cores := x.cores.map (fun (i, k) => (i, { k with tlb := [] })) }
/-- The state with a program placed, its first word being what the next step executes. -/
def placeWord (s : State) (nbits w : Nat) : State :=
  let given := tableWords nbits w
  let first := given.getD 0 0#32
  let ws := (given ++ List.replicate 5 0#32).take (max (placedLen first) 1)
  let who := placedWho (decodeTableWord nbits w)
  let th := placedThread s.cur
  let s1 : State :=
    { s with
      cur := match who with
        | .group _ _ => { th with each := some placedEach }
        | _ => th
      others := [], runner := .thread, powered := true, agenda := [{ dt := 0, who := who }]
      fw := { s.fw with m := some 0, inForce := 0x1C#64, tableNs := some placedTable, part := Partition.reset, remotes := [] }
      dies := s.dies.map (fun (d, x) => (d, placedDie x)), xwrites := [], stores := [], loads := [], topks := []
      watches := [], unres := []
      regions := [placedRegion], mem := placedWords (placedMap (placedClean s.mem)) ws }
  let s2 := s1.setSlotAt 0 0 0 { Slot.reset with owner := some placedTid, consts := List.replicate 256 0#64 }
  match who with
  | .edge d c => s2.setCore d c { s2.core d c with edge := [placedRun ws] }
  | _ => s2

end Sys2Proof.Machine
end

