-- ==== Sys2Proof/Machine/Step.lean ====
section
/-!
DEFINITION. One step of the machine: one turn of one agent. A machine without power takes no step but POWER_UP.
-/
namespace Sys2Proof.Machine

/-- One step. -/
def step (s : State) : Host.Outcome State Fault Refusal := turnOrPower exec s

/-- `s` with an instruction placed where its next step fetches: the instruction's words, and after them a word that
begins the next convoy, at the start of a page of the non-secure world that is mapped readable, writable and
executable; a bound thread there, at that pc. -/
def State.withFetchWord (s : State) (nbits w : Nat) : State := placeWord s nbits w

end Sys2Proof.Machine
end

