-- ==== Sys2Proof/Safety.lean ====
section
/-!
DEFINITION. What the claims call a safe state, and the words they are written in: who runs, which operands are at
hand, what a completed instruction leaves, which bytes an address reaches. Plain definitions over plain data.
-/
namespace Sys2Proof

/-- Memory is in its canonical form. -/
def Safe (s : Machine.State) : Prop := s.mem.wf = true

end Sys2Proof

namespace Sys2Proof.Claim
open Sys2Proof.Machine

/-! ### Scalar instructions -/

/-- The current thread executes an instruction itself: it is bound, and no VP runs (R108). -/
def Runs (s : State) : Prop := s.runner = .thread ∧ s.cur.status = .bound
/-- Scalar register `r` holds its value: no result for it is still to come (R312). -/
def Free (s : State) (r : Reg) : Prop := r ∉ s.cur.pendRegs
/-- Operand b of format T is at hand. -/
def SrcFree (s : State) : Src → Prop
  | .reg b => Free s b
  | .lit _ => True
/-- The value of operand b of format T (R99). -/
def srcVal (s : State) : Src → Word64
  | .reg b => s.cur.reg b
  | .lit w => w.signExtend 64
/-- The words of an instruction with this operand b (R96). -/
def srcWords : Src → Nat
  | .reg _ => 1
  | .lit _ => 2
/-- The state in which the current thread has completed an instruction and goes on at `p`: INSTRET counts it, the
convoy is one instruction shorter, replies of other nodes kept for it are used up, and its latest instruction has posted
no matrix entry. -/
def gone (p : Word64) (s : State) : State :=
  { s with
    cur := { s.cur with
      pc := p, convoy := s.cur.convoy.tail, tail := [], csr := { s.cur.csr with instret := s.cur.csr.instret + 1#64 } }
    fw := { s.fw with remotes := s.fw.remotes.filter (fun r => r.who != .thread s.cur.tid) } }
/-- The state in which the current thread has completed an instruction of `n` words and goes on after it. -/
def after (n : Nat) (s : State) : State := gone (s.cur.pc + BitVec.ofNat 64 (4 * n)) s
/-- The state with scalar register `r` written: s0 discards it (R139). -/
def put (r : Reg) (x : Word64) (s : State) : State :=
  if r = 0#5 then s else { s with cur := { s.cur with s := s.cur.s.set r.toNat x r.isLt } }
/-- The state with flags ORed into FLAGS (R65). -/
def raise (f : Flg) (s : State) : State :=
  { s with cur := { s.cur with csr := { s.cur.csr with flags := s.cur.csr.flags ||| f.setWidth 64 } } }
/-- Bits of an integer width (R99). -/
def bits : IWidth → Nat
  | .w64 => 64 | .w32 => 32 | .w16 => 16 | .w8 => 8
/-- An operation on the low bits of two registers, its result sign-extended (R140). -/
def atWidth (f : (k : Nat) → BitVec k → BitVec k → BitVec k) (w : IWidth) (x y : Word64) : Word64 :=
  (f (bits w) (x.setWidth (bits w)) (y.setWidth (bits w))).signExtend 64
/-- The high half of a product (R140). -/
def mulHigh (u : Bool) (k : Nat) (x y : BitVec k) : BitVec k :=
  if u then ((x.setWidth (2 * k) * y.setWidth (2 * k)) >>> k).setWidth k
  else ((x.signExtend (2 * k) * y.signExtend (2 * k)) >>> k).setWidth k
/-- The positions of the ones of `x`, lowest first. -/
def onesOf (k : Nat) (x : BitVec k) : List Nat := (List.range k).filter (fun i => x.getLsbD i)
/-- What `cnt` counts (R140): ones, zeros above the highest one, zeros below the lowest one. -/
def counted (f : CntOp) (k : Nat) (x : BitVec k) : BitVec k :=
  BitVec.ofNat k (match f with
    | .pop => (onesOf k x).length
    | .clz => match (onesOf k x).getLast? with
      | some i => k - 1 - i
      | none => k
    | .ctz => (onesOf k x).headD k)

/-! ### Floating values (R58, R62, R145) -/

/-- The rounding environment of the current thread (R58, R64). -/
def env (s : State) : Env := envOf s.cur.csr.mode (s.window 31)
/-- MODE.RM is not reserved (R61). -/
def RmLegal (s : State) : Prop := modeRm s.cur.csr.mode < 5
/-- The draw that a scalar result takes and the state after it: LFSR 16, a free value where the thread's array state is
in another slot (R62, log entry 8), and none where the value needs none. -/
def drawn (x : FVal) (s : State) : Nat × State :=
  if (env s).rm = .sto ∧ x.isFin then
    if s.arrAbsent then (Config.freeCode s.draws % 65536, { s with draws := s.draws + 1 })
    else
      let x := s.mySlot.arr.lfsr.getD 16 1#32
      (lfsrDraw x, s.modArr (fun _ a => { a with lfsr := listSet a.lfsr 16 (lfsrNext x) }))
  else (0, s)
/-- An exact result rounded into register `d` in a floating type, with its own flags and those of the rounding. -/
def rounded (ty : BitVec 4) (d : Reg) (x : FVal) (f : Flg) (s : State) : State :=
  let c := convertF (env s) ty x (drawn x s).1
  put d (BitVec.ofNat 64 c.code) (raise (f ||| c.flags) (drawn x s).2)
/-- The type code of a floating width (R99). -/
def fty : FWidth → BitVec 4
  | .f32 => 15#4
  | .bf16 => 14#4
/-- The floating value in the low bits of a register. -/
def fval (w : FWidth) (x : Word64) : FVal :=
  match w with
  | .f32 => decodeF 15#4 (x.setWidth 32).toNat
  | .bf16 => decodeF 14#4 (x.setWidth 16).toNat
/-- The floating value of operand b: a literal's bits are taken as they stand. -/
def fsrc (w : FWidth) (s : State) : Src → FVal
  | .reg b => fval w (s.cur.reg b)
  | .lit l => fval w (l.setWidth 64)

/-! ### Memory -/

/-- The cached translations that an access of a context can find: its core's and its die's (R266). -/
def cachedFor (s : State) (c : Ctx) : List TlbEnt :=
  (s.die c.die).tlb ++ (if c.coreTlb then (s.core c.die c.core).tlb else [])
/-- No translation in force maps the physical page of `pa` with the other value of MSA, and no page that the context
reaches does (R375). -/
def OneMsa (s : State) (c : Ctx) (pa : Nat) (msa : Bool) : Prop :=
  mixedPage s pa msa = false ∧
  ∀ a e b, walk s c.who c.sec a = .ok (e, b) → entryPa e / 2 ^ b = pa / 2 ^ b → e.getLsbD 5 = msa
/-- The tables map address `a` for context `c` by the entry `e` of a page of 2^b bytes, and no cached translation says
otherwise (R265, R266). -/
def Walked (s : State) (c : Ctx) (a : Nat) (e : Word64) (b : Nat) : Prop :=
  walk s c.who c.sec a = .ok (e, b) ∧
  ∀ t ∈ cachedFor s c, t.sec = c.sec → t.vpn = a / 2 ^ t.bits → t.entry = e ∧ t.bits = b
/-- The tables do not map address `a` for context `c`: the entry of level `l` is invalid, and no translation of the address is
cached (R265, R266). -/
def Unmapped (s : State) (c : Ctx) (a l : Nat) : Prop :=
  walk s c.who c.sec a = .error (.invalid l) ∧ ∀ t ∈ cachedFor s c, t.sec = c.sec → t.vpn ≠ a / 2 ^ t.bits
/-- Byte `a` of the address space, for accesses of kind `acc` in context `c`, is byte `key` of this package's memory: the
page is mapped and permits the access, no cached translation says otherwise, no publish of it is under way, and the byte
is of a world and of a place that may be accessed so; no fault entry of an engine's work names the page; `msa` is the page's
MSA bit (R257, R259, R261, R263, R265 to R267, R312, R395, R422). -/
def Mapped (s : State) (c : Ctx) (acc : Acc) (a key : Nat) (msa : Bool) : Prop :=
  a < 2 ^ 55 ∧ ∃ e b, Walked s c a e b ∧
    (c.sec = true ∨ e.getLsbD 6 = false) ∧ permits e acc = true ∧
    beingPublished s c.sec (a / 65536) = false ∧
    locate s.fw (entryPa e + a % 2 ^ b) = .here key ∧
    (c.sec = true ∨ secureKey s.fw key = false) ∧
    (acc = .fetch → e.getLsbD 5 = false) ∧
    (acc = .atomic → isWs key = false) ∧
    (isWs key = true → refreshLeft s.cycle (wsSlice key) = 0) ∧
    (acc = .write → isWs key = true → wsOpen s key = true) ∧
    (c.what.isEngine = true → unresolvable s c (a / 65536) = false ∧ entryOut s c (a / 65536) = false) ∧
    msa = e.getLsbD 5 ∧ OneMsa s c (entryPa e + a % 2 ^ b) msa
/-- No access of the context's own die or thread to the line of a byte is still to come (R289, R368, R370). -/
def NoneToCome (s : State) (c : Ctx) (key : Nat) : Prop :=
  (∀ w ∈ s.xwrites, w.src = c.die ∨ w.tid = some c.tid → w.pa / 128 ≠ key / 128) ∧
  (∀ h ∈ s.stores, h.tid = c.tid → h.key / 128 ≠ key / 128) ∧
  ∀ h ∈ s.loads, h.tid = c.tid → h.key / 128 ≠ key / 128
/-- An access that changes memory. -/
def Acc.changes (acc : Acc) : Prop := acc = .write ∨ acc = .atomic
/-- Byte `a` is reached at `key` without a copy: it is homed on the context's die, or its page is memory-side (R259). A
write to it is applied as it is performed, in the order of this cycle's writes: what its die has heard of has been applied
(R367, R372). -/
def Reaches (s : State) (c : Ctx) (acc : Acc) (a key : Nat) : Prop :=
  NoneToCome s c key ∧ (acc = .write → s.holding = false) ∧
  (Acc.changes acc → rankOk s c.die key = true) ∧
  ∃ msa, Mapped s c acc a key msa ∧ direct c.die key msa = true ∧
    (Acc.changes acc → msa = true ∨ coveredApplied s c.die = true)
/-- No write is on its way between the dies, and no die has heard of more than has been performed (R371). -/
def Calm (s : State) : Prop :=
  s.xwrites = [] ∧ ∀ d,
    (s.die d).vc.length = 8 ∧ (s.die d).known.length = 8 ∧ (s.die d).beacons.length = 8 ∧
    ∀ k, k < 8 → clkGe ((s.die k).vc.getD k 0#32) ((s.die d).vc.getD k 0#32) = true
/-- Byte `a` is reached at its home `key` by an access that always goes there (R277, R363). A write can be performed there
now, in the order of this cycle's writes: what its die has heard of has been applied on that die, or the dies' clocks let
it pass (R367, R371). -/
def ReachesHome (s : State) (c : Ctx) (acc : Acc) (a key : Nat) : Prop :=
  (∃ msa, Mapped s c acc a key msa) ∧ NoneToCome s c key ∧
  (acc = .write → rankOk s c.die key = true ∧ ((homeOf key = c.die ∧ coveredApplied s c.die = true) ∨ Calm s))
/-- The `n` bytes from `a` are bytes `key 0`, `key 1`, … of memory, and no top-k insert of the thread itself into them
is still to come (R342). -/
def Span (s : State) (c : Ctx) (acc : Acc) (a n : Nat) (key : Nat → Nat) : Prop :=
  ∀ i, i < n → Reaches s c acc (a + i) (key i) ∧
    ∀ k ∈ s.topks, k.tid = c.tid → key i < k.key ∨ k.key + 16 ≤ key i
/-- None of these bytes lies in a poisoned granule (R398). -/
def Clean (s : State) (n : Nat) (key : Nat → Nat) : Prop := ∀ i, i < n → s.mem.poisoned (key i) = false
/-- The bytes at these places, as a number (R5). -/
def numberAt (m : Memory) (n : Nat) (key : Nat → Nat) : Nat :=
  natOfBytes ((List.range n).map (fun i => m.read (key i)))
/-- A core without the contents of its caches. -/
def coldCore (k : CoreSt) : CoreSt := { k with tlb := [], adc := [], l1d := [], l1i := [] }
/-- A die without the contents of its caches, and without the rank of the writes it has performed in this cycle. -/
def coldDie (x : DieSt) : DieSt := { x with tlb := [], l2 := [], cores := [], copies := [], rank := (0, 0), top := (0, 0) }
/-- As `coldDie`, and without what the die's clock says. -/
def unheard (x : DieSt) : DieSt := { coldDie x with vc := [], clockMoved := false, movedAt := 0 }
/-- Two states that differ only in the translations and lines that caches of the dies hold, in how many free values have been
drawn, and in the rank of what has been written in this cycle: a die holds no copy of a line that it did not hold. -/
def SameButCaches (s t : State) : Prop :=
  { t with dies := s.dies, draws := s.draws } = s ∧
  ∀ d, coldDie (t.die d) = coldDie (s.die d) ∧ (∀ k ∈ (t.die d).copies, k ∈ (s.die d).copies) ∧
    ∀ c, coldCore (t.core d c) = coldCore (s.core d c)
/-- As `SameButCaches`, and the dies may also have heard other dies' clocks and hold other copies of their lines. -/
def SameButHeard (s t : State) : Prop :=
  { t with dies := s.dies, draws := s.draws } = s ∧
  ∀ d, unheard (t.die d) = unheard (s.die d) ∧ ∀ c, coldCore (t.core d c) = coldCore (s.core d c)
/-- The waits for a change of a location go on: what they watch is the same, whatever they have seen (R361). -/
def Watching (s t : State) : Prop := t.watches.map (fun w => { w with now := none }) = s.watches.map (fun w => { w with now := none })
/-- `t` is `u` with memory `m`, which those that wait for a change of a location have seen (R361). -/
def withMem (m : Memory) (u : State) : State := { u with mem := m, watches := u.watches.map (Watch.note m) }

/-- The word at `a` of the current thread's code, at hand for context `c`, and whether it begins a convoy (R107). -/
def Word (s : State) (c : Ctx) (a : Word64) (w : Word32) : Prop :=
  ∃ key, Span s c .fetch a.toNat 4 key ∧ Clean s 4 key ∧ w = BitVec.ofNat 32 (numberAt s.mem 4 key)
/-- The address part of a TVAL, bits [54:0] (R112). -/
def addr55 (a : Word64) : Word64 := a &&& 0x007FFFFFFFFFFFFF#64
/-- Bits [54:2] of an address, as TPC and TVEC hold them (R151). -/
def addrAligned (a : Word64) : Word64 := a &&& 0x007FFFFFFFFFFFFC#64

/-! ### Control and status registers -/

/-- Nothing of the current thread is still to come that an access to FLAGS, EXMSEL or ASTART waits for or traps on
(R150, R245, R342). -/
def Quiet (s : State) : Prop :=
  pausedOf s = none ∧ s.unknownBusy = false ∧ ∀ k ∈ s.topks, k.tid ≠ s.cur.tid
/-- The numbers of R151's table. -/
def csrNumbers : List Nat :=
  [0x00, 0x01, 0x02, 0x03, 0x04, 0x05, 0x06, 0x10, 0x11, 0x12, 0x13, 0x14, 0x20, 0x30, 0x31, 0x32, 0x40, 0x41,
   0x50, 0x51, 0x52, 0x53, 0x54, 0x60, 0x61]
/-- The registers that hold what they read as. -/
def csrPlain (c : Csrs) : List (Nat × Word64) :=
  [(0x00, c.mode), (0x01, c.flags), (0x02, c.exmsel), (0x03, c.astart), (0x04, c.qgrant), (0x05, c.cbase),
   (0x06, c.seed), (0x10, c.tcause), (0x11, c.tpc), (0x12, c.tval), (0x13, c.tscratch), (0x14, c.tvec),
   (0x30, c.epushdiv), (0x31, c.epulldiv), (0x32, c.mswap), (0x61, c.instret)]
/-- The registers that follow from what a thread has been given and where it runs, and from the time: YDEAD, REFWIN, WSPHASE,
CTID, COREID, DIEID, REGION, GANG and CYCLE (R89, R91, R151, R263, R264). -/
def csrComposed (s : State) : List (Nat × Word64) :=
  let t := s.cur
  let p := t.place
  let num := fun n => BitVec.ofNat 64 n
  let phase := s.cycle % 64000
  let busy := decide (phase % 4000 < 2000)
  let attached := if p.gang.isEmpty then [p.die] else p.gang.map (·.1)
  [(0x20, (t.csr.pcnt.setWidth 64 <<< 48) ||| (if t.csr.yreq then 1#64 <<< 32 else 0#64) ||| num (t.csr.count.getD 0 % 2 ^ 32)),
   (0x40, (if busy then 1#64 <<< 24 else 0#64) |||
     (num (if busy then phase / 4000 else (phase / 4000 + 1) % 16) <<< 20) ||| num phase),
   (0x41, (if t.wsPending then 4#64 else 0#64) ||| (if (s.die p.die).openSec then 2#64 else 0#64) |||
     (if (s.die p.die).openNs then 1#64 else 0#64)),
   (0x50, num t.tid.idx),
   (0x51, num (p.lcore % 32) ||| (num (p.slot % 4) <<< 5)),
   (0x52, num (p.die % 8)),
   (0x53, t.tid.region.rcb &&& 0x007FFFFFFFFFFFFF#64),
   (0x54, num (attached.foldl (fun m d => m ||| 2 ^ d) 0 % 256) ||| (num (attached.length % 16) <<< 8) |||
     (num p.die <<< 12)),
   (0x60, num s.cycle)]
/-- The registers that a program writes, SEED apart, and what a write of `v` leaves: reserved bits stay 0, and TCAUSE
keeps INH (R151). -/
def csrWrites (c : Csrs) (v : Word64) : List (Nat × Word64 × Csrs) :=
  [(0x00, c.mode, { c with mode := v &&& 0x7F#64 }), (0x01, c.flags, { c with flags := v &&& 0x7F#64 }),
   (0x02, c.exmsel, { c with exmsel := v &&& 7#64 }), (0x03, c.astart, { c with astart := v }),
   (0x05, c.cbase, { c with cbase := v &&& 0xFF#64 }),
   (0x10, c.tcause, { c with tcause := (c.tcause &&& 0x10000#64) ||| (v &&& 0x7FF#64) }),
   (0x11, c.tpc, { c with tpc := addrAligned v }), (0x12, c.tval, { c with tval := v }),
   (0x13, c.tscratch, { c with tscratch := v }), (0x14, c.tvec, { c with tvec := addrAligned v }),
   (0x30, c.epushdiv, { c with epushdiv := v &&& 0xFFFF#64 }),
   (0x31, c.epulldiv, { c with epulldiv := v &&& 0xFFFF#64 }), (0x32, c.mswap, { c with mswap := v &&& 0xFF#64 })]
/-- The state with the current thread's registers replaced. -/
def withCsr (c : Csrs) (s : State) : State := { s with cur := { s.cur with csr := c } }
/-- The state after a write of SEED: LFSR j holds the low 32 bits exclusive-ORed with j · 0x9E3779B9, 1 in place of 0
(R62). -/
def seeded (v : Word64) (s : State) : State :=
  { s.modArr (fun _ a => { a with lfsr := (List.range 17).map (fun j =>
      let x := v.setWidth 32 ^^^ BitVec.ofNat 32 (j * 0x9E3779B9)
      if x = 0#32 then 1#32 else x) }) with
    cur := { s.cur with csr := { s.cur.csr with seed := v } } }

/-! ### Traps -/

/-- No wait at a semaphore or for a location, no fault entry and no request to another node is the current thread's own. -/
def Idle (s : State) : Prop :=
  (∀ x ∈ s.dies, (∀ q ∈ x.2.squares, ∀ w ∈ q.2.waiters, w.1 ≠ s.cur.tid) ∧
    (∀ f ∈ x.2.faults, f.tid = s.cur.tid → f.what.isEngine = true)) ∧
  (∀ r ∈ s.fw.remotes, r.who.ofThread s.cur.tid = false) ∧ ∀ w ∈ s.watches, w.tid ≠ s.cur.tid
/-- INH: the thread is in its handler (R151). -/
def InHandler (s : State) : Prop := s.cur.csr.tcause.getLsbD 16 = true

/-! ### Virtual processors -/

/-- VP `i` of group `g` of the current thread's `each` executes (R211). -/
def VpRuns (s : State) (g i : Nat) : Prop := s.runner = .vp g i
/-- The value of v(r), sign-extended. -/
def vreg (s : State) (r : Reg) : Word64 := (s.vp.v.toList.getD r.toNat 0#32).signExtend 64
/-- The second operand of a VP's instruction, if its register is one of the sixteen. -/
def vsrc (s : State) : Src → Option Word64
  | .reg b => if b.toNat < 16 then some (vreg s b) else none
  | .lit w => some (w.signExtend 64)
/-- The state with the low 32 bits of `x` in v(d) and the VP `n` words on. -/
def vpAfter (n : Nat) (s : State) : State := { s with vp := { s.vp with pc := s.vp.pc + BitVec.ofNat 64 (4 * n) } }
def vpPut (d : Reg) (x : Word64) (s : State) : State :=
  { s with vp := { s.vp with v := Vector.ofFn (fun i => if i.val = d.toNat then x.setWidth 32 else s.vp.v[i.val]) } }
/-- The state with flags ORed into those group `g` has raised (R213). -/
def vpRaise (g : Nat) (f : Flg) (s : State) : State :=
  { s with cur := { s.cur with each := s.cur.each.map (fun (j : EachJob) =>
      { j with groups := j.groups.map (fun x => if x.g = g then { x with flags := x.flags ||| f.setWidth 64 } else x) }) } }

/-! ### Array instructions -/

/-- Array register `r` of the current thread, whole: of one spread over a gang, the shares one after the other (R43). -/
def areg (s : State) (r : Nat) : ArrReg := s.arrReg r
/-- The code of element `i` of array register `r`. -/
def codeAt (s : State) (r i : Nat) : Nat := ((areg s r).elem i).code
/-- The value of element `i` of a register's contents, a NaN scale substituted as MODE says (R50). -/
def valOf (s : State) (r : ArrReg) (i : Nat) : Val := (elemValue (env s).sub r.tag (r.elem i)).1
/-- The files of the slots that the current thread's array state lies in, one on each die, its own among them, have their 32
array registers, 7 mask registers and 17 LFSRs. -/
def SlotsWhole (s : State) : Prop :=
  let l := s.cur.place.shares
  (s.cur.place.die, s.cur.place.core, s.cur.place.slot) ∈ l ∧ (l.map (·.1)).Nodup ∧ ∀ x ∈ l,
    let a := (s.slotAt x.1 x.2.1 x.2.2).arr
    a.regs.length = 32 ∧ a.masks.length = 7 ∧ a.lfsr.length = 17
/-- The current thread executes an instruction itself, and its array state is in its slots (R385). -/
def ArrRuns (s : State) : Prop := Runs s ∧ s.arrAbsent = false ∧ SlotsWhole s
/-- A register's contents lie on one die, or each die of the current thread has the granules of its own rows (R43). -/
def WellSpread (s : State) (r : ArrReg) : Prop :=
  r.parts ≤ 1 ∨ (r.parts = s.cur.place.shares.length ∧ r.gran.length = allGranules r.parts r.tag r.ext)
/-- The shape of array register `r` is not pending (R37). -/
def Ready (s : State) (r : Nat) : Prop := (areg s r).pending = false
/-- No granule of a register's contents is poisoned. -/
def Sound (r : ArrReg) : Prop := ∀ g ∈ r.gran, g.poison = false
/-- Array register `r` can be a source: not pending, full (R27), and free of poison (R184). -/
def Full (s : State) (r : Nat) : Prop := Ready s r ∧ (areg s r).isEmpty = false ∧ Sound (areg s r)
/-- Operand b of an element-wise instruction is at hand. -/
def EwFull (s : State) : EwSrc → Prop
  | .arr b => Full s b.toNat
  | .sca b => Free s b
  | _ => True
/-- The contents of operand b, typed by whether operand a is floating (R102, R103). -/
def ewReg (s : State) (flt : Bool) : EwSrc → ArrReg
  | .arr b => areg s b.toNat
  | .sca b => if flt then oneReg 15#4 ((s.cur.reg b).setWidth 32).toNat else oneReg 6#4 (s.cur.reg b).toNat
  | .con b => if flt then oneReg 15#4 ((s.window b.toNat).setWidth 32).toNat else oneReg 6#4 (s.window b.toNat).toNat
  | .lit w => if flt then oneReg 15#4 w.toNat else oneReg 5#4 w.toNat
/-- The words of an instruction with this operand b. -/
def ewWords : EwSrc → Nat
  | .lit _ => 2
  | _ => 1
/-- No source of an instruction that works on cells of rank `k` has the gang's spread axis in its cell, unless none of
them has a frame (R45). -/
def Unspread (s : State) (k : Nat) (rs : List ArrReg) : Prop :=
  (∀ r ∈ rs, r.ext.length ≤ k) ∨ (∀ r ∈ rs, cellSpread s.cur.place.dies r k = false)
/-- The granules k7 may need when EXMSEL selects a class (R67, R167). -/
def exmRoom (s : State) (n : Nat) : Nat :=
  if s.cur.csr.exmsel.extractLsb' 0 3 = 0#3 then 0
  else ceilDiv (max (s.mySlot.arr.masks.getD 6 MaskReg.reset).bits.length n) 256
/-- The current thread's grant has room for a result of this tag and shape, made from these sources, and `more`
granules beside it (R38, R46). -/
def Fits (s : State) (t : Tag) (ext : List Nat) (srcs : List ArrReg) (more : Nat) : Prop :=
  let d := s.cur.place.dies
  let need := needOn d t ext (resultRepl d ext srcs)
  ext.length ≤ 8 ∧ need ≤ 57344 ∧ s.held + need + more ≤ s.mySlot.grant
/-- `t` is `s` after the current thread completed an instruction of `n` words that changed its array state only: the
pc, the convoy and INSTRET go on, FLAGS may gain bits, and memory, the scalar registers, the other special registers,
the other threads, the slots it is not on and the matrix engines' tiles and sets are as they were. -/
def ArrFrame (n : Nat) (s t : State) : Prop :=
  (∃ f, t.cur = { s.cur with
    pc := s.cur.pc + BitVec.ofNat 64 (4 * n), convoy := s.cur.convoy.tail, tail := []
    csr := { s.cur.csr with flags := s.cur.csr.flags ||| f, instret := s.cur.csr.instret + 1#64 } }) ∧
  t = { s with
    cur := t.cur, dies := t.dies, draws := t.draws
    fw := { s.fw with remotes := s.fw.remotes.filter (fun r => r.who != .thread s.cur.tid) } } ∧
  ∀ d c, (t.core d c).tiles = (s.core d c).tiles ∧ (t.core d c).sets = (s.core d c).sets ∧
    ∀ z, (d, c, z) ∉ s.cur.place.shares → t.slotAt d c z = s.slotAt d c z
/-- As `ArrFrame`, and array register `d` now holds a result of this tag and shape: every other array register, and every
mask register but k7 and `k`, is as it was. -/
def Wrote (n : Nat) (s t : State) (d : Nat) (tag : Tag) (ext : List Nat) (k : Nat := 7) : Prop :=
  ArrFrame n s t ∧
  (areg t d).tag = tag ∧ (areg t d).ext = ext ∧ (areg t d).isEmpty = false ∧ (areg t d).pending = false ∧
  (∀ r, r ≠ d → areg t r = areg s r) ∧
  (∀ j, j ≠ 6 → j + 1 ≠ k → t.mySlot.arr.masks[j]? = s.mySlot.arr.masks[j]?)
/-- Rounding takes no draw: MODE.RM is not stochastic (R62). -/
def NoDraw (s : State) : Prop := (env s).rm ≠ .sto

/-- A count operand is at hand: a free scalar register, or a full rank-0 array register of an unscaled integer tag
(R188). -/
def CountFull (s : State) : CountSrc → Prop
  | .sca b => Free s b
  | .arr b => Full s b.toNat ∧ (areg s b.toNat).tag.isInt = true ∧ (areg s b.toNat).ext = []
/-- The value of a count. -/
def countOf (s : State) : CountSrc → Int
  | .sca b => (s.cur.reg b).toInt
  | .arr b => (decodeVal (areg s b.toNat).ty (codeAt s b.toNat 0)).toInt
/-- As `ArrFrame`, and a result of unknown size for array register `d`, of this tag and shape, is in flight: `d` keeps
its contents but its shape is pending, and every other register is as it was (R36, R37). -/
def Flying (n : Nat) (s t : State) (d : Nat) (tag : Tag) (ext : List Nat) (r : ArrReg) : Prop :=
  ArrFrame n s t ∧
  areg t d = { areg s d with pending := true } ∧ (∀ x, x ≠ d → areg t x = areg s x) ∧
  t.mySlot.arr.masks = s.mySlot.arr.masks ∧
  (∃ f fl, t.mySlot.flight = s.mySlot.flight ++ [f] ∧ f.reg = d ∧ f.kind = .unknown r fl) ∧
  r.tag = tag ∧ r.ext = ext ∧ r.isEmpty = false ∧ r.pending = false
/-- No result in flight and no pinned storage is still to come back to the grant (R205). -/
def Settled (s : State) : Prop := s.mySlot.flight = [] ∧ s.mySlot.pins = []
/-- Frame and cell of a register's shape at a rank field (R29). -/
def frameOf (r : ArrReg) (k : BitVec 3) : List Nat := r.ext.take (r.ext.length - rkVal k)
def cellOf (r : ArrReg) (k : BitVec 3) : List Nat := r.ext.drop (r.ext.length - rkVal k)
/-- The leading extent of a cell, 1 for rank 0, and the shape of its items (R188). -/
def leadN (cell : List Nat) : Nat := cell.headD 1
def itemOf (cell : List Nat) : List Nat := cell.drop 1

/-! ### Arrays in memory -/

/-- Every byte of the `n` from `a` is reached, at the place `key` gives it, and none has an insert of the thread itself
still to come (R342); `ws` says that the access goes to the home (R277). -/
def Touches (s : State) (c : Ctx) (acc : Acc) (ws : Bool) (key : Nat → Nat) (a n : Nat) : Prop :=
  ∀ i, i < n →
    (if ws then ReachesHome s c acc (a + i) (key (a + i)) ∧ isWs (key (a + i)) = true
     else Reaches s c acc (a + i) (key (a + i))) ∧
    ∀ k ∈ s.topks, k.tid = c.tid → key (a + i) < k.key ∨ k.key + 16 ≤ key (a + i)
/-- None of the `n` bytes from `a` lies in a poisoned granule. -/
def Whole (s : State) (key : Nat → Nat) (a n : Nat) : Prop := ∀ i, i < n → s.mem.poisoned (key (a + i)) = false
/-- The field of `w` bits at a bit address (R273). -/
def fieldAt (m : Memory) (key : Nat → Nat) (bit w : Nat) : Nat :=
  natOfBytes ((List.range ((bit + w - 1) / 8 - bit / 8 + 1)).map (fun i => m.read (key (bit / 8 + i)))) >>> (bit % 8) % 2 ^ w
/-- The bytes that the field of `w` bits at a bit address lies in are reached. -/
def FieldTouched (s : State) (c : Ctx) (acc : Acc) (ws : Bool) (key : Nat → Nat) (bit w : Nat) : Prop :=
  Touches s c acc ws key (bit / 8) ((bit + w - 1) / 8 - bit / 8 + 1)
def FieldWhole (s : State) (key : Nat → Nat) (bit w : Nat) : Prop :=
  Whole s key (bit / 8) ((bit + w - 1) / 8 - bit / 8 + 1)
/-- Whether byte `x` of memory holds a bit of the field. -/
def InField (key : Nat → Nat) (bit w x : Nat) : Prop :=
  ∃ i, i < (bit + w - 1) / 8 - bit / 8 + 1 ∧ x = key (bit / 8 + i)
/-- The parameter block of an instruction resolves to `m` (R105). -/
def Block (s : State) (p : PBlock) (m : MBlock) : Prop := memBlock p s = .ok (m, s)
/-- Every element of a block in memory, and the scale byte of each of its blocks where there are such bytes, is
reached, each by the die that holds the element. -/
def BlockTouched (s : State) (at_ : Nat → Ctx) (acc : Acc) (ws : Bool) (key : Nat → Nat) (va sva : Nat) (scaled : Bool)
    (m : MBlock) : Prop :=
  (∀ i, i < extProd m.ext → FieldTouched s (at_ i) acc ws key (elemBit va m i) (tyWidth m.tag.ty)) ∧
  (scaled = true → ∀ i, i < extProd m.ext → Touches s (at_ i) acc ws key (sva + blockIdx m.tag m.ext i) 1)
/-- The places of the translation tables in force, of every level (R265). -/
def tablePlaces (s : State) : List Nat :=
  let here := fun (b : Nat) => match locate s.fw b with
    | .here k => [k]
    | _ => []
  (s.fw.tableNs.toList ++ s.fw.tableSec.toList).flatMap fun b1 => here b1 ++
    (tableEntries s 1 b1).flatMap fun e1 => here (entryPa e1) ++
      (tableEntries s 2 (entryPa e1)).flatMap fun e2 => if e2.getLsbD 1 then here (entryPa e2) else []
/-- Byte `x` of memory is of no translation table. -/
def OutOfTables (s : State) (x : Nat) : Prop := ∀ b ∈ tablePlaces s, x < b ∨ b + 65536 ≤ x
/-- A location of `n` bytes at an address lies in one piece of memory, at its own alignment, and in no translation table. -/
def OnePlace (s : State) (key : Nat → Nat) (a n : Nat) : Prop :=
  key a % n = 0 ∧ ∀ i, i < n → key (a + i) = key a + i ∧ OutOfTables s (key (a + i))
/-- Element `i` is not masked out. -/
def Unmasked (s : State) (m : BitVec 3) (i : Nat) : Prop := maskBit s.mySlot.arr.masks m.toNat i = true
/-- The context of the accesses of the first window of an instruction that goes through the gather/scatter unit. -/
def winCtx (s : State) : Ctx := { s.arrCtx false false with who := .elem s.cur.tid 0 }
/-- As `ArrFrame`, but memory too may be changed, which those that wait for a location see (R361). -/
def StoreFrame (n : Nat) (s t : State) : Prop := Watching s t ∧ ArrFrame n s { t with mem := s.mem, watches := s.watches }
/-- The current thread is at the start of an instruction that goes through the gather/scatter unit: nothing of it is
under way, it is not being pre-empted, and ASTART is 0 (R283, R285). -/
def Fresh (s : State) : Prop :=
  s.cur.park = none ∧ s.cur.leaving = false ∧ s.cur.csr.astart = 0#64 ∧
  ∀ r ∈ s.fw.remotes, ∀ n, r.who ≠ .elem s.cur.tid n

/-! ### The matrix engine -/

/-- The current thread's core. -/
def myCore (s : State) : CoreSt := s.core s.cur.place.die s.cur.place.core
/-- A post to the matrix queue goes through: no unreported pause, MODE.RM not reserved, no sequencer of the thread that
the entry would wait for, and room in the queue (R226, R230, R347). -/
def CanPost (s : State) : Prop :=
  Runs s ∧ s.arrAbsent = false ∧ RmLegal s ∧ pausedOf s = none ∧ (myCore s).queue.length < 64 ∧
  ∀ c ∈ (s.die s.cur.place.die).expQueue, c.tid ≠ s.cur.tid
/-- `t` is `s` after the current thread posted an entry: it stands last in the queue and waits, has captured MODE, the
operands and ASTART, and ASTART is 0; scalar registers, memory and the tiles are as they were (R226). -/
def Posted (s t : State) (op : MOp) (srcs : List ArrReg) (pend : List Reg := s.cur.pendRegs) : Prop :=
  (∃ e, (myCore t).queue.getLast? = some e ∧ (myCore t).queue.map (·.id) = (myCore s).queue.map (·.id) ++ [e.id] ∧
    e.id = (myCore s).nextEntry ∧ e.op = op ∧ e.tid = s.cur.tid ∧
    e.pc = s.cur.pc ∧ e.mode = s.cur.csr.mode ∧ e.astart = s.cur.csr.astart.toNat ∧ e.srcs = srcs ∧
    e.stat = .waiting) ∧
  (myCore t).tiles = (myCore s).tiles ∧ (myCore t).sets = (myCore s).sets ∧
  t.mem = s.mem ∧
  t.cur = { s.cur with
    pc := s.cur.pc + 4#64, convoy := s.cur.convoy.tail, pendRegs := pend
    tail := s.cur.tail ++ [(myCore s).nextEntry]
    csr := { s.cur.csr with astart := 0#64, instret := s.cur.csr.instret + 1#64 } }
/-- A full register of rank 2 and at most 128 × 128 elements. -/
def Square128 (s : State) (r : Nat) : Prop :=
  Ready s r ∧ (areg s r).isEmpty = false ∧ (areg s r).ext.length = 2 ∧ ∀ n ∈ (areg s r).ext, n ≤ 128
/-- Three registers from `a` up are a triple: offsets and indices of integer types, non-decreasing offsets from 0 to the
number of values (R236). -/
def Triple (s : State) (a : Nat) : Prop :=
  a ≤ 29 ∧ (∀ i, i < 3 → Ready s (a + i) ∧ (areg s (a + i)).isEmpty = false ∧ (areg s (a + i)).ext.length = 1) ∧
  indexTag (areg s a) = true ∧ indexTag (areg s (a + 1)) = true ∧ matrixTy (areg s (a + 2)).ty = true ∧
  (areg s (a + 1)).ext = (areg s (a + 2)).ext ∧ offsetsOk (areg s a) (areg s (a + 1)).count = true
/-- Entry `n` of a core stands behind `before` in its queue, its thread is `th`, and its die has not stopped. -/
def Entry (s : State) (d c n : Nat) (before : List MEntry) (e : MEntry) (th : Thread) : Prop :=
  (s.die d).stopped = false ∧ entryOf (s.core d c) n = some (before, e) ∧ s.thread? e.tid = some th
/-- Entry `n` has run: its flags and answer wait for its completion, and memory and every thread's registers are as they
were. -/
def Ran (s t : State) (d c n : Nat) (fl : Flg) (ans : Word64) : Prop :=
  (∃ e ∈ (t.core d c).queue, e.id = n ∧ e.stat = .done ∧ e.flags = fl.setWidth 64 ∧ e.answer = ans) ∧
  (t.core d c).queue.map (·.id) = (s.core d c).queue.map (·.id) ∧
  t.mem = s.mem ∧ t.cur = s.cur ∧ t.others = s.others

/-! ### Queues, commands and the device -/

/-- Every byte of the `n` from `a` is reached at its home `key` by accesses that always go there (R277, R363), and none
has an insert of the context's thread still to come (R342). -/
def AtHome (s : State) (c : Ctx) (acc : Acc) (key : Nat → Nat) (a n : Nat) : Prop :=
  ∀ i, i < n → ReachesHome s c acc (a + i) (key (a + i)) ∧
    ∀ k ∈ s.topks, k.tid = c.tid → key (a + i) < k.key ∨ k.key + 16 ≤ key (a + i)
/-- Different addresses among the `n` from `a` are different bytes of memory. -/
def Distinct (key : Nat → Nat) (a n : Nat) : Prop :=
  ∀ x y, a ≤ x → x < a + n → a ≤ y → y < a + n → key x = key y → x = y
/-- No byte of the `n` from `a` is one of the `m` from `b`. -/
def Apart (key : Nat → Nat) (a n b m : Nat) : Prop := ∀ i j, i < n → j < m → key (a + i) ≠ key (b + j)
/-- Writing these bytes of memory leaves the translation of address `a` as it is: none of them is of a table that it
walks. -/
def KeepsWalk (s : State) (c : Ctx) (touched : Nat → Prop) (a : Nat) : Prop :=
  ∀ m : Memory, (∀ x, ¬ touched x → m.read x = s.mem.read x) → walk { s with mem := m } c.who c.sec a = walk s c.who c.sec a
/-- The `n` bytes at `a`, through `key`. -/
def bytesAt (m : Memory) (key : Nat → Nat) (a n : Nat) : List Byte := (List.range n).map (fun i => m.read (key (a + i)))
/-- The number in the `n` bytes at `a`, through `key`, lowest first (R5). -/
def wordAt (m : Memory) (key : Nat → Nat) (a n : Nat) : Nat := natOfBytes (bytesAt m key a n)
/-- The bytes of a block that an instruction takes as a whole are at hand and hold `b` (R144, R152). -/
def Holds (s : State) (key : Nat → Nat) (a n : Nat) (b : List Byte) : Prop :=
  Touches s s.ctx .read false key a n ∧ Whole s key a n ∧ bytesAt s.mem key a n = b
/-- The region of a context has an event queue at `evq`, of `cap` records, whose HEAD and TAIL are given; header and
records are reached at their home, each byte at a place of its own, and are whole; what other nodes have been asked for lies
on those (R362, R363). -/
def Queue (s : State) (c : Ctx) (key : Nat → Nat) (evq cap head tail : Nat) : Prop :=
  (∃ r, s.rcb? c.tid.region = some r ∧ r.evq = BitVec.ofNat 64 evq) ∧ 0 < evq ∧ evq < 2 ^ 55 ∧ capOk cap = true ∧
  AtHome s c .read key evq (64 + 32 * cap) ∧ AtHome s c .write key evq (64 + 32 * cap) ∧
  (∀ r ∈ s.fw.remotes, ∀ pa n k, r.req = .read pa n → locate s.fw pa ≠ .here k) ∧
  Distinct key evq (64 + 32 * cap) ∧ Whole s key evq (64 + 32 * cap) ∧
  wordAt s.mem key evq 4 = cap ∧ wordAt s.mem key (evq + 8) 8 = head ∧
  wordAt s.mem key (evq + 16) 8 = tail
/-- A command that ends posts no record: it asks for none, or its region has no queue (R362). -/
def Silent (s : State) (ev : Bool) (t : Tid) : Prop := ev = false ∨ ∀ r, s.rcb? t.region = some r → r.evq = 0#64
/-- A record of a command has been posted where one is due: nothing is owed, and none is asked for. -/
def NoRecord (s : State) (ev : Bool) (t : Tid) (owed : List (List Byte)) : Prop := Silent s ev t ∧ owed = []
/-- The current thread may post a command: its inserts and cross-die writes are performed (R295, R303, R314, R349). -/
def MayPost (s : State) : Prop := Runs s ∧ released s s.cur.tid .pkg = true
/-- `t` is `s` after the current thread posted a command with the next token of its die, which is in `d`: the pc, the
convoy and INSTRET go on, memory is as it was, and the die has counted the command (R301). -/
def Token (s t : State) (d : Reg) (change : State → State := id) : Prop :=
  t.mem = s.mem ∧
  t.cur = (after 1 (put d ((tokenOf s.cur.place.die (s.die s.cur.place.die).tokens).setWidth 64) (change s))).cur ∧
  (t.die s.cur.place.die).tokens = (s.die s.cur.place.die).tokens + 1
/-- The current thread's die. -/
def myDie (s : State) : DieSt := s.die s.cur.place.die
/-- The state with the current thread changed. -/
def withCur (f : Thread → Thread) (s : State) : State := { s with cur := f s.cur }
/-- No load of the current thread is held back (R368). -/
def NoLoadHeld (s : State) : Prop := ∀ h ∈ s.loads, h.tid ≠ s.cur.tid
/-- On every die that the current thread runs on, the writes that the die has heard of have been applied (R370). -/
def AllCovered (s : State) : Prop := ∀ d ∈ s.cur.place.dieList, coveredApplied s d = true
/-- The current thread once it has heard what its dies have: it comes before its later releases (R369). -/
def heard (a : List Word32) (t : Thread) : Thread := { t with acq := a }
/-- No store and no load of the current thread is held back (R368). -/
def NoneHeld (s : State) : Prop := (∀ h ∈ s.stores, h.tid ≠ s.cur.tid) ∧ ∀ h ∈ s.loads, h.tid ≠ s.cur.tid
/-- The 1024 bytes of the current thread's save area are reached by the device, writing them changes no translation of
them, and no store of the thread is held back (R368, R387, R424). -/
def SaveReached (s : State) (key : Nat → Nat) : Prop :=
  let c := s.cur.deviceCtx
  let a := saveArea s s.cur.tid
  NoneHeld s ∧ a % 1024 = 0 ∧ AtHome s c .write key a 1024 ∧ Distinct key a 1024 ∧
  ∀ i, i < 1024 → KeepsWalk s c (fun x => ∃ j, j < 1024 ∧ x = key (a + j)) (a + i)
/-- What a save area holds of the current thread's scalar registers when it leaves its slot to go on at `pc` (R387). -/
def Saved (s t : State) (key : Nat → Nat) (pc : Word64) : Prop :=
  let a := saveArea s s.cur.tid
  wordAt t.mem key a 8 = pc.toNat ∧
  (∀ r : Reg, r ≠ 0#5 → wordAt t.mem key (a + 8 * r.toNat) 8 = (s.cur.reg r).toNat) ∧
  wordAt t.mem key (a + 8 * 32) 8 = s.cur.csr.mode.toNat ∧
  wordAt t.mem key (a + 8 * 33) 8 = s.cur.csr.flags.toNat ∧
  (∀ x, (∀ j, j < 1024 → x ≠ key (a + j)) → t.mem.read x = s.mem.read x) ∧
  t.cur.tid = s.cur.tid ∧ t.cur.status = .unbound
/-- The current thread's region is bound, is not being aborted, and has another thread in a slot, so that the region
stays on its squares when this one leaves (R90). -/
def RegionStays (s : State) : Prop :=
  (∃ r, s.region? s.cur.tid.region = some r ∧ r.code = .bound ∧ r.aborting = false) ∧
  ∃ x ∈ s.others, x.tid.region = s.cur.tid.region ∧ x.tid ≠ s.cur.tid ∧ x.status = .bound
/-- The state word of a region is reached by the device, each byte at a place of its own (R77, R424). -/
def WordReached (s : State) (key : Nat → Nat) (r : Region) : Prop :=
  AtHome s (deviceCtx r.home (regionTid r.id)) .write key (r.id.rcb.toNat + 0x70) 8 ∧
  Distinct key (r.id.rcb.toNat + 0x70) 8
/-- Every byte that a shadow holds lies in this package's memory, where no write to its line is on its way and no refresh
window is open, and die `d` can write it there now, in the order of this cycle's writes: what the die has heard of has been
applied, or the dies' clocks let it pass (R263, R312, R367, R371). -/
def Publishable (s : State) (d : Nat) (k : Shadow) : Prop :=
  spSorted k.bytes = true ∧
  ∀ p ∈ k.bytes, ∃ x, locate s.fw p.1 = .here x ∧ (∀ w ∈ s.xwrites, w.pa / 128 ≠ x / 128) ∧
    (isWs x = true → refreshLeft s.cycle (wsSlice x) = 0) ∧ rankOk s d x = true ∧
    ((homeOf x = d ∧ coveredApplied s d = true) ∨ Calm s)
/-- A shadow's bytes are memory's, no other byte has changed, and the shadow is gone (R312). -/
def Published (s t : State) (k : Shadow) : Prop :=
  (∀ p ∈ k.bytes, ∀ x, locate s.fw p.1 = .here x → t.mem.read x = p.2) ∧
  (∀ x, (∀ p ∈ k.bytes, locate s.fw p.1 ≠ .here x) → t.mem.read x = s.mem.read x) ∧
  ∀ y ∈ (t.die k.die).shadows, y.token ≠ k.token
/-- The state with a scalar result that was still to come in its register. -/
def arrived (d : Reg) (v : Word64) (s : State) : State :=
  put d v (withCur (fun x => { x with pendRegs := x.pendRegs.erase d }) s)
/-- The current thread with flags of an ended command merged. -/
def merged (f : Word64) (s : State) : Thread := { s.cur with csr := { s.cur.csr with flags := s.cur.csr.flags ||| f } }
/-- A command message whose turn has come: it is addressed to this package, which has had its RESET, no earlier command
waits, the writes it counts have arrived, and its header and world are in order (R413, R416, R417, R422). -/
def Heard (s : State) (h : MsgHdr) : Prop :=
  s.fw.m.isSome = true ∧ forUs s.fw h = true ∧ s.fw.commands = [] ∧
  h.wcnt.toNat ≤ spGet 0 s.fw.wcnt h.src.toNat ∧ hdrOk h = true ∧ (hdrSec h = true → fromSecure s.fw h = true)
/-- The device has sent a command its reply, if a port leads to its sender: it repeats the command's tag, and its header's
world is 0 (R414, R417). -/
def Replied (s t : State) (h : MsgHdr) (type : Nat) (status : Byte) : Prop :=
  portsOf t.fw (h.src.toNat % 4096) ≠ [] → ∃ port g rest,
    t.fw.linkOut = s.fw.linkOut ++ [.command port g (type + 0x8000) status rest] ∧
    g.dst = h.src ∧ g.tag = h.tag ∧ g.world = 0#8 ∧ g.rsv = false
/-- The number in the `n` bytes of memory from `key` up. -/
def natAt (m : Memory) (key n : Nat) : Nat := natOfBytes (m.readN key n)

/-- The fault entries of a die with the pending entry `q` of these at status `st` (R394). -/
def statused (fs : List FaultRec) (q st : Nat) : List FaultRec :=
  fs.map (fun f => if f.seq = q then { f with status := st } else f)
/-- The instructions of a convoy stand at these addresses of the current thread's code, each with its extension words,
and behind them the word that begins the next convoy; `first` says that the convoy's own first word is among them
(R107, R108). -/
def Code (s : State) : Bool → Word64 → List Instr → Prop
  | _, a, [] => ∃ w, Word s s.ctx a w ∧ cBit w = true
  | first, a, i :: rest =>
    ∃ w ext d, Word s s.ctx a w ∧ (first = true ∨ cBit w = false) ∧
      (∀ n, n < ext.length → Word s s.ctx (a + 4#64 + BitVec.ofNat 64 (4 * n)) (ext.getD n 0#32)) ∧
      lengthOf s.cur.opMap w = ext.length + 1 ∧ decodeWith s.cur.opMap w ext = .ok d ∧ d.instr = i ∧
      blockOnly i = false ∧ Code s false (a + BitVec.ofNat 64 (4 * instrWords i)) rest
/-- These instructions may stand in one convoy: at most 8 with at most as many of a class as it has units (R109), and a
control transfer only at the end (R110). -/
def OneConvoy (is : List Instr) : Prop :=
  is ≠ [] ∧ ∀ n, n < is.length → (∀ i, is[n]? = some i → fitsConvoy (is.take n) i = true) ∧
    (n + 1 < is.length → ∀ i, is[n]? = some i → isTransfer i = false)
/-- The convoy at the current thread's pc: legal, whole in memory, and begun by a word with C = 1 where the thread must
find one (R112). -/
def Convoy (s : State) (is : List Instr) : Prop :=
  OneConvoy is ∧ Code s true s.cur.pc is ∧
  (s.cur.entryCheck = true → ∃ w, Word s s.ctx s.cur.pc w ∧ cBit w = true)
/-- The control block at `va`, at `k` of memory, is offered in order (R73 to R76, R422): aligned and mapped for reads and
writes, its granules not poisoned, its region not live, its depth and its fields legal, its world the parent's or one
it may have, and the configuration able to place it; `x` are its fields as resolved. -/
def Offered (s : State) (c : Ctx) (p : Option Region) (hostSec : Bool) (va : Word64) (k : Nat) (x : Rcb) : Prop :=
  let b := s.mem.readN k 128
  let ovr := natAt s.mem (k + 0x68) 4
  va.toNat % 256 = 0 ∧ (∃ m, Mapped s c .read va.toNat k m) ∧ (∃ m, Mapped s c .write va.toNat k m) ∧
  (∀ i, i < 128 → s.mem.poisoned (k + i) = false) ∧ natAt s.mem (k + 0x70) 8 % 16 ∈ [0, 4, 5] ∧
  s.region? { sec := x.sec, rcb := va } = none ∧ (∀ r, p = some r → r.depth < 8) ∧
  reservedOk b p.isSome ovr = true ∧ fieldsOk x = true ∧
  (x.sec = true → (match p with
    | none => hostSec
    | some r => r.rcb.sec) = true) ∧
  secureKey s.fw k = x.sec ∧ couldFit s x = true ∧
  x = (match p with
    | none => rcbFields b
    | some r => clampFields { inheritFields (rcbFields b) r.rcb ovr with
        prio := (inheritFields (rcbFields b) r.rcb ovr).prio % 16 } r.rcb)
/-- `t` holds a new region, pending at die `home`, with all its threads unbound (R76, R77, R82). -/
def Launched (s t : State) (id : RegionId) (x : Rcb) (home : Nat) (p : Option Region) : Prop :=
  (∃ r, t.region? id = some r ∧ r.rcb = x ∧ r.code = .pending ∧ r.home = home ∧ r.parent = p.map (·.id) ∧
    r.children = [] ∧ r.livect = x.nct ∧ r.doneCt = 0 ∧ r.trapCt = 0 ∧
    r.depth = (match p with
      | none => 1
      | some q => q.depth + 1)) ∧
  (t.die home).arrivals = (s.die home).arrivals ++ [id] ∧
  ∀ i, i < x.nct → ∃ th ∈ t.others, th.tid = { region := id, idx := i } ∧ th.status = .unbound ∧ th.started = false

/-! ### Steps -/

/-- What an outcome is when it is a next state. -/
def nextOf (o : Host.Outcome State Fault Refusal) : Option State :=
  match o with
  | .next t => some t
  | _ => none

end Sys2Proof.Claim
end

