-- ==== Sys2Proof/Certificates/Slice0/Obligations.lean ====
section
/-!
DEFINITION. The statements of this model for the provers: what the rules of the manual say an instruction or the
machine does, stated over the model's own `exec` and `step`.
-/

open Sys2Proof Sys2Proof.Machine Sys2Proof.Claim

/-! ### Scalar instructions -/

/-- R140: the integer operations other than division, on every width, register and literal form. The conclusion gives
the whole next state: nothing but the destination, the pc, INSTRET and the convoy changes, and s0 discards. R140,
R141: division and remainder, the quotient by zero 0 and the remainder by zero the dividend; a zero divisor sets DZ,
and no other case sets a flag. -/
def Obligations.IntegerResults : Prop :=
  (∀ (s : State) (w : IWidth) (d a : Reg) (b : Src), Runs s → Free s a → Free s d → SrcFree s b →
     let x := s.cur.reg a
     let y := srcVal s b
     let out := fun (f : (k : Nat) → BitVec k → BitVec k → BitVec k) =>
       (.next (after (srcWords b) (put d (atWidth f w x y) s)) : Host.Outcome State Fault Refusal)
     exec (.add w d a b) s = out (fun _ p q => p + q) ∧
     exec (.sub w d a b) s = out (fun _ p q => p - q) ∧
     exec (.mul w d a b) s = out (fun _ p q => p * q) ∧
     (∀ u, exec (.mulh u w d a b) s = out (mulHigh u)) ∧
     exec (.and w d a b) s = out (fun _ p q => p &&& q) ∧
     exec (.or w d a b) s = out (fun _ p q => p ||| q) ∧
     exec (.xor w d a b) s = out (fun _ p q => p ^^^ q) ∧
     exec (.shl w d a b) s = out (fun k p q => p <<< (q.toNat % k)) ∧
     exec (.shr true w d a b) s = out (fun k p q => p.sshiftRight (q.toNat % k)) ∧
     exec (.shr false w d a b) s = out (fun k p q => p >>> (q.toNat % k)) ∧
     exec (.min true w d a b) s = out (fun _ p q => if p ≤ q then p else q) ∧
     exec (.min false w d a b) s = out (fun _ p q => if p.sle q then p else q) ∧
     exec (.max true w d a b) s = out (fun _ p q => if p ≤ q then q else p) ∧
     exec (.max false w d a b) s = out (fun _ p q => if p.sle q then q else p) ∧
     exec (.slt true w d a b) s = out (fun _ p q => if p < q then 1 else 0) ∧
     exec (.slt false w d a b) s = out (fun _ p q => if p.slt q then 1 else 0) ∧
     (∀ f, exec (.cnt f w d a) s = .next (after 1 (put d (atWidth (fun k p _ => counted f k p) w x 0) s)))) ∧
  (∀ (s : State) (w : IWidth) (d a : Reg) (b : Src), Runs s → Free s a → Free s d → SrcFree s b →
     let x := s.cur.reg a
     let y := srcVal s b
     let t := if y.setWidth (bits w) = 0 then raise flgDZ s else s
     let out := fun (f : (k : Nat) → BitVec k → BitVec k → BitVec k) =>
       (.next (after (srcWords b) (put d (atWidth f w x y) t)) : Host.Outcome State Fault Refusal)
     exec (.div true w d a b) s = out (fun _ p q => p / q) ∧
     exec (.div false w d a b) s = out (fun _ p q => p.sdiv q) ∧
     exec (.rem true w d a b) s = out (fun _ p q => p % q) ∧
     exec (.rem false w d a b) s = out (fun _ p q => p.srem q))

/-- R128, R142, R147: `nop`, the immediate forms and `fli`. The conclusion gives the whole next state, so that none of
them sets a flag; a `shli` or `shri` word with a bit above its shift count and variant is illegal. -/
def Obligations.ImmediateResults : Prop :=
  ∀ (s : State) (d a : Reg) (i : BitVec 11) (h : BitVec 6) (j : BitVec 16) (l : BitVec 20),
    Runs s → Free s a → Free s d →
    let x := s.cur.reg a
    let v := i.signExtend 64
    let out := fun (y : Word64) => (.next (after 1 (put d y s)) : Host.Outcome State Fault Refusal)
    exec .nop s = .next (after 1 s) ∧
    exec (.addi d a i) s = out (x + v) ∧
    exec (.andi d a i) s = out (x &&& v) ∧
    exec (.ori d a i) s = out (x ||| v) ∧
    exec (.xori d a i) s = out (x ^^^ v) ∧
    exec (.shli d a h) s = out (x <<< h.toNat) ∧
    exec (.shri false d a h) s = out (x >>> h.toNat) ∧
    exec (.shri true d a h) s = out (x.sshiftRight h.toNat) ∧
    exec (.slti d a i) s = out (if x.slt v then 1#64 else 0#64) ∧
    exec (.lui d j) s = out (j.signExtend 64 <<< 16) ∧
    exec (.lpc d j) s = out (s.cur.pc + (j.signExtend 64 <<< 2)) ∧
    exec (.fli d l) s = out (l.setWidth 64 <<< 12) ∧
    (∀ (w : Word32) (ext : List Word32), opField w = 0x014 → w.extractLsb' 6 5 ≠ 0#5 → (decode w ext).toOption = none) ∧
    (∀ (w : Word32) (ext : List Word32), opField w = 0x015 → w.extractLsb' 7 4 ≠ 0#4 → (decode w ext).toOption = none)

/-- R145, R146: the floating operations that round by MODE.RM, in every rounding mode that is not reserved. R145, R146:
`fmin`, `fmax`, `fcmp` and the conversions that no rounding mode governs; they complete in every MODE. R61: where
MODE.RM is reserved, a floating instruction that rounds traps ILLOP, TVAL its address, and has no effect. -/
def Obligations.FloatResults : Prop :=
  (∀ (s : State) (w : FWidth) (d a : Reg) (b : Src), Runs s → Free s a → Free s d → SrcFree s b → RmLegal s →
     let x := fval w (s.cur.reg a)
     let y := fsrc w s b
     let rm := (env s).rm
     let out := fun (r : FVal × Flg) =>
       (.next (after (srcWords b) (rounded (fty w) d r.1 r.2 s)) : Host.Outcome State Fault Refusal)
     exec (.fadd w d a b) s = out (fadd rm x y) ∧
     exec (.fsub w d a b) s = out (fadd rm x y.neg) ∧
     exec (.fmul w d a b) s = out (fmulV x y) ∧
     exec (.fdiv w d a b) s = out (fdivV x y) ∧
     exec (.fma w d a b) s =
       out ((fadd rm (fmulV x y).1 (fval w (s.cur.reg d))).1,
         (fmulV x y).2 ||| (fadd rm (fmulV x y).1 (fval w (s.cur.reg d))).2) ∧
     exec (.fcvt .i2s d a) s = .next (after 1 (rounded (fty .f32) d (fofInt (s.cur.reg a).toInt) flgNone s)) ∧
     exec (.fcvt .s2b d a) s = .next (after 1 (rounded (fty .bf16) d (fval .f32 (s.cur.reg a)) flgNone s))) ∧
  (∀ (s : State) (w : FWidth) (d a : Reg) (b : Src), Runs s → Free s a → Free s d → SrcFree s b →
     let x := fval w (s.cur.reg a)
     let y := fsrc w s b
     let z := fval .f32 (s.cur.reg a)
     let out := fun (v : Word64) => (.next (after (srcWords b) (put d v s)) : Host.Outcome State Fault Refusal)
     let code := fun (v : FVal) => BitVec.ofNat 64 (convertF envNearest (fty w) v 0).code
     exec (.fmin w d a b) s = out (code (fminmax false x y)) ∧
     exec (.fmax w d a b) s = out (code (fminmax true x y)) ∧
     exec (.fcmp .eq w d a b) s = out (if feqV x y then 1#64 else 0#64) ∧
     exec (.fcmp .lt w d a b) s = out (if fltV x y then 1#64 else 0#64) ∧
     exec (.fcmp .le w d a b) s = out (if fltV x y || feqV x y then 1#64 else 0#64) ∧
     exec (.fcmp .un w d a b) s = out (if x.isNan || y.isNan then 1#64 else 0#64) ∧
     exec (.fcvt .s2i d a) s = .next (after 1 (put d (f32ToI64 z).1 (raise (f32ToI64 z).2 s))) ∧
     exec (.fcvt .b2s d a) s = .next (after 1 (put d
       (BitVec.ofNat 64 (convertF envNearest (fty .f32) (fval .bf16 (s.cur.reg a)) 0).code) s))) ∧
  (∀ (s : State) (w : FWidth) (d a : Reg) (b : Src), Runs s → ¬ RmLegal s →
     ∀ i ∈ [Instr.fadd w d a b, .fsub w d a b, .fmul w d a b, .fdiv w d a b, .fma w d a b, .fcvt .i2s d a,
         .fcvt .s2b d a],
       exec i s = .next (takeTrap s 0x01 0 s.cur.pc s.cur.pc))

/-! ### Loads and stores -/

/-- R143: a load takes its bytes, lowest first, sign-extends them and writes `d`; it changes no memory. The bytes may lie
anywhere, across lines and pages, as long as each is reached and none is poisoned. R368: in a turn that holds loads back,
one of unpoisoned bytes of a DRAM line is left to its die, which performs it later: its register's value is still to come,
and the thread goes on; that the die then reads what memory holds at that time is log entry 5 (DESIGN CHOICE). R143, R144,
R152: what a load or a store of an address meets that the tables, the world or the weight store forbid. An address of which
a bit of [63:55] is set traps 0x07; a page that is not mapped stalls the thread, with a fault entry of that address and
level; a page that does not permit the access traps 0x07, one of the secure world, for a non-secure thread, 0x0F whatever
its entry permits (R422), a store to a sealed weight store 0x0E, and a load of a byte in a poisoned granule 0x09, each with
TVAL the address given; and none has any other effect. -/
def Obligations.LoadResults : Prop :=
  (∀ (s : State) (d a : Reg) (i : BitVec 11) (n : Nat) (key : Nat → Nat), Runs s → Free s a → Free s d →
     let va := s.cur.reg a + i.signExtend 64
     Span s s.ctx .read va.toNat n key → Clean s n key →
     ∀ j ∈ [(8, Instr.ldd d a i), (4, .ldw d a i), (2, .ldh d a i), (1, .ldb d a i)], j.1 = n →
       (s.holding = false ∨ d = 0#5 ∨ 128 < va.toNat % 128 + n ∨ isWs (key 0) = true →
         ∃ u, SameButCaches s u ∧
           exec j.2 s = .next (after 1 (put d ((BitVec.ofNat (8 * n) (numberAt s.mem n key)).signExtend 64) u))) ∧
       (s.holding = true → d ≠ 0#5 → va.toNat % 128 + n ≤ 128 → isWs (key 0) = false →
         ∃ u msa, SameButCaches s u ∧
           exec j.2 s = .next (after 1 { u with
             loads := u.loads ++ [{ tid := s.cur.tid, reg := d, key := key 0, n := n, msa := msa, was := numberAt s.mem n key }]
             cur := { s.cur with pendRegs := d :: s.cur.pendRegs } }))) ∧
  (∀ (s : State) (h : HeldLoad), h ∈ s.loads → h.tid = s.cur.tid → s.cur.status = .bound →
     (∀ w ∈ s.xwrites, w.src = s.cur.place.die → w.pa / 128 ≠ h.key / 128) →
     h.msa = true ∨ homeOf h.key = s.cur.place.die → (∀ i, i < h.n → s.mem.poisoned (h.key + i) = false) →
     ∃ u, SameButCaches { s with loads := s.loads.erase h } u ∧
       performLoad h s = .ok ((), arrived h.reg ((BitVec.ofNat (8 * h.n) (natAt s.mem h.key h.n)).signExtend 64) u)) ∧
  (∀ (s : State) (d a : Reg) (i : BitVec 11), Runs s → Free s a → Free s d →
     let va := s.cur.reg a + i.signExtend 64
     let reads := [(8, Instr.ldd d a i), (4, .ldw d a i), (2, .ldh d a i), (1, .ldb d a i)]
     let writes := [(8, Instr.std d a i), (4, .stw d a i), (2, .sth d a i), (1, .stb d a i)]
     ∀ acc is, (acc, is) ∈ [(Acc.read, reads), (.write, writes)] → ∀ j ∈ is,
       let traps := fun (cause : Nat) => exec j.2 s = .next (takeTrap s cause 0 va s.cur.pc)
       (2 ^ 55 ≤ va.toNat → traps 0x07) ∧
       (va.toNat < 2 ^ 55 →
         (∀ l, Unmapped s s.ctx va.toNat l → exec j.2 s = .next (stallOn s
           [{ tid := s.cur.tid, die := s.cur.place.die, slot := 4 * s.cur.place.core + s.cur.place.slot, va := va, tval := va
              level := l, kind := if acc = .read then 0 else 1, what := .stall }])) ∧
         (∀ e b, Walked s s.ctx va.toNat e b →
           let pa := entryPa e + va.toNat % 2 ^ b
           let secret := e.getLsbD 6 = true ∨ ∃ k, locate s.fw pa = .here k ∧ secureKey s.fw k = true
           (s.cur.tid.region.sec = false → secret → traps 0x0F) ∧
           (s.cur.tid.region.sec = true ∨ ¬ secret →
             (e.getLsbD (if acc = .read then 2 else 3) = false → traps 0x07) ∧
             (e.getLsbD (if acc = .read then 2 else 3) = true → beingPublished s s.cur.tid.region.sec (va.toNat / 65536) = false →
               (locate s.fw pa = .nowhere → traps 0x07) ∧
               (∀ k, locate s.fw pa = .here k → acc = .write → isWs k = true → wsOpen s k = false → traps 0x0E))))) ∧
       (∀ key, acc = .read → Span s s.ctx .read va.toNat j.1 key → ¬ Clean s j.1 key → traps 0x09))

/-- R143, R144: a store writes the low bytes of s[d], lowest first, at the bytes its address reaches, and nothing else. R368:
in a turn that holds stores back, one to a DRAM line is left to its die, which performs it later, and the thread goes on
(log entry 5, DESIGN CHOICE, says which may be). -/
def Obligations.StoreResults : Prop :=
  (∀ (s : State) (d a : Reg) (i : BitVec 11) (n : Nat) (key : Nat → Nat), Runs s → Free s a → Free s d →
    let va := s.cur.reg a + i.signExtend 64
    Span s s.ctx .write va.toNat n key →
    ∀ j ∈ [(8, Instr.std d a i), (4, .stw d a i), (2, .sth d a i), (1, .stb d a i)], j.1 = n →
      ∃ u m, SameButCaches s u ∧ exec j.2 s = .next (after 1 (withMem m u)) ∧
        (∀ k, k < n → m.read (key k) = (s.cur.reg d).extractLsb' (8 * k) 8) ∧
        (∀ x, (∀ k, k < n → x ≠ key k) → m.read x = s.mem.read x) ∧ m.poison = s.mem.poison) ∧
  (∀ (s : State) (d a : Reg) (i : BitVec 11) (n : Nat) (key : Nat) (msa : Bool), Runs s → Free s a → Free s d →
    let va := s.cur.reg a + i.signExtend 64
    s.holding = true → Mapped s s.ctx .write va.toNat key msa → NoneToCome s s.ctx key → isWs key = false →
    (∀ k ∈ s.topks, k.tid = s.cur.tid → key + n ≤ k.key ∨ k.key + 16 ≤ key) → va.toNat % 128 + n ≤ 128 →
    ∀ j ∈ [(8, Instr.std d a i), (4, .stw d a i), (2, .sth d a i), (1, .stb d a i)], j.1 = n →
      ∃ u, SameButCaches s u ∧ exec j.2 s = .next (after 1 { u with
        stores := u.stores ++ [{ tid := s.cur.tid, die := s.cur.place.die, core := s.cur.place.core, key := key, msa := msa
                                 bytes := (List.range n).map (fun k => (s.cur.reg d).extractLsb' (8 * k) 8), poison := [] }] }))

/-! ### Control transfers, traps and special registers -/

/-- R148, R112: a branch that is not taken goes on; one that is taken goes to pc + 4·off, if a convoy begins there, and
traps 0x02 in place of it, TVAL the target, if none does. R148, R112, R139: the jumps, which also leave the address
of the next word in s31 or in `d`, and do neither where no convoy begins at the target. -/
def Obligations.BranchResults : Prop :=
  (∀ (s : State) (a b : Reg) (o : BitVec 11), Runs s → Free s a → Free s b →
     let x := s.cur.reg a
     let y := s.cur.reg b
     let target := s.cur.pc + (o.signExtend 64 <<< 2)
     ∀ j ∈ [(decide (x = y), Instr.beq a b o), (decide (x ≠ y), .bne a b o), (x.slt y, .blt a b o),
         (!x.slt y, .bge a b o), (decide (x < y), .bltu a b o), (decide (y ≤ x), .bgeu a b o)],
       (j.1 = false → exec j.2 s = .next (after 1 s)) ∧
       (∀ w, j.1 = true → Word s s.ctx target w → w.getLsbD 31 = true →
         ∃ u, SameButCaches s u ∧ exec j.2 s = .next (gone target u)) ∧
       (∀ w, j.1 = true → Word s s.ctx target w → w.getLsbD 31 = false →
         exec j.2 s = .next (takeTrap s 0x02 0 (addr55 target) s.cur.pc))) ∧
  (∀ (s : State) (d a : Reg) (o : BitVec 21), Runs s → Free s a → Free s d → Free s 31#5 →
     ∀ j ∈ [(s.cur.pc + (o.signExtend 64 <<< 2), 31#5, Instr.jal o), (s.cur.reg a &&& ~~~ 3#64, d, .jr d a)],
       ∀ w, Word s s.ctx j.1 w →
         (w.getLsbD 31 = true →
           ∃ u, SameButCaches s u ∧ exec j.2.2 s = .next (gone j.1 (put j.2.1 (s.cur.pc + 4#64) u))) ∧
         (w.getLsbD 31 = false → exec j.2.2 s = .next (takeTrap s 0x02 0 (addr55 j.1) s.cur.pc)))

/-- R149 to R151: `csrr` reads a register; YDEAD, REFWIN, WSPHASE, CTID, COREID, DIEID, REGION, GANG and CYCLE read as R89,
R91, R151 and R264 compose them, every register of R151's table reads, and nothing else changes. R149: a number absent from R151's table traps ILLOP, in all four instructions. -/
def Obligations.CsrReads : Prop :=
  (∀ (s : State) (d : Reg), Runs s → Free s d → Quiet s →
     (∀ x ∈ csrPlain s.cur.csr, exec (.csrr d (BitVec.ofNat 16 x.1)) s = .next (after 1 (put d x.2 s))) ∧
     (∀ x ∈ csrComposed s, exec (.csrr d (BitVec.ofNat 16 x.1)) s = .next (after 1 (put d x.2 s))) ∧
     (∀ n ∈ csrNumbers, ∃ v, exec (.csrr d (BitVec.ofNat 16 n)) s = .next (after 1 (put d v s)))) ∧
  (∀ (s : State) (d : Reg) (n : BitVec 16), Runs s → n.toNat ∉ csrNumbers →
     ∀ i ∈ [Instr.csrr d n, .csrw d n, .csrs d n, .csrc d n],
       exec i s = .next (takeTrap s 0x01 0 s.cur.pc s.cur.pc))

/-- R149, R151: `csrw` writes a register, `csrs` sets and `csrc` clears the bits that s[d] holds; a read-only register
keeps its value, and nothing else changes. R62, R385: a write of SEED, by an instruction or as the step SEED_WRITE,
seeds all 17 LFSRs; a thread whose array state is absent traps 0x0A instead. -/
def Obligations.CsrWrites : Prop :=
  (∀ (s : State) (d : Reg), Runs s → Free s d → Quiet s →
     let c := s.cur.csr
     let v := s.cur.reg d
     (∀ x ∈ csrWrites c v, exec (.csrw d (BitVec.ofNat 16 x.1)) s = .next (after 1 (withCsr x.2.2 s))) ∧
     (∀ x ∈ csrWrites c 0, ∀ y ∈ csrWrites c (x.2.1 ||| v), x.1 = y.1 →
       exec (.csrs d (BitVec.ofNat 16 x.1)) s = .next (after 1 (withCsr y.2.2 s))) ∧
     (∀ x ∈ csrWrites c 0, ∀ y ∈ csrWrites c (x.2.1 &&& ~~~ v), x.1 = y.1 →
       exec (.csrc d (BitVec.ofNat 16 x.1)) s = .next (after 1 (withCsr y.2.2 s))) ∧
     (∀ n ∈ [0x04, 0x20, 0x40, 0x41, 0x50, 0x51, 0x52, 0x53, 0x54, 0x60, 0x61],
       ∀ i ∈ [Instr.csrw d (BitVec.ofNat 16 n), .csrs d (BitVec.ofNat 16 n), .csrc d (BitVec.ofNat 16 n)],
         exec i s = .next (after 1 s))) ∧
  (∀ (s : State) (d : Reg) (v : Word64), Runs s → Free s d →
     (s.arrAbsent = false →
       exec (.csrw d 0x06#16) s = .next (after 1 (seeded (s.cur.reg d) s)) ∧
       exec (.seedWrite v) s = .next (seeded v s)) ∧
     (s.arrAbsent = true →
       exec (.csrw d 0x06#16) s = .next (takeTrap s 0x0A 0 0#64 s.cur.pc) ∧
       exec (.seedWrite v) s = .next (takeTrap s 0x0A 0 0#64 s.cur.pc)))

/-- R153: a trap with a handler to take it saves the pc in TPC, the value in TVAL, cause and axis with INH in TCAUSE,
and goes to TVEC; every scalar register, MODE and FLAGS, memory and every other thread stay as they are. R153, R154:
a trap ends its thread where there is no handler (TVEC = 0), or where the thread is in it already and the cause is
not 0x0B; the cause, the pc and the value are kept for the fault record. -/
def Obligations.TrapEntry : Prop :=
  (∀ (s : State) (cause axis : Nat) (val ret : Word64), Idle s → cause < 256 → axis < 8 → s.cur.csr.tvec ≠ 0#64 →
     (¬ InHandler s ∨ cause = 0x0B) →
     takeTrap s cause axis val ret =
       { s with cur := { s.cur with
           pc := s.cur.csr.tvec, entryCheck := true, convoy := [], stall := none, park := none, each := none
           yielding := false, tail := []
           csr := { s.cur.csr with
             tpc := addrAligned ret, tval := val, tcause := BitVec.ofNat 64 (0x10000 + 256 * axis + cause) } } }) ∧
  (∀ (s : State) (cause axis : Nat) (val ret : Word64), Idle s →
     (s.cur.csr.tvec = 0#64 ∨ (InHandler s ∧ cause ≠ 0x0B)) →
     takeTrap s cause axis val ret =
       { s with cur := { s.cur with
           status := .ending, endRec := some (cause, ret, val), convoy := [], stall := none, park := none, each := none
           yielding := false, tail := [] } })

/-- R155, R156: `ecall` and `ebreak` count in INSTRET (log entry 22, DEDUCED) and trap, TPC the word after them and TVAL 0, and end the thread where it
is in its handler or has none; `tret` returns to TPC, clears INH and is exempt from the check that a convoy begins
there, and is ILLOP outside a handler. Each is a control transfer, of format N. -/
def Obligations.CallsAndReturn : Prop :=
  ∀ (s : State), Runs s →
    let counted := withCsr { s.cur.csr with instret := s.cur.csr.instret + 1#64 } s
    let calls := [(Instr.ecall, 0x0C), (.ebreak, 0x0D)]
    (∀ j ∈ calls, exec j.1 s = .next (takeTrap counted j.2 0 0#64 (s.cur.pc + 4#64)) ∧
      ((InHandler s ∨ s.cur.csr.tvec = 0#64) → ∃ t, exec j.1 s = .next t ∧ t.cur.status = .ending ∧
        t.cur.endRec = some (j.2, s.cur.pc + 4#64, 0#64))) ∧
    (InHandler s → ∃ t, exec .tret s = .next t ∧ t.mem = s.mem ∧
      t.cur = (gone s.cur.csr.tpc (withCur (fun x => { x with
        convoy := [], entryCheck := false, csr := { x.csr with tcause := x.csr.tcause &&& ~~~ 0x10000#64 } }) s)).cur) ∧
    (¬ InHandler s → exec .tret s = .next (takeTrap s 0x01 0 s.cur.pc s.cur.pc)) ∧
    (∀ j ∈ [(Instr.ecall, 0x304#10), (.ebreak, 0x305#10), (.tret, 0x306#10)], isTransfer j.1 = true ∧
      ∀ (c : Bool) (x : BitVec 21), (decode (BitVec.ofBool c ++ j.2 ++ x) []).toOption =
        if x = 0#21 then some { c := c, instr := j.1, len := 1 } else none)

/-- R161, R113: `dmap` of 0 selects map 0; of a page-aligned address it copies the 4096 bytes there, the words of a
decode map, and an address that is not such traps ILLOP. -/
def Obligations.DecodeMapResults : Prop :=
  ∀ (s : State) (a : Reg), Runs s → Free s a →
    let x := s.cur.reg a
    (x = 0#64 → exec (.dmap a) s = .next (after 1 { s with cur := { s.cur with dmapAddr := 0#64, dmapTab := [] } })) ∧
    (x ≠ 0#64 → (x.setWidth 12 ≠ 0#12 ∨ 2 ^ 55 ≤ x.toNat) →
      exec (.dmap a) s = .next (takeTrap s 0x01 0 s.cur.pc s.cur.pc)) ∧
    (∀ key, x ≠ 0#64 → x.setWidth 12 = 0#12 → Span s s.ctx .read x.toNat 4096 key → Clean s 4096 key →
      ∃ u log ovf, SameButCaches s u ∧
        exec (.dmap a) s = .next (after 1 { u with
          fw := { u.fw with log := log, logOvf := ovf }
          cur := { s.cur with dmapAddr := x, dmapTab := (List.range 1024).map (fun i =>
            BitVec.ofNat 32 (numberAt s.mem 4 (fun j => key (4 * i + j)))) } }))

/-! ### Virtual processors -/

/-- R211: a VP's scalar instruction works on v0 to v15, sign-extended, and writes the low 32 bits of its result. -/
def Obligations.VpScalarResults : Prop :=
  ∀ (s : State) (g i : Nat) (w : IWidth) (d a : Reg) (b : Src) (y : Word64) (k : BitVec 11) (l : BitVec 20),
    VpRuns s g i → d.toNat < 16 → a.toNat < 16 → vsrc s b = some y →
    let x := vreg s a
    let out := fun (f : (k : Nat) → BitVec k → BitVec k → BitVec k) =>
      (.next (vpAfter (srcWords b) (vpPut d (atWidth f w x y) s)) : Host.Outcome State Fault Refusal)
    exec (.add w d a b) s = out (fun _ p q => p + q) ∧
    exec (.sub w d a b) s = out (fun _ p q => p - q) ∧
    exec (.mul w d a b) s = out (fun _ p q => p * q) ∧
    exec (.and w d a b) s = out (fun _ p q => p &&& q) ∧
    exec (.or w d a b) s = out (fun _ p q => p ||| q) ∧
    exec (.xor w d a b) s = out (fun _ p q => p ^^^ q) ∧
    exec (.addi d a k) s = .next (vpAfter 1 (vpPut d (x + k.signExtend 64) s)) ∧
    exec (.fli d l) s = .next (vpAfter 1 (vpPut d (l.setWidth 64 <<< 12) s))

/-- R212: `vget` reads an element of the VP's cell, 0 past its end; `vput` offers a value, `vpend` ends the VP and
`vnext` goes on where a convoy begins. R116, R117, R211: a word that only a block may hold traps ILLOP where a
thread executes it, and one that no block may hold stops the VP that executes it with ILLOP. -/
def Obligations.BlockWords : Prop :=
  (∀ (s : State) (g i : Nat) (d : Reg) (o : BitVec 21) (j : EachJob), VpRuns s g i → s.cur.each = some j →
     d.toNat < 16 →
     let n := (vreg s d).toNat % 2 ^ 32
     let e := j.src.elem ((8 * g + i) * j.cell + n)
     let sub := (envOf j.mode j.q31).sub
     let target := s.vp.pc + (o.signExtend 64 <<< 2)
     (j.cell ≤ n → exec (.vget d) s = .next (vpAfter 1 (vpPut d 0#64 s))) ∧
     (n < j.cell → e.poison = false →
       let v := elemValue sub j.src.tag e
       let r := getValue j.src.tag v.1
       exec (.vget d) s = .next (vpAfter 1 (vpPut d (r.1.setWidth 64) (vpRaise g (v.2 ||| r.2) s)))) ∧
     (n < j.cell → e.poison = true →
       exec (.vget d) s = .next { s with vpStop := some (.trap 0x09 0 (poisonVal j.srcNo e.gran)) }) ∧
     exec (.vput d) s = .next (vpAfter 1 { s with vp := { s.vp with out := some ((vreg s d).setWidth 32) } }) ∧
     exec .vpend s = .next (vpAfter 1 { s with vp := { s.vp with live := false } }) ∧
     (∀ w, Word s (s.vpCtx g i) target w → w.getLsbD 31 = true →
       ∃ u, SameButCaches s u ∧ exec (.vnext o) s = .next { u with vp := { s.vp with pc := target } }) ∧
     (∀ w, Word s (s.vpCtx g i) target w → w.getLsbD 31 = false →
       exec (.vnext o) s = .next { s with vpStop := some (.trap 0x02 0 (addr55 target)) })) ∧
  (∀ (s : State) (d a : Reg) (n : BitVec 16) (o : BitVec 21),
     (Runs s → ∀ i ∈ [Instr.vget d, .vput d, .vnext o, .vpend, .ecomb d, .eact],
       exec i s = .next (takeTrap s 0x01 0 s.cur.pc s.cur.pc)) ∧
     (∀ g k, VpRuns s g k → ∀ i ∈ [Instr.jal o, .jr d a, .csrr d n, .ecall, .tret, .yield, .done, .dmap a, .ecomb d,
         .eact, .spawn d a, .mwait],
       exec i s = .next { s with vpStop := some (.trap 0x01 0 s.vp.pc) }))

/-! ### Element-wise array instructions -/

/-- R162 to R164, R169, R177: arithmetic on two array operands completes, with the agreed shape in d's tag. Where d is
unscaled and nothing is masked, each element is the operation on the two source elements that agreement pairs,
computed in the operation type and rounded once into d's type. R170: `afma` adds the product of a and b to d with
one rounding, the shapes of all three agreed. R169, R177: arithmetic on one operand, in a's shape. -/
def Obligations.ArithmeticResults : Prop :=
  (∀ (s : State) (k : EwSrc) (d a : Reg) (m r : BitVec 3) (f c : List Nat), ArrRuns s → RmLegal s →
     Full s a.toNat → Ready s d.toNat → EwFull s k →
     let ra := areg s a.toNat
     let rb := ewReg s (!ra.tag.isInt) k
     let old := areg s d.toNat
     let ot := opType [ra.tag, rb.tag]
     let l6 := ra.ty == 11#4 && rb.ty == 11#4
     Unspread s (rkVal r) [ra, rb] → agree ra.ext rb.ext (rkVal r) = .ok (f, c) →
     Fits s old.tag (f ++ c) [ra, rb] (exmRoom s (extProd (f ++ c))) →
     ∀ j ∈ [(Instr.aadd k d a m r, opAdd), (.asub k d a m r, opSub), (.amul k d a m r, opMul), (.adiv k d a m r, opDiv),
         (.amin k d a m r, opMinMax false), (.amax k d a m r, opMinMax true)],
       ∃ t, exec j.1 s = .next t ∧ Wrote (ewWords k) s t d.toNat old.tag (f ++ c) ∧
         (old.bl = 0#2 → m = 0#3 → NoDraw s → ∀ i, i < extProd (f ++ c) → ∃ v fl,
           j.2.eval ot (env s) l6 [valOf s ra (spreadIdx ra.ext (rkVal r) f c i),
             valOf s rb (spreadIdx rb.ext (rkVal r) f c i)] = .val v fl ∧
           codeAt t d.toNat i = (convert (env s) old.ty v 0).code)) ∧
  (∀ (s : State) (k : EwSrc) (d a : Reg) (m r : BitVec 3) (f1 c1 f2 c2 : List Nat), ArrRuns s → RmLegal s →
     Full s a.toNat → Full s d.toNat → EwFull s k →
     let ra := areg s a.toNat
     let rb := ewReg s (!ra.tag.isInt) k
     let old := areg s d.toNat
     let n := rkVal r
     let at_ := spreadIdx (f1 ++ c1) n f2 c2
     Unspread s n [ra, rb, old] → agree ra.ext rb.ext n = .ok (f1, c1) → agree (f1 ++ c1) old.ext n = .ok (f2, c2) →
     Fits s old.tag (f2 ++ c2) [ra, rb, old] (exmRoom s (extProd (f2 ++ c2))) →
     ∃ t, exec (.afma k d a m r) s = .next t ∧ Wrote (ewWords k) s t d.toNat old.tag (f2 ++ c2) ∧
       (old.bl = 0#2 → m = 0#3 → NoDraw s → ∀ i, i < extProd (f2 ++ c2) → ∃ v fl,
         opFma.eval (opType [ra.tag, rb.tag, old.tag]) (env s) (ra.ty == 11#4 && rb.ty == 11#4)
           [valOf s ra (spreadIdx ra.ext n f1 c1 (at_ i)), valOf s rb (spreadIdx rb.ext n f1 c1 (at_ i)),
            valOf s old (spreadIdx old.ext n f2 c2 i)] = .val v fl ∧
         codeAt t d.toNat i = (convert (env s) old.ty v 0).code)) ∧
  (∀ (s : State) (d a : Reg) (m r : BitVec 3), ArrRuns s → RmLegal s → Full s a.toNat → Ready s d.toNat →
     let ra := areg s a.toNat
     let old := areg s d.toNat
     Unspread s (rkVal r) [ra] → Fits s old.tag ra.ext [ra] (exmRoom s (extProd ra.ext)) →
     ∀ j ∈ [(Instr.aabs d a m r, opAbs), (.aneg d a m r, opNeg), (.asqrt d a m r, opSqrt), (.arcp d a m r, opRcp),
         (.aexp2 d a m r, opExp2), (.alog2 d a m r, opLog2)],
       ∃ t, exec j.1 s = .next t ∧ Wrote 1 s t d.toNat old.tag ra.ext ∧
         (old.bl = 0#2 → m = 0#3 → NoDraw s → ∀ i, i < extProd ra.ext → ∃ v fl,
           j.2.eval (opType [ra.tag]) (env s) false [valOf s ra i] = .val v fl ∧
           codeAt t d.toNat i = (convert (env s) old.ty v 0).code))

/-- R172: the shifts take integer tags only, and are ILLOP on any other; they round nothing, so that a reserved RM does
not stop them. R171: the bitwise operations, on integers; and on the codes of registers of one floating or scaled
tag, where the result has that tag. -/
def Obligations.BitResults : Prop :=
  (∀ (s : State) (k : EwSrc) (d a : Reg) (m r : BitVec 3), ArrRuns s → Full s a.toNat → Ready s d.toNat → EwFull s k →
     let ra := areg s a.toNat
     let rb := ewReg s (!ra.tag.isInt) k
     let old := areg s d.toNat
     (∀ f c, ra.tag.isInt = true → rb.tag.isInt = true → Unspread s (rkVal r) [ra, rb] →
       agree ra.ext rb.ext (rkVal r) = .ok (f, c) →
       Fits s old.tag (f ++ c) [ra, rb] (exmRoom s (extProd (f ++ c))) →
       ∀ j ∈ [(Instr.ashl k d a m r, opShl), (.ashr k d a m r, opShr)],
         ∃ t, exec j.1 s = .next t ∧ Wrote (ewWords k) s t d.toNat old.tag (f ++ c) ∧
           (old.bl = 0#2 → tyFloat old.ty = false → m = 0#3 → ∀ i, i < extProd (f ++ c) → ∃ v fl,
             j.2.eval (opType [ra.tag, rb.tag]) (env s) false [valOf s ra (spreadIdx ra.ext (rkVal r) f c i),
               valOf s rb (spreadIdx rb.ext (rkVal r) f c i)] = .val v fl ∧
             codeAt t d.toNat i = (convert (env s) old.ty v 0).code)) ∧
     (ra.tag.isInt = false → ∀ i ∈ [Instr.ashl k d a m r, .ashr k d a m r],
       exec i s = .next (takeTrap s 0x01 0 s.cur.pc s.cur.pc))) ∧
  (∀ (s : State) (k : EwSrc) (d a : Reg) (m r : BitVec 3) (f c : List Nat), ArrRuns s →
     Full s a.toNat → Ready s d.toNat → EwFull s k →
     let ra := areg s a.toNat
     let rb := ewReg s (!ra.tag.isInt) k
     let old := areg s d.toNat
     let arrs := match k with
       | .arr _ => [ra, rb]
       | _ => [ra]
     ((∀ x ∈ arrs, x.tag.isInt = true) ∨ (∀ x ∈ arrs, x.tag = old.tag)) →
     Unspread s (rkVal r) [ra, rb] → agree ra.ext rb.ext (rkVal r) = .ok (f, c) →
     Fits s old.tag (f ++ c) [ra, rb] (exmRoom s (extProd (f ++ c))) →
     (∀ j ∈ [(Instr.aand k d a m r, fun p q => p &&& q), (.aor k d a m r, fun p q => p ||| q),
         (.axor k d a m r, fun p q => p ^^^ q)],
       ∃ t, exec j.1 s = .next t ∧ Wrote (ewWords k) s t d.toNat old.tag (f ++ c) ∧
         (ra.tag = old.tag → rb.tag = old.tag → old.bl = 0#2 → m = 0#3 → (∃ b, k = .arr b) → old.ty ∈ [5#4, 6#4, 15#4] →
           ∀ i, i < extProd (f ++ c) → codeAt t d.toNat i =
             j.2 ((ra.elem (spreadIdx ra.ext (rkVal r) f c i)).code) ((rb.elem (spreadIdx rb.ext (rkVal r) f c i)).code))) ∧
     (Fits s old.tag ra.ext [ra] (exmRoom s (extProd ra.ext)) → (∀ x ∈ [ra], x.tag.isInt = true ∨ x.tag = old.tag) →
       ∃ t, exec (.anot d a m r) s = .next t ∧ Wrote 1 s t d.toNat old.tag ra.ext ∧
         (ra.tag = old.tag → old.bl = 0#2 → m = 0#3 → old.ty ∈ [5#4, 6#4, 15#4] →
           ∀ i, i < extProd ra.ext → codeAt t d.toNat i = 2 ^ tyWidth old.ty - 1 - (ra.elem i).code)))

/-- R173, R174: a compare writes 1 where the relation holds and 0 where it does not, and puts the relation in the mask
register that m names. R175: `asel` takes each element from a where the selector is 1 and from b where it is 0; with
the tags of all three equal and unscaled, bit for bit, even in a reserved RM. -/
def Obligations.CompareAndSelect : Prop :=
  (∀ (s : State) (k : EwSrc) (d a : Reg) (m r : BitVec 3) (f c : List Nat), ArrRuns s →
     Full s a.toNat → Ready s d.toNat → EwFull s k →
     let ra := areg s a.toNat
     let rb := ewReg s (!ra.tag.isInt) k
     let old := areg s d.toNat
     let n := extProd (f ++ c)
     let ot := opType [ra.tag, rb.tag]
     Unspread s (rkVal r) [ra, rb] → agree ra.ext rb.ext (rkVal r) = .ok (f, c) →
     Fits s old.tag (f ++ c) [ra, rb] (ceilDiv n 256 + exmRoom s n) →
     ∀ j ∈ [(Instr.aceq k d a m r, relEq), (.acne k d a m r, relNe), (.aclt k d a m r, relLt), (.acle k d a m r, relLe)],
       let holds := fun i => j.2.holds ot (valOf s ra (spreadIdx ra.ext (rkVal r) f c i))
         (valOf s rb (spreadIdx rb.ext (rkVal r) f c i))
       ∃ t, exec j.1 s = .next t ∧ Wrote (ewWords k) s t d.toNat old.tag (f ++ c) m.toNat ∧
         (old.tag = { ty := 5#4, bl := 0#2 } → ∀ i, i < n → codeAt t d.toNat i = if holds i then 1 else 0) ∧
         (m ≠ 0#3 → m ≠ 7#3 → (t.mySlot.arr.masks.getD (m.toNat - 1) MaskReg.reset).bits = (List.range n).map holds)) ∧
  (∀ (s : State) (k : EwSrc) (d a : Reg) (m r : BitVec 3) (f c : List Nat), ArrRuns s →
     Full s a.toNat → Ready s d.toNat → EwFull s k →
     let ra := areg s a.toNat
     let rb := ewReg s (!ra.tag.isInt) k
     let old := areg s d.toNat
     (RmLegal s ∨ (ra.tag = old.tag ∧ rb.tag = old.tag ∧ old.bl = 0#2)) →
     Unspread s (rkVal r) [ra, rb] → agree ra.ext rb.ext (rkVal r) = .ok (f, c) →
     Fits s old.tag (f ++ c) [ra, rb] (exmRoom s (extProd (f ++ c))) →
     ∃ t, exec (.asel k d a m r) s = .next t ∧ Wrote (ewWords k) s t d.toNat old.tag (f ++ c) ∧
       (ra.tag = old.tag → rb.tag = old.tag → old.bl = 0#2 → ∀ i, i < extProd (f ++ c) →
         codeAt t d.toNat i = if maskBit s.mySlot.arr.masks m.toNat i
           then (ra.elem (spreadIdx ra.ext (rkVal r) f c i)).code
           else (rb.elem (spreadIdx rb.ext (rkVal r) f c i)).code))

/-- R178 to R180: conversion, copy and fill take a's shape and d's tag. A copy between equal tags is bit for bit; a
conversion rounds each value once into d's type; a fill writes one value into every element. R181 to R183: `ascl`
with a scalar gives every block of a scaled register that byte as its scale and keeps every code; `agscl` gives the
scale bytes of a's blocks, 127 for an unscaled register. -/
def Obligations.ConversionResults : Prop :=
  (∀ (s : State) (k : EwSrc) (d a : Reg) (m r : BitVec 3), ArrRuns s → RmLegal s →
     Full s a.toNat → Ready s d.toNat → EwFull s k →
     let ra := areg s a.toNat
     let old := areg s d.toNat
     Fits s old.tag ra.ext [ra] (exmRoom s (extProd ra.ext)) →
     (∃ t, exec (.amov d a m r) s = .next t ∧ Wrote 1 s t d.toNat old.tag ra.ext ∧
       (ra.tag = old.tag → m = 0#3 → ∀ i, i < extProd ra.ext → codeAt t d.toNat i = (ra.elem i).code)) ∧
     (∃ t, exec (.acvt k d a m r) s = .next t ∧ Wrote (ewWords k) s t d.toNat old.tag ra.ext ∧
       ((∃ b, k = .arr b) → old.bl = 0#2 → m = 0#3 → NoDraw s → ∀ i, i < extProd ra.ext →
         codeAt t d.toNat i = (convert (env s) old.ty (valOf s ra i) 0).code)) ∧
     (Fits s old.tag ra.ext [] (exmRoom s (extProd ra.ext)) → (∀ b, k ≠ .arr b) →
       ∃ t, exec (.asplat k d a m r) s = .next t ∧ Wrote (ewWords k) s t d.toNat old.tag ra.ext ∧
         (old.bl = 0#2 → m = 0#3 → NoDraw s → ∀ i, i < extProd ra.ext →
           codeAt t d.toNat i = (convert (env s) old.ty (valOf s (ewReg s (!old.tag.isInt) k) 0) 0).code))) ∧
  (∀ (s : State) (d a b : Reg) (r : BitVec 3), ArrRuns s → Full s a.toNat → Ready s d.toNat → Free s b →
     let ra := areg s a.toNat
     let old := areg s d.toNat
     (ra.bl ≠ 0#2 → ra.tag = old.tag → ra.gran.length = granulesNeeded ra.tag ra.ext →
       Unspread s (rkVal r) [ra] → Fits s old.tag ra.ext [ra] 0 →
       ∃ t, exec (.ascl (.sca b) d a 0 r) s = .next t ∧ Wrote 1 s t d.toNat old.tag ra.ext ∧
         ∀ i, i < extProd ra.ext → codeAt t d.toNat i = (ra.elem i).code ∧
           ((areg t d.toNat).elem i).scale = (s.cur.reg b).toNat % 256) ∧
     (RmLegal s → Fits s old.tag (blockShape ra) [ra] (exmRoom s (extProd (blockShape ra))) →
       ∃ t, exec (.agscl d a 0 r) s = .next t ∧ Wrote 1 s t d.toNat old.tag (blockShape ra) ∧
         (old.tag = { ty := 5#4, bl := 0#2 } → ra.bl = 0#2 → ∀ i, i < extProd (blockShape ra) → codeAt t d.toNat i = 127)))

/-! ### Structural array instructions -/

/-- R191, R192: `atype` retags an empty register or one that has the tag, and empties one of another tag; a scale length
that the type does not take is ILLOP. `ashp` reads an extent, 0 past the rank. R193: `aiota` of a count n gives 0 to
n − 1, and of −n the same numbers falling; with a count in an array register the result is of unknown size: that it is made at
issue, while d keeps its contents, and that a step publishes it, is log entry 18 (DEDUCED). -/
def Obligations.TagsAndExtents : Prop :=
  (∀ (s : State) (d a b : Reg) (t : BitVec 4) (l : BitVec 2), ArrRuns s → Ready s d.toNat →
     let old := areg s d.toNat
     (blOk t l = true → ∃ u, exec (.atype d t l) s = .next u ∧ ArrFrame 1 s u ∧ (areg u d.toNat).tag = { ty := t, bl := l } ∧
       (old.tag = { ty := t, bl := l } → areg u d.toNat = old) ∧
       (old.tag ≠ { ty := t, bl := l } → (areg u d.toNat).isEmpty = true) ∧
       (∀ r, r ≠ d.toNat → areg u r = areg s r)) ∧
     (blOk t l = false → exec (.atype d t l) s = .next (takeTrap s 0x01 0 s.cur.pc s.cur.pc)) ∧
     (b.toNat < 8 → Ready s a.toNat → (areg s a.toNat).isEmpty = false → Free s d →
       exec (.ashp d a b) s =
         .next (after 1 (put d (BitVec.ofNat 64 ((areg s a.toNat).ext.getD b.toNat 0)) s))) ∧
     (b.toNat < 8 → ¬ Ready s a.toNat → exec (.ashp d a b) s = .next s) ∧
     (b.toNat < 8 → Ready s a.toNat → (areg s a.toNat).isEmpty = true →
       exec (.ashp d a b) s = .next (takeTrap s 0x10 0 (BitVec.ofNat 64 (3 + 256 * a.toNat)) s.cur.pc)) ∧
     (8 ≤ b.toNat → exec (.ashp d a b) s = .next (takeTrap s 0x01 0 s.cur.pc s.cur.pc))) ∧
  (∀ (s : State) (d : Reg) (b : CountSrc), ArrRuns s → RmLegal s → Ready s d.toNat → CountFull s b →
     let c := countOf s b
     let n := c.natAbs
     let old := areg s d.toNat
     n < 2 ^ 31 → Fits s old.tag [n] [] 0 →
     (∀ x, b = .sca x → ∃ t, exec (.aiota d b) s = .next t ∧ Wrote 1 s t d.toNat old.tag [n] ∧
       (old.tag = { ty := 5#4, bl := 0#2 } → ∀ i, i < n → codeAt t d.toNat i = if c < 0 then n - 1 - i else i)) ∧
     (∀ x, b = .arr x → Settled s → ∃ t r, exec (.aiota d b) s = .next t ∧ Flying 1 s t d.toNat old.tag [n] r ∧
       (old.tag = { ty := 5#4, bl := 0#2 } → ∀ i, i < n → (r.elem i).code = if c < 0 then n - 1 - i else i)))

/-- R194: a reshape takes a's elements in row-major order, cyclically, into the extents that a rank-1 integer register
or a parameter block names. -/
def Obligations.ReshapeResults : Prop :=
  ∀ (s : State) (d a b : Reg) (p : PBlock) (ns : List Nat), ArrRuns s → RmLegal s → Full s a.toNat → Ready s d.toNat →
    let ra := areg s a.toNat
    let rb := areg s b.toNat
    let old := areg s d.toNat
    let good := fun (t : State) => ra.tag = old.tag → old.bl = 0#2 → 0 < ra.count → ∀ i, i < extProd ns →
      codeAt t d.toNat i = (ra.elem (i % ra.count)).code
    (∀ n ∈ ns, n < 2 ^ 31) → Fits s old.tag ns [ra] 0 →
    (Full s b.toNat → rb.tag.isInt = true → rb.ext = [ns.length] →
      (∀ i, i < ns.length → (decodeVal rb.ty (rb.elem i).code).toInt = (ns.getD i 0 : Nat)) →
      ∃ t, exec (.ashape d a b) s = .next t ∧ Wrote 1 s t d.toNat old.tag ns ∧ good t) ∧
    (p.rank.toNat = ns.length → ns.length ≤ 4 →
      (∀ i, i < ns.length → ([p.x0, p.x1, p.x2, p.x3].getD i 0).toNat = ns.getD i 0 ∧ ns.getD i 0 < 0xFFE0) →
      ∃ t, exec (.ashapep d a p) s = .next t ∧ Wrote 5 s t d.toNat old.tag ns ∧ good t)

/-- R195, R196, R68: reductions and scans of the leading axis of each cell. On unscaled I32, unmasked and with ISAT
clear, a sum is that of the items modulo 2^32, and a scan the sum of the items up to its own. -/
def Obligations.ReductionResults : Prop :=
  ∀ (s : State) (d a : Reg) (m r : BitVec 3), ArrRuns s → RmLegal s → Full s a.toNat → Ready s d.toNat →
    let ra := areg s a.toNat
    let old := areg s d.toNat
    let cell := cellOf ra r
    let item := itemOf cell
    let n := leadN cell
    let ext := frameOf ra r ++ item
    let i32 := ra.tag = { ty := 5#4, bl := 0#2 } ∧ old.tag = { ty := 5#4, bl := 0#2 } ∧ m = 0#3 ∧
      s.cur.csr.mode.getLsbD 3 = false ∧ s.cur.place.dies = 1
    let at_ := fun (i j : Nat) => codeAt s a.toNat (i / extProd item * (n * extProd item) + j * extProd item + i % extProd item)
    ra.count ≤ 65536 →
    (Fits s old.tag ext [ra] (exmRoom s (extProd ext)) →
      (∀ j ∈ [Instr.aredsum d a m r, .aredmax d a m r, .aredmin d a m r, .acount d a m r],
        ∃ t, exec j s = .next t ∧ Wrote 1 s t d.toNat old.tag ext) ∧
      ((ra.tag.isInt = true ∨ ra.tag = old.tag) → ∀ j ∈ [Instr.aredand d a m r, .aredor d a m r, .aredxor d a m r],
        ∃ t, exec j s = .next t ∧ Wrote 1 s t d.toNat old.tag ext) ∧
      (i32 → ∃ t, exec (.aredsum d a m r) s = .next t ∧ ∀ i, i < extProd ext →
        codeAt t d.toNat i = ((List.range n).map (at_ i)).sum % 2 ^ 32)) ∧
    (Fits s old.tag ra.ext [ra] (exmRoom s ra.count) →
      (∀ j ∈ [Instr.ascansum d a m r, .ascanmax d a m r, .ascanmin d a m r],
        ∃ t, exec j s = .next t ∧ Wrote 1 s t d.toNat old.tag ra.ext) ∧
      (i32 → ra.ext = [n] → rkVal r ≠ 0 → ∃ t, exec (.ascansum d a m r) s = .next t ∧ ∀ i, i < n →
        codeAt t d.toNat i = ((List.range (i + 1)).map (codeAt s a.toNat)).sum % 2 ^ 32))

/-- R197: `agrade` gives the permutation that sorts the items of each cell, equal items in increasing index, and
`agraded` the same falling. -/
def Obligations.GradeResults : Prop :=
  ∀ (s : State) (d a : Reg) (r : BitVec 3), ArrRuns s → RmLegal s → Full s a.toNat → Ready s d.toNat →
    let ra := areg s a.toNat
    let old := areg s d.toNat
    let n := leadN (cellOf ra r)
    let ext := frameOf ra r ++ [n]
    cellSpread s.cur.place.dies ra (rkVal r) = false → n ≤ 4096 → Fits s old.tag ext [ra] 0 →
    ∀ j ∈ [(Instr.agrade d a r, false), (.agraded d a r, true)],
      ∃ t, exec j.1 s = .next t ∧ Wrote 1 s t d.toNat old.tag ext ∧
        (ra.ext = [n] → r = 7#3 → ra.tag = { ty := 5#4, bl := 0#2 } → old.tag = { ty := 5#4, bl := 0#2 } →
          (∀ x, x < n → ∃ i, i < n ∧ codeAt t d.toNat i = x) ∧
          ∀ i, i + 1 < n →
            let p := codeAt t d.toNat i
            let q := codeAt t d.toNat (i + 1)
            let x := (valOf s ra p).toInt
            let y := (valOf s ra q).toInt
            p < n ∧ q < n ∧ ((if j.2 then y < x else x < y) ∨ (x = y ∧ p < q)))

/-- R198, R199: rotation, take, drop, reversal and transposition move whole items, bit for bit between equal unscaled
tags, and fill what no item reaches with zeros. R200: `acat` joins the items of two cells along their leading axis. -/
def Obligations.MoveResults : Prop :=
  (∀ (s : State) (d a b : Reg) (m r : BitVec 3), ArrRuns s → RmLegal s → Full s a.toNat → Ready s d.toNat → Free s b →
     let ra := areg s a.toNat
     let old := areg s d.toNat
     let cell := cellOf ra r
     let n := leadN cell
     let c := (s.cur.reg b).toInt
     let plain := ra.tag = old.tag ∧ old.bl = 0#2 ∧ ra.ext = [n] ∧ r = 7#3
     cellSpread s.cur.place.dies ra (rkVal r) = false →
     (Fits s old.tag ra.ext [ra] 0 →
       (∃ t, exec (.arot d a (.sca b) r) s = .next t ∧ Wrote 1 s t d.toNat old.tag ra.ext ∧
         (plain → ∀ i, i < n → codeAt t d.toNat i = codeAt s a.toNat (((i : Int) + c) % n).toNat)) ∧
       (∃ t, exec (.arev d a m r) s = .next t ∧ Wrote 1 s t d.toNat old.tag ra.ext ∧
         (plain → m = 0#3 → ∀ i, i < n → codeAt t d.toNat i = codeAt s a.toNat (n - 1 - i)))) ∧
     (Fits s old.tag (frameOf ra r ++ transShape cell) [ra] 0 →
       ∃ t, exec (.atrans d a m r) s = .next t ∧ Wrote 1 s t d.toNat old.tag (frameOf ra r ++ transShape cell) ∧
         (ra.tag = old.tag → old.bl = 0#2 → m = 0#3 → r = 7#3 → ∀ x y, ra.ext = [x, y] → ∀ i j, i < x → j < y →
           codeAt t d.toNat (j * x + i) = codeAt s a.toNat (i * y + j))) ∧
     (Fits s old.tag (frameOf ra r ++ (n - c.natAbs) :: itemOf cell) [ra] 0 →
       ∃ t, exec (.adrop d a (.sca b) r) s = .next t ∧
         Wrote 1 s t d.toNat old.tag (frameOf ra r ++ (n - c.natAbs) :: itemOf cell) ∧
         (plain → ∀ i, i < n - c.natAbs → codeAt t d.toNat i = codeAt s a.toNat (if 0 ≤ c then c.toNat + i else i))) ∧
     (c.natAbs < 2 ^ 31 → Fits s old.tag (frameOf ra r ++ c.natAbs :: itemOf cell) [ra] 0 →
       ∃ t, exec (.atake d a (.sca b) r) s = .next t ∧
         Wrote 1 s t d.toNat old.tag (frameOf ra r ++ c.natAbs :: itemOf cell) ∧
         (plain → old.ty ≠ 11#4 → ∀ i, i < c.natAbs → codeAt t d.toNat i =
           if 0 ≤ c then (if i < n then codeAt s a.toNat i else 0)
           else if c.natAbs ≤ n + i then codeAt s a.toNat (n + i - c.natAbs) else 0))) ∧
  (∀ (s : State) (d a b : Reg) (m : BitVec 3) (x y : Nat), ArrRuns s → RmLegal s → Full s a.toNat → Full s b.toNat →
     Ready s d.toNat → s.cur.place.dies = 1 →
     let ra := areg s a.toNat
     let rb := areg s b.toNat
     let old := areg s d.toNat
     ∀ item, ra.ext = x :: item → rb.ext = y :: item → Fits s old.tag ((x + y) :: item) [ra, rb] 0 →
       ∃ t, exec (.acat d a b m 7#3) s = .next t ∧ Wrote 1 s t d.toNat old.tag ((x + y) :: item) ∧
         (ra.tag = old.tag → rb.tag = old.tag → old.bl = 0#2 → m = 0#3 → ∀ i, i < (x + y) * extProd item →
           codeAt t d.toNat i = if i < x * extProd item then codeAt s a.toNat i
             else codeAt s b.toNat (i - x * extProd item)))

/-- R201: the outer forms pair every element of a's cell with every element of b's. -/
def Obligations.OuterResults : Prop :=
  ∀ (s : State) (d a b : Reg) (m r : BitVec 3) (frame : List Nat), ArrRuns s → RmLegal s → Full s a.toNat →
    Full s b.toNat → Ready s d.toNat →
    let ra := areg s a.toNat
    let rb := areg s b.toNat
    let old := areg s d.toNat
    let ext := frame ++ cellOf ra r ++ cellOf rb r
    agreeFrames (frameOf ra r) (frameOf rb r) = .ok frame → Fits s old.tag ext [ra, rb] (exmRoom s (extProd ext)) →
    ∀ j ∈ [Instr.aoutmul d a b m r, .aoutadd d a b m r, .aouteq d a b m r],
      ∃ t, exec j s = .next t ∧ Wrote 1 s t d.toNat old.tag ext ∧
        (j = .aouteq d a b m r → m = 0#3 → r = 7#3 → ra.tag = { ty := 5#4, bl := 0#2 } → rb.tag = ra.tag →
          old.tag = ra.tag → ∀ p q, p < ra.count → q < rb.count →
          codeAt t d.toNat (p * rb.count + q) = if codeAt s a.toNat p = codeAt s b.toNat q then 1 else 0)

/-- R36, R37, R202, R204, R205: instructions of unknown size put a result in flight; `acomp` keeps the items whose bit
is 1, `aexpd` spreads a's items over the ones of b. The step UNKNOWN_SIZE_COMPLETE publishes the oldest result. R37:
UNKNOWN_SIZE_COMPLETE writes the oldest result of unknown size of a thread into its register, merges its flags into
the thread's FLAGS and frees its reservation. That a register keeps its contents while its result is in flight, and that the
oldest result is the next to be published, is log entry 18 (DEDUCED). -/
def Obligations.UnknownSizeResults : Prop :=
  (∀ (s : State) (d a b : Reg) (r : BitVec 3), ArrRuns s → RmLegal s → Full s a.toNat → Full s b.toNat →
     Ready s d.toNat →
     let ra := areg s a.toNat
     let rb := areg s b.toNat
     let old := areg s d.toNat
     let cell := cellOf ra r
     let n := leadN cell
     let ones := (List.range rb.count).filter (fun i => codeAt s b.toNat i != 0)
     (cellSpread s.cur.place.dies ra (rkVal r) = false → rb.tag = { ty := 0#4, bl := 0#2 } → rb.ext.length = 1 →
       (rb.count = n → Fits s old.tag (frameOf ra r ++ n :: itemOf cell) [ra] 0 →
         ∃ t x, exec (.acomp d a b r) s = .next t ∧
           Flying 1 s t d.toNat old.tag (frameOf ra r ++ ones.length :: itemOf cell) x ∧
           (ra.tag = old.tag → old.bl = 0#2 → ra.ext = [n] → r = 7#3 → ∀ i, i < ones.length →
             (x.elem i).code = codeAt s a.toNat (ones.getD i 0))) ∧
       (ones.length = n → Fits s old.tag (frameOf ra r ++ rb.count :: itemOf cell) [ra] 0 →
         ∃ t x, exec (.aexpd d a b r) s = .next t ∧
           Flying 1 s t d.toNat old.tag (frameOf ra r ++ rb.count :: itemOf cell) x ∧
           (ra.tag = old.tag → old.bl = 0#2 → old.ty ≠ 11#4 → ra.ext = [n] → r = 7#3 → ∀ i, i < rb.count →
             (x.elem i).code = if codeAt s b.toNat i = 0 then 0
               else codeAt s a.toNat (ones.filter (fun j => decide (j < i))).length))) ∧
     (rb.ext = [] → rb.tag.isInt = true → cellSpread s.cur.place.dies ra (rkVal r) = false → Settled s →
       let c := countOf s (.arr b)
       c.natAbs < 2 ^ 31 → Fits s old.tag (frameOf ra r ++ c.natAbs :: itemOf cell) [ra] 0 →
       ∃ t x, exec (.atake d a (.arr b) r) s = .next t ∧
         Flying 1 s t d.toNat old.tag (frameOf ra r ++ c.natAbs :: itemOf cell) x)) ∧
  (∀ (s : State) (f : InFlight) (rest : List InFlight) (r : ArrReg) (fl : Word64), s.cur.status = .bound →
     s.mySlot.owner = some s.cur.tid → SlotsWhole s → WellSpread s r → f.reg < 32 →
     s.mySlot.flight = f :: rest → f.kind = .unknown r fl →
     ∃ t b, exec (.unknownSizeComplete s.cur.tid) s = .next t ∧
       areg t f.reg = { r with sbase := b } ∧ (∀ x, x ≠ f.reg → areg t x = areg s x) ∧
       t.mySlot.flight = rest ∧ t.cur = { s.cur with csr := { s.cur.csr with flags := s.cur.csr.flags ||| fl } } ∧
       t.mem = s.mem)

/-- R203, R204: `afrom` selects items by index, NV where one is out of range; `aidxof` finds each key's first place in
a's table, its length where it has none, and is of unknown size; `amembr` says whether b's table holds it. What `aidxof` leaves in flight is log entry 18 (DEDUCED). R206,
R207: the indirect moves copy a whole register bit for bit, its number taken from a scalar register; on one die an
exchange step copies, or rotates by the count. -/
def Obligations.SelectionResults : Prop :=
  (∀ (s : State) (d a b : Reg) (m : BitVec 3) (n : Nat), ArrRuns s → RmLegal s → Full s a.toNat → Full s b.toNat →
     Ready s d.toNat → s.cur.place.dies = 1 →
     let ra := areg s a.toNat
     let rb := areg s b.toNat
     let old := areg s d.toNat
     let i32 : Tag := { ty := 5#4, bl := 0#2 }
     (ra.tag.isInt = true → rb.ext = [n] → Fits s old.tag ra.ext [ra, rb] 0 →
       ∃ t, exec (.afrom d a b m 7#3) s = .next t ∧ Wrote 1 s t d.toNat old.tag ra.ext ∧
         (rb.tag = old.tag → old.bl = 0#2 → ra.tag = i32 → m = 0#3 → ∀ i, i < ra.count →
           codeAt s a.toNat i < n → n < 2 ^ 31 → codeAt t d.toNat i = codeAt s b.toNat (codeAt s a.toNat i)) ∧
         (rb.tag = old.tag → old.bl = 0#2 → old.ty ≠ 11#4 → m = 0#3 → ∀ i, i < ra.count →
           let x := (valOf s ra i).toInt
           (0 ≤ x → x < n → codeAt t d.toNat i = codeAt s b.toNat x.toNat) ∧
           (x < 0 → 0 ≤ x + n → codeAt t d.toNat i = codeAt s b.toNat (x + n).toNat) ∧
           (x + n < 0 ∨ n ≤ x → codeAt t d.toNat i = 0 ∧ t.cur.csr.flags &&& flgNV.setWidth 64 ≠ 0#64))) ∧
     (ra.ext = [n] → Fits s old.tag rb.ext [ra, rb] 0 →
       ∃ t x, exec (.aidxof d a b m 7#3) s = .next t ∧ Flying 1 s t d.toNat old.tag rb.ext x ∧
         (ra.tag = i32 → rb.tag = i32 → old.tag = i32 → m = 0#3 → n < 2 ^ 31 → ∀ i, i < rb.count →
           (x.elem i).code = ((List.range n).find? (fun j => codeAt s a.toNat j == codeAt s b.toNat i)).getD n)) ∧
     (rb.ext = [n] → Fits s old.tag ra.ext [ra, rb] 0 →
       ∃ t, exec (.amembr d a b m 7#3) s = .next t ∧ Wrote 1 s t d.toNat old.tag ra.ext ∧
         (ra.tag = i32 → rb.tag = i32 → old.tag = i32 → m = 0#3 → ∀ i, i < ra.count →
           codeAt t d.toNat i = if (List.range n).any (fun j => codeAt s b.toNat j == codeAt s a.toNat i) then 1 else 0))) ∧
  (∀ (s : State) (d a b : Reg), ArrRuns s → RmLegal s → Free s a → Free s b → Ready s d.toNat →
     let x := (s.cur.reg a).toNat % 32
     let rb := areg s b.toNat
     let same := fun (p q : ArrReg) => q.tag = p.tag ∧ q.ext = p.ext ∧ q.gran = p.gran ∧ q.isEmpty = false
     (Full s x → WellSpread s (areg s x) → s.held + (areg s x).held s.cur.place.dies ≤ s.mySlot.grant →
       ∃ t, exec (.amoviFrom d a) s = .next t ∧ ArrFrame 1 s t ∧ same (areg s x) (areg t d.toNat) ∧
         ∀ r, r ≠ d.toNat → areg t r = areg s r) ∧
     (Full s b.toNat → WellSpread s rb → Ready s x → s.held + rb.held s.cur.place.dies ≤ s.mySlot.grant →
       ∃ t, exec (.amoviTo a b) s = .next t ∧ ArrFrame 1 s t ∧ same rb (areg t x) ∧ ∀ r, r ≠ x → areg t r = areg s r) ∧
     (s.cur.place.dies = 1 → Full s b.toNat → Fits s rb.tag rb.ext [] 0 →
       ∀ k, ∃ t, exec (.xstep k d b a) s = .next t ∧ Wrote 1 s t d.toNat rb.tag rb.ext ∧
         (rb.bl = 0#2 → ∀ n, rb.ext = [n] → ∀ i, i < n → codeAt t d.toNat i =
           codeAt s b.toNat (if k = .rotate then (((i : Int) + (s.cur.reg a).toInt) % n).toNat else i))))

/-! ### `each` -/

/-- R208, R209, R213: `each` starts groups of 8 VPs for the positions of a's frame, at most 16 at a time, each VP with
its number in v14 and the cell's length in v15; it completes once every group has finished, with the frame's shape,
the values put (0 where none was) and the flags of all groups. -/
def Obligations.EachResults : Prop :=
  ∀ (s : State) (d a b : Reg) (r : BitVec 3), ArrRuns s →
    let ra := areg s a.toNat
    let old := areg s d.toNat
    let frame := frameOf ra r
    (∀ w, s.cur.each = none → RmLegal s → Free s b → Ready s a.toNat → Ready s d.toNat → ra.isEmpty = false →
      let base := s.cur.reg b
      base.setWidth 2 = 0#2 → base.toNat < 2 ^ 55 → cellSpread s.cur.place.dies ra (rkVal r) = false →
      Word s s.ctx base w → w.getLsbD 31 = true → s.cur.csr.astart = 0#64 → Fits s old.tag frame [ra] 0 →
      0 < extProd frame →
      ∃ t j, exec (.each d a b r) s = .next t ∧ t.cur = { s.cur with each := some j } ∧ t.mem = s.mem ∧
        j.frame = frame ∧ j.cell = extProd (cellOf ra r) ∧ j.block = base ∧ j.mode = s.cur.csr.mode ∧
        j.groups.length = min 16 (ceilDiv (extProd frame) 8) ∧
        ∀ g ∈ j.groups, g.vps.length = min 8 (extProd frame - 8 * g.g) ∧ ∀ i, i < g.vps.length →
          let p := g.vps.getD i Vp.reset
          p.live = true ∧ p.pc = base ∧ p.v[14] = BitVec.ofNat 32 (8 * g.g + i) ∧
            p.v[15] = BitVec.ofNat 32 (extProd (cellOf ra r))) ∧
    (∀ j, s.cur.each = some j → j.groups = [] → ceilDiv (extProd j.frame) 8 ≤ j.nextGroup → j.d = d.toNat →
      ∃ t, exec (.each d a b r) s = .next t ∧
        (areg t d.toNat).ext = j.frame ∧ (areg t d.toNat).tag = old.tag ∧ (areg t d.toNat).isEmpty = false ∧
        t.cur.pc = s.cur.pc + 4#64 ∧ t.cur.each = none ∧ t.cur.csr.astart = 0#64 ∧ t.cur.s = s.cur.s ∧ t.mem = s.mem ∧
        (∃ f, t.cur.csr.flags = s.cur.csr.flags ||| j.flags ||| f) ∧
        (old.tag = { ty := 5#4, bl := 0#2 } → j.start = 0 → ∀ i, i < extProd j.frame →
          codeAt t d.toNat i = ((j.outs.find? (fun o => o.1 == i)).map (·.2.toNat)).getD 0))

/-! ### The matrix engine -/

/-- R226, R230, R231, R233, R240, R242: the matrix instructions post an entry and complete; `mqry` answers the queue's
length and the paused entry's address at once. R227: `mwait` completes when no entry and no sequencer of the thread
is left, and waits until then. -/
def Obligations.MatrixPosts : Prop :=
  (∀ (s : State) (sh z w : Bool) (t : BitVec 2) (a b : Reg), CanPost s →
     let ra := areg s a.toNat
     let rb := areg s b.toNat
     let x := s.cur.reg a
     let slot := (x.extractLsb' 0 7).toNat
     (∃ u, exec (.mzero t) s = .next u ∧ Posted s u (.mzero t.toNat) []) ∧
     (Square128 s a.toNat → macroTy ra.ty = true →
       ∃ u, exec (.mbld sh a) s = .next u ∧ Posted s u (.mbld sh.toNat) [ra]) ∧
     (Square128 s a.toNat → ∃ u, exec (.mwr t a) s = .next u ∧ Posted s u (.mwr t.toNat) [ra]) ∧
     (Free s a → mbwlOk x = true →
       (s.cur.tid.region.sec = true ∨ secureSlot s.fw s.cur.place.die slot = false) →
       slot / 8 ∉ retiredOf s.fw .wslice s.cur.place.die →
       ∃ u, exec (.mbwl sh a) s = .next u ∧ Posted s u (.mbwl sh.toNat x) []) ∧
     (Ready s a.toNat → ra.isEmpty = false → matrixTy ra.ty = true → 2 ≤ ra.ext.length → (lastTwo ra.ext).1 ≤ 128 →
       (lastTwo ra.ext).2 ≤ 128 →
       ∃ u, exec (.mmul .ip w z t a 0#5) s = .next u ∧ Posted s u (.mmul .ip w z t.toNat false) [ra]) ∧
     (Ready s a.toNat → Ready s b.toNat → ra.isEmpty = false → rb.isEmpty = false → matrixTy ra.ty = true →
       matrixTy rb.ty = true → 2 ≤ ra.ext.length → 2 ≤ rb.ext.length → (lastTwo ra.ext).1 ≤ 128 →
       (lastTwo rb.ext).2 ≤ 128 → (lastTwo ra.ext).2 = (lastTwo rb.ext).1 →
       agreeAxes 0 (ra.ext.take (ra.ext.length - 2)) (rb.ext.take (rb.ext.length - 2)) = .ok () →
       ∃ u, exec (.mmul .op w z t a b) s = .next u ∧ Posted s u (.mmul .op w z t.toNat false) [ra, rb]) ∧
     (Triple s a.toNat → Ready s b.toNat → rb.isEmpty = false → matrixTy rb.ty = true → rb.ext.length = 2 →
       rb.ext.getD 1 0 ≤ 128 → ra.count ≤ 129 →
       ∃ u, exec (.mmul .rw w z t a b) s = .next u ∧
         Posted s u (.mmul .rw w z t.toNat false) [ra, areg s (a.toNat + 1), areg s (a.toNat + 2), rb]) ∧
     (Triple s a.toNat → Triple s b.toNat → Settled s → ∃ u, exec (.mmul .rw w z 0#2 a b) s = .next u ∧
       Posted s u (.mmul .rw w z 0 true) [ra, areg s (a.toNat + 1), areg s (a.toNat + 2), rb, areg s (b.toNat + 1),
         areg s (b.toNat + 2)]) ∧
     (Ready s a.toNat → s.held + needOn s.cur.place.dies ra.tag [128, 128] false ≤ s.mySlot.grant →
       ∃ u, exec (.mrd t a) s = .next u ∧ Posted s u (.mrd t.toNat a.toNat) [] ∧
         (SlotsWhole s → (areg u a.toNat).pending = true)) ∧
     (a.toNat ≤ 29 → (∀ i, i < 3 → Ready s (a.toNat + i)) → indexTag ra = true → indexTag (areg s (a.toNat + 1)) = true →
       Settled s → ∃ u, exec (.mspa a) s = .next u ∧ Posted s u (.mspa a.toNat) []) ∧
     (Free s a → ∀ q ∈ [1#5, 2#5, 3#5, 4#5], ∃ u, exec (.mqry t a q) s = .next u ∧
       Posted s u (.mqry q.toNat t.toNat a) [] (if a = 0#5 then s.cur.pendRegs else a :: s.cur.pendRegs)) ∧
     (Free s a → exec (.mqry t a 0#5) s = .next (after 1 (put a (BitVec.ofNat 64 ((myCore s).queue.length % 128 +
       ((myCore s).queue.filter (fun e => e.tid == s.cur.tid)).length % 128 * 256)) s)) ∧
       exec (.mqry t a 5#5) s = .next (after 1 (put a (pausedPc s) s)))) ∧
  (∀ (s : State), Runs s → pausedOf s = none →
     (matrixBusy s s.cur.tid = false → tseqBusy s s.cur.tid = false → exec .mwait s = .next (after 1 s)) ∧
     (matrixBusy s s.cur.tid = true ∨ tseqBusy s s.cur.tid = true → exec .mwait s = .next s))

/-- R227, R233, R235, R240, R242: an entry that may start does its work on the core's tiles and sets, from the operands
it captured. -/
def Obligations.MatrixEntriesStart : Prop :=
  ∀ (s : State) (d c n : Nat) (before : List MEntry) (e : MEntry) (th : Thread), Entry s d c n before e th →
    mayStart (s.core d c) before e = true →
    let k := s.core d c
    let sub := (envOf e.mode e.q31).sub
    let r := fun i => e.srcs.getD i ArrReg.reset
    let goes := fun (p : State → Prop) => ∃ u, exec (.matrixEntryStart d c n) s = .next u ∧ p u
    (∀ t, e.op = .mzero t → goes fun u => Ran s u d c n flgNone 0#64 ∧ (u.core d c).tile t = Tile.reset) ∧
    (∀ m, e.op = .mbld m → (lastTwo (r 0).ext).2 ≤ 128 → goes fun u => Ran s u d c n flgNone 0#64 ∧
      let x := (u.core d c).mset m
      x.k = (lastTwo (r 0).ext).1 ∧ x.n = (lastTwo (r 0).ext).2 ∧ x.ty = (r 0).ty ∧ x.bl = (r 0).bl ∧
      ∀ i j, i < x.k → j < x.n → (x.elem i j).code % 256 = ((r 0).elem (i * x.n + j)).code % 256) ∧
    (∀ sw z t sp, e.op = .mmul .ip sw z t sp → goes fun u =>
      let o := mmulIp sub sw z { lo := e.astart, hi := e.rows } (r 0) (k.mset (t % 2)) (k.tile t)
      Ran s u d c n o.fl 0#64 ∧ (u.core d c).tile t = o.tile) ∧
    (∀ sw z t sp, e.op = .mmul .op sw z t sp → goes fun u =>
      let o := mmulOp sub sw z { lo := e.astart, hi := e.rows } (r 0) (r 1) (k.tile t)
      Ran s u d c n o.fl 0#64 ∧ (u.core d c).tile t = o.tile) ∧
    (∀ sw z t, e.op = .mmul .rw sw z t false → goes fun u =>
      let o := mmulRwDense sub sw z { lo := e.astart, hi := e.rows } (r 0) (r 1) (r 2) (r 3) (k.tile t)
      Ran s u d c n o.fl 0#64 ∧ (u.core d c).tile t = o.tile) ∧
    (∀ t reg, e.op = .mqry 4 t reg → goes fun u =>
      Ran s u d c n flgNone (BitVec.ofNat 64 ((k.tile t).rows * 65536 + (k.tile t).cols))) ∧
    (∀ t, e.op = .mwr t → (r 0).tag = { ty := 15#4, bl := 0#2 } → Sound (r 0) →
      (∀ i, i < (r 0).count → (decodeF 15#4 ((r 0).elem i).code).isFin = true) → goes fun u =>
      Ran s u d c n flgNone 0#64 ∧
        let x := (u.core d c).tile t
        x.rows = (lastTwo (r 0).ext).1 ∧ x.cols = (lastTwo (r 0).ext).2 ∧
        ∀ i, i < (r 0).count → (r 0).ext.length = 2 → x.cols ≤ 128 →
          x.at (i / x.cols) (i % x.cols) = { val := BitVec.ofNat 32 ((r 0).elem i).code, mark := false })

/-- R37, R227, R242: an entry that has run completes: it leaves the queue, its flags join the thread's FLAGS, `mrd` puts
its result in its register and `mqry` its answer. -/
def Obligations.MatrixEntriesComplete : Prop :=
  ∀ (s : State) (d c n : Nat) (before : List MEntry) (e : MEntry), Entry s d c n before e s.cur → e.tid = s.cur.tid →
    s.cur.status = .bound → e.stat = .done →
    ∃ u, exec (.matrixEntryComplete d c n) s = .next u ∧
      (u.core d c).queue = (s.core d c).queue.filter (fun f => f.id != n) ∧ u.mem = s.mem ∧
      u.cur.csr = { s.cur.csr with flags := s.cur.csr.flags ||| e.flags } ∧ u.cur.pc = s.cur.pc ∧
      (∀ t reg x, e.op = .mrd t reg → reg < 32 → e.results = [x] → SlotsWhole s → WellSpread s x →
        ∃ b, areg u reg = { x with sbase := b }) ∧
      (∀ sel t reg, e.op = .mqry sel t reg → reg ≠ 0#5 → u.cur.reg reg = e.answer ∧
        u.cur.pendRegs = s.cur.pendRegs.erase reg) ∧
      (∀ t, e.op = .mzero t ∨ (∃ m, e.op = .mbld m) → u.cur.s = s.cur.s)

/-! ### Arrays in memory -/

/-- R272 to R277: `ald`, and `wsld` from the weight store, load every element of the block, lowest bit first; between
equal tags the codes are those in memory. R287, R288: `apf` completes and changes nothing a thread can read but what
is cached; `cbld` replaces the 256 constants of the thread by the words at its address. -/
def Obligations.ArrayLoads : Prop :=
  (∀ (s : State) (d a b : Reg) (k : BitVec 3) (p : PBlock) (m : MBlock) (key : Nat → Nat) (ws : Bool), ArrRuns s →
     RmLegal s → Ready s d.toNat → Free s a → Free s b → Block s p m →
     let old := areg s d.toNat
     let va := (s.cur.reg a).toNat
     let i := if ws then Instr.wsld d a b k p else .ald d a b k p
     (b = 0#5 ∨ m.tag.bl ≠ 0#2) → s.cur.csr.astart = 0#64 →
     let dies := s.cur.place.dies
     let at_ := s.shareCtx (s.arrCtx ws m.nt) (partsOf dies m.ext (resultRepl dies m.ext [])) m.ext
     BlockTouched s at_ .read ws key va (s.cur.reg b).toNat (b != 0#5) m →
     (∀ j, j < extProd m.ext → FieldWhole s key (elemBit va m j) (tyWidth m.tag.ty)) →
     Fits s old.tag m.ext [] 0 →
     ∃ t, exec i s = .next t ∧ Wrote 5 s t d.toNat old.tag m.ext ∧
       (old.tag = m.tag → k = 0#3 → ∀ j, j < extProd m.ext →
         codeAt t d.toNat j = fieldAt s.mem key (elemBit va m j) (tyWidth m.tag.ty))) ∧
  (∀ (s : State) (a : Reg) (p : PBlock) (m : MBlock) (i : BitVec 11) (key : Nat → Nat), Runs s → Free s a →
     let va := s.cur.reg a + i.signExtend 64
     (Block s p m → ∃ t, exec (.apf a p) s = .next t ∧ StoreFrame 5 s t ∧ t.mem = s.mem ∧ t.cur.csr.flags = s.cur.csr.flags ∧
       t.mySlot = s.mySlot) ∧
     (va.setWidth 3 = 0#3 → va.toNat < 2 ^ 55 → Touches s s.ctx .read false key va.toNat 2048 →
       Whole s key va.toNat 2048 →
       ∃ t, exec (.cbld a i) s = .next t ∧ t.mem = s.mem ∧ t.cur.pc = s.cur.pc + 4#64 ∧ t.cur.s = s.cur.s ∧
         t.cur.lastCbld = va ∧ t.mySlot.arr = s.mySlot.arr ∧
         ∀ j, j < 256 → t.mySlot.consts.getD j 0#64 =
           BitVec.ofNat 64 (numberAt s.mem 8 (fun x => key (va.toNat + 8 * j + x)))) ∧
     ((va.setWidth 3 ≠ 0#3 ∨ 2 ^ 55 ≤ va.toNat) → exec (.cbld a i) s = .next (takeTrap s 0x01 0 s.cur.pc s.cur.pc)))

/-- R274, R278 to R281: `ast`, and `wsst` to the weight store in its open phase, store every element that is not masked;
bytes that hold no field keep their contents, and between equal unscaled tags of whole bytes in row-major order each
field holds its element's code. R234, R281: `wsst:1` writes a tile image: its header names the type and the last row
and column, the rows of codes follow it, 128 bytes each, and behind them the scale bytes, four for each row. That a row has
its codes in granules of its own, as many in each as a granule holds, is log entry 26 (DEDUCED). -/
def Obligations.ArrayStores : Prop :=
  (∀ (s : State) (d a b : Reg) (k : BitVec 3) (p : PBlock) (m : MBlock) (key : Nat → Nat) (ws : Bool), ArrRuns s →
     RmLegal s → Full s d.toNat → Free s a → Free s b → Block s p m →
     let r := areg s d.toNat
     let va := (s.cur.reg a).toNat
     let w := tyWidth m.tag.ty
     let i := if ws then Instr.wsst d a b k p else .ast d a b k p
     let sva := (s.cur.reg b).toNat
     r.ext = m.ext → (m.tag.bl = 0#2 ↔ b = 0#5) → misalignedRow va m = none →
     BlockTouched s (s.shareCtx (s.arrCtx ws m.nt) r.parts m.ext) .write ws key va sva (b != 0#5) m →
     ∃ t, exec i s = .next t ∧ StoreFrame 5 s t ∧
       (∀ x, (∀ j, j < extProd m.ext → ¬ InField key (elemBit va m j) w x ∧
           (b ≠ 0#5 → x ≠ key (sva + blockIdx m.tag m.ext j))) → t.mem.read x = s.mem.read x) ∧
       (r.tag = m.tag → b = 0#5 → k = 0#3 → 8 ≤ w → m.pn = 0 → m.pu = 0 → m.boff = 0 →
         (∀ x y, va ≤ x → va ≤ y → x < va + extProd m.ext * (w / 8) → y < va + extProd m.ext * (w / 8) →
           key x = key y → x = y) →
         ∀ j, j < extProd m.ext → fieldAt t.mem key (8 * va + j * w) w = codeAt s d.toNat j)) ∧
  (∀ (s : State) (d a : Reg) (p : PBlock) (m : MBlock) (key : Nat → Nat), ArrRuns s → Full s d.toNat → Free s a →
     Block s p m →
     let r := areg s d.toNat
     let va := (s.cur.reg a).toNat
     va % 128 = 0 → r.ext = m.ext → m.tag = r.tag → m.pn = 0 → m.pu = 0 → p.rank = 2#4 → macroTy r.ty = true →
     let k := (lastTwo r.ext).1
     let n := (lastTwo r.ext).2
     let w := tyWidth r.ty
     let per := tyPer r.ty
     let lead := (s.cur.place.shares.findIdx? (fun p => p.1 == s.cur.place.die)).getD 0
     m.ext.length = 2 → (∀ x ∈ m.ext, 1 ≤ x ∧ x ≤ 128) →
     (∀ i, i < 16960 →
       Touches s (s.onShare (s.arrCtx true false) r.parts (imageShare r.parts r.ext lead i)) .write true key (va + i) 1) →
     (∀ x y, va ≤ x → va ≤ y → x < va + 16960 → y < va + 16960 → key x = key y → x = y) →
     ∃ t, exec (.wsstImage d a 0#5 0#3 p) s = .next t ∧
       t.cur.pc = s.cur.pc + 20#64 ∧ t.cur.s = s.cur.s ∧
       t.mem.read (key va) = BitVec.ofNat 8 (r.ty.toNat + 16 * r.bl.toNat) ∧
       t.mem.read (key (va + 1)) = BitVec.ofNat 8 (k - 1) ∧
       t.mem.read (key (va + 2)) = BitVec.ofNat 8 (n - 1) ∧
       (∀ i, 3 ≤ i → i < 64 → t.mem.read (key (va + i)) = 0#8) ∧
       (∀ i j, i < k → j < n →
         fieldAt t.mem key (8 * (va + 64 + 128 * i + 32 * (j / per)) + j % per * w) w = codeAt s d.toNat (i * n + j)) ∧
       (∀ i g, i < 128 → g < 4 → t.mem.read (key (va + 16448 + 4 * i + g)) =
         if i < k ∧ g * per < n then BitVec.ofNat 8 (r.elem (i * n + g * per)).scale else 0x7F#8) ∧
       (∀ x, (∀ i, i < 16960 → x ≠ key (va + i)) → t.mem.read x = s.mem.read x))

/-- R282 to R286: `agat` reads element i at the address a + index · width, and `asct` writes each element that is not masked
there, the later of two equal addresses last. -/
def Obligations.GatherScatter : Prop :=
  ∀ (s : State) (d a b : Reg) (m : BitVec 3) (key : Nat → Nat), ArrRuns s → RmLegal s → Free s a → Full s b.toNat →
    Fresh s → s.cur.place.dies = 1 →
    let rb := areg s b.toNat
    let rd := areg s d.toNat
    let w := tyWidth rd.ty
    let base := (s.cur.reg a).toNat
    let idx := fun i => (valOf s rb i).toInt
    let bit := fun i => (8 * (base : Int) + idx i * w).toNat
    rb.tag.isInt = true → rd.bl = 0#2 → ceilDiv rb.count (tyPer rd.ty) ≤ 32 → (∀ i, i < rb.count → 0 ≤ 8 * (base : Int) + idx i * w) →
    (Ready s d.toNat → Fits s rd.tag rb.ext [rb] 0 →
      (∀ i, i < rb.count → FieldTouched s (winCtx s) .read false key (bit i) w ∧ FieldWhole s key (bit i) w) →
      ∃ t, exec (.agat d a b m) s = .next t ∧ Wrote 1 s t d.toNat rd.tag rb.ext ∧
        (m = 0#3 → ∀ i, i < rb.count → codeAt t d.toNat i = fieldAt s.mem key (bit i) w)) ∧
    (Full s d.toNat → 8 ≤ w → rd.ext = rb.ext → rb.ext.length ≤ 8 →
      (∀ i, i < rb.count → FieldTouched s (winCtx s) .write false key (bit i) w) →
      (∀ i j p q, i < rb.count → j < rb.count → p < w / 8 → q < w / 8 →
        key (bit i / 8 + p) = key (bit j / 8 + q) → bit i / 8 + p = bit j / 8 + q) →
      ∃ t, exec (.asct d a b m) s = .next t ∧ StoreFrame 1 s t ∧
        (∀ i, i < rb.count → Unmasked s m i → (∀ j, i < j → j < rb.count → Unmasked s m j → idx j ≠ idx i) →
          fieldAt t.mem key (bit i) w = codeAt s d.toNat i) ∧
        ∀ x, (∀ i, i < rb.count → Unmasked s m i → ¬ InField key (bit i) w x) → t.mem.read x = s.mem.read x)

/-! ### Synchronisation -/

/-- R353: what an `amo` leaves in its location, as a function of what was there, the operand and the compare value.
R353: an address of an `amo` or a `mon` that is not aligned to its width traps 0x07, TVAL the address. R361: `mon`
waits while the word at its address is b, and then reads it: also the value of a write that another has undone since. -/
def Obligations.ScalarAtomics : Prop :=
  (∀ (s : State) (w : IWidth) (d a : Reg) (b : Src) (key : Nat → Nat), Runs s → Free s a → Free s d → SrcFree s b →
     let va := (s.cur.reg a).toNat
     let n := bits w / 8
     let x := (srcVal s b).setWidth (bits w)
     let cmp := (s.cur.reg d).setWidth (bits w)
     let was : BitVec (bits w) := BitVec.ofNat (bits w) (numberAt s.mem n (fun i => key (va + i)))
     va % n = 0 → Touches s s.ctx .atomic false key va n → Whole s key va n →
     ∀ j ∈ [(AtomOp.add, was + x), (.min, if x.slt was then x else was), (.max, if was.slt x then x else was),
         (.and, was &&& x), (.or, was ||| x), (.xor, was ^^^ x), (.xchg, x), (.cas, if was = cmp then x else was)],
       ∃ u mm, SameButCaches s u ∧
         exec (.amo j.1 w d a b) s = .next (after (srcWords b) (put d (was.signExtend 64) (withMem mm u))) ∧
         numberAt mm n (fun i => key (va + i)) = j.2.toNat ∧
         ∀ y, (∀ i, i < n → y ≠ key (va + i)) → mm.read y = s.mem.read y) ∧
  (∀ (s : State) (w : IWidth) (d a : Reg) (b : Src) (f : AtomOp), Runs s → Free s a → Free s d → SrcFree s b →
     (s.cur.reg a).toNat % (bits w / 8) ≠ 0 →
     exec (.amo f w d a b) s = .next (takeTrap s 0x07 0 (s.cur.reg a) s.cur.pc) ∧
     exec (.mon w d a b) s = .next (takeTrap s 0x07 0 (s.cur.reg a) s.cur.pc)) ∧
  (∀ (s : State) (w : IWidth) (d a : Reg) (b : Src) (key : Nat → Nat), Runs s → Free s a → Free s d → SrcFree s b →
     let va := (s.cur.reg a).toNat
     let n := bits w / 8
     let x := (srcVal s b).setWidth (bits w)
     let was : BitVec (bits w) := BitVec.ofNat (bits w) (wordAt s.mem key va n)
     let wait := fun (v : Nat) (f : Option Nat) => ({ tid := s.cur.tid, key := key va, n := n, was := v, now := f } : Watch)
     va % n = 0 → AtHome s s.ctx .read key va n → Whole s key va n → (∀ i, i < n → key (va + i) = key va + i) →
       (isWs (key va) = true → exec (.mon w d a b) s = .next (takeTrap s 0x07 0 (s.cur.reg a) s.cur.pc)) ∧
       (isWs (key va) = false → (∀ x ∈ s.watches, x.tid ≠ s.cur.tid) →
         (was ≠ x → ∃ u, SameButHeard s u ∧
           exec (.mon w d a b) s = .next (after (srcWords b) (put d (was.signExtend 64) u))) ∧
         (was = x → ∃ t, exec (.mon w d a b) s = .next t ∧ t.mem = s.mem ∧ t.cur = s.cur ∧
           t.watches = s.watches ++ [wait was.toNat none])) ∧
       (isWs (key va) = false → ∀ old v, wait old (some v) ∈ s.watches →
         (∀ x ∈ s.watches, x.tid = s.cur.tid → x = wait old (some v)) → v ≠ x.toNat →
         ∃ u, SameButHeard s u ∧ exec (.mon w d a b) s = .next (after (srcWords b)
           (put d ((BitVec.ofNat (bits w) v).signExtend 64)
             { u with watches := u.watches.filter (fun y => y.tid != s.cur.tid) }))))

/-- R355 to R357: the array atomics perform each unmasked element's operation at its location, in index order: each finds
what the elements before it have left there. `amoa` leaves the old values in d, of `cas` with the compare values in d and the
new ones in d + 1, and a masked element keeps its operand; the `mred` forms take the elements of b to rising places. For its
atomics a gang thread is an agent of its LEAD die (R366). The elements' places rise here: one below another's waits for the
next cycle (log entry 5, DESIGN CHOICE). -/
def Obligations.ArrayAtomics : Prop :=
  ∀ (s : State) (d a b : Reg) (m : BitVec 3) (key : Nat → Nat), ArrRuns s → RmLegal s → Free s a → Full s b.toNat →
    Fresh s →
    let rb := areg s b.toNat
    let rd := areg s d.toNat
    let base := (s.cur.reg a).toNat
    let c := winCtx s
    let reached := fun (at_ : Nat → Nat) (n : Nat) =>
      (∀ i, i < rb.count → Touches s c .atomic false key (at_ i) n ∧ Whole s key (at_ i) n ∧ OnePlace s key (at_ i) n) ∧
      ∀ i j, i < j → j < rb.count → Unmasked s m i → Unmasked s m j → key (at_ i) ≤ key (at_ j)
    -- what the first `k` elements have left at a place, by what each makes of what it finds
    let left := fun (at_ : Nat → Nat) (n : Nat) (new : Nat → Nat → Nat) (k x : Nat) =>
      ((List.range k).filter (fun i => maskBit s.mySlot.arr.masks m.toNat i && key (at_ i) == x)).foldl
        (fun v i => new i v) (numberAt s.mem n (fun p => x + p))
    (∀ o, Full s d.toNat → atomTag rd o = true → rb.tag.isInt = true → (rd.ext = rb.ext ∨ rd.ext = []) →
      (o = .cas → d.toNat ≤ 30 ∧ Full s (d.toNat + 1) ∧ (areg s (d.toNat + 1)).tag = rd.tag ∧
        ((areg s (d.toNat + 1)).ext = rb.ext ∨ (areg s (d.toNat + 1)).ext = [])) →
      ceilDiv rb.count (tyPer rd.ty) ≤ 32 →
      let n := tyWidth rd.ty / 8
      let idx := fun i => (valOf s rb i).toInt
      let at_ := fun i => ((base : Int) + idx i * n).toNat
      let x := fun i => (operandElem (if o = .cas then areg s (d.toNat + 1) else rd) i).code
      let new := fun i v => (elemNew o rd.ty (x i) (operandElem rd i).code v).1
      base % n = 0 → (∀ i, i < rb.count → 0 ≤ (base : Int) + idx i * n) → reached at_ n → Fits s rd.tag rb.ext [rb] 0 →
      ∃ t, exec (.amoa o d a b m) s = .next t ∧ StoreFrame 1 s t ∧ (areg t d.toNat).ext = rb.ext ∧
        (areg t d.toNat).tag = rd.tag ∧ (∀ r, r ≠ d.toNat → areg t r = areg s r) ∧
        (∀ y, (∀ i j, i < rb.count → j < n → y ≠ key (at_ i + j)) → t.mem.read y = s.mem.read y) ∧
        ∀ i, i < rb.count →
          (Unmasked s m i → codeAt t d.toNat i = left at_ n new i (key (at_ i)) ∧
            numberAt t.mem n (fun p => key (at_ i) + p) = left at_ n new rb.count (key (at_ i))) ∧
          (¬ Unmasked s m i → codeAt t d.toNat i = (operandElem rd i).code)) ∧
    (∀ j ∈ [(AtomOp.add, Instr.mredadd a b m), (.min, .mredmin a b m), (.max, .mredmax a b m), (.or, .mredor a b m)],
      atomTag rb j.1 = true → ceilDiv rb.count (tyPer rb.ty) ≤ 32 →
      let n := tyWidth rb.ty / 8
      let at_ := fun i => base + i * n
      let new := fun i v => (elemNew j.1 rb.ty (codeAt s b.toNat i) 0 v).1
      base % n = 0 → reached at_ n →
      ∃ t, exec j.2 s = .next t ∧ StoreFrame 1 s t ∧ (∀ r, areg t r = areg s r) ∧
        (∀ y, (∀ i k, i < rb.count → k < n → y ≠ key (at_ i + k)) → t.mem.read y = s.mem.read y) ∧
        ∀ i, i < rb.count → Unmasked s m i →
          numberAt t.mem n (fun p => key (at_ i) + p) = left at_ n new rb.count (key (at_ i)))

/-- R358, R366, R368 to R370: a fence completes once what it orders is done. A release performs the thread's stores that its
die has held back, in the order of their lines, and waits for the thread's inserts and at package scope for its cross-die
writes and those that its acquires have brought before them; an acquire takes what its dies have heard of before the
thread's later releases, and at package scope waits for those writes on every die the thread runs on, and drops the dies'
copies. -/
def Obligations.FenceResults : Prop :=
  ∀ (s : State) (k : FenceKind) (sc : Scope), Runs s →
    let wide := sc = .pkg ∨ sc = .sys
    let inserts := ∃ x ∈ s.topks, x.tid = s.cur.tid
    let mine := s.stores.filter (fun h => h.tid == s.cur.tid)
    let hears := s.cur.place.dieList.foldl (fun v d => clkMerge v (s.die d).vc) s.cur.acq
    let after1 := fun (t : State) => t.cur = heard (if k = .rel ∨ sc = .thr then s.cur.acq else hears) (after 1 s).cur
    (¬ inserts → writesApplied s s.cur.tid = true → clkApplied s s.cur.acq = true → AllCovered s →
      ∃ t, exec (.fence k sc) s = .next t ∧ after1 t ∧ t.mem = s.mem ∧
        (k ≠ .rel → wide → ∀ d ∈ s.cur.place.dieList, (t.die d).copies = [])) ∧
    (k ≠ .acq → sc ∈ [Scope.core, .sq, .die] → ¬ inserts → NoLoadHeld s → (∀ h ∈ mine, rankOk s h.die h.key = true) →
      ∃ t v, exec (.fence k sc) s = .next t ∧ t.cur = heard v (after 1 s).cur ∧ (k = .rel → v = s.cur.acq) ∧ NoneHeld t ∧
        ((∀ h ∈ mine, h.key % 128 + h.bytes.length ≤ 128 ∧
            (h.msa = true ∨ (homeOf h.key = h.die ∧ coveredApplied s h.die = true))) →
          ∀ x, t.mem.read x = (mine.foldl (fun m h => m.writeN h.key h.bytes) s.mem).read x)) ∧
    (k ≠ .acq → wide → NoLoadHeld s → (∀ h ∈ mine, rankOk s h.die h.key = true) →
      (∃ w ∈ s.xwrites, w.tid = some s.cur.tid) → ∃ t, exec (.fence k sc) s = .next t ∧ t.cur = s.cur ∧ NoneHeld t) ∧
    (k ≠ .acq → NoneHeld s → sc ≠ .thr →
      (inserts ∨ (wide ∧ ((∃ w ∈ s.xwrites, w.tid = some s.cur.tid) ∨ clkApplied s s.cur.acq = false))) →
      exec (.fence k sc) s = .next s) ∧
    (k ≠ .rel → NoneHeld s → wide → ¬ AllCovered s → exec (.fence k sc) s = .next s)

/-- R359, R360: the semaphores and data registers of the thread's square. `semtas` waits in turn for a bit that is 1 and
sets one that is 0, `semtry` reads and sets, `semclr` hands the bit to the first that waits for it. R359: of operations on
one bit or register in one cycle, none from a lower slot comes after one from a higher; that it then waits for the next cycle
is log entry 4 (DESIGN CHOICE). -/
def Obligations.SquareResults : Prop :=
  ∀ (s : State) (d a : Reg) (i : BitVec 11), Runs s → Free s a → Free s d → s.cur.semTaken = false →
    let n := (s.cur.reg a + i.signExtend 64).toNat % 64
    let q := s.mySquare
    let goes := fun (j : Instr) (p : State → Prop) => ∃ t, exec j s = .next t ∧ t.mem = s.mem ∧ p t
    let waits := ∃ m, (s.cur.tid, m) ∈ q.waiters
    let turn := fun (k : Nat) => (spGet (0, 0) q.last k).1 ≠ s.cycle ∨ (spGet (0, 0) q.last k).2 ≤ s.cur.slotNo
    (waits → exec (.semtas a i) s = .next s) ∧
    (¬ turn n → ∀ j ∈ [Instr.semtas a i, .semtry d a i, .semclr a i], exec j s = .next s) ∧
    (¬ turn (64 + n) → ∀ j ∈ [Instr.crld d a i, .crst d a i], exec j s = .next s) ∧
    (turn n →
      (¬ waits → q.sems.getLsbD n = false → goes (.semtas a i) fun t =>
        t.cur = (after 1 s).cur ∧ t.mySquare.sems = q.sems ||| (1#64 <<< n) ∧ t.mySquare.data = q.data) ∧
      (¬ waits → q.sems.getLsbD n = true → goes (.semtas a i) fun t =>
        t.cur = s.cur ∧ t.mySquare.sems = q.sems ∧ t.mySquare.waiters = q.waiters ++ [(s.cur.tid, n)]) ∧
      goes (.semtry d a i) (fun t => t.cur = (after 1 (put d (if q.sems.getLsbD n then 1#64 else 0#64) s)).cur ∧
        t.mySquare.sems = q.sems ||| (1#64 <<< n)) ∧
      ((∀ w ∈ q.waiters, w.2 ≠ n) → goes (.semclr a i) fun t =>
        t.cur = (after 1 s).cur ∧ t.mySquare.sems = q.sems &&& ~~~ (1#64 <<< n)) ∧
      (∀ w rest, q.waiters = w :: rest → w.2 = n → w.1 ≠ s.cur.tid → goes (.semclr a i) fun t =>
        t.cur = (after 1 s).cur ∧ t.mySquare.sems.getLsbD n = true ∧
        ∀ x ∈ t.others, x.tid = w.1 → x.semTaken = true)) ∧
    (turn (64 + n) →
      let used := spSet q.last (64 + n) (s.cycle, s.cur.slotNo)
      goes (.crld d a i) (fun t => t.cur = (after 1 (put d (q.data.getD n 0#64) s)).cur ∧
        t.mySquare = { q with last := used }) ∧
      (q.data.length = 64 → goes (.crst d a i) fun t =>
        t.cur = (after 1 s).cur ∧ t.mySquare = { q with last := used, data := q.data.set n (s.cur.reg d) }))

/-! ### Event queues -/

/-- R362 to R364: `evwait` answers the status of the first record with its token, as an acquire of package scope, and
waits while there is none; `evget` takes the oldest record to memory and raises HEAD, and answers 0 where there is
none; `evpost` puts a record at TAIL, raises TAIL, waits while the queue is full, and does nothing without a queue. -/
def Obligations.EventQueues : Prop :=
  ∀ (s : State) (d a b : Reg), Runs s → Free s d → Free s a → Free s b → NoLoadHeld s →
    let tok : Word32 := (s.cur.reg a).setWidth 32
    let va := (s.cur.reg a).toNat
    let goes := fun (j : Instr) (p : State → Prop) => ∃ t, exec j s = .next t ∧ p t
    (∀ key evq cap head tail, Queue s s.ctx key evq cap head tail →
      let at_ := fun (i : Nat) => evq + 64 + 32 * (i % cap)
      let token := fun (i : Nat) => wordAt s.mem key (at_ i + 4) 4
      (∀ i, head ≤ i → i < tail → token i = tok.toNat → (∀ j, head ≤ j → j < i → token j ≠ tok.toNat) →
        AllCovered s → goes (.evwait d a) fun t =>
          (∃ v, t.cur = heard v (after 1 (put d (BitVec.ofNat 64 (s.mem.read (key (at_ i + 2))).toNat) s)).cur) ∧
          t.mem = s.mem ∧ (myDie t).copies = []) ∧
      ((∀ j, head ≤ j → j < tail → token j ≠ tok.toNat) → goes (.evwait d a) fun t => t.cur = s.cur ∧ t.mem = s.mem) ∧
      (head = tail → va % 8 = 0 → va < 2 ^ 55 → goes (.evget d a) fun t =>
        t.cur = (after 1 (put d 0#64 s)).cur ∧ t.mem = s.mem) ∧
      (head ≠ tail → va % 8 = 0 → Touches s s.ctx .write false key va 32 →
        Distinct key va 32 → Apart key va 32 evq (64 + 32 * cap) →
        (∀ k, k < 8 → KeepsWalk s s.ctx (fun x => ∃ i, i < 32 ∧ x = key (va + i)) (evq + 8 + k)) → AllCovered s →
        goes (.evget d a) fun t =>
          (∃ v, t.cur = heard v (after 1 (put d (BitVec.ofNat 64 (wordAt s.mem key (at_ head) 2)) s)).cur) ∧
          bytesAt t.mem key va 32 = bytesAt s.mem key (at_ head) 32 ∧
          wordAt t.mem key (evq + 8) 8 = (head + 1) % 2 ^ 64 ∧
          ∀ x, (∀ k, k < 32 → x ≠ key (va + k)) → (∀ k, k < 8 → x ≠ key (evq + 8 + k)) →
            t.mem.read x = s.mem.read x) ∧
      (released s s.cur.tid .pkg = true → head ≤ tail → tail < head + cap →
        goes (.evpost a b) fun t =>
          t.cur = (after 1 s).cur ∧ wordAt t.mem key (at_ tail) 2 = 7 ∧ wordAt t.mem key (at_ tail + 4) 4 = tok.toNat ∧
          wordAt t.mem key (at_ tail + 8) 8 = (s.cur.reg b).toNat ∧
          wordAt t.mem key (evq + 16) 8 = (tail + 1) % 2 ^ 64) ∧
      (released s s.cur.tid .pkg = true → head + cap ≤ tail → goes (.evpost a b) fun t =>
        t.cur = s.cur ∧ t.mem = s.mem)) ∧
    (released s s.cur.tid .pkg = true → Silent s true s.cur.tid → goes (.evpost a b) fun t =>
      t.cur = (after 1 s).cur ∧ t.mem = s.mem)

/-! ### Posting to the engines -/

/-- R295, R297, R299, R301 to R303, R312, R314: the commands of the stream fabric and the copy engine are queued with
what they captured; `sgraph`, `srun` and `cpy` answer the next token of the die, `spub` and `sdisc` answer later. -/
def Obligations.FabricPosts : Prop :=
  ∀ (s : State) (ev sh : Bool) (d a b : Reg) (p : Scope) (key : Nat → Nat) (bs : List Byte), MayPost s → Free s d →
    Free s a → Free s b → (myDie s).fabQueue.length < 64 →
    let x := s.cur.reg a
    let tok := tokenOf s.cur.place.die (myDie s).tokens
    let q := (myDie s).fabQueue
    let waits := fun (v : State) => withCur (fun y => if d = 0#5 then y else { y with pendRegs := d :: y.pendRegs }) v
    let goes := fun (j : Instr) (p : State → Prop) => ∃ t, exec j s = .next t ∧ p t
    (x.toNat % 16 = 0 → Holds s key x.toNat (16 + 16 * min (bs.getD 1 0#8).toNat 16) bs →
      (∀ g, graphOf bs = some g → goes (.sgraph ev d a) fun t =>
        Token s t d ∧ (myDie t).fabQueue = q ++ [.sgraph tok s.cur.tid s.cur.slotNo g ev]) ∧
      (graphOf bs = none → exec (.sgraph ev d a) s = .next (takeTrap s 0x01 0 x s.cur.pc))) ∧
    (∀ blk g, x.toNat % 64 = 0 → Holds s key x.toNat 192 bs → runBlockOf bs = some blk →
      graphFor (myDie s) s.cur.tid.region = some g → blk.chunks ≤ 32 →
      (∀ n ∈ g.nodes, n.opr = 7 → n.b 5 ≠ 0 → blk.c % n.block = 0) → (g.usesRm = true → RmLegal s) →
      goes (.srun ev sh d a) fun t => Token s t d ∧ ∃ r, (myDie t).fabQueue = q ++ [.srun r] ∧ r.token = tok ∧
        r.tid = s.cur.tid ∧ r.slot = s.cur.slotNo ∧ r.ev = ev ∧ r.shadow = sh ∧ r.blk = blk ∧ r.graph = g ∧ r.mode = s.cur.csr.mode ∧
        r.seed = s.cur.csr.seed ∧ r.started = false ∧ r.doneChunks = [] ∧ r.owed = []) ∧
    (goes (.spub p d a) fun t =>
      t.mem = s.mem ∧ t.cur = (after 1 (waits s)).cur ∧
      (myDie t).fabQueue = q ++ [.spub s.cur.tid s.cur.slotNo (x.setWidth 32) p d]) ∧
    (goes (.sdisc d a) fun t =>
      t.mem = s.mem ∧ t.cur = (after 1 (waits s)).cur ∧
      (myDie t).fabQueue = q ++ [.sdisc s.cur.tid s.cur.slotNo (x.setWidth 32) d]) ∧
    ((s.cur.reg d).toNat < 2 ^ 40 → (myDie s).cpyQueue.length < 64 → goes (.cpy ev sh d a b) fun t =>
      Token s t d ∧ ∃ c, (myDie t).cpyQueue = (myDie s).cpyQueue ++ [c] ∧ c.token = tok ∧ c.tid = s.cur.tid ∧
        c.slot = s.cur.slotNo ∧ c.ev = ev ∧ c.shadow = sh ∧ c.src = x ∧ c.dst = s.cur.reg b ∧ c.count = (s.cur.reg d).toNat ∧ c.started = false)

/-- R318, R322, R324 to R328: `egraph` and `eprog` bind a graph and a checked program to the slot, `erun` queues a run
with both, `emode` answers the forced direction and sets it; in an edge block `ecomb` proposes a value and `eact`
activates. -/
def Obligations.EdgePosts : Prop :=
  ∀ (s : State) (d a b : Reg) (m : ErunMode) (ev : Bool) (key : Nat → Nat) (bs : List Byte),
    let x := s.cur.reg a
    let y := s.cur.reg b
    let goes := fun (j : Instr) (p : State → Prop) => ∃ t, exec j s = .next t ∧ p t
    (MayPost s → Free s d → Free s a → Free s b → s.cur.place.gang = [] → (myCore s).edgeLoad < 16 →
      (x.toNat % 64 = 0 → Holds s key x.toNat 64 bs →
        (∀ g, edgeGraphOf bs = some g → goes (.egraph d a) fun t =>
          Token s t d (withCur (fun c => { c with egAddr := x })) ∧ t.mySlot.graph = some g ∧
          t.mySlot.prog = s.mySlot.prog ∧ (myCore t).edge = bindBehind s.cur.tid (myCore s).edge) ∧
        (edgeGraphOf bs = none → exec (.egraph d a) s = .next (takeTrap s 0x01 0 x s.cur.pc))) ∧
      (∀ len vt cmb ws, x.toNat % 4 = 0 → edgeCfg y = some (len, vt, cmb) → Holds s key x.toNat (4 * len) bs →
        ws = (List.range len).map (fun i => BitVec.ofNat 32 (natOfBytes ((bs.drop (4 * i)).take 4))) →
        let p : EdgeProg := { dmap := s.cur.dmapTab, base := x, words := ws, vt := vt, cmb := cmb }
        (ws.headD 0#32).getLsbD 31 = true → checkProg p 65 0 s = .ok ((), s) → goes (.eprog d a b) fun t =>
          Token s t d (withCur (fun c => { c with epAddr := x, epCfg := y })) ∧ t.mySlot.prog = some p ∧
          t.mySlot.graph = s.mySlot.graph ∧ (myCore t).edge = bindBehind s.cur.tid (myCore s).edge) ∧
      (let lo := (x.extractLsb' 0 32).toNat
       let cnt := (x.extractLsb' 32 32).toNat
       let supers := (y.extractLsb' 0 16).toNat
       let parts := (y.extractLsb' 16 8).toNat
       y.extractLsb' 24 40 = 0#40 → 1 ≤ supers → 1 ≤ parts → (parts = 1 ∨ supers = 1) → RmLegal s →
       (∀ g, s.mySlot.graph = some g → lo + cnt ≤ g.v) → goes (.erun m ev d a b) fun t =>
         Token s t d ∧ ∃ r, (myCore t).edge = (myCore s).edge ++ [r] ∧ r.lo = lo ∧ r.cnt = cnt ∧ r.supers = supers ∧
           r.parts = parts ∧ r.tid = s.cur.tid ∧ r.slot = s.cur.slotNo ∧ r.after = [] ∧ r.ev = ev ∧ r.mode = s.cur.csr.mode ∧ r.graph = s.mySlot.graph ∧
           r.prog = s.mySlot.prog ∧ r.cur = none ∧ r.want = (match m with | .auto => 0 | .push => 1 | .pull => 2))) ∧
    (Runs s → Free s d → Free s a → s.cur.place.gang = [] → x.toNat < 3 →
      exec (.emode d a) s =
        .next (after 1 (put d (s.cur.force.setWidth 64) (withCur (fun c => { c with force := x.setWidth 2 }) s)))) ∧
    (Runs s → Free s a → s.cur.place.gang = [] → 3 ≤ x.toNat →
      exec (.emode d a) s = .next (takeTrap s 0x01 0 s.cur.pc s.cur.pc)) ∧
    (∀ e c g i, s.runner = .edgeVp e c g i → a.toNat < 16 →
      exec (.ecomb a) s =
        .next (vpAfter 1 { s with vp := { s.vp with props := s.vp.props ++ [(vreg s a).setWidth 32] } }) ∧
      exec .eact s = .next (vpAfter 1 { s with vp := { s.vp with act := true } }))

/-- R341, R343, R345, R349, R351: `topk` leaves an insert pending and 0 in d, `ttbld` and `tseq` queue a job with the
next token, and `xslot` answers a slot at once: a hit with its use bit set and a reference added, the slot under the
hand where it is empty, or the slot that a release leaves. -/
def Obligations.ExpertPosts : Prop :=
  ∀ (s : State) (ev : Bool) (k : BitVec 2) (d a b : Reg) (key : Nat → Nat) (bs : List Byte), Runs s → Free s d →
    Free s a → Free s b →
    let x := s.cur.reg a
    let y := s.cur.reg b
    let q := (myDie s).expQueue
    let r := s.cur.tid.region
    let own := slotsOfWorld s.fw s.cur.place.die r.sec
    let slot := fun (u : State) (i : Nat) => (myDie u).xslot i
    let goes := fun (j : Instr) (p : State → Prop) => ∃ t, exec j s = .next t ∧ p t
    (∀ at_ msa, y.extractLsb' 32 32 = 0#32 → y.setWidth 16 ≠ 0xFFFF#16 → x.toNat % 16 = 0 →
      Mapped s s.ctx .atomic x.toNat at_ msa → (∀ h ∈ s.stores, h.tid = s.cur.tid → h.key / 128 ≠ at_ / 128) →
      (∀ h ∈ s.loads, h.tid = s.cur.tid → h.key / 128 ≠ at_ / 128) →
      (∀ i ∈ s.topks, i.tid = s.cur.tid → at_ + 16 ≤ i.key ∨ i.key + 16 ≤ at_) → goes (.topk k d a b) fun t =>
        t.mem = s.mem ∧ t.cur = (after 1 (put d 0#64 s)).cur ∧
        t.topks = s.topks ++ [{ tid := s.cur.tid, die := s.cur.place.die, core := s.cur.place.core, key := at_, msa := msa
                                score := y.extractLsb' 16 16, id := y.setWidth 16, k := k.toNat + 1 }]) ∧
    (∀ j, MayPost s → q.length < 64 → x.toNat % 64 = 0 → Holds s key x.toNat 64 bs → ttJobOf bs = some j →
      goes (.ttbld ev d a) fun t => Token s t d ∧ ∃ c, (myDie t).expQueue = q ++ [c] ∧ c.work = .ttbld j ∧
        c.tid = s.cur.tid ∧ c.slot = s.cur.slotNo ∧ c.ev = ev ∧ c.token = tokenOf s.cur.place.die (myDie s).tokens) ∧
    (∀ j, MayPost s → s.arrAbsent = false → q.length < 64 → x.toNat % 64 = 0 → Holds s key x.toNat 128 bs →
      seqJobOf bs s.cur.csr.mode (s.window 31) s.cur.csr.mswap = some j →
      goes (.tseq ev d a) fun t => Token s t d ∧ ∃ c z, (myDie t).expQueue = q ++ [c] ∧ c.work = .tseq z ∧ z.job = j ∧
        c.tid = s.cur.tid ∧ c.core = s.cur.place.core ∧ c.ev = ev ∧ z.hdr = none ∧ z.bufs = [] ∧ z.combs = []) ∧
    (∀ i, own.find? (fun i => (slot s i).key == some x) = some i → goes (.xslot .acq d a) fun t =>
      t.mem = s.mem ∧ t.cur = (after 1 (put d (BitVec.ofNat 64 (i + 256)) s)).cur ∧
      slot t i = { slot s i with use := true, ref := (slot s i).ref + 1#16, refs := (slot s i).refs ++ [r] }) ∧
    (∀ h c, own.find? (fun i => (slot s i).key == some x) = none → s.rcb? r = some c →
      heldSlots s r < c.maxslot → (myDie s).hand = h →
      h < 128 → h ∈ own → (slot s h).ref = 0#16 → (slot s h).use = false → goes (.xslot .acq d a) fun t =>
        t.mem = s.mem ∧ t.cur = (after 1 (put d (BitVec.ofNat 64 h) s)).cur ∧ (myDie t).hand = (h + 1) % 128 ∧
        slot t h = { key := some x, use := true, ref := 1#16, refs := [r] }) ∧
    (∀ i, own.find? (fun i => (slot s i).key == some x && (slot s i).refs.contains r) = some i →
      goes (.xslot .rel d a) fun t =>
        t.mem = s.mem ∧ t.cur = (after 1 (put d (BitVec.ofNat 64 i) s)).cur ∧
        slot t i = { slot s i with ref := (slot s i).ref - 1#16, refs := (slot s i).refs.erase r }) ∧
    (own.find? (fun i => (slot s i).key == some x && (slot s i).refs.contains r) = none →
      goes (.xslot .rel d a) fun t => t.cur = (after 1 (put d 0x8000000000000000#64 s)).cur)

/-! ### The engines at work -/

/-- R296, R298, R302, R304, R306, R310, R312, R314: the steps of the stream fabric and the copy engine. A graph becomes
its region's; a chunk of a graph with one UNPK node writes each field as a 32-bit integer; a run and a copy that are
through leave their queues; a shadow is published or discarded. -/
def Obligations.FabricSteps : Prop :=
  ∀ (s : State) (e : Nat) (key : Nat → Nat), (s.die e).stopped = false → s.cur.status = .bound →
    let x := s.die e
    let goes := fun (j : Instr) (p : State → Prop) => ∃ t, exec j s = .next t ∧ p t
    (∀ tok t0 z g ev rest, x.fabQueue = .sgraph tok t0 z g ev :: rest → Silent s ev t0 →
      (x.configs.any (fun p => p.1 == t0.region) = true ∨ x.configs.length < 8) →
      goes (.sgraphConfig e) fun t => t.mem = s.mem ∧ t.cur = s.cur ∧ (t.die e).fabQueue = rest ∧
        (t.die e).configs.find? (fun p => p.1 == t0.region) = some (t0.region, g)) ∧
    (∀ n q k, x.runs[n]? = some q → q.started = true → q.cannot = false → q.aborted = false → q.shadow = false →
      q.overrun = [] → k < q.blk.chunks → k ∉ q.doneChunks → chunkReady x n q k = true →
      ∀ nd, q.graph.nodes = [nd] → nd.opr = 1 → nd.src0 = 0#8 → nd.out = 0x80#8 → 1 ≤ nd.b 4 → nd.b 4 ≤ 16 → nd.b 5 = 0 →
      let c := q.ctx e k
      let inp := q.blk.ins.getD 0 (0#64, 0)
      let out := q.blk.outs.getD 0 (0#64, 0)
      let w := nd.b 4
      let hi := min ((k + 1) * q.blk.c) q.blk.n
      Touches s c .read false key inp.1.toNat inp.2 → Whole s key inp.1.toNat inp.2 →
      Touches s c .write false key out.1.toNat out.2 → Distinct key out.1.toNat out.2 →
      nd.w8 + hi * w ≤ 8 * inp.2 → 4 * hi ≤ out.2 →
      goes (.srunChunkDone e n k) fun t =>
        (∀ i, k * q.blk.c ≤ i → i < hi → wordAt t.mem key (out.1.toNat + 4 * i) 4 =
          fieldAt s.mem key (8 * inp.1.toNat + nd.w8 + i * w) w) ∧
        ∃ q2, (t.die e).runs[n]? = some q2 ∧ q2.doneChunks = setAdd q.doneChunks k ∧ q2.failed = q.failed ∧
          q2.good = q.good + (hi - k * q.blk.c)) ∧
    (∀ n q, x.runs[n]? = some q → q.started = true → q.cannot = false → q.aborted = false → q.shadow = false →
      q.graph.hasBmc = false → (∀ k, k < q.blk.chunks → k ∈ q.doneChunks) → NoRecord s q.ev q.tid q.owed →
      q.tid = s.cur.tid → goes (.srunComplete e n) fun t =>
        t.mem = s.mem ∧ t.cur = merged q.flags s ∧ (t.die e).runs = x.runs.take n ++ x.runs.drop (n + 1)) ∧
    (∀ tok z sc d rest, x.fabQueue = .spub s.cur.tid z tok sc d :: rest → shadowBusy s s.cur.tid.region tok = false →
      (shadowReady s s.cur.tid.region tok = none → goes (.spubApply e) fun t =>
        t.mem = s.mem ∧ t.cur = (arrived d 1#64 s).cur ∧ (t.die e).fabQueue = rest) ∧
      (∀ k, shadowReady s s.cur.tid.region tok = some k → Publishable s e k → goes (.spubApply e) fun t =>
        Published s t k ∧ t.cur = (arrived d 0#64 s).cur ∧ (t.die e).fabQueue = rest)) ∧
    (∀ tok z d rest, x.fabQueue = .sdisc s.cur.tid z tok d :: rest → shadowBusy s s.cur.tid.region tok = false →
      goes (.sdiscApply e) fun t => t.mem = s.mem ∧ (t.die e).fabQueue = rest ∧
        (shadowReady s s.cur.tid.region tok = none → t.cur = (arrived d 1#64 s).cur) ∧
        (∀ k, shadowReady s s.cur.tid.region tok = some k → t.cur = (arrived d 0#64 s).cur ∧
          ∀ y ∈ (t.die k.die).shadows, y.token ≠ k.token)) ∧
    (∀ q rest, x.cpyQueue = q :: rest → (∀ r ∈ rest, r.cannot = false) → q.cannot = false → q.aborted = false →
      q.shadow = false → q.chunk = 0 → q.count ≤ 2 ^ 20 → NoRecord s q.ev q.tid q.owed →
      let c := unitCtx e 3 q.token.toNat q.tid q.slot
      let src := q.src.toNat
      let dst := q.dst.toNat
      (src + q.count ≤ dst ∨ dst + q.count ≤ src) → Touches s c .read false key src q.count →
      Whole s key src q.count → Touches s c .write false key dst q.count → Distinct key dst q.count →
      goes (.cpyComplete e) fun t => t.cur = s.cur ∧ (t.die e).cpyQueue = rest ∧
        bytesAt t.mem key dst q.count = bytesAt s.mem key src q.count ∧
        ∀ z, (∀ i, i < q.count → z ≠ key (dst + i)) → t.mem.read z = s.mem.read z)

/-- R312, R365: `pub` publishes the completed shadow its token names, and has no effect where there is none; it waits
for a command that has not completed. -/
def Obligations.PublishResults : Prop :=
  ∀ (s : State) (f : Scope) (a : Reg), Runs s → Free s a → released s s.cur.tid f = true →
    let r := s.cur.tid.region
    let tok : Word32 := (s.cur.reg a).setWidth 32
    let goes := fun (p : State → Prop) => ∃ t, exec (.pub f a) s = .next t ∧ p t
    (shadowBusy s r tok = true → exec (.pub f a) s = .next s) ∧
    (NoneHeld s → shadowBusy s r tok = false → shadowReady s r tok = none → goes fun t =>
      t.cur = (after 1 s).cur ∧ t.mem = s.mem) ∧
    (∀ k, NoneHeld s → (∀ h ∈ s.topks, h.tid ≠ s.cur.tid) → shadowBusy s r tok = false → shadowReady s r tok = some k →
      Publishable s s.cur.place.die k → goes fun t => t.cur = (after 1 s).cur ∧ Published s t k)

/-- R329, R333, R335, R337: a chunk of the edge engine in which no proposal is left ends, the last ending the superstep;
a superstep that has cleared its frontier raises SS, and then goes on to the next superstep while the next frontier
is not empty and supersteps are left, or leaves the queue; its flags are merged, with those of its VPs, which R337 does not
name (log entry 29, DESIGN CHOICE), and the accumulator is free (R339). -/
def Obligations.EdgeSteps : Prop :=
  ∀ (s : State) (e c : Nat) (r : ERun) (g : EdgeGraph) (p : EdgeProg) (q : SuperStep) (rest : List ERun)
    (key : Nat → Nat), (s.die e).stopped = false → (s.core e c).edge = r :: rest → r.graph = some g → r.prog = some p →
    r.cur = some q → r.aborted = false →
    let x := r.ctx e
    let f := g.frt.toNat
    let edge := fun (t : State) => (t.core e c).edge
    let goes := fun (j : Instr) (p : State → Prop) => ∃ t, exec j s = .next t ∧ p t
    (q.loaded = true → q.ended = false → q.group = none → q.fail = none → q.items = [] → rowEnded r q = false →
      q.props = [] → q.acts = [] → q.eacts = [] → (q.last = true ∨ p.cmb = 2) → goes (.edgeChunkDone e c) fun t =>
        t.mem = s.mem ∧ t.cur = s.cur ∧ ∃ q2, edge t = { r with cur := some q2 } :: rest ∧ q2.chunk = q.chunk + 1 ∧
          q2.loaded = false ∧ q2.combining = false ∧ q2.ended = q.last ∧ q2.failed = q.failed ∧ q2.rowAt = q.nextRow ∧
          q2.inRow = q.nextIn) ∧
    (q.cannot = false → q.ended = true → writesApplied s r.tid = true → q.phase = 1 →
      Touches s x .write false key f 4 → Distinct key f 4 → goes (.edgeSuperstepEnd e c) fun t =>
        t.cur = s.cur ∧ wordAt t.mem key f 4 = (q.ss + 1) % 2 ^ 32 ∧
        (∀ z, (∀ i, i < 4 → z ≠ key (f + i)) → t.mem.read z = s.mem.read z) ∧
        edge t = { r with cur := some { q with phase := 2 } } :: rest) ∧
    (q.cannot = false → q.ended = true → writesApplied s r.tid = true → q.phase = 2 →
      NoRecord s r.ev r.tid r.owed → r.tid = s.cur.tid → s.cur.status = .bound → Touches s x .read false key f 32 →
      Whole s key f 32 →
      let next := wordAt s.mem key (f + 8 + 4 * (1 - q.ss % 2)) 4
      goes (.edgeSuperstepEnd e c) fun t =>
        t.mem = s.mem ∧ t.cur = merged ((q.flags &&& 0xB#64) ||| q.vpFlags) s ∧ (t.core e c).accUser ≠ .edge ∧
        edge t = if next ≠ 0 ∧ 1 < r.supers then { r with cur := none, supers := r.supers - 1 } :: rest else rest)

/-- R340, R341, R343, R344, R346, R348: a pending insert is made, a NaN score only raising SB; a build writes its table,
whose header counts experts, tokens and entries; a sequencer's buffer is multiplied with its expert's image into the
tile, and its combines go out; each adds its value at its home, whichever reaches it first, and with the last of them the
buffer's rows count and its page is freed, that of a buffer which started short when its product has read it; a sequencer
that has walked its table and made them all ends. That a buffer's load and product are one step, and each combine a turn of
its own, is the model's choice (log entries 30 and 4, DESIGN CHOICE). -/
def Obligations.ExpertSteps : Prop :=
  ∀ (s : State) (e : Nat) (key : Nat → Nat), s.cur.status = .bound →
    let x := s.die e
    let goes := fun (j : Instr) (p : State → Prop) => ∃ t, exec j s = .next t ∧ p t
    (∀ n i, s.topks[n]? = some i →
      let l := recordEntries (s.mem.readN i.key 16)
      let gone := s.topks.take n ++ s.topks.drop (n + 1)
      (scoreNan i.score = true → i.tid = s.cur.tid → goes (.topkInsert n) fun t =>
        t.mem = s.mem ∧ t.cur = merged (flgSB.setWidth 64) s ∧ t.topks = gone) ∧
      (scoreNan i.score = false → atomReady s i.die i.key i.msa = true → recordOk l = true → s.mem.poisoned i.key = false →
        goes (.topkInsert n) fun t => t.cur = s.cur ∧ t.topks = gone ∧
          recordEntries (t.mem.readN i.key 16) = insertEntry l (i.score, i.id) i.k ∧
          ∀ z, (z < i.key ∨ i.key + 16 ≤ z) → t.mem.read z = s.mem.read z)) ∧
    (∀ q j rest, x.stopped = false → x.expQueue = q :: rest → (∀ r ∈ rest, r.id ≠ q.id) → expReady s e q = true → q.work = .ttbld j →
      Silent s q.ev q.tid → j.k = 1 → j.rmap = 0#64 → j.t ≤ 2 ^ 24 → j.x ≤ 1024 → 64 ≤ j.cap →
      let c := q.ctx e 0
      Touches s c .read false key j.recs.toNat (16 * j.t) → Whole s key j.recs.toNat (16 * j.t) →
      Touches s c .write false key j.tbl.toNat j.cap → Distinct key j.tbl.toNat j.cap →
      goes (.ttbldComplete e) fun t => (t.die e).expQueue = rest ∧
        wordAt t.mem key j.tbl.toNat 4 = j.x ∧ wordAt t.mem key (j.tbl.toNat + 4) 4 = j.t ∧
        wordAt t.mem key (j.tbl.toNat + 8) 4 =
          ((List.range j.t).filter (fun r => decide (wordAt s.mem key (j.recs.toNat + 16 * r) 2 < j.x))).length) ∧
    (∀ id q z b h, x.stopped = false → seqOf x id = some (q, z) → q.aborted = false → expReady s e q = true →
      z.cannot = false → z.hdr = some h → z.bufs = [b] → b.closed = true → b.bad = none →
      let j := z.job
      let c := q.ctx e 0
      let k := s.core e q.core
      let set := k.mset (j.tile % 2)
      let at_ := j.smap.toNat + 2 * b.p
      let word := BitVec.ofNat 64 (wordAt s.mem key at_ 2)
      let sw := decide (b.rows.length < j.mswap)
      let o := seqProduct (envOf j.mode j.q31).sub j sw b.rows set
      Touches s c .read false key at_ 2 → Whole s key at_ 2 → smapOk s.fw e q.tid.region.sec word = true →
      unitsFree k.queue [j.tile, 4 + j.tile % 2] = true → z.held = some (word, set) → set.k = j.km → set.n = j.nm →
      let outAt := fun (r : StageRow) (n : Nat) => j.out.toNat + r.token * j.opitch + 4 * n
      (∀ r ∈ b.rows, ∀ n, n < j.nm → outAt r n % 4 = 0 ∧ ∃ k m, Mapped s c .atomic (outAt r n) k m) →
      goes (.tseqBufferStart e id) fun t => t.mem = s.mem ∧ (t.core e q.core).tile j.tile = o.tile ∧
        (t.die e).staged = x.staged - (if b.short = true ∨ b.rows.length * j.nm = 0 then 1 else 0) ∧
        ∃ q2 z2, seqOf (t.die e) id = some (q2, z2) ∧ z2.bufs = [] ∧ z2.rows = z.rows ∧
          z2.outs = (if b.rows.length * j.nm = 0 then z.outs
            else z.outs ++ [{ id := z.nextComb, blocks := b.rows.map (·.block), page := !b.short }]) ∧
          z2.failed = z.failed ∧ z2.combs.length = z.combs.length + b.rows.length * j.nm ∧
          ∀ i r n, b.rows[i]? = some r → n < j.nm → ∃ m ∈ z2.combs, m.va = outAt r n ∧ m.buf = z.nextComb ∧
            let y := if sw then o.tile.at n i else o.tile.at i n
            m.v = (toTile (fmulV (decodeF 15#4 r.weight.toNat) (decodeF 15#4 y.val.toNat)).1).1.toNat) ∧
    (∀ id n q z b k, x.stopped = false → seqOf x id = some (q, z) → z.combs[n]? = some b → locate s.fw b.pa = .here k →
      atomReady s e k b.msa = true → (∀ i, i < 4 → s.mem.poisoned (k + i) = false) → mixedPage s b.pa b.msa = false →
      let left := z.combs.take n ++ z.combs.drop (n + 1)
      ∃ t, combineTurn e id n s = some t ∧ t.cur = s.cur ∧
        natAt t.mem k 4 = (fp32Add (natAt s.mem k 4) b.v).1 % 2 ^ 32 ∧
        (∀ y, (y < k ∨ k + 4 ≤ y) → t.mem.read y = s.mem.read y) ∧
        ∃ q2 z2, seqOf (t.die e) id = some (q2, z2) ∧ z2.combs = left ∧ z2.failed = z.failed ∧
          (left.any (fun c => c.buf == b.buf) = true → z2.rows = z.rows ∧ z2.outs = z.outs) ∧
          ∀ u, left.any (fun c => c.buf == b.buf) = false → z.outs.find? (fun u => u.id == b.buf) = some u →
            z2.rows = z.rows + u.blocks.length ∧ z2.outs = z.outs.filter (fun v => v.id != u.id) ∧
            (t.die e).staged = x.staged - (if u.page then 1 else 0)) ∧
    (∀ id q z h, x.stopped = false → seqOf x id = some (q, z) → q.aborted = false → z.cannot = false → z.hdr = some h →
      h.2.1 ≤ z.block → z.bufs = [] → z.combs = [] → NoRecord s q.ev q.tid q.owed → q.tid = s.cur.tid →
      goes (.tseqComplete e id) fun t => t.mem = s.mem ∧ t.cur = merged z.flags s ∧
        (t.die e).expQueue = x.expQueue.filter (fun c => c.id != q.id))

/-! ### Leaving slots, and what a thread asks of the device -/

/-- R90 to R92, R158, R160, R391: a `yield`, and the pre-emption of a thread whose grace has run out, save its registers
with the pc to go on at and free its slot; `done` ends it, and its region counts it and says so in its state word. -/
def Obligations.LeavingSlots : Prop :=
  ∀ (s : State) (key : Nat → Nat),
    let goes := fun (j : Instr) (p : State → Prop) => ∃ t, exec j s = .next t ∧ p t
    (Runs s → Idle s → pausedOf s = none → s.unknownBusy = false → matrixBusy s s.cur.tid = false → RegionStays s →
      SaveReached s key → goes .yield fun t => Saved s t key (s.cur.pc + 4#64)) ∧
    (s.cur.preemptDue = true → Idle s → s.cur.each = none → s.cur.park = none → s.cur.tail = [] → s.cur.semTaken = false →
      s.cur.wsPending = false → s.unknownBusy = false → RegionStays s → SaveReached s key →
      goes (.preEmption s.cur.tid) fun t => Saved s t key s.cur.pc ∧
        t.cur.csr.pcnt = if s.cur.csr.pcnt = 0xFFFF#16 then 0xFFFF#16 else s.cur.csr.pcnt + 1#16) ∧
    (∀ r, Runs s → pausedOf s = none → s.unknownBusy = false → threadDrained s s.cur.tid = true → NoneHeld s →
      s.region? s.cur.tid.region = some r → 2 ≤ r.livect → RegionStays s → WordReached s key r → goes .done fun t =>
        t.cur.status = .ended ∧
        wordAt t.mem key (r.id.rcb.toNat + 0x70) 8 =
          stateWord (codeNo r.code) r.depth r.children.length (r.livect - 1) % 2 ^ 64 ∧
        (∀ x, (∀ j, j < 8 → x ≠ key (r.id.rcb.toNat + 0x70 + j)) → t.mem.read x = s.mem.read x) ∧
        ∃ q, t.region? r.id = some q ∧ q.livect = r.livect - 1 ∧ q.doneCt = r.doneCt + 1 ∧ q.trapCt = r.trapCt)

/-- R251, R262, R394, R397: `quota` grants what is free, in whole blocks, and never less than is held; `tlbinv` drops
the translations it names and no other; `fqret` returns a pending entry, and is for the secure world alone: that a
non-secure thread's trap has TVAL 0 is log entry 33 (DESIGN CHOICE); `wsph` queues a request, waits, and completes once it is
applied, and one that seals is a release at die scope. -/
def Obligations.ThreadServices : Prop :=
  ∀ (s : State) (d a b : Reg),
    let x := s.cur.reg a
    let goes := fun (j : Instr) (p : State → Prop) => ∃ t, exec j s = .next t ∧ p t
    (ArrRuns s → Free s d → Free s a → s.unknownBusy = false →
      let g := min (min (min x.toNat 57344) s.cur.place.maxgran) (roomFor s s.cur)
      let n := max (g / largestBlock s.mySlot.arr * largestBlock s.mySlot.arr) s.held
      goes (.quota d a) fun t =>
        t.mem = s.mem ∧ t.mySlot.grant = n ∧ t.mySlot.arr = s.mySlot.arr ∧
        t.cur = (after 1 (put d (BitVec.ofNat 64 n) (withCsr { s.cur.csr with qgrant := BitVec.ofNat 64 n } s))).cur) ∧
    (Runs s → Free s a → Free s b → s.xwrites = [] → s.stores = [] → s.loads = [] → s.topks = [] → (s.cur.reg b).toNat < 8 →
      (s.cur.reg b).toNat % 4 ≠ 3 →
      let r := (s.cur.reg b).toNat
      let out := translatedOut s s.cur.tid (if 4 ≤ r then List.range 8 else [s.cur.place.die])
      let hit := fun (e : TlbEnt) => e.sec = s.cur.tid.region.sec ∧
        (r % 4 = 0 → e.vpn = x.toNat / 2 ^ e.bits) ∧ (r % 4 = 1 → e.vpn * 2 ^ e.bits / 2 ^ 29 = x.toNat / 2 ^ 29)
      (out = true → goes (.tlbinv a b) fun t => t.mem = s.mem ∧ t.cur = s.cur ∧ ∀ k, (t.die k).tlb = (s.die k).tlb) ∧
      (out = false → goes (.tlbinv a b) fun t => t.mem = s.mem ∧ t.cur = (after 1 s).cur ∧
        ∀ k, k < 8 → (k = s.cur.place.die ∨ 4 ≤ r) → ∀ e, (e ∈ (t.die k).tlb ↔ (e ∈ (s.die k).tlb ∧ ¬ hit e)) ∧
          ∀ c, e ∈ (t.core k c).tlb ↔ (e ∈ (s.core k c).tlb ∧ ¬ hit e))) ∧
    (Runs s → Free s a → x.toNat < 2 ^ 13 →
      (s.cur.tid.region.sec = false → exec (.fqret a) s = .next (takeTrap s 0x0F 0 0#64 s.cur.pc)) ∧
      (s.cur.tid.region.sec = true → released s s.cur.tid .pkg = true →
        let found := (myDie s).faults.find? (fun f => f.seq % 4096 == x.toNat % 4096 && f.status == 0)
        goes (.fqret a) fun t => t.cur = (after 1 s).cur ∧
          (found = none → t.mem = s.mem ∧ (myDie t).faults = (myDie s).faults) ∧
          ∀ f, found = some f → (myDie t).faults = statused (myDie s).faults f.seq (if x.getLsbD 12 then 2 else 1))) ∧
    (Runs s → Free s a → x.toNat < 2 →
      (s.cur.wsDone = true → exec (.wsph a) s =
        .next (after 1 (withCur (fun y => { y with wsPending := false, wsDone := false }) s))) ∧
      (s.cur.wsDone = false → s.cur.wsPending = true → exec (.wsph a) s = .next s) ∧
      (s.cur.wsDone = false → s.cur.wsPending = false → s.unknownBusy = false → x = 0#64 → NoneHeld s →
        (∃ k ∈ s.topks, k.tid = s.cur.tid) → exec (.wsph a) s = .next s) ∧
      (s.cur.wsDone = false → s.cur.wsPending = false → s.unknownBusy = false →
        (x = 1#64 ∨ (NoneHeld s ∧ ∀ k ∈ s.topks, k.tid ≠ s.cur.tid)) → goes (.wsph a) fun t =>
        t.mem = s.mem ∧ t.cur = { s.cur with wsPending := true } ∧
        (myDie t).wsQueue = (myDie s).wsQueue ++ [{ tid := some s.cur.tid, hdr := none, sec := s.cur.tid.region.sec
                                                    toOpen := x.getLsbD 0, taken := false
                                                    entries := [], chunks := [] }]))

/-- R73, R76 to R78, R159: `spawn` answers 0 and launches a region below its own, which its parent's block names first
among its children; a block that is not 256-byte aligned is refused with status 1, and one that no check lets pass
leaves every region as it was. -/
def Obligations.SpawnResults : Prop :=
  ∀ (s : State) (d a : Reg) (p : Region) (k : Nat) (x : Rcb) (key : Nat → Nat), MayPost s → Free s d → Free s a →
    s.region? s.cur.tid.region = some p →
    let va := s.cur.reg a
    let id : RegionId := { sec := x.sec, rcb := va }
    let up := p.id.rcb.toNat
    let c := deviceCtx p.home (regionTid p.id)
    let own := deviceCtx s.cur.place.die (regionTid id)
    let touched := fun y => (∃ i, i < 128 ∧ y = k + i) ∨ ∃ i, i < 128 ∧ y = key (up + i)
    (Offered s s.ctx (some p) false va k x → p.aborting = false →
      AtHome s own .write (fun a => k + (a - va.toNat)) va.toNat 128 → AtHome s c .write key up 128 → Distinct key up 128 →
      (∀ i, i < 128 → KeepsWalk s own touched (va.toNat + i) ∧ KeepsWalk s c touched (up + i)) →
      (∀ i j, i < 128 → j < 128 → k + i ≠ key (up + j)) →
      ∃ t, exec (.spawn d a) s = .next t ∧ t.cur = (after 1 (put d 0#64 s)).cur ∧
        Launched s t id x s.cur.place.die (some p) ∧ (∃ q, t.region? p.id = some q ∧ q.children = id :: p.children) ∧
        wordAt t.mem key (up + 8) 8 = va.toNat ∧
        natAt t.mem (k + 0x70) 8 = stateWord 1 (p.depth + 1) 0 x.nct % 2 ^ 64 ∧ natAt t.mem k 8 = up ∧
        ∀ y, ¬ touched y → t.mem.read y = s.mem.read y) ∧
    (va.toNat % 256 ≠ 0 → ∃ t, exec (.spawn d a) s = .next t ∧ t.cur = (after 1 (put d 1#64 s)).cur ∧ t.mem = s.mem ∧
      t.regions = s.regions) ∧
    (∀ e v, checkOffer s.ctx (some p) false va s = .ok (.error e, v) → ∃ t, exec (.spawn d a) s = .next t ∧
      t.cur = (after 1 (put d (BitVec.ofNat 64 e) s)).cur ∧ t.mem = s.mem ∧ t.regions = s.regions)

/-- R386 to R390: `asave` writes the image of the array state in the thread's slot, sets its owner's ASTAT to 0 and
frees the slot; `arest` of 0 gives a thread without an image the empty state and a grant of 0, and traps 0x09 with
TVAL ASA where the state is lost. -/
def Obligations.SavedStates : Prop :=
  ∀ (s : State) (a : Reg) (key : Nat → Nat) (o : Tid), Runs s → Free s a →
    let va := (s.cur.reg a).toNat
    let me := s.cur.tid
    let here := (s.cur.place.die, s.cur.place.core, s.cur.place.slot)
    let stat := saveArea s o + 0x3F0
    let goes := fun (j : Instr) (p : State → Prop) => ∃ t, exec j s = .next t ∧ p t
    (s.mySlot.owner = some o → ownedSlots s o = [here] → stateInUse s o = false → va ≠ 0 → va % 128 = 0 →
      let img := imageOf s o here.1 here.2.1 here.2.2
      va + img.length ≤ 2 ^ 55 → AtHome s s.ctx .write key va img.length → Distinct key va img.length →
      AtHome s s.ctx .write key stat 8 → Distinct key stat 8 → Apart key va img.length stat 8 →
      (∀ i, i < 8 → KeepsWalk s s.ctx (fun x => ∃ j, j < img.length ∧ x = key (va + j)) (stat + i)) →
      goes (.asave a) fun t =>
        t.cur = (after 1 s).cur ∧ bytesAt t.mem key va img.length = img.map (·.1) ∧ wordAt t.mem key stat 8 = 0 ∧
        t.mySlot.owner = none ∧ t.mySlot.arr = ArrState.reset ∧ t.mySlot.grant = 0 ∧
        ∀ x, (∀ i, i < img.length → x ≠ key (va + i)) → (∀ i, i < 8 → x ≠ key (stat + i)) →
          t.mem.read x = s.mem.read x) ∧
    (s.mySlot.owner = none → exec (.asave a) s = .next (after 1 s)) ∧
    (o = me → va = 0 → s.cur.place.gang = [] → s.mySlot.owner = none → ownedSlots s me = [] → stateInUse s me = false →
      AtHome s s.ctx .read key stat 16 → Whole s key stat 16 →
      (wordAt s.mem key stat 8 / 2 ^ 61 % 2 = 1 → goes (.arest a) fun t =>
        t.cur = (takeTrap s 0x09 0 (BitVec.ofNat 64 (wordAt s.mem key (stat + 8) 8)) s.cur.pc).cur) ∧
      (wordAt s.mem key stat 8 / 2 ^ 61 % 4 = 0 → AtHome s s.ctx .write key stat 8 → Distinct key stat 8 →
        s.arrAbsent = true → s.cur.lost = false → goes (.arest a) fun t =>
          t.mySlot.owner = some me ∧ t.mySlot.arr = ArrState.reset ∧ t.mySlot.grant = 0 ∧
          t.cur = (after 1 (withCsr { s.cur.csr with qgrant := 0#64 } (withCur (fun y => { y with everHeld := true }) s))).cur ∧
          wordAt t.mem key stat 8 = heldStat s.cur.place.die (4 * s.cur.place.core + s.cur.place.slot) ∧
          ∀ x, (∀ i, i < 8 → x ≠ key (stat + i)) → t.mem.read x = s.mem.read x))

/-! ### The package's own steps -/

/-- R263, R367, R370, R371: a beacon brings every die the sender's counter and applied vector; that it reaches all of them in
one step is log entry 5 (DESIGN CHOICE); a cross-die write whose turn
has come is applied at its home; a copy leaves its die 65,536 cycles after its fill; the edges of a refresh window
change nothing that is stored. -/
def Obligations.CoherenceSteps : Prop :=
  ∀ (s : State) (d h line : Nat) (i : BitVec 4),
    let goes := fun (j : Instr) (p : State → Prop) => ∃ t, exec j s = .next t ∧ p t
    (d < 8 → (s.die d).clockMoved = true → (∀ j, j < 8 → (s.die j).beacons.length = 8 ∧ (s.die j).known.length = 8) →
      goes (.beacon d) fun t => t.mem = s.mem ∧ t.cur = s.cur ∧ (t.die d).clockMoved = false ∧
        ∀ j, j < 8 → (t.die j).beacons.getD d [] = appliedVec s d ∧ (t.die j).vc = (s.die j).vc ∧
          (j ≠ d → (t.die j).known.getD d 0#32 = (s.die d).vc.getD d 0#32)) ∧
    (∀ w rest, pendingTo s d h = w :: rest → canApply s w = true →
      goes (.crossDieWriteApply d h) fun t => t.cur = s.cur ∧ t.xwrites = s.xwrites.erase w ∧
        t.mem.readN w.pa w.bytes.length = w.bytes ∧ (∀ g ∈ w.poison, g ∈ t.mem.poison) ∧
        ∀ x, (x < w.pa ∨ w.pa + w.bytes.length ≤ x) → t.mem.read x = s.mem.read x) ∧
    ((∃ k ∈ (s.die d).copies, k.line = line ∧ k.filled + 65536 ≤ s.cycle) → goes (.copyExpiry d line) fun t =>
      t.mem = s.mem ∧ t.cur = s.cur ∧ ∀ k, k ∈ (t.die d).copies ↔ (k ∈ (s.die d).copies ∧ k.line ≠ line)) ∧
    exec (.refreshWindowStart i) s = .next s ∧ exec (.refreshWindowEnd i) s = .next s

/-- R394, R395, R418, R262: a fault entry is returned by the host's reply or by the hen's fresh walk; a returned entry
lets its stalled thread go on, or has it take trap 0x06; a request for the phase of the weight store is applied once
the reads accepted before it, or the writes, are over. -/
def Obligations.FaultSteps : Prop :=
  ∀ (s : State) (d q : Nat) (f : FaultRec),
    let entry := fun (z : Nat → Bool) => (s.die d).faults.find? (fun f => f.seq == q && z f.status)
    let goes := fun (j : Instr) (p : State → Prop) => ∃ t, exec j s = .next t ∧ p t
    (∀ h (st : Byte), s.fw.m.isSome = true → forUs s.fw h = true → s.fw.inForce.getLsbD 0 = true → hdrOk h = true →
      hostNode h.src = hostNode s.fw.faultHost → (st = 1#8 ∨ st = 2#8) → d = h.tag.toNat / 4096 % 8 →
      (s.die d).faults.find? (fun g => g.seq % 4096 == h.tag.toNat % 4096 && g.status == 0) = some f →
      goes (.faultReply h st) fun t => t.cur = s.cur ∧ (t.die d).faults = statused (s.die d).faults f.seq st.toNat) ∧
    (∀ st, s.fw.inForce.getLsbD 0 = false → entry (· == 0) = some f →
      (match walk s (.engine s.cur.tid 9 q) f.tid.region.sec f.va.toNat with
        | .ok _ => st = 1
        | .error (.invalid _) => st = 2
        | .error .error => st = 2
        | .error _ => False) →
      goes (.henFaultService d q) fun t => t.cur = s.cur ∧ (t.die d).faults = statused (s.die d).faults q st) ∧
    (entry (· != 0) = some f → (∀ g ∈ (s.die d).faults, g.tid = f.tid → q ≤ g.seq) → f.tid = s.cur.tid →
      let gone := fun (t : State) => (t.die d).faults = (s.die d).faults.filter (fun g => g.seq != q)
      (f.what = .stall → f.status = 1 → goes (.faultEntryAct d q) fun t =>
        t.mem = s.mem ∧ t.cur = { s.cur with stall := none } ∧ gone t) ∧
      (f.what = .stall → f.status = 2 → s.cur.each = none → goes (.faultEntryAct d q) fun t =>
        t.cur = (takeTrap s 0x06 0 f.tval s.cur.pc).cur) ∧
      (f.what.isEngine = true → f.status = 2 → goes (.faultEntryAct d q) fun t =>
        t.mem = s.mem ∧ t.cur = s.cur ∧ gone t ∧ (f.tid, f.va.toNat / 65536, f.what) ∈ t.unres)) ∧
    (∀ r rest, (s.die d).wsQueue = r :: rest → r.hdr = none → r.tid = some s.cur.tid →
      let open_ := fun (t : State) (sec : Bool) => if sec then (t.die d).openSec else (t.die d).openNs
      let seen := r.noteReads s d
      let busy := fun (q : WsReq) => if r.toOpen then q.readPending s d else wsWritePending s d r.sec
      ((open_ s r.sec = r.toOpen ∨ busy (if r.taken then r else seen) = false) →
        goes (.wsphApply d) fun t => t.mem = s.mem ∧ t.cur = { s.cur with wsDone := true } ∧ (t.die d).wsQueue = rest ∧
          open_ t r.sec = r.toOpen ∧ open_ t (!r.sec) = open_ s (!r.sec)) ∧
      (r.taken = false → open_ s r.sec = !r.toOpen → busy seen = true →
        goes (.wsphApply d) fun t => t.cur = s.cur ∧ (t.die d).wsQueue = seen :: rest ∧ open_ t r.sec = !r.toOpen))

/-- R414 to R416, R403: a request of another node is served at the home of its address and answered, a write being
counted for its sender; a reply, or 2^24 cycles without one, completes a request of this package; a lane that fails
to train is marked for retirement. -/
def Obligations.LinkSteps : Prop :=
  ∀ (s : State) (src tag : BitVec 16) (world : Byte) (n : Nat),
    let goes := fun (j : Instr) (p : State → Prop) => ∃ t, exec j s = .next t ∧ p t
    let ports := portsOf s.fw (src.toNat % 4096)
    let sent := fun (t : State) (pa : Nat) (r : LinkReply) =>
      t.fw.linkOut = s.fw.linkOut ++ [.reply (linePort pa ports) src tag r]
    let awake := fun (k : Nat) => isWs k = true → refreshLeft s.cycle (wsSlice k) = 0
    let replied := fun (k : Nat) (y : LinkReply) => s.fw.remotes.map (fun (x : Remote) =>
      if x.tag = k ∧ x.reply.isNone then { x with reply := some y } else x)
    (∀ pa k, ports ≠ [] → s.fw.commands = [] → locate s.fw pa = .here k → awake k → secureKey s.fw k = false →
      (goes (.remoteRequest src tag world (.read pa n)) fun t => t.mem = s.mem ∧ t.cur = s.cur ∧
        sent t pa (.data (s.mem.readN k n) ((poisonHere s k n).map (fun g => pa / 32 + g - k / 32)))) ∧
      (∀ b bad, (isWs k = true → wsOpen s k = true) → goes (.remoteRequest src tag world (.write pa b bad)) fun t =>
        t.cur = s.cur ∧ t.mem.readN k b.length = b ∧ sent t pa (.data [] []) ∧
        spGet 0 t.fw.wcnt src.toNat = spGet 0 s.fw.wcnt src.toNat + 1 ∧
        ∀ x, (x < k ∨ k + b.length ≤ x) → t.mem.read x = s.mem.read x) ∧
      (∀ b bad, isWs k = true → wsOpen s k = false → goes (.remoteRequest src tag world (.write pa b bad)) fun t =>
        t.mem = s.mem ∧ sent t pa .error) ∧
      (∀ x cmp, isWs k = false → (∀ i, i < n → s.mem.poisoned (k + i) = false) →
        goes (.remoteRequest src tag world (.atomic .add pa n x cmp 5#4)) fun t =>
          sent t pa (.data (s.mem.readN k n) []) ∧ natAt t.mem k n = (natAt s.mem k n + x.toNat) % 256 ^ n)) ∧
    (∀ pa k, ports ≠ [] → s.fw.commands = [] → locate s.fw pa = .here k → awake k → secureKey s.fw k = true → world.getLsbD 0 = false →
      goes (.remoteRequest src tag world (.read pa n)) fun t => t.mem = s.mem ∧ sent t pa .error) ∧
    (∀ r, exec (.remoteReply n r) s = .next { s with fw := { s.fw with remotes := replied n r } }) ∧
    (∀ r, s.fw.remotes.find? (fun r => r.tag == n && r.reply.isNone) = some r → r.sent + 2 ^ 24 ≤ s.cycle →
      goes (.linkRequestTimeout n) fun t => t.fw.remotes = replied n .error ∧ t.cur = s.cur ∧
        (t.die (portDie r.port)).errSeq = (s.die (portDie r.port)).errSeq + 1) ∧
    (∀ port lane, port < 18 → lane < 8 →
      let d := if port = 16 then 0 else if port = 17 then 7 else port / 2
      let e : RetEntry := { kind := .lane, die := d, unit := 8 * port + lane, reason := 4, retired := false
                            stamp := BitVec.ofNat 64 s.fw.resetCount }
      (∀ x ∈ retEntries s.fw, ¬ (x.kind = .lane ∧ x.die = d ∧ x.unit = e.unit)) → (retEntries s.fw).length < 512 →
      (∀ t, curTable s.fw = some t → t.gen.toNat < 2 ^ 64 - 1) → goes (.linkTrainingFailure port lane) fun t =>
        t.cur = s.cur ∧ retEntries t.fw = retEntries s.fw ++ [e] ∧ (t.die d).errSeq = (s.die d).errSeq + 1)

/-- R79, R82, R84, R87, R88, R107 to R110: a convoy starts where its words are legal; a region that fits is placed on a
die, thread i on core i mod c, its records are written and its state word says BOUND; a thread is bound with the
values R79 gives it; a deadline that runs out raises YREQ, whatever TVEC holds, which counts where trap 0x0B is taken, at a
boundary (log entry 21, DESIGN CHOICE). -/
def Obligations.RegionSteps : Prop :=
  ∀ (s : State) (key : Nat → Nat),
    let x := s.cur
    let goes := fun (j : Instr) (p : State → Prop) => ∃ t, exec j s = .next t ∧ p t
    (∀ is, x.status = .bound → x.convoy = [] → s.unknownBusy = false → NoLoadHeld s → Convoy s is →
      ∃ u, SameButCaches s u ∧ exec .convoyStart s =
        .next { u with cur := { x with convoy := is, convoyPc := x.pc, entryCheck := false } }) ∧
    (∀ d r cs, d < 8 → (s.die d).stopped = false → (s.die d).arrivals = [r.id] → s.region? r.id = some r → r.home = d →
      r.code = .pending → (∀ q ∈ s.regions, q.squares = []) → (∀ q ∈ s.regions, q.code ≠ .bound) →
      (∀ q ∈ s.regions, q.home = d → q.owed = [] ∧ (q.livect ≠ 0 ∨ q.children ≠ [])) → r.rcb.gang = 1 →
      r.rcb.linksh ≤ 256 → r.rcb.prio < 16 → 0 < r.rcb.maxcore → r.rcb.perCore ≤ 4 → (∀ t ∈ livingOf s r.id, t.tid.idx < r.rcb.nct) →
      coresOn s r.rcb.sec d r.rcb.cores (fun _ => true) = some cs →
      (∀ c ∈ (s.die d).cores, ∀ z ∈ c.2.slots, z.2.owner = none) → WordReached s key r → goes (.placeRegion d) fun t =>
        (∃ q, t.region? r.id = some q ∧ q.code = .bound ∧ q.livect = r.livect) ∧ (t.die d).arrivals = [] ∧
        wordAt t.mem key (r.id.rcb.toNat + 0x70) 8 = stateWord 2 r.depth r.children.length r.livect % 2 ^ 64 ∧
        ∀ t0 ∈ livingOf s r.id,
          let c := cs.getD (t0.tid.idx % r.rcb.cores) 0
          ∃ z th, z < 4 ∧ t.thread? t0.tid = some th ∧ th.place.die = d ∧ th.place.core = c ∧ th.place.slot = z ∧
            let b := spGet BindRec.reset (t.die d).slotTab (4 * c + z)
            b.valid = true ∧ b.rcb = t0.tid.region.rcb ∧ b.sec = t0.tid.region.sec ∧ b.ctidx = t0.tid.idx) ∧
    (∀ r, x.status = .unbound → x.started = false → recordsValid s x = true → x.place.gang = [] →
      s.region? x.tid.region = some r → r.rcb.dmap = 0#64 → r.rcb.cbank = 0#64 → x.lateRegs = [] → x.lateFlags = 0#64 →
      x.everHeld = false → x.lost = false → s.mySlot.owner = none →
      let home := s.die x.place.die
      let heard := s.setDie x.place.die (home.setClock (clkMerge home.vc r.clk) s.cycle)
      let stat := saveArea s x.tid + 0x3F0
      coveredApplied heard x.place.die = true → AtHome heard x.deviceCtx .write key stat 8 → Distinct key stat 8 → goes (.threadDispatch x.tid) fun t =>
        t.cur.tid = x.tid ∧ t.cur.status = .bound ∧ t.cur.pc = r.rcb.entry ∧ t.cur.entryCheck = true ∧
        t.cur.convoy = [] ∧ t.cur.reg 1#5 = r.rcb.args ∧ t.cur.reg 2#5 = x.tid.region.rcb ∧
        t.cur.reg 3#5 = BitVec.ofNat 64 x.tid.idx ∧ t.cur.reg 4#5 = BitVec.ofNat 64 r.rcb.nct ∧
        (∀ q : Reg, 4 < q.toNat → t.cur.reg q = 0#64) ∧
        t.cur.csr = { Csrs.reset with
          tvec := r.rcb.tvec, count := if r.rcb.ydl = 0 then none else some r.rcb.ydl } ∧
        t.mySlot.owner = some x.tid ∧ t.mySlot.arr = ArrState.reset ∧ t.mySlot.grant = 0 ∧
        wordAt t.mem key stat 8 = heldStat x.place.die (4 * x.place.core + x.place.slot) ∧
        ∀ y, (∀ i, i < 8 → y ≠ key (stat + i)) → t.mem.read y = s.mem.read y) ∧
    (x.status = .bound → x.csr.count = some 0 → x.csr.yreq = false → x.yielding = false →
      exec (.yieldDeadlineExpiry x.tid) s = .next { s with cur := { x with
        yieldTrap := true, csr := { x.csr with yreq := true, count := some 4096 } } }) ∧
    (x.trapDue s = true → x.tail = [] →
      let u := takeTrap { s with cur := { x with yieldTrap := false } } 0x0B 0 0#64 x.pc
      goes (.yieldDeadlineTrap x.tid) fun t => t.mem = u.mem ∧ t.cur = u.cur)

/-- R22, R23, R398, R402, R404, R405 (what no rule fixes of when an error meets a masked read, and of what a loss of power
leaves of memory, is log entries 34 and 2): a corrected error changes no value and is counted; an uncorrected one poisons the
granule it hit; a core that fails no longer works; a die that stops takes its threads off its cores, and resumes; a
module that loses power keeps its retirement table and its count of RESETs. -/
def Obligations.ErrorSteps : Prop :=
  ∀ (s : State) (d u pa : Nat) (k : UnitKind),
    let goes := fun (j : Instr) (p : State → Prop) => ∃ t, exec j s = .next t ∧ p t
    let counted := fun (t : State) (cls : Nat) => (t.die d).errSeq = (s.die d).errSeq + 1 ∧
      errCount (t.die d) cls k u = min (errCount (s.die d) cls k u + 1) 0xFFFFFFFF
    (errorAt s.fw d k u pa = true → goes (.correctedError d k u pa) fun t => t.cur = s.cur ∧ (t.die d).cores = (s.die d).cores ∧ counted t 1) ∧
    (∀ key, errorAt s.fw d k u pa = true → (k = .channel ∨ k = .l2 ∨ k = .wslice) → locate s.fw pa = .here key →
      goes (.uncorrectableError d k u pa) fun t => t.cur = s.cur ∧ counted t 2 ∧ t.mem.poisoned key = true) ∧
    (k = .bank → errorAt s.fw d k u pa = true →
      let g0 := 1024 * (u % 64) + pa
      let reg := fun (v : State) (z g : Nat) => ((v.core d (u / 64)).slot z).arr.regs.getD g ArrReg.reset
      let struck := fun (t : State) => ∀ z g, (reg s z g).sbase.toNat ≤ g0 →
        g0 - (reg s z g).sbase.toNat < (reg s z g).gran.length →
        ((reg t z g).gran.getD (g0 - (reg s z g).sbase.toNat) Granule.zero).poison = true
      (maskedIn s d (u / 64) g0 = none →
        goes (.uncorrectableError d k u pa) fun t => t.cur = s.cur ∧ counted t 2 ∧ struck t) ∧
      (maskedIn s d (u / 64) g0 = some s.cur.tid → goes (.uncorrectableError d k u pa) fun t =>
        t.cur = merged (flgPZ.setWidth 64) s ∧ counted t 3 ∧ struck t)) ∧
    (d < 8 → u < 32 → u ∈ workingCores s d → threadsOnCore s d u = [] →
      spSorted s.dies = true → goes (.coreFailure d u) fun t => u ∉ workingCores t d ∧
        ((s.die d).fabQueue = [] → (s.core d u).queue = [] → t.cur = s.cur)) ∧
    ((s.die d).stopped = false → goes (.thermalStop d) fun t => t.mem = s.mem ∧ (t.die d).stopped = true ∧
      (s.cur.status = .bound → (∃ p ∈ s.cur.place.all, p.1 = d) → t.cur.preemptDue = true)) ∧
    ((s.die d).stopped = true → exec (.thermalResume d) s = .next (s.setDie d { s.die d with stopped := false })) ∧
    (goes (.powerLoss false) fun t => t.powered = false ∧ t.regions = [] ∧ t.mem = Memory.reset ∧
      t.fw.tabA = s.fw.tabA ∧ t.fw.tabB = s.fw.tabB ∧ t.fw.resetCount = s.fw.resetCount) ∧
    (s.powered = false → goes .powerUp fun t => t.powered = true ∧ t.regions = [] ∧ t.fw.m = none ∧
      t.fw.accepted = 0x1C#64 ∧ retEntries t.fw = retEntries s.fw)

/-- R405, R411, R417 to R423: each command of the host, in order and with nothing it counts outstanding, has its effect
and its reply: RESET with its routes, partition and patches, MAP and ABORT of either world, and an answer WORLD where a command
of another host names the secure world. What RESET leaves of registers and memory is log entry 3, and the fields of a reply
that no rule names are log entry 35 (DESIGN CHOICE). -/
def Obligations.HostCommands : Prop :=
  ∀ (s : State) (h : MsgHdr) (pa : Word64) (k : Nat), Heard s h →
    let goes := fun (j : Instr) (p : State → Prop) => ∃ t, exec j s = .next t ∧ p t
    let here := locate s.fw pa.toNat = .here k
    let kept := fun (t : State) (n : Nat) => ∀ y, (y < k ∨ k + n ≤ y) → t.mem.read y = s.mem.read y
    let ports := portsOf s.fw (h.src.toNat % 4096)
    (∀ (m sec : BitVec 16) (part list : Word64) (pk : Nat) (ps : List Patch), m.toNat ≤ 2046 → sec.toNat < 4096 → here → (∀ i, i < 16384 → s.mem.poisoned (k + i) = false) →
      s.xwrites = [] → s.stores = [] → losesDram s.fw = false →
      (∀ t, curTable s.fw = some t → t.gen.toNat < 2 ^ 64 - 1) →
      (part = 0#64 ∨ (locate s.fw part.toNat = .here pk ∧ ∀ i, i < 64 → s.mem.poisoned (pk + i) = false)) →
      ((list = 0#64 ∧ ps = []) ∨
        (s.fw.accepted.getLsbD 2 = true ∧ list.toNat % 64 = 0 ∧ readPatches list.toNat s = .ok (some ps, s))) →
      goes (.reset h m sec pa part list) fun t =>
        t.fw.part = (if part = 0#64 ∨ s.fw.accepted.getLsbD 1 = false then Partition.reset
          else partitionOf (s.mem.readN pk 64)) ∧
        t.fw.refused = BitVec.ofNat 16 (refusedMask ps) ∧
        (∀ d, d < 8 → (t.die d).patchMem = patchMemOf ps d ∧ (t.die d).patchCalls = patchCallsOf ps d) ∧
        (portsOf t.fw (h.src.toNat % 4096) ≠ [] → t.mem = s.mem) ∧ (∀ d, d < 8 → (t.die d).stopped = (s.die d).stopped) ∧
        t.fw.m = some m.toNat ∧ t.fw.secHost = sec ∧ t.fw.inForce = s.fw.accepted ∧ t.regions = [] ∧
        t.fw.tableNs = none ∧ t.fw.tableSec = none ∧ t.cycle = 0 ∧ t.cur = Thread.reset ∧
        t.fw.resetCount = min (s.fw.resetCount + 1) 0xFFFF ∧ (∀ e ∈ retEntries t.fw, e.retired = true) ∧
        (∀ n, n < 4096 → spGet 0#32 t.fw.routes n = BitVec.ofNat 32 (natAt s.mem (k + 4 * n) 4) &&& 0x3FFFF#32) ∧
        Replied s t h 1 0#8) ∧
    (ports ≠ [] →
    (here → pa.toNat % 128 = 0 → goes (.enum h pa) fun t =>
      natAt t.mem k 8 = 0x1F ∧ natAt t.mem (k + 8) 8 = s.fw.accepted.toNat ∧
      natAt t.mem (k + 16) 8 = s.fw.inForce.toNat ∧ kept t 4352 ∧ t.cur = s.cur ∧ Replied s t h 2 0#8) ∧
    (s.regions = [] → goes (.negotiate h pa) fun t =>
      t.fw.accepted = pa &&& 0x1F#64 ∧ t.fw.inForce = (s.fw.inForce &&& 0x6#64) ||| (pa &&& 0x19#64) ∧ t.mem = s.mem ∧
      Replied s t h 3 0#8) ∧
    (s.regions ≠ [] → goes (.negotiate h pa) fun t =>
      t.fw.accepted = s.fw.accepted ∧ t.fw.inForce = s.fw.inForce ∧ Replied s t h 3 2#8) ∧
    (pa.toNat % 65536 = 0 → pa.toNat < 2 ^ 52 → goes (.map h 0#8 pa) fun t =>
      t.fw.tableNs = some pa.toNat ∧ t.fw.tableSec = s.fw.tableSec ∧ t.mem = s.mem ∧
      (∀ d, (∀ e ∈ (t.die d).tlb, e.sec = true) ∧ ∀ c, ∀ e ∈ (t.core d c).tlb, e.sec = true) ∧ Replied s t h 4 0#8) ∧
    (pa.toNat % 65536 = 0 → pa.toNat < 2 ^ 52 → fromSecure s.fw h = true → goes (.map h 1#8 pa) fun t =>
      t.fw.tableSec = some pa.toNat ∧ t.fw.tableNs = s.fw.tableNs ∧ t.mem = s.mem ∧
      (∀ d, (∀ e ∈ (t.die d).tlb, e.sec = false) ∧ ∀ c, ∀ e ∈ (t.core d c).tlb, e.sec = false) ∧ Replied s t h 4 0#8) ∧
    (pa.toNat % 65536 = 0 → pa.toNat < 2 ^ 52 → fromSecure s.fw h = false → goes (.map h 1#8 pa) fun t =>
      t.fw.tableSec = s.fw.tableSec ∧ t.fw.tableNs = s.fw.tableNs ∧ t.mem = s.mem ∧ Replied s t h 4 5#8) ∧
    (∀ (die : Byte) x, die.toNat < 8 →
      let c : Ctx := { deviceCtx die.toNat (regionTid { sec := hdrSec h, rcb := pa }) with who := .firmware }
      let own := deviceCtx die.toNat (regionTid { sec := x.sec, rcb := pa })
      Offered s c none (hdrSec h) pa k x → AtHome s own .write (fun a => k + (a - pa.toNat)) pa.toNat 128 →
      (∀ i, i < 128 → KeepsWalk s own (fun y => ∃ j, j < 128 ∧ y = k + j) (pa.toNat + i)) → goes (.spawnMessage h pa die) fun t =>
        Launched s t { sec := x.sec, rcb := pa } x die.toNat none ∧ kept t 128 ∧
        natAt t.mem (k + 0x70) 8 = stateWord 1 1 0 x.nct % 2 ^ 64 ∧ Replied s t h 5 0#8) ∧
    (∀ r ∈ s.regions, r.parent = none → r.id = { sec := hdrSec h, rcb := pa } → goes (.abort h 0#8 pa) fun t =>
      (∃ q, t.region? r.id = some q ∧ q.aborting = true) ∧ t.mem = s.mem ∧ Replied s t h 6 0#8) ∧
    (let named := fun (r : Region) => r.rcb.fdom = pa.toNat
     let hidden := ∃ r ∈ s.regions, named r ∧ r.id.sec = true
     (fromSecure s.fw h = true ∨ ¬ hidden → goes (.abort h 1#8 pa) fun t =>
       (∀ r ∈ s.regions, named r → ∃ q, t.region? r.id = some q ∧ q.aborting = true) ∧ t.mem = s.mem ∧ Replied s t h 6 0#8) ∧
     (fromSecure s.fw h = false → hidden → goes (.abort h 1#8 pa) fun t =>
       t.regions = s.regions ∧ t.mem = s.mem ∧ Replied s t h 6 5#8)) ∧
    (pa = 0#64 ∨ here → goes (.health h pa) fun t => t.cur = s.cur ∧
      (pa = 0#64 → t.mem = s.mem) ∧
      (pa ≠ 0#64 → t.mem.readN k (errorLogs s).length = errorLogs s ∧ kept t (errorLogs s).length) ∧
      ∃ port g, g.dst = h.src ∧ g.tag = h.tag ∧ t.fw.linkOut = s.fw.linkOut ++
        [.command port g 0x8007 0#8 (List.replicate 7 0#8 ++ bytesOfNat 8 (statusWord s))]) ∧
    (∀ tb, here → curTable s.fw = some tb → goes (.retireRead h pa) fun t =>
      natAt t.mem k 8 = tb.gen.toNat ∧ natAt t.mem (k + 8) 4 = min tb.entries.length 512 ∧ t.cur = s.cur ∧
      Replied s t h 8 0#8) ∧
    (∀ nonce : BitVec 256, here → goes (.attest h nonce pa) fun t =>
      natAt t.mem k 32 = nonce.toNat ∧ t.cur = s.cur ∧ Replied s t h 9 0#8) ∧
    (∀ dies phase : Byte, phase.toNat < 2 →
      (dies = 0#8 → goes (.wsphase h dies phase) fun t => t.mem = s.mem ∧ Replied s t h 10 0#8) ∧
      (dies ≠ 0#8 → goes (.wsphase h dies phase) fun t => t.mem = s.mem ∧ t.fw.linkOut = s.fw.linkOut ∧
        ∀ d, d < 8 → dies.getLsbD d = true → ∃ q, (t.die d).wsQueue = (s.die d).wsQueue ++ [q] ∧
          q.sec = hdrSec h ∧ q.toOpen = phase.getLsbD 0 ∧ q.tid = none)))

/-! ### Decoding, steps and invariants -/

/-- R97: bit 31 of a word is C, bits [30:21] are OP, and every word with OP from 0x3E0 to 0x3FF is an FI word, whose d
is in bits [25:21]. Words of other formats, written out from their encodings (R98 to R106), decode to the
instructions they stand for. -/
def Obligations.DecodeWords : Prop :=
  (∀ (w : Word32) (ext : List Word32) (d : Decoded), decode w ext = .ok d → d.c = w.getLsbD 31) ∧
  (∀ w : Word32, opField w = (w.extractLsb' 21 10).toNat) ∧
  (∀ (w : Word32) (ext : List Word32), 0x3E0 ≤ opField w → (decode w ext).toOption =
    if w.getLsbD 20 then none
    else some { c := w.getLsbD 31, instr := .fli (w.extractLsb' 21 5) (w.extractLsb' 0 20), len := 1 }) ∧
  decodeTableWord 32 (1#1 ++ 0x001#10 ++ 3#5 ++ 5#5 ++ 2#5 ++ 2#2 ++ 0#1 ++ 0#3).toNat =
    some (.add .w16 3#5 5#5 (.reg 2#5)) ∧
  decodeTableWord 64 (7#32 ++ (1#1 ++ 0x001#10 ++ 3#5 ++ 5#5 ++ 0#5 ++ 0#2 ++ 1#1 ++ 0#3)).toNat =
    some (.add .w64 3#5 5#5 (.lit 7#32)) ∧
  decodeTableWord 32 (0#1 ++ 0x019#10 ++ 9#5 ++ 4#5 ++ 0x7F8#11).toNat = some (.ldd 9#5 4#5 0x7F8#11) ∧
  decodeTableWord 32 (1#1 ++ 0x02A#10 ++ 1#5 ++ 2#5 ++ 0x7FF#11).toNat = some (.beq 1#5 2#5 0x7FF#11) ∧
  decodeTableWord 32 (1#1 ++ 0x300#10 ++ 8#5 ++ 0x10#16).toNat = some (.csrr 8#5 0x10#16) ∧
  decodeTableWord 32 (1#1 ++ 0x020#8 ++ 1#2 ++ 6#5 ++ 7#5 ++ 8#5 ++ 3#3 ++ 7#3).toNat =
    some (.aadd (.sca 8#5) 6#5 7#5 3#3 7#3) ∧
  decodeTableWord 32 (1#1 ++ 0x105#10 ++ 6#5 ++ 7#5 ++ 0#5 ++ 0#3 ++ 1#3).toNat = some (.aredsum 6#5 7#5 0#3 1#3) ∧
  decodeTableWord 32 (1#1 ++ 0x182#10 ++ 3#2 ++ 1#2 ++ 1#1 ++ 4#5 ++ 5#5 ++ 1#1 ++ 0#5).toNat =
    some (.mmul .op true true 3#2 4#5 5#5) ∧
  decodeTableWord 32 (1#1 ++ 0x281#10 ++ 2#5 ++ 3#5 ++ 0#5 ++ 0#4 ++ 1#1 ++ 0#1).toNat = some (.srun true false 2#5 3#5) ∧
  decodeTableWord 32 (1#1 ++ 0x2C0#10 ++ 5#5 ++ 6#5 ++ 7#5 ++ 1#2 ++ 0#1 ++ 7#3).toNat =
    some (.amo .cas .w32 5#5 6#5 (.reg 7#5)) ∧
  decodeTableWord 32 (1#1 ++ 0x2C6#10 ++ 4#3 ++ 2#2 ++ 0#16).toNat = some (.fence .rel .pkg)

/-- R96 to R117: every well-formed instruction that words encode is encoded by words that decode to it, with every
operand, and its first word says how many there are. -/
def Obligations.DecodeEncode : Prop :=
  ∀ (c : Bool) (i : Instr), i.isWord = true → i.wf = true →
    ∃ w ext, encode c i = w :: ext ∧ decode w ext = .ok { c := c, instr := i, len := ext.length + 1 } ∧
      lengthOf map0 w = ext.length + 1 ∧ instrWords i = ext.length + 1

/-- R107, R108: a step whose turn is the current thread's is `exec` of the next instruction of its convoy; where it
begins one, of the first instruction of the convoy at its pc, whose words have been fetched and decoded. Time, the
agenda, the contents of caches, the rank of what the turn writes, and whether the turn's accesses may be held back are all
that a step adds. -/
def Obligations.StepRunsDecoded : Prop :=
  ∀ (s : State) (rest : List Turn) (hold : Bool), s.agenda = { dt := 0, who := .thread s.cur.tid, hold := hold } :: rest →
    s.powered = true → s.cur.status = .bound → s.cur.leaving = false → s.cur.preemptDue = false → s.cur.stall = none →
    s.cur.trapDue s = false → s.cur.each = none →
    let s0 := { s with agenda := rest, runner := .thread, holding := hold }
    (∀ i more, s.cur.convoy = i :: more → step s = ended (exec i s0)) ∧
    (∀ i more, s.cur.convoy = [] → s.unknownBusy = false → NoLoadHeld s → Convoy s (i :: more) →
      ∃ u, SameButCaches s0 u ∧
        step s = ended (exec i
          { u with cur := { s.cur with convoy := i :: more, convoyPc := s.cur.pc, entryCheck := false } }))

/-- R26, R62, R151, R413, R421: the state at power-up. No RESET has come and no region lives; features 2, 3 and 4 are
accepted, and none is in force; the registers a thread begins with hold the values their tables give. That memory lists
nothing is log entry 2, and the LFSRs of a slot that nothing owns are log entry 3 (DESIGN CHOICE). -/
def Obligations.ResetValues : Prop :=
  let s := State.reset
  s.fw.m = none ∧ s.fw.accepted = 0x1C#64 ∧ s.fw.inForce = 0#64 ∧ s.fw.secHost = 0xFFF#16 ∧ s.regions = [] ∧
  s.cycle = 0 ∧ s.mem.cells = [] ∧ s.cur.status ≠ .bound ∧
  (∀ d, (s.die d).openNs = false ∧ (s.die d).openSec = false ∧ (s.die d).faultSeq = 0 ∧ (s.die d).errSeq = 0 ∧
    (s.die d).vc = List.replicate 8 0#32) ∧
  s.cur.csr.mode = 0#64 ∧ s.cur.csr.flags = 0#64 ∧ s.cur.csr.epushdiv = 14#64 ∧ s.cur.csr.epulldiv = 24#64 ∧
  s.cur.csr.mswap = 32#64 ∧ (∀ r, (areg s r).isEmpty = true ∧ (areg s r).ty = 15#4 ∧ (areg s r).ext = [])

/-- Memory at power-up is in its canonical form (log entry 2: it lists nothing). -/
def Obligations.ResetIsSafe : Prop :=
 Safe State.reset

/-- Memory stays in its canonical form: whatever a step does, equal memories are equal data. -/
def Obligations.StepKeepsMemory : Prop :=
  ∀ s t : State, Safe s → step s = .next t → Safe t
end

