-- ==== Sys2Proof/Laws/Memory.lean ====
section
/-!
SUPPORT. Reading after writing, for sparse tables and for memory, and that every operation on memory keeps its canonical
form.
-/
namespace Sys2Proof.Machine

/-! ### Sparse tables -/

theorem spGet_spSet {α : Type} (d : α) (l : Sparse α) (k j : Nat) (v : α) :
    spGet d (spSet l k v) j = if j = k then v else spGet d l j := by
  induction l with
  | nil =>
    simp only [spSet, spGet]
    repeat' split
    all_goals first | rfl | omega
  | cons p r ih =>
    obtain ⟨i, w⟩ := p
    simp only [spSet]
    by_cases h1 : i = k
    · subst h1
      simp only [if_true, spGet]
      repeat' split
      all_goals first | rfl | omega
    · simp only [if_neg h1]
      by_cases h2 : k < i
      · simp only [if_pos h2, spGet]
        repeat' split
        all_goals first | rfl | omega
      · simp only [if_neg h2, spGet, ih]
        repeat' split
        all_goals first | rfl | omega

@[simp] theorem spGet_spSet_same {α : Type} (d : α) (l : Sparse α) (k : Nat) (v : α) : spGet d (spSet l k v) k = v := by
  simp [spGet_spSet]

theorem spGet_spSet_other {α : Type} (d : α) (l : Sparse α) {k j : Nat} (v : α) (h : j ≠ k) :
    spGet d (spSet l k v) j = spGet d l j := by simp [spGet_spSet, h]

@[simp] theorem spGet_nil {α : Type} (d : α) (k : Nat) : spGet d [] k = d := rfl

/-! ### Cells -/

/-- The canonical form, said of the list as a whole. -/
theorem cellsWf_iff (l : List Host.Cell) :
    cellsWf l = true ↔ l.Pairwise (fun p q => p.1 < q.1) ∧ ∀ p ∈ l, p.2 ≠ unlisted := by
  induction l with
  | nil => simp [cellsWf]
  | cons p r ih =>
    obtain ⟨j, v⟩ := p
    cases r with
    | nil => simp [cellsWf]
    | cons q r =>
      obtain ⟨k, w⟩ := q
      simp only [cellsWf, Bool.and_eq_true, decide_eq_true_eq, bne_iff_ne, ih, List.pairwise_cons, List.forall_mem_cons]
      constructor
      · rintro ⟨⟨h1, h2⟩, ⟨h3, h4⟩, h5, h6⟩
        exact ⟨⟨⟨h1, fun x hx => Nat.lt_trans h1 (h3 x hx)⟩, h3, h4⟩, h2, h5, h6⟩
      · rintro ⟨⟨⟨h1, _⟩, h3, h4⟩, h2, h5, h6⟩
        exact ⟨⟨h1, h2⟩, ⟨h3, h4⟩, h5, h6⟩

theorem cellsWf_cons (j : Nat) (v : Byte) (r : List Host.Cell) :
    cellsWf ((j, v) :: r) = true ↔ (∀ p ∈ r, j < p.1) ∧ v ≠ unlisted ∧ cellsWf r = true := by
  simp only [cellsWf_iff, List.pairwise_cons, List.forall_mem_cons]
  exact ⟨fun h => ⟨h.1.1, h.2.1, h.1.2, h.2.2⟩, fun h => ⟨⟨h.1, h.2.2.1⟩, h.2.1, h.2.2.2⟩⟩

/-- Below the first address of a list every address reads as unlisted. -/
theorem cellGet_below {l : List Host.Cell} {a : Nat} (h : ∀ p ∈ l, a < p.1) : cellGet l a = unlisted := by
  cases l with
  | nil => rfl
  | cons p r =>
    obtain ⟨j, v⟩ := p
    have hj : a < j := h (j, v) (by simp)
    simp only [cellGet, if_pos hj, if_neg (Nat.ne_of_gt hj)]

theorem mem_cellDel {l : List Host.Cell} {a : Nat} {p : Host.Cell} (h : p ∈ cellDel l a) : p ∈ l := by
  induction l with
  | nil => simp [cellDel] at h
  | cons q r ih =>
    obtain ⟨j, w⟩ := q
    simp only [cellDel] at h
    split at h
    · exact List.mem_cons_of_mem _ h
    · split at h
      · exact h
      · rcases List.mem_cons.mp h with h | h
        · exact h ▸ List.mem_cons_self
        · exact List.mem_cons_of_mem _ (ih h)

theorem mem_cellPut {l : List Host.Cell} {a : Nat} {v : Byte} {p : Host.Cell} (h : p ∈ cellPut l a v) :
    p = (a, v) ∨ p ∈ l := by
  induction l with
  | nil => left; simpa [cellPut] using h
  | cons q r ih =>
    obtain ⟨j, w⟩ := q
    simp only [cellPut] at h
    split at h
    · rcases List.mem_cons.mp h with h | h
      · exact .inl h
      · exact .inr (List.mem_cons_of_mem _ h)
    · split at h
      · rcases List.mem_cons.mp h with h | h
        · exact .inl h
        · exact .inr h
      · rcases List.mem_cons.mp h with h | h
        · exact .inr (h ▸ List.mem_cons_self)
        · rcases ih h with h | h
          · exact .inl h
          · exact .inr (List.mem_cons_of_mem _ h)

theorem cellsWf_cellDel {l : List Host.Cell} (a : Nat) (h : cellsWf l = true) : cellsWf (cellDel l a) = true := by
  induction l with
  | nil => rfl
  | cons q r ih =>
    obtain ⟨j, w⟩ := q
    have h0 := (cellsWf_cons j w r).mp h
    simp only [cellDel]
    split
    · exact h0.2.2
    · split
      · exact h
      · exact (cellsWf_cons ..).mpr ⟨fun p hp => h0.1 p (mem_cellDel hp), h0.2.1, ih h0.2.2⟩

theorem cellsWf_cellPut {l : List Host.Cell} (a : Nat) {v : Byte} (hv : v ≠ unlisted) (h : cellsWf l = true) :
    cellsWf (cellPut l a v) = true := by
  induction l with
  | nil => simpa [cellPut, cellsWf] using hv
  | cons q r ih =>
    obtain ⟨j, w⟩ := q
    have h0 := (cellsWf_cons j w r).mp h
    simp only [cellPut]
    split
    · next e => subst e; exact (cellsWf_cons ..).mpr ⟨h0.1, hv, h0.2.2⟩
    · split
      · next hlt =>
        refine (cellsWf_cons ..).mpr ⟨fun p hp => ?_, hv, h⟩
        rcases List.mem_cons.mp hp with hp | hp
        · subst hp; exact hlt
        · exact Nat.lt_trans hlt (h0.1 p hp)
      · refine (cellsWf_cons ..).mpr ⟨fun p hp => ?_, h0.2.1, ih h0.2.2⟩
        rcases mem_cellPut hp with hp | hp
        · subst hp; show j < a; omega
        · exact h0.1 p hp

/-- A write keeps the canonical form of cells. -/
theorem cellsWf_cellSet {l : List Host.Cell} (a : Nat) (v : Byte) (h : cellsWf l = true) :
    cellsWf (cellSet l a v) = true := by
  unfold cellSet
  split
  · exact cellsWf_cellDel a h
  · next hv => exact cellsWf_cellPut a hv h

theorem cellGet_cellDel {l : List Host.Cell} (a b : Nat) (h : cellsWf l = true) :
    cellGet (cellDel l a) b = if b = a then unlisted else cellGet l b := by
  induction l with
  | nil => simp [cellDel, cellGet]
  | cons q r ih =>
    obtain ⟨j, w⟩ := q
    have h0 := (cellsWf_cons j w r).mp h
    have hb : ∀ x, x ≤ j → cellGet r x = unlisted := fun x hx => cellGet_below fun p hp => Nat.lt_of_le_of_lt hx (h0.1 p hp)
    simp only [cellDel]
    by_cases h1 : j = a
    · subst h1
      simp only [if_true, cellGet]
      by_cases h2 : b = j
      · subst h2; simpa using hb b (Nat.le_refl _)
      · simp only [if_neg h2, if_neg (Ne.symm h2)]
        split
        · exact hb b (by omega)
        · rfl
    · simp only [if_neg h1]
      by_cases h2 : a < j
      · simp only [if_pos h2, cellGet]
        repeat' split
        all_goals first | rfl | omega
      · simp only [if_neg h2, cellGet, ih h0.2.2]
        repeat' split
        all_goals first | rfl | omega

theorem cellGet_cellPut (l : List Host.Cell) (a b : Nat) (v : Byte) :
    cellGet (cellPut l a v) b = if b = a then v else cellGet l b := by
  induction l with
  | nil => simp only [cellPut, cellGet]; repeat' split
           all_goals first | rfl | omega
  | cons q r ih =>
    obtain ⟨j, w⟩ := q
    simp only [cellPut]
    by_cases h1 : j = a
    · subst h1
      simp only [if_true, cellGet]
      repeat' split
      all_goals first | rfl | omega
    · simp only [if_neg h1]
      by_cases h2 : a < j
      · simp only [if_pos h2, cellGet]
        repeat' split
        all_goals first | rfl | omega
      · simp only [if_neg h2, cellGet, ih]
        repeat' split
        all_goals first | rfl | omega

/-- Reading after a write. -/
theorem cellGet_cellSet {l : List Host.Cell} (a b : Nat) (v : Byte) (h : cellsWf l = true) :
    cellGet (cellSet l a v) b = if b = a then v else cellGet l b := by
  unfold cellSet
  split
  · next hv => rw [cellGet_cellDel a b h, hv]
  · exact cellGet_cellPut l a b v

/-- Lists in canonical form that read alike are equal. -/
theorem cells_ext : ∀ {l m : List Host.Cell}, cellsWf l = true → cellsWf m = true →
    (∀ a, cellGet l a = cellGet m a) → l = m
  | [], [], _, _, _ => rfl
  | [], (k, w) :: m, _, hm, he => by
    have h0 := (cellsWf_cons k w m).mp hm
    have := he k
    simp only [cellGet, if_true] at this
    exact absurd this.symm h0.2.1
  | (j, v) :: l, [], hl, _, he => by
    have h0 := (cellsWf_cons j v l).mp hl
    have := he j
    simp only [cellGet, if_true] at this
    exact absurd this h0.2.1
  | (j, v) :: l, (k, w) :: m, hl, hm, he => by
    have h1 := (cellsWf_cons j v l).mp hl
    have h2 := (cellsWf_cons k w m).mp hm
    have hjk : j = k := by
      refine Classical.byContradiction fun hne => ?_
      rcases Nat.lt_or_gt_of_ne hne with h | h
      · have := he j
        simp only [cellGet, if_true, if_neg (Ne.symm hne), if_pos h] at this
        exact h1.2.1 this
      · have := he k
        simp only [cellGet, if_true, if_neg hne, if_pos h] at this
        exact h2.2.1 this.symm
    subst hjk
    have hvw : v = w := by simpa [cellGet] using he j
    subst hvw
    have : l = m := cells_ext h1.2.2 h2.2.2 fun a => by
      have := he a
      simp only [cellGet] at this
      split at this
      · next e =>
        subst e
        rw [cellGet_below h1.1, cellGet_below h2.1]
      · split at this
        · next hlt =>
          rw [cellGet_below fun p hp => Nat.lt_trans hlt (h1.1 p hp),
            cellGet_below fun p hp => Nat.lt_trans hlt (h2.1 p hp)]
        · exact this
    rw [this]

/-! ### Rising lists -/

theorem risingWf_iff (l : List Nat) : risingWf l = true ↔ l.Pairwise (· < ·) := by
  induction l with
  | nil => simp [risingWf]
  | cons j r ih =>
    cases r with
    | nil => simp [risingWf]
    | cons k r =>
      simp only [risingWf, Bool.and_eq_true, decide_eq_true_eq, ih, List.pairwise_cons, List.forall_mem_cons]
      constructor
      · rintro ⟨h1, h2, h3⟩; exact ⟨⟨h1, fun x hx => Nat.lt_trans h1 (h2 x hx)⟩, h2, h3⟩
      · rintro ⟨⟨h1, _⟩, h2, h3⟩; exact ⟨h1, h2, h3⟩

theorem mem_setAdd (l : List Nat) (k x : Nat) : x ∈ setAdd l k ↔ x = k ∨ x ∈ l := by
  induction l with
  | nil => simp [setAdd]
  | cons j r ih =>
    simp only [setAdd]
    split
    · next e => subst e; simp
    · split
      · simp
      · simp only [List.mem_cons, ih, or_left_comm]

theorem risingWf_setAdd {l : List Nat} (k : Nat) (h : risingWf l = true) : risingWf (setAdd l k) = true := by
  rw [risingWf_iff] at *
  induction l with
  | nil => simp [setAdd]
  | cons j r ih =>
    have h0 := List.pairwise_cons.mp h
    simp only [setAdd]
    split
    · exact h
    · split
      · next hlt =>
        refine List.pairwise_cons.mpr ⟨fun x hx => ?_, h⟩
        rcases List.mem_cons.mp hx with hx | hx
        · exact hx ▸ hlt
        · exact Nat.lt_trans hlt (h0.1 x hx)
      · refine List.pairwise_cons.mpr ⟨fun x hx => ?_, ih h0.2⟩
        rcases (mem_setAdd r k x).mp hx with hx | hx
        · omega
        · exact h0.1 x hx

theorem mem_of_mem_setDel {l : List Nat} {k x : Nat} (h : x ∈ setDel l k) : x ∈ l := by
  induction l with
  | nil => simp [setDel] at h
  | cons j r ih =>
    simp only [setDel] at h
    split at h
    · exact List.mem_cons_of_mem _ h
    · split at h
      · exact h
      · rcases List.mem_cons.mp h with h | h
        · exact h ▸ List.mem_cons_self
        · exact List.mem_cons_of_mem _ (ih h)

theorem mem_setDel {l : List Nat} (k x : Nat) (h : risingWf l = true) : x ∈ setDel l k ↔ x ≠ k ∧ x ∈ l := by
  rw [risingWf_iff] at h
  induction l with
  | nil => simp [setDel]
  | cons j r ih =>
    have h0 := List.pairwise_cons.mp h
    simp only [setDel]
    by_cases h1 : j = k
    · subst h1
      simp only [if_true, List.mem_cons]
      constructor
      · intro hx; exact ⟨Nat.ne_of_gt (h0.1 x hx), .inr hx⟩
      · rintro ⟨h2, h3 | h3⟩
        · exact absurd h3 h2
        · exact h3
    · simp only [if_neg h1]
      by_cases h2 : k < j
      · simp only [if_pos h2, List.mem_cons]
        constructor
        · rintro (hx | hx)
          · exact ⟨by omega, .inl hx⟩
          · exact ⟨by have := h0.1 x hx; omega, .inr hx⟩
        · exact fun hx => hx.2
      · simp only [if_neg h2, List.mem_cons, ih h0.2]
        constructor
        · rintro (hx | hx)
          · exact ⟨by omega, .inl hx⟩
          · exact ⟨hx.1, .inr hx.2⟩
        · rintro ⟨h3, h4 | h4⟩
          · exact .inl h4
          · exact .inr ⟨h3, h4⟩

theorem risingWf_setDel {l : List Nat} (k : Nat) (h : risingWf l = true) : risingWf (setDel l k) = true := by
  rw [risingWf_iff] at *
  induction l with
  | nil => simp [setDel]
  | cons j r ih =>
    have h0 := List.pairwise_cons.mp h
    simp only [setDel]
    split
    · exact h0.2
    · split
      · exact h
      · exact List.pairwise_cons.mpr ⟨fun x hx => h0.1 x (mem_of_mem_setDel hx), ih h0.2⟩

theorem risingWf_foldl_setDel (gs : List Nat) {l : List Nat} (h : risingWf l = true) :
    risingWf (gs.foldl setDel l) = true := by
  induction gs generalizing l with
  | nil => exact h
  | cons g r ih => exact ih (risingWf_setDel g h)

/-! ### Memory -/

theorem Memory.wf_iff (m : Memory) : m.wf = true ↔ cellsWf m.cells = true ∧ risingWf m.poison = true := by
  simp [Memory.wf]

@[simp] theorem Memory.reset_wf : Memory.reset.wf = true := rfl
@[simp] theorem Memory.reset_read (a : Nat) : Memory.reset.read a = unlisted := rfl
@[simp] theorem Memory.write_poison (m : Memory) (a : Nat) (v : Byte) : (m.write a v).poison = m.poison := rfl
@[simp] theorem Memory.setPoison_cells (m : Memory) (g : Nat) : (m.setPoison g).cells = m.cells := rfl
@[simp] theorem Memory.setPoison_read (m : Memory) (g a : Nat) : (m.setPoison g).read a = m.read a := rfl

theorem Memory.wf_write {m : Memory} (a : Nat) (v : Byte) (h : m.wf = true) : (m.write a v).wf = true := by
  rw [Memory.wf_iff] at *; exact ⟨cellsWf_cellSet a v h.1, h.2⟩

theorem Memory.read_write {m : Memory} (a b : Nat) (v : Byte) (h : m.wf = true) :
    (m.write a v).read b = if b = a then v else m.read b :=
  cellGet_cellSet a b v ((Memory.wf_iff m).mp h).1

theorem Memory.wf_writeRaw {m : Memory} (a : Nat) (v : List Byte) (h : m.wf = true) : (m.writeRaw a v).wf = true := by
  induction v generalizing m a with
  | nil => exact h
  | cons b r ih => exact ih (a + 1) (Memory.wf_write a b h)

@[simp] theorem Memory.writeRaw_poison (m : Memory) (a : Nat) (v : List Byte) : (m.writeRaw a v).poison = m.poison := by
  induction v generalizing m a with
  | nil => rfl
  | cons b r ih => simp [Memory.writeRaw, ih]

theorem Memory.read_writeRaw {m : Memory} (a x : Nat) (v : List Byte) (h : m.wf = true) :
    (m.writeRaw a v).read x = if a ≤ x ∧ x < a + v.length then v.getD (x - a) 0#8 else m.read x := by
  induction v generalizing m a with
  | nil => simp only [Memory.writeRaw, List.length_nil]; split <;> first | omega | rfl
  | cons b r ih =>
    simp only [Memory.writeRaw, ih (a + 1) (Memory.wf_write a b h), Memory.read_write a x b h, List.length_cons]
    by_cases h1 : x = a
    · subst h1
      rw [if_neg (by omega), if_pos rfl, if_pos (by omega)]
      simp
    · by_cases h2 : a + 1 ≤ x ∧ x < a + 1 + r.length
      · rw [if_pos h2, if_pos (by omega)]
        obtain ⟨n, rfl⟩ : ∃ n, x = a + 1 + n := ⟨x - (a + 1), by omega⟩
        have e1 : a + 1 + n - (a + 1) = n := by omega
        have e2 : a + 1 + n - a = n + 1 := by omega
        rw [e1, e2]
        simp
      · rw [if_neg h2, if_neg h1, if_neg (by omega)]

@[simp] theorem Memory.writeN_cells (m : Memory) (a : Nat) (v : List Byte) :
    (m.writeN a v).cells = (m.writeRaw a v).cells := rfl

theorem Memory.wf_writeN {m : Memory} (a : Nat) (v : List Byte) (h : m.wf = true) : (m.writeN a v).wf = true := by
  have h1 := (Memory.wf_iff _).mp (Memory.wf_writeRaw a v h)
  exact (Memory.wf_iff _).mpr ⟨h1.1, risingWf_foldl_setDel _ h1.2⟩

/-- Reading after bytes are written. -/
theorem Memory.read_writeN {m : Memory} (a x : Nat) (v : List Byte) (h : m.wf = true) :
    (m.writeN a v).read x = if a ≤ x ∧ x < a + v.length then v.getD (x - a) 0#8 else m.read x :=
  Memory.read_writeRaw a x v h

theorem Memory.wf_setPoison {m : Memory} (g : Nat) (h : m.wf = true) : (m.setPoison g).wf = true := by
  rw [Memory.wf_iff] at *; exact ⟨h.1, risingWf_setAdd g h.2⟩

theorem Memory.wf_foldl_setPoison (gs : List Nat) {m : Memory} (h : m.wf = true) :
    (gs.foldl Memory.setPoison m).wf = true := by
  induction gs generalizing m with
  | nil => exact h
  | cons g r ih => exact ih (Memory.wf_setPoison g h)

/-- Memories in canonical form that read alike and have the same poison are equal. -/
theorem Memory.ext_of_read {m n : Memory} (hm : m.wf = true) (hn : n.wf = true) (hr : ∀ a, m.read a = n.read a)
    (hp : m.poison = n.poison) : m = n := by
  have h1 := (Memory.wf_iff m).mp hm
  have h2 := (Memory.wf_iff n).mp hn
  obtain ⟨c, p⟩ := m
  obtain ⟨d, q⟩ := n
  simp only [Memory.mk.injEq]
  exact ⟨cells_ext h1.1 h2.1 hr, hp⟩

@[simp] theorem Memory.readN_length (m : Memory) (a n : Nat) : (m.readN a n).length = n := by
  induction n generalizing a with
  | zero => rfl
  | succ n ih => simp [Memory.readN, ih]

theorem Memory.readN_getD (m : Memory) (a : Nat) {n i : Nat} (h : i < n) : (m.readN a n).getD i 0#8 = m.read (a + i) := by
  induction n generalizing a i with
  | zero => omega
  | succ n ih =>
    cases i with
    | zero => simp [Memory.readN]
    | succ i =>
      have := ih (a + 1) (i := i) (by omega)
      have e : a + 1 + i = a + (i + 1) := by omega
      simp only [Memory.readN, List.getD_cons_succ, this, e]

/-! ### Dies -/

@[simp] theorem State.die_setDie_same (s : State) (d : Nat) (x : DieSt) : (s.setDie d x).die d = x := by
  simp [State.die, State.setDie]
theorem State.die_setDie_other (s : State) {d e : Nat} (x : DieSt) (h : e ≠ d) : (s.setDie d x).die e = s.die e := by
  simp [State.die, State.setDie, spGet_spSet, h]
theorem any_spSet {α : Type} (d v : α) (p : α → Bool) (hd : p d = false) (l : Sparse α) (k : Nat) (h : p v = p (spGet d l k)) :
    (spSet l k v).any (fun q => p q.2) = l.any (fun q => p q.2) := by
  induction l with
  | nil => simp [spSet, h, spGet, hd]
  | cons q r ih =>
    obtain ⟨j, w⟩ := q
    simp only [spSet, spGet] at *
    split
    · rename_i hj; simp only [hj, if_true] at h; simp [h]
    · rename_i hj
      simp only [hj, if_false] at h
      split
      · rename_i hk; simp only [hk, if_true] at h; simp [h, hd]
      · rename_i hk; simp only [hk, if_false] at h; simp [ih h]
/-- What some die has, some die has after one that has it as much as before was replaced. -/
theorem State.any_setDie (s : State) (d : Nat) (x : DieSt) (p : DieSt → Bool) (hr : p DieSt.reset = false)
    (h : p x = p (s.die d)) : (s.setDie d x).dies.any (fun q => p q.2) = s.dies.any (fun q => p q.2) :=
  any_spSet DieSt.reset x p hr s.dies d h
@[simp] theorem DieSt.core_setCore_same (x : DieSt) (c : Nat) (k : CoreSt) : (x.setCore c k).core c = k := by
  simp [DieSt.core, DieSt.setCore]
theorem DieSt.core_setCore_other (x : DieSt) {c e : Nat} (k : CoreSt) (h : e ≠ c) : (x.setCore c k).core e = x.core e := by
  simp [DieSt.core, DieSt.setCore, spGet_spSet, h]

end Sys2Proof.Machine
end

