-- ==== Sys2Proof/Laws/State.lean ====
section
/-!
SUPPORT. What each update of the state leaves unchanged, one lemma for each field, so that no proof unfolds a record
update.
-/
namespace Sys2Proof.Machine

/-! ### A die, a core, a slot replaced -/

@[simp] theorem State.setDie_cur (s : State) (d : Nat) (x : DieSt) : (s.setDie d x).cur = s.cur := rfl
@[simp] theorem State.setDie_others (s : State) (d : Nat) (x : DieSt) : (s.setDie d x).others = s.others := rfl
@[simp] theorem State.setDie_runner (s : State) (d : Nat) (x : DieSt) : (s.setDie d x).runner = s.runner := rfl
@[simp] theorem State.setDie_vp (s : State) (d : Nat) (x : DieSt) : (s.setDie d x).vp = s.vp := rfl
@[simp] theorem State.setDie_vpStop (s : State) (d : Nat) (x : DieSt) : (s.setDie d x).vpStop = s.vpStop := rfl
@[simp] theorem State.setDie_mem (s : State) (d : Nat) (x : DieSt) : (s.setDie d x).mem = s.mem := rfl
@[simp] theorem State.setDie_regions (s : State) (d : Nat) (x : DieSt) : (s.setDie d x).regions = s.regions := rfl
@[simp] theorem State.setDie_xwrites (s : State) (d : Nat) (x : DieSt) : (s.setDie d x).xwrites = s.xwrites := rfl
@[simp] theorem State.setDie_stores (s : State) (d : Nat) (x : DieSt) : (s.setDie d x).stores = s.stores := rfl
@[simp] theorem State.setDie_holding (s : State) (d : Nat) (x : DieSt) : (s.setDie d x).holding = s.holding := rfl
@[simp] theorem State.setDie_loads (s : State) (d : Nat) (x : DieSt) : (s.setDie d x).loads = s.loads := rfl
@[simp] theorem State.setDie_watches (s : State) (d : Nat) (x : DieSt) : (s.setDie d x).watches = s.watches := rfl
@[simp] theorem State.setDie_topks (s : State) (d : Nat) (x : DieSt) : (s.setDie d x).topks = s.topks := rfl
@[simp] theorem State.setDie_unres (s : State) (d : Nat) (x : DieSt) : (s.setDie d x).unres = s.unres := rfl
@[simp] theorem State.setDie_fw (s : State) (d : Nat) (x : DieSt) : (s.setDie d x).fw = s.fw := rfl
@[simp] theorem State.setDie_cycle (s : State) (d : Nat) (x : DieSt) : (s.setDie d x).cycle = s.cycle := rfl
@[simp] theorem State.setDie_powered (s : State) (d : Nat) (x : DieSt) : (s.setDie d x).powered = s.powered := rfl
@[simp] theorem State.setDie_agenda (s : State) (d : Nat) (x : DieSt) : (s.setDie d x).agenda = s.agenda := rfl
@[simp] theorem State.setDie_draws (s : State) (d : Nat) (x : DieSt) : (s.setDie d x).draws = s.draws := rfl
@[simp] theorem State.setDie_dies (s : State) (d : Nat) (x : DieSt) : (s.setDie d x).dies = spSet s.dies d x := rfl
@[simp] theorem State.setCore_cur (s : State) (d c : Nat) (x : CoreSt) : (s.setCore d c x).cur = s.cur := rfl
@[simp] theorem State.setCore_others (s : State) (d c : Nat) (x : CoreSt) : (s.setCore d c x).others = s.others := rfl
@[simp] theorem State.setCore_runner (s : State) (d c : Nat) (x : CoreSt) : (s.setCore d c x).runner = s.runner := rfl
@[simp] theorem State.setCore_vp (s : State) (d c : Nat) (x : CoreSt) : (s.setCore d c x).vp = s.vp := rfl
@[simp] theorem State.setCore_vpStop (s : State) (d c : Nat) (x : CoreSt) : (s.setCore d c x).vpStop = s.vpStop := rfl
@[simp] theorem State.setCore_mem (s : State) (d c : Nat) (x : CoreSt) : (s.setCore d c x).mem = s.mem := rfl
@[simp] theorem State.setCore_regions (s : State) (d c : Nat) (x : CoreSt) :
    (s.setCore d c x).regions = s.regions := rfl
@[simp] theorem State.setCore_xwrites (s : State) (d c : Nat) (x : CoreSt) :
    (s.setCore d c x).xwrites = s.xwrites := rfl
@[simp] theorem State.setCore_stores (s : State) (d c : Nat) (x : CoreSt) : (s.setCore d c x).stores = s.stores := rfl
@[simp] theorem State.setCore_holding (s : State) (d c : Nat) (x : CoreSt) :
    (s.setCore d c x).holding = s.holding := rfl
@[simp] theorem State.setCore_loads (s : State) (d c : Nat) (x : CoreSt) : (s.setCore d c x).loads = s.loads := rfl
@[simp] theorem State.setCore_watches (s : State) (d c : Nat) (x : CoreSt) :
    (s.setCore d c x).watches = s.watches := rfl
@[simp] theorem State.setCore_topks (s : State) (d c : Nat) (x : CoreSt) : (s.setCore d c x).topks = s.topks := rfl
@[simp] theorem State.setCore_unres (s : State) (d c : Nat) (x : CoreSt) : (s.setCore d c x).unres = s.unres := rfl
@[simp] theorem State.setCore_fw (s : State) (d c : Nat) (x : CoreSt) : (s.setCore d c x).fw = s.fw := rfl
@[simp] theorem State.setCore_cycle (s : State) (d c : Nat) (x : CoreSt) : (s.setCore d c x).cycle = s.cycle := rfl
@[simp] theorem State.setCore_powered (s : State) (d c : Nat) (x : CoreSt) :
    (s.setCore d c x).powered = s.powered := rfl
@[simp] theorem State.setCore_agenda (s : State) (d c : Nat) (x : CoreSt) : (s.setCore d c x).agenda = s.agenda := rfl
@[simp] theorem State.setCore_draws (s : State) (d c : Nat) (x : CoreSt) : (s.setCore d c x).draws = s.draws := rfl
@[simp] theorem State.setSlotAt_cur (s : State) (d c z : Nat) (x : Slot) : (s.setSlotAt d c z x).cur = s.cur := rfl
@[simp] theorem State.setSlotAt_others (s : State) (d c z : Nat) (x : Slot) :
    (s.setSlotAt d c z x).others = s.others := rfl
@[simp] theorem State.setSlotAt_runner (s : State) (d c z : Nat) (x : Slot) :
    (s.setSlotAt d c z x).runner = s.runner := rfl
@[simp] theorem State.setSlotAt_vp (s : State) (d c z : Nat) (x : Slot) : (s.setSlotAt d c z x).vp = s.vp := rfl
@[simp] theorem State.setSlotAt_vpStop (s : State) (d c z : Nat) (x : Slot) :
    (s.setSlotAt d c z x).vpStop = s.vpStop := rfl
@[simp] theorem State.setSlotAt_mem (s : State) (d c z : Nat) (x : Slot) : (s.setSlotAt d c z x).mem = s.mem := rfl
@[simp] theorem State.setSlotAt_regions (s : State) (d c z : Nat) (x : Slot) :
    (s.setSlotAt d c z x).regions = s.regions := rfl
@[simp] theorem State.setSlotAt_xwrites (s : State) (d c z : Nat) (x : Slot) :
    (s.setSlotAt d c z x).xwrites = s.xwrites := rfl
@[simp] theorem State.setSlotAt_stores (s : State) (d c z : Nat) (x : Slot) :
    (s.setSlotAt d c z x).stores = s.stores := rfl
@[simp] theorem State.setSlotAt_holding (s : State) (d c z : Nat) (x : Slot) :
    (s.setSlotAt d c z x).holding = s.holding := rfl
@[simp] theorem State.setSlotAt_loads (s : State) (d c z : Nat) (x : Slot) :
    (s.setSlotAt d c z x).loads = s.loads := rfl
@[simp] theorem State.setSlotAt_watches (s : State) (d c z : Nat) (x : Slot) :
    (s.setSlotAt d c z x).watches = s.watches := rfl
@[simp] theorem State.setSlotAt_topks (s : State) (d c z : Nat) (x : Slot) :
    (s.setSlotAt d c z x).topks = s.topks := rfl
@[simp] theorem State.setSlotAt_unres (s : State) (d c z : Nat) (x : Slot) :
    (s.setSlotAt d c z x).unres = s.unres := rfl
@[simp] theorem State.setSlotAt_fw (s : State) (d c z : Nat) (x : Slot) : (s.setSlotAt d c z x).fw = s.fw := rfl
@[simp] theorem State.setSlotAt_cycle (s : State) (d c z : Nat) (x : Slot) :
    (s.setSlotAt d c z x).cycle = s.cycle := rfl
@[simp] theorem State.setSlotAt_powered (s : State) (d c z : Nat) (x : Slot) :
    (s.setSlotAt d c z x).powered = s.powered := rfl
@[simp] theorem State.setSlotAt_agenda (s : State) (d c z : Nat) (x : Slot) :
    (s.setSlotAt d c z x).agenda = s.agenda := rfl
@[simp] theorem State.setSlotAt_draws (s : State) (d c z : Nat) (x : Slot) :
    (s.setSlotAt d c z x).draws = s.draws := rfl
@[simp] theorem State.setMySlot_cur (s : State) (x : Slot) : (s.setMySlot x).cur = s.cur := rfl
@[simp] theorem State.setMySlot_others (s : State) (x : Slot) : (s.setMySlot x).others = s.others := rfl
@[simp] theorem State.setMySlot_runner (s : State) (x : Slot) : (s.setMySlot x).runner = s.runner := rfl
@[simp] theorem State.setMySlot_vp (s : State) (x : Slot) : (s.setMySlot x).vp = s.vp := rfl
@[simp] theorem State.setMySlot_vpStop (s : State) (x : Slot) : (s.setMySlot x).vpStop = s.vpStop := rfl
@[simp] theorem State.setMySlot_mem (s : State) (x : Slot) : (s.setMySlot x).mem = s.mem := rfl
@[simp] theorem State.setMySlot_regions (s : State) (x : Slot) : (s.setMySlot x).regions = s.regions := rfl
@[simp] theorem State.setMySlot_xwrites (s : State) (x : Slot) : (s.setMySlot x).xwrites = s.xwrites := rfl
@[simp] theorem State.setMySlot_stores (s : State) (x : Slot) : (s.setMySlot x).stores = s.stores := rfl
@[simp] theorem State.setMySlot_holding (s : State) (x : Slot) : (s.setMySlot x).holding = s.holding := rfl
@[simp] theorem State.setMySlot_loads (s : State) (x : Slot) : (s.setMySlot x).loads = s.loads := rfl
@[simp] theorem State.setMySlot_watches (s : State) (x : Slot) : (s.setMySlot x).watches = s.watches := rfl
@[simp] theorem State.setMySlot_topks (s : State) (x : Slot) : (s.setMySlot x).topks = s.topks := rfl
@[simp] theorem State.setMySlot_unres (s : State) (x : Slot) : (s.setMySlot x).unres = s.unres := rfl
@[simp] theorem State.setMySlot_fw (s : State) (x : Slot) : (s.setMySlot x).fw = s.fw := rfl
@[simp] theorem State.setMySlot_cycle (s : State) (x : Slot) : (s.setMySlot x).cycle = s.cycle := rfl
@[simp] theorem State.setMySlot_powered (s : State) (x : Slot) : (s.setMySlot x).powered = s.powered := rfl
@[simp] theorem State.setMySlot_agenda (s : State) (x : Slot) : (s.setMySlot x).agenda = s.agenda := rfl
@[simp] theorem State.setMySlot_draws (s : State) (x : Slot) : (s.setMySlot x).draws = s.draws := rfl
@[simp] theorem DieSt.setCore_squares (x : DieSt) (c : Nat) (k : CoreSt) : (x.setCore c k).squares = x.squares := rfl
@[simp] theorem DieSt.setCore_slotTab (x : DieSt) (c : Nat) (k : CoreSt) : (x.setCore c k).slotTab = x.slotTab := rfl
@[simp] theorem DieSt.setCore_gangTab (x : DieSt) (c : Nat) (k : CoreSt) : (x.setCore c k).gangTab = x.gangTab := rfl
@[simp] theorem DieSt.setCore_tokens (x : DieSt) (c : Nat) (k : CoreSt) : (x.setCore c k).tokens = x.tokens := rfl
@[simp] theorem DieSt.setCore_configs (x : DieSt) (c : Nat) (k : CoreSt) : (x.setCore c k).configs = x.configs := rfl
@[simp] theorem DieSt.setCore_fabQueue (x : DieSt) (c : Nat) (k : CoreSt) :
    (x.setCore c k).fabQueue = x.fabQueue := rfl
@[simp] theorem DieSt.setCore_runs (x : DieSt) (c : Nat) (k : CoreSt) : (x.setCore c k).runs = x.runs := rfl
@[simp] theorem DieSt.setCore_cpyQueue (x : DieSt) (c : Nat) (k : CoreSt) :
    (x.setCore c k).cpyQueue = x.cpyQueue := rfl
@[simp] theorem DieSt.setCore_shadows (x : DieSt) (c : Nat) (k : CoreSt) : (x.setCore c k).shadows = x.shadows := rfl
@[simp] theorem DieSt.setCore_xslots (x : DieSt) (c : Nat) (k : CoreSt) : (x.setCore c k).xslots = x.xslots := rfl
@[simp] theorem DieSt.setCore_hand (x : DieSt) (c : Nat) (k : CoreSt) : (x.setCore c k).hand = x.hand := rfl
@[simp] theorem DieSt.setCore_expQueue (x : DieSt) (c : Nat) (k : CoreSt) :
    (x.setCore c k).expQueue = x.expQueue := rfl
@[simp] theorem DieSt.setCore_staged (x : DieSt) (c : Nat) (k : CoreSt) : (x.setCore c k).staged = x.staged := rfl
@[simp] theorem DieSt.setCore_faultSeq (x : DieSt) (c : Nat) (k : CoreSt) :
    (x.setCore c k).faultSeq = x.faultSeq := rfl
@[simp] theorem DieSt.setCore_faults (x : DieSt) (c : Nat) (k : CoreSt) : (x.setCore c k).faults = x.faults := rfl
@[simp] theorem DieSt.setCore_errSeq (x : DieSt) (c : Nat) (k : CoreSt) : (x.setCore c k).errSeq = x.errSeq := rfl
@[simp] theorem DieSt.setCore_errs (x : DieSt) (c : Nat) (k : CoreSt) : (x.setCore c k).errs = x.errs := rfl
@[simp] theorem DieSt.setCore_errLog (x : DieSt) (c : Nat) (k : CoreSt) : (x.setCore c k).errLog = x.errLog := rfl
@[simp] theorem DieSt.setCore_stopped (x : DieSt) (c : Nat) (k : CoreSt) : (x.setCore c k).stopped = x.stopped := rfl
@[simp] theorem DieSt.setCore_deadCores (x : DieSt) (c : Nat) (k : CoreSt) :
    (x.setCore c k).deadCores = x.deadCores := rfl
@[simp] theorem DieSt.setCore_openNs (x : DieSt) (c : Nat) (k : CoreSt) : (x.setCore c k).openNs = x.openNs := rfl
@[simp] theorem DieSt.setCore_openSec (x : DieSt) (c : Nat) (k : CoreSt) : (x.setCore c k).openSec = x.openSec := rfl
@[simp] theorem DieSt.setCore_wsQueue (x : DieSt) (c : Nat) (k : CoreSt) : (x.setCore c k).wsQueue = x.wsQueue := rfl
@[simp] theorem DieSt.setCore_tlb (x : DieSt) (c : Nat) (k : CoreSt) : (x.setCore c k).tlb = x.tlb := rfl
@[simp] theorem DieSt.setCore_vc (x : DieSt) (c : Nat) (k : CoreSt) : (x.setCore c k).vc = x.vc := rfl
@[simp] theorem DieSt.setCore_known (x : DieSt) (c : Nat) (k : CoreSt) : (x.setCore c k).known = x.known := rfl
@[simp] theorem DieSt.setCore_beacons (x : DieSt) (c : Nat) (k : CoreSt) : (x.setCore c k).beacons = x.beacons := rfl
@[simp] theorem DieSt.setCore_clockMoved (x : DieSt) (c : Nat) (k : CoreSt) :
    (x.setCore c k).clockMoved = x.clockMoved := rfl
@[simp] theorem DieSt.setCore_movedAt (x : DieSt) (c : Nat) (k : CoreSt) : (x.setCore c k).movedAt = x.movedAt := rfl
@[simp] theorem DieSt.setCore_l2 (x : DieSt) (c : Nat) (k : CoreSt) : (x.setCore c k).l2 = x.l2 := rfl
@[simp] theorem DieSt.setCore_rank (x : DieSt) (c : Nat) (k : CoreSt) : (x.setCore c k).rank = x.rank := rfl
@[simp] theorem DieSt.setCore_top (x : DieSt) (c : Nat) (k : CoreSt) : (x.setCore c k).top = x.top := rfl
@[simp] theorem DieSt.setCore_patchCalls (x : DieSt) (c : Nat) (k : CoreSt) :
    (x.setCore c k).patchCalls = x.patchCalls := rfl
@[simp] theorem DieSt.setCore_copies (x : DieSt) (c : Nat) (k : CoreSt) : (x.setCore c k).copies = x.copies := rfl
@[simp] theorem DieSt.setCore_arrivals (x : DieSt) (c : Nat) (k : CoreSt) :
    (x.setCore c k).arrivals = x.arrivals := rfl
@[simp] theorem DieSt.setCore_patchMem (x : DieSt) (c : Nat) (k : CoreSt) :
    (x.setCore c k).patchMem = x.patchMem := rfl
@[simp] theorem DieSt.setCore_cores (x : DieSt) (c : Nat) (k : CoreSt) :
    (x.setCore c k).cores = spSet x.cores c k := rfl
@[simp] theorem DieSt.setSquare_cores (x : DieSt) (q : Nat) (k : Square) : (x.setSquare q k).cores = x.cores := rfl
@[simp] theorem DieSt.setSquare_slotTab (x : DieSt) (q : Nat) (k : Square) :
    (x.setSquare q k).slotTab = x.slotTab := rfl
@[simp] theorem DieSt.setSquare_gangTab (x : DieSt) (q : Nat) (k : Square) :
    (x.setSquare q k).gangTab = x.gangTab := rfl
@[simp] theorem DieSt.setSquare_tokens (x : DieSt) (q : Nat) (k : Square) : (x.setSquare q k).tokens = x.tokens := rfl
@[simp] theorem DieSt.setSquare_configs (x : DieSt) (q : Nat) (k : Square) :
    (x.setSquare q k).configs = x.configs := rfl
@[simp] theorem DieSt.setSquare_fabQueue (x : DieSt) (q : Nat) (k : Square) :
    (x.setSquare q k).fabQueue = x.fabQueue := rfl
@[simp] theorem DieSt.setSquare_runs (x : DieSt) (q : Nat) (k : Square) : (x.setSquare q k).runs = x.runs := rfl
@[simp] theorem DieSt.setSquare_cpyQueue (x : DieSt) (q : Nat) (k : Square) :
    (x.setSquare q k).cpyQueue = x.cpyQueue := rfl
@[simp] theorem DieSt.setSquare_shadows (x : DieSt) (q : Nat) (k : Square) :
    (x.setSquare q k).shadows = x.shadows := rfl
@[simp] theorem DieSt.setSquare_xslots (x : DieSt) (q : Nat) (k : Square) : (x.setSquare q k).xslots = x.xslots := rfl
@[simp] theorem DieSt.setSquare_hand (x : DieSt) (q : Nat) (k : Square) : (x.setSquare q k).hand = x.hand := rfl
@[simp] theorem DieSt.setSquare_expQueue (x : DieSt) (q : Nat) (k : Square) :
    (x.setSquare q k).expQueue = x.expQueue := rfl
@[simp] theorem DieSt.setSquare_staged (x : DieSt) (q : Nat) (k : Square) : (x.setSquare q k).staged = x.staged := rfl
@[simp] theorem DieSt.setSquare_faultSeq (x : DieSt) (q : Nat) (k : Square) :
    (x.setSquare q k).faultSeq = x.faultSeq := rfl
@[simp] theorem DieSt.setSquare_faults (x : DieSt) (q : Nat) (k : Square) : (x.setSquare q k).faults = x.faults := rfl
@[simp] theorem DieSt.setSquare_errSeq (x : DieSt) (q : Nat) (k : Square) : (x.setSquare q k).errSeq = x.errSeq := rfl
@[simp] theorem DieSt.setSquare_errs (x : DieSt) (q : Nat) (k : Square) : (x.setSquare q k).errs = x.errs := rfl
@[simp] theorem DieSt.setSquare_errLog (x : DieSt) (q : Nat) (k : Square) : (x.setSquare q k).errLog = x.errLog := rfl
@[simp] theorem DieSt.setSquare_stopped (x : DieSt) (q : Nat) (k : Square) :
    (x.setSquare q k).stopped = x.stopped := rfl
@[simp] theorem DieSt.setSquare_deadCores (x : DieSt) (q : Nat) (k : Square) :
    (x.setSquare q k).deadCores = x.deadCores := rfl
@[simp] theorem DieSt.setSquare_openNs (x : DieSt) (q : Nat) (k : Square) : (x.setSquare q k).openNs = x.openNs := rfl
@[simp] theorem DieSt.setSquare_openSec (x : DieSt) (q : Nat) (k : Square) :
    (x.setSquare q k).openSec = x.openSec := rfl
@[simp] theorem DieSt.setSquare_wsQueue (x : DieSt) (q : Nat) (k : Square) :
    (x.setSquare q k).wsQueue = x.wsQueue := rfl
@[simp] theorem DieSt.setSquare_tlb (x : DieSt) (q : Nat) (k : Square) : (x.setSquare q k).tlb = x.tlb := rfl
@[simp] theorem DieSt.setSquare_vc (x : DieSt) (q : Nat) (k : Square) : (x.setSquare q k).vc = x.vc := rfl
@[simp] theorem DieSt.setSquare_known (x : DieSt) (q : Nat) (k : Square) : (x.setSquare q k).known = x.known := rfl
@[simp] theorem DieSt.setSquare_beacons (x : DieSt) (q : Nat) (k : Square) :
    (x.setSquare q k).beacons = x.beacons := rfl
@[simp] theorem DieSt.setSquare_clockMoved (x : DieSt) (q : Nat) (k : Square) :
    (x.setSquare q k).clockMoved = x.clockMoved := rfl
@[simp] theorem DieSt.setSquare_movedAt (x : DieSt) (q : Nat) (k : Square) :
    (x.setSquare q k).movedAt = x.movedAt := rfl
@[simp] theorem DieSt.setSquare_l2 (x : DieSt) (q : Nat) (k : Square) : (x.setSquare q k).l2 = x.l2 := rfl
@[simp] theorem DieSt.setSquare_rank (x : DieSt) (q : Nat) (k : Square) : (x.setSquare q k).rank = x.rank := rfl
@[simp] theorem DieSt.setSquare_top (x : DieSt) (q : Nat) (k : Square) : (x.setSquare q k).top = x.top := rfl
@[simp] theorem DieSt.setSquare_patchCalls (x : DieSt) (q : Nat) (k : Square) :
    (x.setSquare q k).patchCalls = x.patchCalls := rfl
@[simp] theorem DieSt.setSquare_copies (x : DieSt) (q : Nat) (k : Square) : (x.setSquare q k).copies = x.copies := rfl
@[simp] theorem DieSt.setSquare_arrivals (x : DieSt) (q : Nat) (k : Square) :
    (x.setSquare q k).arrivals = x.arrivals := rfl
@[simp] theorem DieSt.setSquare_patchMem (x : DieSt) (q : Nat) (k : Square) :
    (x.setSquare q k).patchMem = x.patchMem := rfl
@[simp] theorem DieSt.setSquare_squares (x : DieSt) (q : Nat) (k : Square) :
    (x.setSquare q k).squares = spSet x.squares q k := rfl
@[simp] theorem CoreSt.setSlot_banks (x : CoreSt) (z : Nat) (k : Slot) : (x.setSlot z k).banks = x.banks := rfl
@[simp] theorem CoreSt.setSlot_adc (x : CoreSt) (z : Nat) (k : Slot) : (x.setSlot z k).adc = x.adc := rfl
@[simp] theorem CoreSt.setSlot_l1d (x : CoreSt) (z : Nat) (k : Slot) : (x.setSlot z k).l1d = x.l1d := rfl
@[simp] theorem CoreSt.setSlot_l1i (x : CoreSt) (z : Nat) (k : Slot) : (x.setSlot z k).l1i = x.l1i := rfl
@[simp] theorem CoreSt.setSlot_tlb (x : CoreSt) (z : Nat) (k : Slot) : (x.setSlot z k).tlb = x.tlb := rfl
@[simp] theorem CoreSt.setSlot_mown (x : CoreSt) (z : Nat) (k : Slot) : (x.setSlot z k).mown = x.mown := rfl
@[simp] theorem CoreSt.setSlot_tiles (x : CoreSt) (z : Nat) (k : Slot) : (x.setSlot z k).tiles = x.tiles := rfl
@[simp] theorem CoreSt.setSlot_sets (x : CoreSt) (z : Nat) (k : Slot) : (x.setSlot z k).sets = x.sets := rfl
@[simp] theorem CoreSt.setSlot_rowBuf (x : CoreSt) (z : Nat) (k : Slot) : (x.setSlot z k).rowBuf = x.rowBuf := rfl
@[simp] theorem CoreSt.setSlot_sparse (x : CoreSt) (z : Nat) (k : Slot) : (x.setSlot z k).sparse = x.sparse := rfl
@[simp] theorem CoreSt.setSlot_accUser (x : CoreSt) (z : Nat) (k : Slot) : (x.setSlot z k).accUser = x.accUser := rfl
@[simp] theorem CoreSt.setSlot_queue (x : CoreSt) (z : Nat) (k : Slot) : (x.setSlot z k).queue = x.queue := rfl
@[simp] theorem CoreSt.setSlot_nextEntry (x : CoreSt) (z : Nat) (k : Slot) :
    (x.setSlot z k).nextEntry = x.nextEntry := rfl
@[simp] theorem CoreSt.setSlot_edge (x : CoreSt) (z : Nat) (k : Slot) : (x.setSlot z k).edge = x.edge := rfl
@[simp] theorem CoreSt.setSlot_mqStatus (x : CoreSt) (z : Nat) (k : Slot) :
    (x.setSlot z k).mqStatus = x.mqStatus := rfl
@[simp] theorem CoreSt.setSlot_slots (x : CoreSt) (z : Nat) (k : Slot) :
    (x.setSlot z k).slots = spSet x.slots z k := rfl

/-! ### The current thread changed -/

@[simp] theorem State.setReg_others (s : State) (r : Reg) (x : Word64) : (s.setReg r x).others = s.others := rfl
@[simp] theorem State.setReg_runner (s : State) (r : Reg) (x : Word64) : (s.setReg r x).runner = s.runner := rfl
@[simp] theorem State.setReg_vp (s : State) (r : Reg) (x : Word64) : (s.setReg r x).vp = s.vp := rfl
@[simp] theorem State.setReg_vpStop (s : State) (r : Reg) (x : Word64) : (s.setReg r x).vpStop = s.vpStop := rfl
@[simp] theorem State.setReg_mem (s : State) (r : Reg) (x : Word64) : (s.setReg r x).mem = s.mem := rfl
@[simp] theorem State.setReg_dies (s : State) (r : Reg) (x : Word64) : (s.setReg r x).dies = s.dies := rfl
@[simp] theorem State.setReg_regions (s : State) (r : Reg) (x : Word64) : (s.setReg r x).regions = s.regions := rfl
@[simp] theorem State.setReg_xwrites (s : State) (r : Reg) (x : Word64) : (s.setReg r x).xwrites = s.xwrites := rfl
@[simp] theorem State.setReg_stores (s : State) (r : Reg) (x : Word64) : (s.setReg r x).stores = s.stores := rfl
@[simp] theorem State.setReg_holding (s : State) (r : Reg) (x : Word64) : (s.setReg r x).holding = s.holding := rfl
@[simp] theorem State.setReg_loads (s : State) (r : Reg) (x : Word64) : (s.setReg r x).loads = s.loads := rfl
@[simp] theorem State.setReg_watches (s : State) (r : Reg) (x : Word64) : (s.setReg r x).watches = s.watches := rfl
@[simp] theorem State.setReg_topks (s : State) (r : Reg) (x : Word64) : (s.setReg r x).topks = s.topks := rfl
@[simp] theorem State.setReg_unres (s : State) (r : Reg) (x : Word64) : (s.setReg r x).unres = s.unres := rfl
@[simp] theorem State.setReg_fw (s : State) (r : Reg) (x : Word64) : (s.setReg r x).fw = s.fw := rfl
@[simp] theorem State.setReg_cycle (s : State) (r : Reg) (x : Word64) : (s.setReg r x).cycle = s.cycle := rfl
@[simp] theorem State.setReg_powered (s : State) (r : Reg) (x : Word64) : (s.setReg r x).powered = s.powered := rfl
@[simp] theorem State.setReg_agenda (s : State) (r : Reg) (x : Word64) : (s.setReg r x).agenda = s.agenda := rfl
@[simp] theorem State.setReg_draws (s : State) (r : Reg) (x : Word64) : (s.setReg r x).draws = s.draws := rfl
@[simp] theorem State.setReg_cur (s : State) (r : Reg) (x : Word64) : (s.setReg r x).cur = s.cur.setReg r x := rfl
@[simp] theorem Thread.setReg_tid (t : Thread) (r : Reg) (x : Word64) :
    (t.setReg r x).tid = t.tid := by unfold Thread.setReg; split <;> rfl
@[simp] theorem Thread.setReg_status (t : Thread) (r : Reg) (x : Word64) :
    (t.setReg r x).status = t.status := by unfold Thread.setReg; split <;> rfl
@[simp] theorem Thread.setReg_started (t : Thread) (r : Reg) (x : Word64) :
    (t.setReg r x).started = t.started := by unfold Thread.setReg; split <;> rfl
@[simp] theorem Thread.setReg_pc (t : Thread) (r : Reg) (x : Word64) :
    (t.setReg r x).pc = t.pc := by unfold Thread.setReg; split <;> rfl
@[simp] theorem Thread.setReg_csr (t : Thread) (r : Reg) (x : Word64) :
    (t.setReg r x).csr = t.csr := by unfold Thread.setReg; split <;> rfl
@[simp] theorem Thread.setReg_dmapAddr (t : Thread) (r : Reg) (x : Word64) :
    (t.setReg r x).dmapAddr = t.dmapAddr := by unfold Thread.setReg; split <;> rfl
@[simp] theorem Thread.setReg_dmapTab (t : Thread) (r : Reg) (x : Word64) :
    (t.setReg r x).dmapTab = t.dmapTab := by unfold Thread.setReg; split <;> rfl
@[simp] theorem Thread.setReg_lastCbld (t : Thread) (r : Reg) (x : Word64) :
    (t.setReg r x).lastCbld = t.lastCbld := by unfold Thread.setReg; split <;> rfl
@[simp] theorem Thread.setReg_egAddr (t : Thread) (r : Reg) (x : Word64) :
    (t.setReg r x).egAddr = t.egAddr := by unfold Thread.setReg; split <;> rfl
@[simp] theorem Thread.setReg_epAddr (t : Thread) (r : Reg) (x : Word64) :
    (t.setReg r x).epAddr = t.epAddr := by unfold Thread.setReg; split <;> rfl
@[simp] theorem Thread.setReg_epCfg (t : Thread) (r : Reg) (x : Word64) :
    (t.setReg r x).epCfg = t.epCfg := by unfold Thread.setReg; split <;> rfl
@[simp] theorem Thread.setReg_force (t : Thread) (r : Reg) (x : Word64) :
    (t.setReg r x).force = t.force := by unfold Thread.setReg; split <;> rfl
@[simp] theorem Thread.setReg_place (t : Thread) (r : Reg) (x : Word64) :
    (t.setReg r x).place = t.place := by unfold Thread.setReg; split <;> rfl
@[simp] theorem Thread.setReg_convoy (t : Thread) (r : Reg) (x : Word64) :
    (t.setReg r x).convoy = t.convoy := by unfold Thread.setReg; split <;> rfl
@[simp] theorem Thread.setReg_entryCheck (t : Thread) (r : Reg) (x : Word64) :
    (t.setReg r x).entryCheck = t.entryCheck := by unfold Thread.setReg; split <;> rfl
@[simp] theorem Thread.setReg_convoyPc (t : Thread) (r : Reg) (x : Word64) :
    (t.setReg r x).convoyPc = t.convoyPc := by unfold Thread.setReg; split <;> rfl
@[simp] theorem Thread.setReg_stall (t : Thread) (r : Reg) (x : Word64) :
    (t.setReg r x).stall = t.stall := by unfold Thread.setReg; split <;> rfl
@[simp] theorem Thread.setReg_park (t : Thread) (r : Reg) (x : Word64) :
    (t.setReg r x).park = t.park := by unfold Thread.setReg; split <;> rfl
@[simp] theorem Thread.setReg_each (t : Thread) (r : Reg) (x : Word64) :
    (t.setReg r x).each = t.each := by unfold Thread.setReg; split <;> rfl
@[simp] theorem Thread.setReg_pendRegs (t : Thread) (r : Reg) (x : Word64) :
    (t.setReg r x).pendRegs = t.pendRegs := by unfold Thread.setReg; split <;> rfl
@[simp] theorem Thread.setReg_lateRegs (t : Thread) (r : Reg) (x : Word64) :
    (t.setReg r x).lateRegs = t.lateRegs := by unfold Thread.setReg; split <;> rfl
@[simp] theorem Thread.setReg_lateFlags (t : Thread) (r : Reg) (x : Word64) :
    (t.setReg r x).lateFlags = t.lateFlags := by unfold Thread.setReg; split <;> rfl
@[simp] theorem Thread.setReg_yieldTrap (t : Thread) (r : Reg) (x : Word64) :
    (t.setReg r x).yieldTrap = t.yieldTrap := by unfold Thread.setReg; split <;> rfl
@[simp] theorem Thread.setReg_leaving (t : Thread) (r : Reg) (x : Word64) :
    (t.setReg r x).leaving = t.leaving := by unfold Thread.setReg; split <;> rfl
@[simp] theorem Thread.setReg_yielding (t : Thread) (r : Reg) (x : Word64) :
    (t.setReg r x).yielding = t.yielding := by unfold Thread.setReg; split <;> rfl
@[simp] theorem Thread.setReg_semTaken (t : Thread) (r : Reg) (x : Word64) :
    (t.setReg r x).semTaken = t.semTaken := by unfold Thread.setReg; split <;> rfl
@[simp] theorem Thread.setReg_wsPending (t : Thread) (r : Reg) (x : Word64) :
    (t.setReg r x).wsPending = t.wsPending := by unfold Thread.setReg; split <;> rfl
@[simp] theorem Thread.setReg_wsDone (t : Thread) (r : Reg) (x : Word64) :
    (t.setReg r x).wsDone = t.wsDone := by unfold Thread.setReg; split <;> rfl
@[simp] theorem Thread.setReg_clk (t : Thread) (r : Reg) (x : Word64) :
    (t.setReg r x).clk = t.clk := by unfold Thread.setReg; split <;> rfl
@[simp] theorem Thread.setReg_tail (t : Thread) (r : Reg) (x : Word64) :
    (t.setReg r x).tail = t.tail := by unfold Thread.setReg; split <;> rfl
@[simp] theorem Thread.setReg_acq (t : Thread) (r : Reg) (x : Word64) :
    (t.setReg r x).acq = t.acq := by unfold Thread.setReg; split <;> rfl
@[simp] theorem Thread.setReg_everHeld (t : Thread) (r : Reg) (x : Word64) :
    (t.setReg r x).everHeld = t.everHeld := by unfold Thread.setReg; split <;> rfl
@[simp] theorem Thread.setReg_lost (t : Thread) (r : Reg) (x : Word64) :
    (t.setReg r x).lost = t.lost := by unfold Thread.setReg; split <;> rfl
@[simp] theorem Thread.setReg_endRec (t : Thread) (r : Reg) (x : Word64) :
    (t.setReg r x).endRec = t.endRec := by unfold Thread.setReg; split <;> rfl
@[simp] theorem Thread.orFlags_tid (t : Thread) (f : Flg) : (t.orFlags f).tid = t.tid := rfl
@[simp] theorem Thread.orFlags_status (t : Thread) (f : Flg) : (t.orFlags f).status = t.status := rfl
@[simp] theorem Thread.orFlags_started (t : Thread) (f : Flg) : (t.orFlags f).started = t.started := rfl
@[simp] theorem Thread.orFlags_pc (t : Thread) (f : Flg) : (t.orFlags f).pc = t.pc := rfl
@[simp] theorem Thread.orFlags_s (t : Thread) (f : Flg) : (t.orFlags f).s = t.s := rfl
@[simp] theorem Thread.orFlags_dmapAddr (t : Thread) (f : Flg) : (t.orFlags f).dmapAddr = t.dmapAddr := rfl
@[simp] theorem Thread.orFlags_dmapTab (t : Thread) (f : Flg) : (t.orFlags f).dmapTab = t.dmapTab := rfl
@[simp] theorem Thread.orFlags_lastCbld (t : Thread) (f : Flg) : (t.orFlags f).lastCbld = t.lastCbld := rfl
@[simp] theorem Thread.orFlags_egAddr (t : Thread) (f : Flg) : (t.orFlags f).egAddr = t.egAddr := rfl
@[simp] theorem Thread.orFlags_epAddr (t : Thread) (f : Flg) : (t.orFlags f).epAddr = t.epAddr := rfl
@[simp] theorem Thread.orFlags_epCfg (t : Thread) (f : Flg) : (t.orFlags f).epCfg = t.epCfg := rfl
@[simp] theorem Thread.orFlags_force (t : Thread) (f : Flg) : (t.orFlags f).force = t.force := rfl
@[simp] theorem Thread.orFlags_place (t : Thread) (f : Flg) : (t.orFlags f).place = t.place := rfl
@[simp] theorem Thread.orFlags_convoy (t : Thread) (f : Flg) : (t.orFlags f).convoy = t.convoy := rfl
@[simp] theorem Thread.orFlags_entryCheck (t : Thread) (f : Flg) : (t.orFlags f).entryCheck = t.entryCheck := rfl
@[simp] theorem Thread.orFlags_convoyPc (t : Thread) (f : Flg) : (t.orFlags f).convoyPc = t.convoyPc := rfl
@[simp] theorem Thread.orFlags_stall (t : Thread) (f : Flg) : (t.orFlags f).stall = t.stall := rfl
@[simp] theorem Thread.orFlags_park (t : Thread) (f : Flg) : (t.orFlags f).park = t.park := rfl
@[simp] theorem Thread.orFlags_each (t : Thread) (f : Flg) : (t.orFlags f).each = t.each := rfl
@[simp] theorem Thread.orFlags_pendRegs (t : Thread) (f : Flg) : (t.orFlags f).pendRegs = t.pendRegs := rfl
@[simp] theorem Thread.orFlags_lateRegs (t : Thread) (f : Flg) : (t.orFlags f).lateRegs = t.lateRegs := rfl
@[simp] theorem Thread.orFlags_lateFlags (t : Thread) (f : Flg) : (t.orFlags f).lateFlags = t.lateFlags := rfl
@[simp] theorem Thread.orFlags_yieldTrap (t : Thread) (f : Flg) : (t.orFlags f).yieldTrap = t.yieldTrap := rfl
@[simp] theorem Thread.orFlags_leaving (t : Thread) (f : Flg) : (t.orFlags f).leaving = t.leaving := rfl
@[simp] theorem Thread.orFlags_yielding (t : Thread) (f : Flg) : (t.orFlags f).yielding = t.yielding := rfl
@[simp] theorem Thread.orFlags_semTaken (t : Thread) (f : Flg) : (t.orFlags f).semTaken = t.semTaken := rfl
@[simp] theorem Thread.orFlags_wsPending (t : Thread) (f : Flg) : (t.orFlags f).wsPending = t.wsPending := rfl
@[simp] theorem Thread.orFlags_wsDone (t : Thread) (f : Flg) : (t.orFlags f).wsDone = t.wsDone := rfl
@[simp] theorem Thread.orFlags_clk (t : Thread) (f : Flg) : (t.orFlags f).clk = t.clk := rfl
@[simp] theorem Thread.orFlags_tail (t : Thread) (f : Flg) : (t.orFlags f).tail = t.tail := rfl
@[simp] theorem Thread.orFlags_acq (t : Thread) (f : Flg) : (t.orFlags f).acq = t.acq := rfl
@[simp] theorem Thread.orFlags_everHeld (t : Thread) (f : Flg) : (t.orFlags f).everHeld = t.everHeld := rfl
@[simp] theorem Thread.orFlags_lost (t : Thread) (f : Flg) : (t.orFlags f).lost = t.lost := rfl
@[simp] theorem Thread.orFlags_endRec (t : Thread) (f : Flg) : (t.orFlags f).endRec = t.endRec := rfl
@[simp] theorem Thread.orFlags_csr (t : Thread) (f : Flg) : (t.orFlags f).csr = t.csr.orFlags f := rfl
@[simp] theorem Csrs.orFlags_mode (c : Csrs) (f : Flg) : (c.orFlags f).mode = c.mode := rfl
@[simp] theorem Csrs.orFlags_exmsel (c : Csrs) (f : Flg) : (c.orFlags f).exmsel = c.exmsel := rfl
@[simp] theorem Csrs.orFlags_astart (c : Csrs) (f : Flg) : (c.orFlags f).astart = c.astart := rfl
@[simp] theorem Csrs.orFlags_qgrant (c : Csrs) (f : Flg) : (c.orFlags f).qgrant = c.qgrant := rfl
@[simp] theorem Csrs.orFlags_cbase (c : Csrs) (f : Flg) : (c.orFlags f).cbase = c.cbase := rfl
@[simp] theorem Csrs.orFlags_seed (c : Csrs) (f : Flg) : (c.orFlags f).seed = c.seed := rfl
@[simp] theorem Csrs.orFlags_tcause (c : Csrs) (f : Flg) : (c.orFlags f).tcause = c.tcause := rfl
@[simp] theorem Csrs.orFlags_tpc (c : Csrs) (f : Flg) : (c.orFlags f).tpc = c.tpc := rfl
@[simp] theorem Csrs.orFlags_tval (c : Csrs) (f : Flg) : (c.orFlags f).tval = c.tval := rfl
@[simp] theorem Csrs.orFlags_tscratch (c : Csrs) (f : Flg) : (c.orFlags f).tscratch = c.tscratch := rfl
@[simp] theorem Csrs.orFlags_tvec (c : Csrs) (f : Flg) : (c.orFlags f).tvec = c.tvec := rfl
@[simp] theorem Csrs.orFlags_pcnt (c : Csrs) (f : Flg) : (c.orFlags f).pcnt = c.pcnt := rfl
@[simp] theorem Csrs.orFlags_yreq (c : Csrs) (f : Flg) : (c.orFlags f).yreq = c.yreq := rfl
@[simp] theorem Csrs.orFlags_count (c : Csrs) (f : Flg) : (c.orFlags f).count = c.count := rfl
@[simp] theorem Csrs.orFlags_epushdiv (c : Csrs) (f : Flg) : (c.orFlags f).epushdiv = c.epushdiv := rfl
@[simp] theorem Csrs.orFlags_epulldiv (c : Csrs) (f : Flg) : (c.orFlags f).epulldiv = c.epulldiv := rfl
@[simp] theorem Csrs.orFlags_mswap (c : Csrs) (f : Flg) : (c.orFlags f).mswap = c.mswap := rfl
@[simp] theorem Csrs.orFlags_instret (c : Csrs) (f : Flg) : (c.orFlags f).instret = c.instret := rfl
@[simp] theorem Csrs.orFlags_flags (c : Csrs) (f : Flg) : (c.orFlags f).flags = c.flags ||| flgWord f := rfl
@[simp] theorem Thread.dropWork_tid (t : Thread) : (t.dropWork).tid = t.tid := rfl
@[simp] theorem Thread.dropWork_status (t : Thread) : (t.dropWork).status = t.status := rfl
@[simp] theorem Thread.dropWork_started (t : Thread) : (t.dropWork).started = t.started := rfl
@[simp] theorem Thread.dropWork_pc (t : Thread) : (t.dropWork).pc = t.pc := rfl
@[simp] theorem Thread.dropWork_s (t : Thread) : (t.dropWork).s = t.s := rfl
@[simp] theorem Thread.dropWork_csr (t : Thread) : (t.dropWork).csr = t.csr := rfl
@[simp] theorem Thread.dropWork_dmapAddr (t : Thread) : (t.dropWork).dmapAddr = t.dmapAddr := rfl
@[simp] theorem Thread.dropWork_dmapTab (t : Thread) : (t.dropWork).dmapTab = t.dmapTab := rfl
@[simp] theorem Thread.dropWork_lastCbld (t : Thread) : (t.dropWork).lastCbld = t.lastCbld := rfl
@[simp] theorem Thread.dropWork_egAddr (t : Thread) : (t.dropWork).egAddr = t.egAddr := rfl
@[simp] theorem Thread.dropWork_epAddr (t : Thread) : (t.dropWork).epAddr = t.epAddr := rfl
@[simp] theorem Thread.dropWork_epCfg (t : Thread) : (t.dropWork).epCfg = t.epCfg := rfl
@[simp] theorem Thread.dropWork_force (t : Thread) : (t.dropWork).force = t.force := rfl
@[simp] theorem Thread.dropWork_place (t : Thread) : (t.dropWork).place = t.place := rfl
@[simp] theorem Thread.dropWork_entryCheck (t : Thread) : (t.dropWork).entryCheck = t.entryCheck := rfl
@[simp] theorem Thread.dropWork_convoyPc (t : Thread) : (t.dropWork).convoyPc = t.convoyPc := rfl
@[simp] theorem Thread.dropWork_pendRegs (t : Thread) : (t.dropWork).pendRegs = t.pendRegs := rfl
@[simp] theorem Thread.dropWork_lateRegs (t : Thread) : (t.dropWork).lateRegs = t.lateRegs := rfl
@[simp] theorem Thread.dropWork_lateFlags (t : Thread) : (t.dropWork).lateFlags = t.lateFlags := rfl
@[simp] theorem Thread.dropWork_yieldTrap (t : Thread) : (t.dropWork).yieldTrap = t.yieldTrap := rfl
@[simp] theorem Thread.dropWork_leaving (t : Thread) : (t.dropWork).leaving = t.leaving := rfl
@[simp] theorem Thread.dropWork_semTaken (t : Thread) : (t.dropWork).semTaken = t.semTaken := rfl
@[simp] theorem Thread.dropWork_wsPending (t : Thread) : (t.dropWork).wsPending = t.wsPending := rfl
@[simp] theorem Thread.dropWork_wsDone (t : Thread) : (t.dropWork).wsDone = t.wsDone := rfl
@[simp] theorem Thread.dropWork_clk (t : Thread) : (t.dropWork).clk = t.clk := rfl
@[simp] theorem Thread.dropWork_everHeld (t : Thread) : (t.dropWork).everHeld = t.everHeld := rfl
@[simp] theorem Thread.dropWork_acq (t : Thread) : (t.dropWork).acq = t.acq := rfl
@[simp] theorem Thread.dropWork_lost (t : Thread) : (t.dropWork).lost = t.lost := rfl
@[simp] theorem Thread.dropWork_endRec (t : Thread) : (t.dropWork).endRec = t.endRec := rfl
@[simp] theorem Thread.enterHandler_tid (t : Thread) (cause axis : Nat) (v r : Word64) :
    (t.enterHandler cause axis v r).tid = t.tid := rfl
@[simp] theorem Thread.enterHandler_status (t : Thread) (cause axis : Nat) (v r : Word64) :
    (t.enterHandler cause axis v r).status = t.status := rfl
@[simp] theorem Thread.enterHandler_started (t : Thread) (cause axis : Nat) (v r : Word64) :
    (t.enterHandler cause axis v r).started = t.started := rfl
@[simp] theorem Thread.enterHandler_s (t : Thread) (cause axis : Nat) (v r : Word64) :
    (t.enterHandler cause axis v r).s = t.s := rfl
@[simp] theorem Thread.enterHandler_dmapAddr (t : Thread) (cause axis : Nat) (v r : Word64) :
    (t.enterHandler cause axis v r).dmapAddr = t.dmapAddr := rfl
@[simp] theorem Thread.enterHandler_dmapTab (t : Thread) (cause axis : Nat) (v r : Word64) :
    (t.enterHandler cause axis v r).dmapTab = t.dmapTab := rfl
@[simp] theorem Thread.enterHandler_lastCbld (t : Thread) (cause axis : Nat) (v r : Word64) :
    (t.enterHandler cause axis v r).lastCbld = t.lastCbld := rfl
@[simp] theorem Thread.enterHandler_egAddr (t : Thread) (cause axis : Nat) (v r : Word64) :
    (t.enterHandler cause axis v r).egAddr = t.egAddr := rfl
@[simp] theorem Thread.enterHandler_epAddr (t : Thread) (cause axis : Nat) (v r : Word64) :
    (t.enterHandler cause axis v r).epAddr = t.epAddr := rfl
@[simp] theorem Thread.enterHandler_epCfg (t : Thread) (cause axis : Nat) (v r : Word64) :
    (t.enterHandler cause axis v r).epCfg = t.epCfg := rfl
@[simp] theorem Thread.enterHandler_force (t : Thread) (cause axis : Nat) (v r : Word64) :
    (t.enterHandler cause axis v r).force = t.force := rfl
@[simp] theorem Thread.enterHandler_place (t : Thread) (cause axis : Nat) (v r : Word64) :
    (t.enterHandler cause axis v r).place = t.place := rfl
@[simp] theorem Thread.enterHandler_convoyPc (t : Thread) (cause axis : Nat) (v r : Word64) :
    (t.enterHandler cause axis v r).convoyPc = t.convoyPc := rfl
@[simp] theorem Thread.enterHandler_pendRegs (t : Thread) (cause axis : Nat) (v r : Word64) :
    (t.enterHandler cause axis v r).pendRegs = t.pendRegs := rfl
@[simp] theorem Thread.enterHandler_lateRegs (t : Thread) (cause axis : Nat) (v r : Word64) :
    (t.enterHandler cause axis v r).lateRegs = t.lateRegs := rfl
@[simp] theorem Thread.enterHandler_lateFlags (t : Thread) (cause axis : Nat) (v r : Word64) :
    (t.enterHandler cause axis v r).lateFlags = t.lateFlags := rfl
@[simp] theorem Thread.enterHandler_yieldTrap (t : Thread) (cause axis : Nat) (v r : Word64) :
    (t.enterHandler cause axis v r).yieldTrap = t.yieldTrap := rfl
@[simp] theorem Thread.enterHandler_leaving (t : Thread) (cause axis : Nat) (v r : Word64) :
    (t.enterHandler cause axis v r).leaving = t.leaving := rfl
@[simp] theorem Thread.enterHandler_semTaken (t : Thread) (cause axis : Nat) (v r : Word64) :
    (t.enterHandler cause axis v r).semTaken = t.semTaken := rfl
@[simp] theorem Thread.enterHandler_wsPending (t : Thread) (cause axis : Nat) (v r : Word64) :
    (t.enterHandler cause axis v r).wsPending = t.wsPending := rfl
@[simp] theorem Thread.enterHandler_wsDone (t : Thread) (cause axis : Nat) (v r : Word64) :
    (t.enterHandler cause axis v r).wsDone = t.wsDone := rfl
@[simp] theorem Thread.enterHandler_clk (t : Thread) (cause axis : Nat) (v r : Word64) :
    (t.enterHandler cause axis v r).clk = t.clk := rfl
@[simp] theorem Thread.enterHandler_everHeld (t : Thread) (cause axis : Nat) (v r : Word64) :
    (t.enterHandler cause axis v r).everHeld = t.everHeld := rfl
@[simp] theorem Thread.enterHandler_acq (t : Thread) (cause axis : Nat) (v r : Word64) :
    (t.enterHandler cause axis v r).acq = t.acq := rfl
@[simp] theorem Thread.enterHandler_lost (t : Thread) (cause axis : Nat) (v r : Word64) :
    (t.enterHandler cause axis v r).lost = t.lost := rfl
@[simp] theorem Thread.enterHandler_endRec (t : Thread) (cause axis : Nat) (v r : Word64) :
    (t.enterHandler cause axis v r).endRec = t.endRec := rfl
@[simp] theorem Thread.endByTrap_tid (t : Thread) (cause : Nat) (v r : Word64) :
    (t.endByTrap cause v r).tid = t.tid := rfl
@[simp] theorem Thread.endByTrap_started (t : Thread) (cause : Nat) (v r : Word64) :
    (t.endByTrap cause v r).started = t.started := rfl
@[simp] theorem Thread.endByTrap_pc (t : Thread) (cause : Nat) (v r : Word64) :
    (t.endByTrap cause v r).pc = t.pc := rfl
@[simp] theorem Thread.endByTrap_s (t : Thread) (cause : Nat) (v r : Word64) : (t.endByTrap cause v r).s = t.s := rfl
@[simp] theorem Thread.endByTrap_csr (t : Thread) (cause : Nat) (v r : Word64) :
    (t.endByTrap cause v r).csr = t.csr := rfl
@[simp] theorem Thread.endByTrap_dmapAddr (t : Thread) (cause : Nat) (v r : Word64) :
    (t.endByTrap cause v r).dmapAddr = t.dmapAddr := rfl
@[simp] theorem Thread.endByTrap_dmapTab (t : Thread) (cause : Nat) (v r : Word64) :
    (t.endByTrap cause v r).dmapTab = t.dmapTab := rfl
@[simp] theorem Thread.endByTrap_lastCbld (t : Thread) (cause : Nat) (v r : Word64) :
    (t.endByTrap cause v r).lastCbld = t.lastCbld := rfl
@[simp] theorem Thread.endByTrap_egAddr (t : Thread) (cause : Nat) (v r : Word64) :
    (t.endByTrap cause v r).egAddr = t.egAddr := rfl
@[simp] theorem Thread.endByTrap_epAddr (t : Thread) (cause : Nat) (v r : Word64) :
    (t.endByTrap cause v r).epAddr = t.epAddr := rfl
@[simp] theorem Thread.endByTrap_epCfg (t : Thread) (cause : Nat) (v r : Word64) :
    (t.endByTrap cause v r).epCfg = t.epCfg := rfl
@[simp] theorem Thread.endByTrap_force (t : Thread) (cause : Nat) (v r : Word64) :
    (t.endByTrap cause v r).force = t.force := rfl
@[simp] theorem Thread.endByTrap_place (t : Thread) (cause : Nat) (v r : Word64) :
    (t.endByTrap cause v r).place = t.place := rfl
@[simp] theorem Thread.endByTrap_entryCheck (t : Thread) (cause : Nat) (v r : Word64) :
    (t.endByTrap cause v r).entryCheck = t.entryCheck := rfl
@[simp] theorem Thread.endByTrap_convoyPc (t : Thread) (cause : Nat) (v r : Word64) :
    (t.endByTrap cause v r).convoyPc = t.convoyPc := rfl
@[simp] theorem Thread.endByTrap_pendRegs (t : Thread) (cause : Nat) (v r : Word64) :
    (t.endByTrap cause v r).pendRegs = t.pendRegs := rfl
@[simp] theorem Thread.endByTrap_lateRegs (t : Thread) (cause : Nat) (v r : Word64) :
    (t.endByTrap cause v r).lateRegs = t.lateRegs := rfl
@[simp] theorem Thread.endByTrap_lateFlags (t : Thread) (cause : Nat) (v r : Word64) :
    (t.endByTrap cause v r).lateFlags = t.lateFlags := rfl
@[simp] theorem Thread.endByTrap_yieldTrap (t : Thread) (cause : Nat) (v r : Word64) :
    (t.endByTrap cause v r).yieldTrap = t.yieldTrap := rfl
@[simp] theorem Thread.endByTrap_leaving (t : Thread) (cause : Nat) (v r : Word64) :
    (t.endByTrap cause v r).leaving = t.leaving := rfl
@[simp] theorem Thread.endByTrap_semTaken (t : Thread) (cause : Nat) (v r : Word64) :
    (t.endByTrap cause v r).semTaken = t.semTaken := rfl
@[simp] theorem Thread.endByTrap_wsPending (t : Thread) (cause : Nat) (v r : Word64) :
    (t.endByTrap cause v r).wsPending = t.wsPending := rfl
@[simp] theorem Thread.endByTrap_wsDone (t : Thread) (cause : Nat) (v r : Word64) :
    (t.endByTrap cause v r).wsDone = t.wsDone := rfl
@[simp] theorem Thread.endByTrap_clk (t : Thread) (cause : Nat) (v r : Word64) :
    (t.endByTrap cause v r).clk = t.clk := rfl
@[simp] theorem Thread.endByTrap_everHeld (t : Thread) (cause : Nat) (v r : Word64) :
    (t.endByTrap cause v r).everHeld = t.everHeld := rfl
@[simp] theorem Thread.endByTrap_acq (t : Thread) (cause : Nat) (v r : Word64) :
    (t.endByTrap cause v r).acq = t.acq := rfl
@[simp] theorem Thread.endByTrap_lost (t : Thread) (cause : Nat) (v r : Word64) :
    (t.endByTrap cause v r).lost = t.lost := rfl
@[simp] theorem Thread.later_tid (t : Thread) (n : Nat) :
    (t.later n).tid = t.tid := by unfold Thread.later; split <;> rfl
@[simp] theorem Thread.later_status (t : Thread) (n : Nat) :
    (t.later n).status = t.status := by unfold Thread.later; split <;> rfl
@[simp] theorem Thread.later_started (t : Thread) (n : Nat) :
    (t.later n).started = t.started := by unfold Thread.later; split <;> rfl
@[simp] theorem Thread.later_pc (t : Thread) (n : Nat) :
    (t.later n).pc = t.pc := by unfold Thread.later; split <;> rfl
@[simp] theorem Thread.later_s (t : Thread) (n : Nat) : (t.later n).s = t.s := by unfold Thread.later; split <;> rfl
@[simp] theorem Thread.later_dmapAddr (t : Thread) (n : Nat) :
    (t.later n).dmapAddr = t.dmapAddr := by unfold Thread.later; split <;> rfl
@[simp] theorem Thread.later_dmapTab (t : Thread) (n : Nat) :
    (t.later n).dmapTab = t.dmapTab := by unfold Thread.later; split <;> rfl
@[simp] theorem Thread.later_lastCbld (t : Thread) (n : Nat) :
    (t.later n).lastCbld = t.lastCbld := by unfold Thread.later; split <;> rfl
@[simp] theorem Thread.later_egAddr (t : Thread) (n : Nat) :
    (t.later n).egAddr = t.egAddr := by unfold Thread.later; split <;> rfl
@[simp] theorem Thread.later_epAddr (t : Thread) (n : Nat) :
    (t.later n).epAddr = t.epAddr := by unfold Thread.later; split <;> rfl
@[simp] theorem Thread.later_epCfg (t : Thread) (n : Nat) :
    (t.later n).epCfg = t.epCfg := by unfold Thread.later; split <;> rfl
@[simp] theorem Thread.later_force (t : Thread) (n : Nat) :
    (t.later n).force = t.force := by unfold Thread.later; split <;> rfl
@[simp] theorem Thread.later_place (t : Thread) (n : Nat) :
    (t.later n).place = t.place := by unfold Thread.later; split <;> rfl
@[simp] theorem Thread.later_convoy (t : Thread) (n : Nat) :
    (t.later n).convoy = t.convoy := by unfold Thread.later; split <;> rfl
@[simp] theorem Thread.later_entryCheck (t : Thread) (n : Nat) :
    (t.later n).entryCheck = t.entryCheck := by unfold Thread.later; split <;> rfl
@[simp] theorem Thread.later_convoyPc (t : Thread) (n : Nat) :
    (t.later n).convoyPc = t.convoyPc := by unfold Thread.later; split <;> rfl
@[simp] theorem Thread.later_stall (t : Thread) (n : Nat) :
    (t.later n).stall = t.stall := by unfold Thread.later; split <;> rfl
@[simp] theorem Thread.later_park (t : Thread) (n : Nat) :
    (t.later n).park = t.park := by unfold Thread.later; split <;> rfl
@[simp] theorem Thread.later_each (t : Thread) (n : Nat) :
    (t.later n).each = t.each := by unfold Thread.later; split <;> rfl
@[simp] theorem Thread.later_pendRegs (t : Thread) (n : Nat) :
    (t.later n).pendRegs = t.pendRegs := by unfold Thread.later; split <;> rfl
@[simp] theorem Thread.later_lateRegs (t : Thread) (n : Nat) :
    (t.later n).lateRegs = t.lateRegs := by unfold Thread.later; split <;> rfl
@[simp] theorem Thread.later_lateFlags (t : Thread) (n : Nat) :
    (t.later n).lateFlags = t.lateFlags := by unfold Thread.later; split <;> rfl
@[simp] theorem Thread.later_yieldTrap (t : Thread) (n : Nat) :
    (t.later n).yieldTrap = t.yieldTrap := by unfold Thread.later; split <;> rfl
@[simp] theorem Thread.later_leaving (t : Thread) (n : Nat) :
    (t.later n).leaving = t.leaving := by unfold Thread.later; split <;> rfl
@[simp] theorem Thread.later_yielding (t : Thread) (n : Nat) :
    (t.later n).yielding = t.yielding := by unfold Thread.later; split <;> rfl
@[simp] theorem Thread.later_semTaken (t : Thread) (n : Nat) :
    (t.later n).semTaken = t.semTaken := by unfold Thread.later; split <;> rfl
@[simp] theorem Thread.later_wsPending (t : Thread) (n : Nat) :
    (t.later n).wsPending = t.wsPending := by unfold Thread.later; split <;> rfl
@[simp] theorem Thread.later_wsDone (t : Thread) (n : Nat) :
    (t.later n).wsDone = t.wsDone := by unfold Thread.later; split <;> rfl
@[simp] theorem Thread.later_clk (t : Thread) (n : Nat) :
    (t.later n).clk = t.clk := by unfold Thread.later; split <;> rfl
@[simp] theorem Thread.later_tail (t : Thread) (n : Nat) :
    (t.later n).tail = t.tail := by unfold Thread.later; split <;> rfl
@[simp] theorem Thread.later_acq (t : Thread) (n : Nat) :
    (t.later n).acq = t.acq := by unfold Thread.later; split <;> rfl
@[simp] theorem Thread.later_everHeld (t : Thread) (n : Nat) :
    (t.later n).everHeld = t.everHeld := by unfold Thread.later; split <;> rfl
@[simp] theorem Thread.later_lost (t : Thread) (n : Nat) :
    (t.later n).lost = t.lost := by unfold Thread.later; split <;> rfl
@[simp] theorem Thread.later_endRec (t : Thread) (n : Nat) :
    (t.later n).endRec = t.endRec := by unfold Thread.later; split <;> rfl

end Sys2Proof.Machine
end

