-- ==== Sys2Proof/Laws/Exec.lean ====
section
/-!
SUPPORT. The shared operations in the words of the claims: what each leaves unchanged, and what it answers for a thread
that runs, for registers that hold their values, for bytes that are reached.
-/
namespace Sys2Proof.Claim
open Sys2Proof.Machine

/-! ### The words of the claims -/

@[simp] theorem gone_others (p : Word64) (s : State) : (gone p s).others = s.others := rfl
@[simp] theorem gone_runner (p : Word64) (s : State) : (gone p s).runner = s.runner := rfl
@[simp] theorem gone_vp (p : Word64) (s : State) : (gone p s).vp = s.vp := rfl
@[simp] theorem gone_vpStop (p : Word64) (s : State) : (gone p s).vpStop = s.vpStop := rfl
@[simp] theorem gone_mem (p : Word64) (s : State) : (gone p s).mem = s.mem := rfl
@[simp] theorem gone_dies (p : Word64) (s : State) : (gone p s).dies = s.dies := rfl
@[simp] theorem gone_regions (p : Word64) (s : State) : (gone p s).regions = s.regions := rfl
@[simp] theorem gone_xwrites (p : Word64) (s : State) : (gone p s).xwrites = s.xwrites := rfl
@[simp] theorem gone_stores (p : Word64) (s : State) : (gone p s).stores = s.stores := rfl
@[simp] theorem gone_holding (p : Word64) (s : State) : (gone p s).holding = s.holding := rfl
@[simp] theorem gone_topks (p : Word64) (s : State) : (gone p s).topks = s.topks := rfl
@[simp] theorem gone_unres (p : Word64) (s : State) : (gone p s).unres = s.unres := rfl
@[simp] theorem gone_cycle (p : Word64) (s : State) : (gone p s).cycle = s.cycle := rfl
@[simp] theorem gone_powered (p : Word64) (s : State) : (gone p s).powered = s.powered := rfl
@[simp] theorem gone_agenda (p : Word64) (s : State) : (gone p s).agenda = s.agenda := rfl
@[simp] theorem gone_draws (p : Word64) (s : State) : (gone p s).draws = s.draws := rfl
@[simp] theorem after_others (n : Nat) (s : State) : (after n s).others = s.others := rfl
@[simp] theorem after_runner (n : Nat) (s : State) : (after n s).runner = s.runner := rfl
@[simp] theorem after_vp (n : Nat) (s : State) : (after n s).vp = s.vp := rfl
@[simp] theorem after_vpStop (n : Nat) (s : State) : (after n s).vpStop = s.vpStop := rfl
@[simp] theorem after_mem (n : Nat) (s : State) : (after n s).mem = s.mem := rfl
@[simp] theorem after_dies (n : Nat) (s : State) : (after n s).dies = s.dies := rfl
@[simp] theorem after_regions (n : Nat) (s : State) : (after n s).regions = s.regions := rfl
@[simp] theorem after_xwrites (n : Nat) (s : State) : (after n s).xwrites = s.xwrites := rfl
@[simp] theorem after_stores (n : Nat) (s : State) : (after n s).stores = s.stores := rfl
@[simp] theorem after_holding (n : Nat) (s : State) : (after n s).holding = s.holding := rfl
@[simp] theorem after_topks (n : Nat) (s : State) : (after n s).topks = s.topks := rfl
@[simp] theorem after_unres (n : Nat) (s : State) : (after n s).unres = s.unres := rfl
@[simp] theorem after_cycle (n : Nat) (s : State) : (after n s).cycle = s.cycle := rfl
@[simp] theorem after_powered (n : Nat) (s : State) : (after n s).powered = s.powered := rfl
@[simp] theorem after_agenda (n : Nat) (s : State) : (after n s).agenda = s.agenda := rfl
@[simp] theorem after_draws (n : Nat) (s : State) : (after n s).draws = s.draws := rfl
@[simp] theorem put_others (r : Reg) (x : Word64) (s : State) :
    (put r x s).others = s.others := by unfold put; split <;> rfl
@[simp] theorem put_runner (r : Reg) (x : Word64) (s : State) :
    (put r x s).runner = s.runner := by unfold put; split <;> rfl
@[simp] theorem put_vp (r : Reg) (x : Word64) (s : State) : (put r x s).vp = s.vp := by unfold put; split <;> rfl
@[simp] theorem put_vpStop (r : Reg) (x : Word64) (s : State) :
    (put r x s).vpStop = s.vpStop := by unfold put; split <;> rfl
@[simp] theorem put_mem (r : Reg) (x : Word64) (s : State) : (put r x s).mem = s.mem := by unfold put; split <;> rfl
@[simp] theorem put_dies (r : Reg) (x : Word64) (s : State) :
    (put r x s).dies = s.dies := by unfold put; split <;> rfl
@[simp] theorem put_regions (r : Reg) (x : Word64) (s : State) :
    (put r x s).regions = s.regions := by unfold put; split <;> rfl
@[simp] theorem put_xwrites (r : Reg) (x : Word64) (s : State) :
    (put r x s).xwrites = s.xwrites := by unfold put; split <;> rfl
@[simp] theorem put_stores (r : Reg) (x : Word64) (s : State) :
    (put r x s).stores = s.stores := by unfold put; split <;> rfl
@[simp] theorem put_holding (r : Reg) (x : Word64) (s : State) :
    (put r x s).holding = s.holding := by unfold put; split <;> rfl
@[simp] theorem put_topks (r : Reg) (x : Word64) (s : State) :
    (put r x s).topks = s.topks := by unfold put; split <;> rfl
@[simp] theorem put_unres (r : Reg) (x : Word64) (s : State) :
    (put r x s).unres = s.unres := by unfold put; split <;> rfl
@[simp] theorem put_fw (r : Reg) (x : Word64) (s : State) : (put r x s).fw = s.fw := by unfold put; split <;> rfl
@[simp] theorem put_cycle (r : Reg) (x : Word64) (s : State) :
    (put r x s).cycle = s.cycle := by unfold put; split <;> rfl
@[simp] theorem put_powered (r : Reg) (x : Word64) (s : State) :
    (put r x s).powered = s.powered := by unfold put; split <;> rfl
@[simp] theorem put_agenda (r : Reg) (x : Word64) (s : State) :
    (put r x s).agenda = s.agenda := by unfold put; split <;> rfl
@[simp] theorem put_draws (r : Reg) (x : Word64) (s : State) :
    (put r x s).draws = s.draws := by unfold put; split <;> rfl
@[simp] theorem raise_others (f : Flg) (s : State) : (raise f s).others = s.others := rfl
@[simp] theorem raise_runner (f : Flg) (s : State) : (raise f s).runner = s.runner := rfl
@[simp] theorem raise_vp (f : Flg) (s : State) : (raise f s).vp = s.vp := rfl
@[simp] theorem raise_vpStop (f : Flg) (s : State) : (raise f s).vpStop = s.vpStop := rfl
@[simp] theorem raise_mem (f : Flg) (s : State) : (raise f s).mem = s.mem := rfl
@[simp] theorem raise_dies (f : Flg) (s : State) : (raise f s).dies = s.dies := rfl
@[simp] theorem raise_regions (f : Flg) (s : State) : (raise f s).regions = s.regions := rfl
@[simp] theorem raise_xwrites (f : Flg) (s : State) : (raise f s).xwrites = s.xwrites := rfl
@[simp] theorem raise_stores (f : Flg) (s : State) : (raise f s).stores = s.stores := rfl
@[simp] theorem raise_holding (f : Flg) (s : State) : (raise f s).holding = s.holding := rfl
@[simp] theorem raise_topks (f : Flg) (s : State) : (raise f s).topks = s.topks := rfl
@[simp] theorem raise_unres (f : Flg) (s : State) : (raise f s).unres = s.unres := rfl
@[simp] theorem raise_fw (f : Flg) (s : State) : (raise f s).fw = s.fw := rfl
@[simp] theorem raise_cycle (f : Flg) (s : State) : (raise f s).cycle = s.cycle := rfl
@[simp] theorem raise_powered (f : Flg) (s : State) : (raise f s).powered = s.powered := rfl
@[simp] theorem raise_agenda (f : Flg) (s : State) : (raise f s).agenda = s.agenda := rfl
@[simp] theorem raise_draws (f : Flg) (s : State) : (raise f s).draws = s.draws := rfl
@[simp] theorem withCsr_others (c : Csrs) (s : State) : (withCsr c s).others = s.others := rfl
@[simp] theorem withCsr_runner (c : Csrs) (s : State) : (withCsr c s).runner = s.runner := rfl
@[simp] theorem withCsr_vp (c : Csrs) (s : State) : (withCsr c s).vp = s.vp := rfl
@[simp] theorem withCsr_vpStop (c : Csrs) (s : State) : (withCsr c s).vpStop = s.vpStop := rfl
@[simp] theorem withCsr_mem (c : Csrs) (s : State) : (withCsr c s).mem = s.mem := rfl
@[simp] theorem withCsr_dies (c : Csrs) (s : State) : (withCsr c s).dies = s.dies := rfl
@[simp] theorem withCsr_regions (c : Csrs) (s : State) : (withCsr c s).regions = s.regions := rfl
@[simp] theorem withCsr_xwrites (c : Csrs) (s : State) : (withCsr c s).xwrites = s.xwrites := rfl
@[simp] theorem withCsr_stores (c : Csrs) (s : State) : (withCsr c s).stores = s.stores := rfl
@[simp] theorem withCsr_holding (c : Csrs) (s : State) : (withCsr c s).holding = s.holding := rfl
@[simp] theorem withCsr_topks (c : Csrs) (s : State) : (withCsr c s).topks = s.topks := rfl
@[simp] theorem withCsr_unres (c : Csrs) (s : State) : (withCsr c s).unres = s.unres := rfl
@[simp] theorem withCsr_fw (c : Csrs) (s : State) : (withCsr c s).fw = s.fw := rfl
@[simp] theorem withCsr_cycle (c : Csrs) (s : State) : (withCsr c s).cycle = s.cycle := rfl
@[simp] theorem withCsr_powered (c : Csrs) (s : State) : (withCsr c s).powered = s.powered := rfl
@[simp] theorem withCsr_agenda (c : Csrs) (s : State) : (withCsr c s).agenda = s.agenda := rfl
@[simp] theorem withCsr_draws (c : Csrs) (s : State) : (withCsr c s).draws = s.draws := rfl
@[simp] theorem withCur_others (f : Thread → Thread) (s : State) : (withCur f s).others = s.others := rfl
@[simp] theorem withCur_runner (f : Thread → Thread) (s : State) : (withCur f s).runner = s.runner := rfl
@[simp] theorem withCur_vp (f : Thread → Thread) (s : State) : (withCur f s).vp = s.vp := rfl
@[simp] theorem withCur_vpStop (f : Thread → Thread) (s : State) : (withCur f s).vpStop = s.vpStop := rfl
@[simp] theorem withCur_mem (f : Thread → Thread) (s : State) : (withCur f s).mem = s.mem := rfl
@[simp] theorem withCur_dies (f : Thread → Thread) (s : State) : (withCur f s).dies = s.dies := rfl
@[simp] theorem withCur_regions (f : Thread → Thread) (s : State) : (withCur f s).regions = s.regions := rfl
@[simp] theorem withCur_xwrites (f : Thread → Thread) (s : State) : (withCur f s).xwrites = s.xwrites := rfl
@[simp] theorem withCur_stores (f : Thread → Thread) (s : State) : (withCur f s).stores = s.stores := rfl
@[simp] theorem withCur_holding (f : Thread → Thread) (s : State) : (withCur f s).holding = s.holding := rfl
@[simp] theorem withCur_topks (f : Thread → Thread) (s : State) : (withCur f s).topks = s.topks := rfl
@[simp] theorem withCur_unres (f : Thread → Thread) (s : State) : (withCur f s).unres = s.unres := rfl
@[simp] theorem withCur_fw (f : Thread → Thread) (s : State) : (withCur f s).fw = s.fw := rfl
@[simp] theorem withCur_cycle (f : Thread → Thread) (s : State) : (withCur f s).cycle = s.cycle := rfl
@[simp] theorem withCur_powered (f : Thread → Thread) (s : State) : (withCur f s).powered = s.powered := rfl
@[simp] theorem withCur_agenda (f : Thread → Thread) (s : State) : (withCur f s).agenda = s.agenda := rfl
@[simp] theorem withCur_draws (f : Thread → Thread) (s : State) : (withCur f s).draws = s.draws := rfl
@[simp] theorem vpAfter_cur (n : Nat) (s : State) : (vpAfter n s).cur = s.cur := rfl
@[simp] theorem vpAfter_others (n : Nat) (s : State) : (vpAfter n s).others = s.others := rfl
@[simp] theorem vpAfter_runner (n : Nat) (s : State) : (vpAfter n s).runner = s.runner := rfl
@[simp] theorem vpAfter_vpStop (n : Nat) (s : State) : (vpAfter n s).vpStop = s.vpStop := rfl
@[simp] theorem vpAfter_mem (n : Nat) (s : State) : (vpAfter n s).mem = s.mem := rfl
@[simp] theorem vpAfter_dies (n : Nat) (s : State) : (vpAfter n s).dies = s.dies := rfl
@[simp] theorem vpAfter_regions (n : Nat) (s : State) : (vpAfter n s).regions = s.regions := rfl
@[simp] theorem vpAfter_xwrites (n : Nat) (s : State) : (vpAfter n s).xwrites = s.xwrites := rfl
@[simp] theorem vpAfter_stores (n : Nat) (s : State) : (vpAfter n s).stores = s.stores := rfl
@[simp] theorem vpAfter_holding (n : Nat) (s : State) : (vpAfter n s).holding = s.holding := rfl
@[simp] theorem vpAfter_topks (n : Nat) (s : State) : (vpAfter n s).topks = s.topks := rfl
@[simp] theorem vpAfter_unres (n : Nat) (s : State) : (vpAfter n s).unres = s.unres := rfl
@[simp] theorem vpAfter_fw (n : Nat) (s : State) : (vpAfter n s).fw = s.fw := rfl
@[simp] theorem vpAfter_cycle (n : Nat) (s : State) : (vpAfter n s).cycle = s.cycle := rfl
@[simp] theorem vpAfter_powered (n : Nat) (s : State) : (vpAfter n s).powered = s.powered := rfl
@[simp] theorem vpAfter_agenda (n : Nat) (s : State) : (vpAfter n s).agenda = s.agenda := rfl
@[simp] theorem vpAfter_draws (n : Nat) (s : State) : (vpAfter n s).draws = s.draws := rfl
@[simp] theorem vpPut_cur (d : Reg) (x : Word64) (s : State) : (vpPut d x s).cur = s.cur := by unfold vpPut; rfl
@[simp] theorem vpPut_others (d : Reg) (x : Word64) (s : State) : (vpPut d x s).others = s.others := by unfold vpPut; rfl
@[simp] theorem vpPut_runner (d : Reg) (x : Word64) (s : State) : (vpPut d x s).runner = s.runner := by unfold vpPut; rfl
@[simp] theorem vpPut_vpStop (d : Reg) (x : Word64) (s : State) : (vpPut d x s).vpStop = s.vpStop := by unfold vpPut; rfl
@[simp] theorem vpPut_mem (d : Reg) (x : Word64) (s : State) : (vpPut d x s).mem = s.mem := by unfold vpPut; rfl
@[simp] theorem vpPut_dies (d : Reg) (x : Word64) (s : State) : (vpPut d x s).dies = s.dies := by unfold vpPut; rfl
@[simp] theorem vpPut_regions (d : Reg) (x : Word64) (s : State) : (vpPut d x s).regions = s.regions := by unfold vpPut; rfl
@[simp] theorem vpPut_xwrites (d : Reg) (x : Word64) (s : State) : (vpPut d x s).xwrites = s.xwrites := by unfold vpPut; rfl
@[simp] theorem vpPut_stores (d : Reg) (x : Word64) (s : State) : (vpPut d x s).stores = s.stores := by unfold vpPut; rfl
@[simp] theorem vpPut_holding (d : Reg) (x : Word64) (s : State) : (vpPut d x s).holding = s.holding := by unfold vpPut; rfl
@[simp] theorem vpPut_topks (d : Reg) (x : Word64) (s : State) : (vpPut d x s).topks = s.topks := by unfold vpPut; rfl
@[simp] theorem vpPut_unres (d : Reg) (x : Word64) (s : State) : (vpPut d x s).unres = s.unres := by unfold vpPut; rfl
@[simp] theorem vpPut_fw (d : Reg) (x : Word64) (s : State) : (vpPut d x s).fw = s.fw := by unfold vpPut; rfl
@[simp] theorem vpPut_cycle (d : Reg) (x : Word64) (s : State) : (vpPut d x s).cycle = s.cycle := by unfold vpPut; rfl
@[simp] theorem vpPut_powered (d : Reg) (x : Word64) (s : State) : (vpPut d x s).powered = s.powered := by unfold vpPut; rfl
@[simp] theorem vpPut_agenda (d : Reg) (x : Word64) (s : State) : (vpPut d x s).agenda = s.agenda := by unfold vpPut; rfl
@[simp] theorem vpPut_draws (d : Reg) (x : Word64) (s : State) : (vpPut d x s).draws = s.draws := by unfold vpPut; rfl
@[simp] theorem vpRaise_others (g : Nat) (f : Flg) (s : State) : (vpRaise g f s).others = s.others := rfl
@[simp] theorem vpRaise_runner (g : Nat) (f : Flg) (s : State) : (vpRaise g f s).runner = s.runner := rfl
@[simp] theorem vpRaise_vp (g : Nat) (f : Flg) (s : State) : (vpRaise g f s).vp = s.vp := rfl
@[simp] theorem vpRaise_vpStop (g : Nat) (f : Flg) (s : State) : (vpRaise g f s).vpStop = s.vpStop := rfl
@[simp] theorem vpRaise_mem (g : Nat) (f : Flg) (s : State) : (vpRaise g f s).mem = s.mem := rfl
@[simp] theorem vpRaise_dies (g : Nat) (f : Flg) (s : State) : (vpRaise g f s).dies = s.dies := rfl
@[simp] theorem vpRaise_regions (g : Nat) (f : Flg) (s : State) : (vpRaise g f s).regions = s.regions := rfl
@[simp] theorem vpRaise_xwrites (g : Nat) (f : Flg) (s : State) : (vpRaise g f s).xwrites = s.xwrites := rfl
@[simp] theorem vpRaise_stores (g : Nat) (f : Flg) (s : State) : (vpRaise g f s).stores = s.stores := rfl
@[simp] theorem vpRaise_holding (g : Nat) (f : Flg) (s : State) : (vpRaise g f s).holding = s.holding := rfl
@[simp] theorem vpRaise_topks (g : Nat) (f : Flg) (s : State) : (vpRaise g f s).topks = s.topks := rfl
@[simp] theorem vpRaise_unres (g : Nat) (f : Flg) (s : State) : (vpRaise g f s).unres = s.unres := rfl
@[simp] theorem vpRaise_fw (g : Nat) (f : Flg) (s : State) : (vpRaise g f s).fw = s.fw := rfl
@[simp] theorem vpRaise_cycle (g : Nat) (f : Flg) (s : State) : (vpRaise g f s).cycle = s.cycle := rfl
@[simp] theorem vpRaise_powered (g : Nat) (f : Flg) (s : State) : (vpRaise g f s).powered = s.powered := rfl
@[simp] theorem vpRaise_agenda (g : Nat) (f : Flg) (s : State) : (vpRaise g f s).agenda = s.agenda := rfl
@[simp] theorem vpRaise_draws (g : Nat) (f : Flg) (s : State) : (vpRaise g f s).draws = s.draws := rfl
@[simp] theorem gone_cur_tid (p : Word64) (s : State) : (gone p s).cur.tid = s.cur.tid := rfl
@[simp] theorem gone_cur_status (p : Word64) (s : State) : (gone p s).cur.status = s.cur.status := rfl
@[simp] theorem gone_cur_started (p : Word64) (s : State) : (gone p s).cur.started = s.cur.started := rfl
@[simp] theorem gone_cur_s (p : Word64) (s : State) : (gone p s).cur.s = s.cur.s := rfl
@[simp] theorem gone_cur_dmapAddr (p : Word64) (s : State) : (gone p s).cur.dmapAddr = s.cur.dmapAddr := rfl
@[simp] theorem gone_cur_dmapTab (p : Word64) (s : State) : (gone p s).cur.dmapTab = s.cur.dmapTab := rfl
@[simp] theorem gone_cur_lastCbld (p : Word64) (s : State) : (gone p s).cur.lastCbld = s.cur.lastCbld := rfl
@[simp] theorem gone_cur_egAddr (p : Word64) (s : State) : (gone p s).cur.egAddr = s.cur.egAddr := rfl
@[simp] theorem gone_cur_epAddr (p : Word64) (s : State) : (gone p s).cur.epAddr = s.cur.epAddr := rfl
@[simp] theorem gone_cur_epCfg (p : Word64) (s : State) : (gone p s).cur.epCfg = s.cur.epCfg := rfl
@[simp] theorem gone_cur_force (p : Word64) (s : State) : (gone p s).cur.force = s.cur.force := rfl
@[simp] theorem gone_cur_place (p : Word64) (s : State) : (gone p s).cur.place = s.cur.place := rfl
@[simp] theorem gone_cur_entryCheck (p : Word64) (s : State) : (gone p s).cur.entryCheck = s.cur.entryCheck := rfl
@[simp] theorem gone_cur_convoyPc (p : Word64) (s : State) : (gone p s).cur.convoyPc = s.cur.convoyPc := rfl
@[simp] theorem gone_cur_stall (p : Word64) (s : State) : (gone p s).cur.stall = s.cur.stall := rfl
@[simp] theorem gone_cur_park (p : Word64) (s : State) : (gone p s).cur.park = s.cur.park := rfl
@[simp] theorem gone_cur_each (p : Word64) (s : State) : (gone p s).cur.each = s.cur.each := rfl
@[simp] theorem gone_cur_pendRegs (p : Word64) (s : State) : (gone p s).cur.pendRegs = s.cur.pendRegs := rfl
@[simp] theorem gone_cur_lateRegs (p : Word64) (s : State) : (gone p s).cur.lateRegs = s.cur.lateRegs := rfl
@[simp] theorem gone_cur_lateFlags (p : Word64) (s : State) : (gone p s).cur.lateFlags = s.cur.lateFlags := rfl
@[simp] theorem gone_cur_yieldTrap (p : Word64) (s : State) : (gone p s).cur.yieldTrap = s.cur.yieldTrap := rfl
@[simp] theorem gone_cur_leaving (p : Word64) (s : State) : (gone p s).cur.leaving = s.cur.leaving := rfl
@[simp] theorem gone_cur_yielding (p : Word64) (s : State) : (gone p s).cur.yielding = s.cur.yielding := rfl
@[simp] theorem gone_cur_semTaken (p : Word64) (s : State) : (gone p s).cur.semTaken = s.cur.semTaken := rfl
@[simp] theorem gone_cur_wsPending (p : Word64) (s : State) : (gone p s).cur.wsPending = s.cur.wsPending := rfl
@[simp] theorem gone_cur_wsDone (p : Word64) (s : State) : (gone p s).cur.wsDone = s.cur.wsDone := rfl
@[simp] theorem gone_cur_clk (p : Word64) (s : State) : (gone p s).cur.clk = s.cur.clk := rfl
@[simp] theorem gone_cur_acq (p : Word64) (s : State) : (gone p s).cur.acq = s.cur.acq := rfl
@[simp] theorem gone_cur_everHeld (p : Word64) (s : State) : (gone p s).cur.everHeld = s.cur.everHeld := rfl
@[simp] theorem gone_cur_lost (p : Word64) (s : State) : (gone p s).cur.lost = s.cur.lost := rfl
@[simp] theorem gone_cur_endRec (p : Word64) (s : State) : (gone p s).cur.endRec = s.cur.endRec := rfl
@[simp] theorem put_cur_tid (r : Reg) (x : Word64) (s : State) :
    (put r x s).cur.tid = s.cur.tid := by unfold put; split <;> rfl
@[simp] theorem put_cur_status (r : Reg) (x : Word64) (s : State) :
    (put r x s).cur.status = s.cur.status := by unfold put; split <;> rfl
@[simp] theorem put_cur_started (r : Reg) (x : Word64) (s : State) :
    (put r x s).cur.started = s.cur.started := by unfold put; split <;> rfl
@[simp] theorem put_cur_pc (r : Reg) (x : Word64) (s : State) :
    (put r x s).cur.pc = s.cur.pc := by unfold put; split <;> rfl
@[simp] theorem put_cur_csr (r : Reg) (x : Word64) (s : State) :
    (put r x s).cur.csr = s.cur.csr := by unfold put; split <;> rfl
@[simp] theorem put_cur_dmapAddr (r : Reg) (x : Word64) (s : State) :
    (put r x s).cur.dmapAddr = s.cur.dmapAddr := by unfold put; split <;> rfl
@[simp] theorem put_cur_dmapTab (r : Reg) (x : Word64) (s : State) :
    (put r x s).cur.dmapTab = s.cur.dmapTab := by unfold put; split <;> rfl
@[simp] theorem put_cur_lastCbld (r : Reg) (x : Word64) (s : State) :
    (put r x s).cur.lastCbld = s.cur.lastCbld := by unfold put; split <;> rfl
@[simp] theorem put_cur_egAddr (r : Reg) (x : Word64) (s : State) :
    (put r x s).cur.egAddr = s.cur.egAddr := by unfold put; split <;> rfl
@[simp] theorem put_cur_epAddr (r : Reg) (x : Word64) (s : State) :
    (put r x s).cur.epAddr = s.cur.epAddr := by unfold put; split <;> rfl
@[simp] theorem put_cur_epCfg (r : Reg) (x : Word64) (s : State) :
    (put r x s).cur.epCfg = s.cur.epCfg := by unfold put; split <;> rfl
@[simp] theorem put_cur_force (r : Reg) (x : Word64) (s : State) :
    (put r x s).cur.force = s.cur.force := by unfold put; split <;> rfl
@[simp] theorem put_cur_place (r : Reg) (x : Word64) (s : State) :
    (put r x s).cur.place = s.cur.place := by unfold put; split <;> rfl
@[simp] theorem put_cur_convoy (r : Reg) (x : Word64) (s : State) :
    (put r x s).cur.convoy = s.cur.convoy := by unfold put; split <;> rfl
@[simp] theorem put_cur_entryCheck (r : Reg) (x : Word64) (s : State) :
    (put r x s).cur.entryCheck = s.cur.entryCheck := by unfold put; split <;> rfl
@[simp] theorem put_cur_convoyPc (r : Reg) (x : Word64) (s : State) :
    (put r x s).cur.convoyPc = s.cur.convoyPc := by unfold put; split <;> rfl
@[simp] theorem put_cur_stall (r : Reg) (x : Word64) (s : State) :
    (put r x s).cur.stall = s.cur.stall := by unfold put; split <;> rfl
@[simp] theorem put_cur_park (r : Reg) (x : Word64) (s : State) :
    (put r x s).cur.park = s.cur.park := by unfold put; split <;> rfl
@[simp] theorem put_cur_each (r : Reg) (x : Word64) (s : State) :
    (put r x s).cur.each = s.cur.each := by unfold put; split <;> rfl
@[simp] theorem put_cur_pendRegs (r : Reg) (x : Word64) (s : State) :
    (put r x s).cur.pendRegs = s.cur.pendRegs := by unfold put; split <;> rfl
@[simp] theorem put_cur_lateRegs (r : Reg) (x : Word64) (s : State) :
    (put r x s).cur.lateRegs = s.cur.lateRegs := by unfold put; split <;> rfl
@[simp] theorem put_cur_lateFlags (r : Reg) (x : Word64) (s : State) :
    (put r x s).cur.lateFlags = s.cur.lateFlags := by unfold put; split <;> rfl
@[simp] theorem put_cur_yieldTrap (r : Reg) (x : Word64) (s : State) :
    (put r x s).cur.yieldTrap = s.cur.yieldTrap := by unfold put; split <;> rfl
@[simp] theorem put_cur_leaving (r : Reg) (x : Word64) (s : State) :
    (put r x s).cur.leaving = s.cur.leaving := by unfold put; split <;> rfl
@[simp] theorem put_cur_yielding (r : Reg) (x : Word64) (s : State) :
    (put r x s).cur.yielding = s.cur.yielding := by unfold put; split <;> rfl
@[simp] theorem put_cur_semTaken (r : Reg) (x : Word64) (s : State) :
    (put r x s).cur.semTaken = s.cur.semTaken := by unfold put; split <;> rfl
@[simp] theorem put_cur_wsPending (r : Reg) (x : Word64) (s : State) :
    (put r x s).cur.wsPending = s.cur.wsPending := by unfold put; split <;> rfl
@[simp] theorem put_cur_wsDone (r : Reg) (x : Word64) (s : State) :
    (put r x s).cur.wsDone = s.cur.wsDone := by unfold put; split <;> rfl
@[simp] theorem put_cur_clk (r : Reg) (x : Word64) (s : State) :
    (put r x s).cur.clk = s.cur.clk := by unfold put; split <;> rfl
@[simp] theorem put_cur_tail (r : Reg) (x : Word64) (s : State) :
    (put r x s).cur.tail = s.cur.tail := by unfold put; split <;> rfl
@[simp] theorem put_cur_acq (r : Reg) (x : Word64) (s : State) :
    (put r x s).cur.acq = s.cur.acq := by unfold put; split <;> rfl
@[simp] theorem put_cur_everHeld (r : Reg) (x : Word64) (s : State) :
    (put r x s).cur.everHeld = s.cur.everHeld := by unfold put; split <;> rfl
@[simp] theorem put_cur_lost (r : Reg) (x : Word64) (s : State) :
    (put r x s).cur.lost = s.cur.lost := by unfold put; split <;> rfl
@[simp] theorem put_cur_endRec (r : Reg) (x : Word64) (s : State) :
    (put r x s).cur.endRec = s.cur.endRec := by unfold put; split <;> rfl
@[simp] theorem withCsr_csr (c : Csrs) (s : State) : (withCsr c s).cur.csr = c := rfl
@[simp] theorem withCur_cur (f : Thread → Thread) (s : State) : (withCur f s).cur = f s.cur := rfl
@[simp] theorem gone_pc (p : Word64) (s : State) : (gone p s).cur.pc = p := rfl
@[simp] theorem after_pc (n : Nat) (s : State) : (after n s).cur.pc = s.cur.pc + BitVec.ofNat 64 (4 * n) := rfl
@[simp] theorem gone_instret (p : Word64) (s : State) : (gone p s).cur.csr.instret = s.cur.csr.instret + 1#64 := rfl

/-! ### The monad -/

theorem bind_run {α β : Type} (x : Exec α) (f : α → Exec β) (s : State) : (x >>= f) s = (match x s with
    | .ok (a, t) => f a t
    | .error e => .error e) := by
  show (StateT.bind x f) s = _
  unfold StateT.bind
  show Except.bind (x s) _ = _
  cases x s <;> rfl
/-- Two pieces in a row, the first of which answers. -/
theorem bind_ok {α β : Type} {x : Exec α} {f : α → Exec β} {s t : State} {a : α} (h : x s = .ok (a, t)) :
    (x >>= f) s = f a t := by rw [bind_run, h]
/-- Two pieces in a row, the first of which ends. -/
theorem bind_error {α β : Type} {x : Exec α} {f : α → Exec β} {s : State} {e : Exc} (h : x s = .error e) :
    (x >>= f) s = .error e := by rw [bind_run, h]
/-- What two pieces in a row have answered, each in turn. -/
theorem bind_inv {α β : Type} {x : Exec α} {f : α → Exec β} {s u : State} {b : β} (h : (x >>= f) s = .ok (b, u)) :
    ∃ a t, x s = .ok (a, t) ∧ f a t = .ok (b, u) := by
  cases hx : x s with
  | error e => rw [bind_error hx] at h; cases h
  | ok p => exact ⟨p.1, p.2, rfl, by rw [bind_ok (a := p.1) (t := p.2) hx] at h; exact h⟩
theorem pure_run {α : Type} (a : α) (s : State) : (pure a : Exec α) s = .ok (a, s) := rfl
theorem get_run (s : State) : (get : Exec State) s = .ok (s, s) := rfl
theorem modify_run (f : State → State) (s : State) : (modify f : Exec PUnit) s = .ok ((), f s) := rfl
theorem check_true {c : Bool} (e : Exc) (s : State) (h : c = true) : check c e s = .ok ((), s) := by
  subst h; rfl
theorem check_false {c : Bool} (e : Exc) (s : State) (h : c = false) : check c e s = .error e := by
  subst h; rfl

/-! ### Registers -/

theorem setReg_eq_put (s : State) (r : Reg) (x : Word64) : s.setReg r x = put r x s := by
  unfold State.setReg Thread.setReg put
  split <;> rfl
theorem orFlags_eq_raise (f : Flg) (s : State) : { s with cur := s.cur.orFlags f } = raise f s := rfl
/-- An instruction that posts no entry ends the row of entries that an interruption can reach (R228). -/
theorem endTail_ends {i : Instr} (h : postsEntry i = false) (s : State) :
    endTail i s = { s with cur := { s.cur with tail := [] } } := by
  unfold endTail
  rw [h]
  by_cases ht : s.cur.tail.isEmpty = true
  · have h0 : s.cur.tail = [] := by simpa using ht
    rw [if_pos (by simp [h0])]
    show s = { s with cur := { s.cur with tail := [] } }
    rw [← h0]
  · rw [if_neg (by simpa using ht)]
theorem endTail_posts {i : Instr} (h : postsEntry i = true) (s : State) : endTail i s = s := by
  unfold endTail; rw [h]; rfl
theorem retire_seq {i : Instr} (h : postsEntry i = false) (n : Nat) (s : State) :
    endTail i (retire n .seq s) = after n s := by rw [endTail_ends h]; rfl
theorem retire_goto {i : Instr} (h : postsEntry i = false) (n : Nat) (p : Word64) (s : State) :
    endTail i (retire n (.goto p) s) = gone p s := by rw [endTail_ends h]; rfl

/-- s0 reads zero and discards what is written to it (R139). -/
theorem reg_put (s : State) (r q : Reg) (x : Word64) :
    (put r x s).cur.reg q = if q = r ∧ r ≠ 0#5 then x else s.cur.reg q := by
  unfold put Thread.reg regAt
  by_cases hr : r = 0#5
  · simp [hr]
  · by_cases hq : q = 0#5
    · subst hq
      have : ¬ (0#5 = r) := fun h => hr h.symm
      simp [hr, this]
    · by_cases h : q = r
      · subst h; simp [hq]
      · have : ¬ r.toNat = q.toNat := fun e => h (BitVec.eq_of_toNat_eq e.symm)
        simp [hr, hq, h, this]

theorem readReg_run {s : State} {r : Reg} (h : s.runner = .thread) (hf : Free s r) :
    readReg r s = .ok (s.cur.reg r, s) := by
  unfold readReg
  rw [h]
  have : s.cur.pendRegs.contains r = false := by simpa [Free] using hf
  simp only [this]
  rfl
theorem writeReg_run {s : State} {r : Reg} (x : Word64) (h : s.runner = .thread) (hf : Free s r) :
    writeReg r x s = .ok ((), put r x s) := by
  unfold writeReg
  rw [h]
  have : s.cur.pendRegs.contains r = false := by simpa [Free] using hf
  simp only [this, setReg_eq_put]
  rfl
theorem readSrc_run {s : State} {b : Src} (h : s.runner = .thread) (hf : SrcFree s b) :
    readSrc b s = .ok (srcVal s b, s) := by
  cases b with
  | reg b => exact readReg_run h hf
  | lit w => rfl
theorem addFlags_run {s : State} (f : Flg) (h : s.runner = .thread) : addFlags f s = .ok ((), raise f s) := by
  unfold addFlags
  split
  · rfl
  · next hr => rw [h] at hr; cases hr
  · next hr => rw [h] at hr; cases hr
theorem curPc_run {s : State} (h : s.runner = .thread) : curPc s = .ok (s.cur.pc, s) := by
  unfold curPc
  rw [bind_ok (get_run s), h]
  rfl
theorem legal_true {c : Bool} (s : State) (h : c = true) : legal c s = .ok ((), s) := by subst h; rfl
theorem legal_false {c : Bool} {s : State} (h : c = false) (hr : s.runner = .thread) :
    legal c s = .error (.trap cIllop 0 s.cur.pc) := by
  subst h
  show illop s = _
  unfold illop
  rw [bind_ok (curPc_run hr)]
  rfl
@[simp] theorem free_put (s : State) (r q : Reg) (x : Word64) : Free (put r x s) q ↔ Free s q := by
  simp [Free]
@[simp] theorem free_raise (s : State) (f : Flg) (q : Reg) : Free (raise f s) q ↔ Free s q := Iff.rfl
@[simp] theorem runs_put (s : State) (r : Reg) (x : Word64) : Runs (put r x s) ↔ Runs s := by
  simp [Runs]
@[simp] theorem runs_raise (s : State) (f : Flg) : Runs (raise f s) ↔ Runs s := Iff.rfl

/-! ### A meaning run by a thread -/

/-- A meaning that answers, run by the current thread: it is retired (R108). -/
theorem perform_ok {i : Instr} {body : Exec Flow} {s t : State} {f : Flow} (h : Runs s) (hb : blockOnly i = false)
    (ha : needsArray i = false ∨ s.arrAbsent = false) (hx : body s = .ok (f, t)) :
    perform i body s = .next (endTail i (retire (instrWords i) f t)) := by
  unfold perform runThread
  rw [h.1]
  simp only [h.2, hb, hx]
  have : (needsArray i && s.arrAbsent) = false := by rcases ha with ha | ha <;> simp [ha]
  simp [this]
/-- A meaning that goes on to the next word. -/
theorem performSeq_ok {i : Instr} {body : Exec Unit} {s t : State} (h : Runs s) (hb : blockOnly i = false)
    (ha : needsArray i = false ∨ s.arrAbsent = false) (hp : postsEntry i = false) (hx : body s = .ok ((), t)) :
    performSeq i body s = .next (after (instrWords i) t) := by
  show perform i (do body; return .seq) s = _
  rw [perform_ok (f := .seq) (t := t) h hb ha (by rw [bind_ok hx]; rfl), retire_seq hp]
/-- A meaning that ends, run by the current thread. -/
theorem perform_error {i : Instr} {body : Exec Flow} {s : State} {e : Exc} (h : Runs s) (hb : blockOnly i = false)
    (ha : needsArray i = false ∨ s.arrAbsent = false) (hx : body s = .error e) : perform i body s = settle s e := by
  unfold perform runThread
  rw [h.1]
  simp only [h.2, hb, hx]
  have : (needsArray i && s.arrAbsent) = false := by rcases ha with ha | ha <;> simp [ha]
  simp [this]
theorem performSeq_error {i : Instr} {body : Exec Unit} {s : State} {e : Exc} (h : Runs s) (hb : blockOnly i = false)
    (ha : needsArray i = false ∨ s.arrAbsent = false) (hx : body s = .error e) : performSeq i body s = settle s e :=
  by
  show perform i (do body; return .seq) s = _
  exact perform_error h hb ha (by rw [bind_error hx])
/-- A word that only a block may hold traps ILLOP where a thread executes it (R117). -/
theorem perform_block {i : Instr} {body : Exec Flow} {s : State} (h : Runs s) (hb : blockOnly i = true) :
    perform i body s = .next (takeTrap s cIllop 0 s.cur.pc s.cur.pc) := by
  unfold perform runThread
  rw [h.1]
  simp [h.2, hb]
/-- An instruction on array state that is absent traps 0x0A (R385). -/
theorem perform_absent {i : Instr} {body : Exec Flow} {s : State} (h : Runs s) (hb : blockOnly i = false)
    (hn : needsArray i = true) (ha : s.arrAbsent = true) :
    perform i body s = .next (takeTrap s cOwned 0 0#64 s.cur.pc) := by
  unfold perform runThread
  rw [h.1]
  simp [h.2, hb, hn, ha]

/-- A meaning that answers, run by a VP of an `each`: the VP goes on (R211). -/
theorem perform_vp {i : Instr} {body : Exec Flow} {s t : State} {f : Flow} {g n : Nat} (h : VpRuns s g n)
    (hb : blockAllowed false i = true) (hx : body s = .ok (f, t)) :
    perform i body s = .next { t with vp := { t.vp with pc := nextPc t.vp.pc (instrWords i) f } } := by
  unfold perform runVp
  rw [h]
  simp [hb, hx]
/-- A step of the device that answers: the replies kept for it are used up, and the pages found unresolvable dealt with. -/
theorem device_ok {c : Ctx} {body : Exec Unit} {s u : State} (hx : body s = .ok ((), u)) :
    device c body s = some (dropUnres c (dropRemotes u c.who)) := by
  unfold device; rw [hx]
/-- A step of a unit of a die that has stopped does nothing (R23). -/
theorem unitStep_stopped {c : Ctx} {body : Exec Unit} {s : State} (h : (s.die c.die).stopped = true) :
    unitStep c body s = none := by
  unfold unitStep; rw [if_pos h]

theorem settle_trap (s : State) (c ax : Nat) (v : Word64) :
    settle s (.trap c ax v) = .next (takeTrap s c ax v s.cur.pc) := rfl
theorem settle_trapAt (s : State) (c ax : Nat) (v r : Word64) :
    settle s (.trapAt c ax v r) = .next (takeTrap s c ax v r) := rfl
theorem settle_wait (s : State) : settle s .wait = .next s := rfl
theorem settle_keep (s t : State) (e : Exc) : settle s (.keep t e) = settle t e := rfl

/-! ### Taking a trap -/

theorem dropWaits_cur (s : State) (t : Tid) : (dropWaits s t).cur = s.cur := by
  unfold dropWaits; split <;> rfl
theorem dropWatch_cur (t : Tid) (s : State) : (dropWatch t s).cur = s.cur := by
  unfold dropWatch; split <;> rfl
theorem putFault_cur (s : State) (d seq off : Nat) (b : List Byte) : (putFault s d seq off b).cur = s.cur := by
  unfold putFault; split <;> rfl
theorem setFaultStatus_cur (s : State) (d seq st : Nat) : (setFaultStatus s d seq st).cur = s.cur :=
  putFault_cur _ _ _ _ _
theorem orphanFaults_cur (s : State) (t : Tid) : (orphanFaults s t).cur = s.cur := by
  have one : ∀ (d : Nat) (fs : List FaultRec) (a : State), (fs.foldl (fun (a : State) f =>
      (setFaultStatus a d f.seq 3).setDie d { (setFaultStatus a d f.seq 3).die d with
        faults := ((setFaultStatus a d f.seq 3).die d).faults.filter (fun g => g.seq != f.seq) }) a).cur = a.cur := by
    intro d fs
    induction fs with
    | nil => exact fun a => rfl
    | cons f r ih => exact fun a => (ih _).trans (setFaultStatus_cur a d f.seq 3)
  unfold orphanFaults
  suffices H : ∀ (l : Sparse DieSt) (a : State), (l.foldl (fun (acc : State) p =>
      (p.2.faults.filter (fun f => f.tid == t && !f.what.isEngine)).foldl (fun (a : State) f =>
        (setFaultStatus a p.1 f.seq 3).setDie p.1 { (setFaultStatus a p.1 f.seq 3).die p.1 with
          faults := ((setFaultStatus a p.1 f.seq 3).die p.1).faults.filter (fun g => g.seq != f.seq) }) acc) a).cur
      = a.cur from H s.dies s
  intro l
  induction l with
  | nil => exact fun a => rfl
  | cons p r ih => exact fun a => (ih _).trans (one p.1 _ a)
/-- What a trap does to the current thread, whatever else it gives up (R153, R154). -/
theorem takeTrap_cur (s : State) (cause axis : Nat) (v r : Word64) :
    (takeTrap s cause axis v r).cur =
      if s.cur.trapEnds cause then s.cur.endByTrap cause v r else s.cur.enterHandler cause axis v r := by
  have h : (dropWatch s.cur.tid (dropOwnRemotes (orphanFaults (dropWaits s s.cur.tid) s.cur.tid) s.cur.tid)).cur = s.cur :=
    (dropWatch_cur _ _).trans ((orphanFaults_cur _ _).trans (dropWaits_cur _ _))
  unfold takeTrap
  dsimp only
  rw [h]
  split <;> rfl

/-! ### Memory -/

theorem SameButCaches.refl (s : State) : SameButCaches s s := ⟨rfl, fun _ => ⟨rfl, fun _ h => h, fun _ => rfl⟩⟩
theorem SameButCaches.trans {s t u : State} (h1 : SameButCaches s t) (h2 : SameButCaches t u) : SameButCaches s u := by
  refine ⟨?_, fun d => ⟨(h2.2 d).1.trans (h1.2 d).1, fun k hk => (h1.2 d).2.1 k ((h2.2 d).2.1 k hk),
    fun c => ((h2.2 d).2.2 c).trans ((h1.2 d).2.2 c)⟩⟩
  have e1 := h1.1
  rw [← h2.1] at e1
  exact e1
/-- A die of which only what its caches hold has changed. -/
theorem SameButCaches.of_die {s : State} {d : Nat} {x : DieSt} (h : coldDie x = coldDie (s.die d))
    (hk : ∀ k ∈ x.copies, k ∈ (s.die d).copies) (hc : ∀ c, coldCore (x.core c) = coldCore ((s.die d).core c)) :
    SameButCaches s (s.setDie d x) := by
  refine ⟨rfl, fun e => ?_⟩
  unfold State.core
  by_cases he : e = d
  · subst he; simpa using ⟨h, hk, hc⟩
  · rw [State.die_setDie_other _ _ he]; exact ⟨rfl, fun _ h => h, fun _ => rfl⟩
theorem coldCore_setCore (x : DieSt) (c : Nat) (k : CoreSt) (h : coldCore k = coldCore (x.core c)) (e : Nat) :
    coldCore ((x.setCore c k).core e) = coldCore (x.core e) := by
  by_cases he : e = c
  · subst he; simpa using h
  · rw [DieSt.core_setCore_other _ _ he]
theorem coldCore_map (f : CoreSt → CoreSt) (hf : ∀ k, coldCore (f k) = coldCore k) (l : Sparse CoreSt) (c : Nat) :
    coldCore (spGet CoreSt.reset (l.map (fun (p : Nat × CoreSt) => (p.1, f p.2))) c) = coldCore (spGet CoreSt.reset l c) := by
  induction l with
  | nil => rfl
  | cons p r ih =>
    obtain ⟨j, k⟩ := p
    simp only [List.map_cons, spGet]
    split
    · exact hf k
    · split
      · rfl
      · exact ih

/-- A translation cached for an access, and nothing else. -/
theorem SameButCaches.tlbFill (c : Ctx) (e : TlbEnt) (s : State) : SameButCaches s (Machine.tlbFill c e s) := by
  unfold Machine.tlbFill
  refine .of_die ?_ ?_ ?_
  · dsimp only; split <;> rfl
  · dsimp only; split <;> exact fun _ h => h
  · intro k
    dsimp only
    split
    · exact coldCore_setCore (s.die c.die) c.core { (s.die c.die).core c.core with
        tlb := tlbPut 2048 e ((s.die c.die).core c.core).tlb } rfl k
    · rfl
/-- The lines that a core's caches hold after an access are all that has changed of it. -/
theorem coldCore_touch (k : CoreSt) (v : Via) (line : Nat) (w : Bool) (n : Nat) : coldCore (k.touch v line w n) = coldCore k := by
  cases v <;> rfl
/-- A core's caches once its die's units have accessed a line, and nothing else. -/
theorem coldCore_yield (line : Nat) (w : Bool) (y : CoreSt) :
    coldCore (if y.l1d.any (fun z => z.line == line) then y.yieldLine line w else y) = coldCore y := by
  split <;> rfl
/-- A core that has dropped an instruction line, and nothing else. -/
theorem coldCore_drop (line : Nat) (y : CoreSt) :
    coldCore (if y.l1i.contains line then { y with l1i := y.l1i.filter (· != line) } else y) = coldCore y := by
  split <;> rfl
/-- The lines that a die's caches hold after an access, and nothing else. -/
theorem SameButCaches.touched (c : Ctx) (line : Nat) (w : Bool) (n : Nat) (s : State) :
    SameButCaches s (Machine.touched c line w n s) := by
  have base : ∀ k, coldCore ((if c.via = .unit ∨ c.via = .home then
        { s.die c.die with cores := (s.die c.die).cores.map (fun (i, k) =>
          (i, if k.l1d.any (fun z => z.line == line) then k.yieldLine line w else k)) }
      else (s.die c.die).setCore c.core (((s.die c.die).core c.core).touch c.via line w n)).core k) =
      coldCore ((s.die c.die).core k) := by
    intro k
    split
    · exact coldCore_map _ (coldCore_yield line w) _ k
    · exact coldCore_setCore _ _ _ (coldCore_touch _ _ _ _ _) k
  unfold Machine.touched
  dsimp only
  refine .of_die ?_ ?_ fun k => ?_
  · split <;> split <;> split <;> rfl
  · split <;> split <;> split <;> exact fun _ h => h
  · have drop : ∀ x : DieSt, coldCore (({ x with cores := dropFetched line x.cores } : DieSt).core k) = coldCore (x.core k) :=
      fun x => coldCore_map _ (coldCore_drop line) x.cores k
    have whole : ∀ (x : DieSt) (l : List L2Line), ({ x with l2 := l } : DieSt).core k = x.core k := fun _ _ => rfl
    split
    · rw [whole]
      split
      · exact (drop _).trans (base k)
      · exact base k
    · split
      · exact (drop _).trans (base k)
      · exact base k
theorem touchLine_run (c : Ctx) (line : Nat) (w : Bool) (s : State) :
    ∃ u, touchLine c line w s = .ok ((), u) ∧ SameButCaches s u := by
  unfold touchLine
  by_cases h : c.via = .array false
  · rw [if_pos h, bind_ok (a := s.draws) (t := { s with draws := s.draws + 1 }) rfl]
    exact ⟨_, rfl, .trans (t := { s with draws := s.draws + 1 })
      ⟨rfl, fun _ => ⟨rfl, fun _ h => h, fun _ => rfl⟩⟩ (.touched _ _ _ _ _)⟩
  · rw [if_neg h, bind_ok (pure_run 0 s)]
    exact ⟨_, rfl, .touched _ _ _ _ _⟩

/-- Whether the weight-store slots take writes does not hang on cached translations. -/
theorem wsOpen_tlbFill (c : Ctx) (e : TlbEnt) (s : State) (k : Nat) : wsOpen (tlbFill c e s) k = wsOpen s k := by
  unfold wsOpen tlbFill
  by_cases hd : homeOf k = c.die
  · rw [hd]; simp only [State.die_setDie_same]; split <;> rfl
  · simp only [State.die_setDie_other _ _ hd]; rfl
/-- The checks of an access to a byte that is mapped pass; the state may gain a cached translation (R266). -/
theorem translate_run {s : State} {c : Ctx} {acc : Acc} {va : Word64} {key : Nat} {msa : Bool}
    (h : Mapped s c acc va.toNat key msa) :
    ∃ u x, Machine.translate c acc va s = .ok (x, u) ∧ x.loc = .here key ∧ x.msa = msa ∧
      (u = s ∨ ∃ e, u = tlbFill c e s) := by
  obtain ⟨hva, e, b, ⟨hw, ht⟩, hs, hp, hpub, hl, hsk, hf, hat, _, hws, hen, hm, _⟩ := h
  have hhi : (va.extractLsb' 55 9 == 0#9) = true := by
    rw [beq_iff_eq]
    apply BitVec.eq_of_toNat_eq
    simp only [BitVec.extractLsb'_toNat, BitVec.toNat_ofNat, Nat.shiftRight_eq_div_pow]
    rw [Nat.div_eq_of_lt hva]
  have htr : ∃ u, translation c va.toNat s = .ok (.ok (e, b), u) ∧ (u = s ∨ ∃ e, u = tlbFill c e s) := by
    unfold translation
    rw [bind_ok (get_run s)]
    cases hfd : cachedEntry s c va.toNat with
    | some t =>
      have h2 : t.entry = e ∧ t.bits = b := by
        have hin : ∀ l : List TlbEnt, tlbFind l c.sec va.toNat = some t → t ∈ l ∧ t.sec = c.sec ∧ t.vpn = va.toNat / 2 ^ t.bits := by
          intro l h0
          have h1 := List.find?_some h0
          simp only [Bool.and_eq_true, beq_iff_eq] at h1
          exact ⟨List.mem_of_find?_eq_some h0, h1.1, h1.2⟩
        unfold cachedEntry at hfd
        unfold cachedFor at ht
        by_cases hc : c.coreTlb = true
        · simp only [hc, if_true] at hfd ht
          cases h0 : tlbFind (s.core c.die c.core).tlb c.sec va.toNat with
          | some t' =>
            rw [h0] at hfd
            obtain rfl : t' = t := by simpa using hfd
            have h1 := hin _ h0
            exact ht t' (List.mem_append_right _ h1.1) h1.2.1 h1.2.2
          | none =>
            rw [h0] at hfd
            have h1 := hin _ (by simpa using hfd)
            exact ht t (List.mem_append_left _ h1.1) h1.2.1 h1.2.2
        · simp only [hc] at hfd ht
          have h1 := hin _ (by simpa using hfd)
          exact ht t (List.mem_append_left _ h1.1) h1.2.1 h1.2.2
      refine ⟨s, ?_, .inl rfl⟩
      dsimp only
      rw [hw, if_pos (by rw [h2.1, h2.2]; rfl)]
      rfl
    | none =>
      dsimp only
      rw [hw]
      exact ⟨_, rfl, .inr ⟨_, rfl⟩⟩
  obtain ⟨u, hu, hor⟩ := htr
  have hfw : u.fw = s.fw := by rcases hor with rfl | ⟨e, rfl⟩ <;> rfl
  have hwo : ∀ k, wsOpen u k = wsOpen s k := by
    rcases hor with rfl | ⟨e, rfl⟩
    · exact fun _ => rfl
    · exact fun k => wsOpen_tlbFill c e s k
  have hbp : beingPublished u c.sec (va.toNat / 65536) = false := by
    rcases hor with rfl | ⟨e, rfl⟩
    · exact hpub
    · rw [← hpub]
      exact State.any_setDie s c.die _ (fun x => x.shadows.any fun k =>
        k.publishing && k.region.sec == c.sec && k.pages.contains (va.toNat / 65536)) rfl (by split <;> rfl)
  refine ⟨u, { pa := entryPa e + va.toNat % 2 ^ b, loc := .here key, msa := e.getLsbD 5, sh := e.getLsbD 7 }, ?_, rfl, hm.symm,
    hor⟩
  unfold Machine.translate
  rw [bind_ok (check_true _ s hhi)]
  dsimp only
  rw [bind_ok (get_run s)]
  rw [bind_ok (check_true _ s (by cases h : c.what.isEngine <;> simp [h, hen])),
    bind_ok (check_true _ s (by cases h : c.what.isEngine <;> simp [h, hen])), bind_ok hu]
  dsimp only
  rw [bind_ok (get_run u)]
  rw [hfw, hl, bind_ok (check_true _ u (by
      rcases hs with h | h
      · simp [h]
      · rcases hsk with h2 | h2
        · simp [h2]
        · rw [h]; simp [Loc.secure, h2])), bind_ok (check_true _ u hp), bind_ok (check_true _ u (by rw [hbp]; rfl))]
  dsimp only
  rw [bind_ok (check_true _ u (by by_cases h : acc = .fetch <;> simp_all))]
  rw [bind_ok (check_true _ u (by by_cases h : acc = .atomic <;> simp_all))]
  rw [bind_ok (check_true _ u (by
    rw [hwo]
    by_cases h : acc = .write
    · by_cases h2 : isWs key = true
      · simp [hws h h2]
      · simp [h2]
    · simp [h]))]
  rfl
/-- An address of which a bit above bit 54 is set traps 0x07, TVAL the address (R144). -/
theorem translate_high {s : State} {c : Ctx} {acc : Acc} {va : Word64} (h : 2 ^ 55 ≤ va.toNat) :
    Machine.translate c acc va s = .error (.trap cProt 0 va) := by
  have hhi : (va.extractLsb' 55 9 == 0#9) = false := by
    rw [beq_eq_false_iff_ne]
    intro h2
    have h3 := congrArg BitVec.toNat h2
    simp only [BitVec.extractLsb'_toNat, BitVec.toNat_ofNat, Nat.shiftRight_eq_div_pow] at h3
    have h4 := va.isLt
    omega
  unfold Machine.translate
  rw [bind_error (check_false _ s hhi)]
/-- Bytes of a memory-side line read as memory holds them (R259). -/
theorem readLine_msa (s : State) (c : Ctx) (key n : Nat) :
    readLine c key n true s = .ok ((s.mem.readN key n, poisonHere s key n), s) := by
  unfold readLine
  rw [bind_ok (get_run s), if_pos rfl]
  rfl
theorem foldl_overlay_nil {α β : Type} (f : β → α → β) {l : List α} (b : β) (h : l = []) : l.foldl f b = b := by
  subst h; rfl
/-- Bytes of a line homed on the die, of which it has no write of its own to come, read as memory holds them (R367). -/
theorem readLine_own {s : State} {c : Ctx} {key n : Nat} (hv : c.via ≠ .home) (h : homeOf key = c.die)
    (hn : key % 128 + n ≤ 128) (hw : ownWrites s c.die (key / 128) = []) :
    ∃ u, readLine c key n false s =
      .ok ((s.mem.readN key n, poisonHere s key n), u) ∧ SameButCaches s u := by
  obtain ⟨u, hu, hs⟩ := touchLine_run c (key / 128) false s
  refine ⟨u, ?_, hs⟩
  unfold readLine
  rw [bind_ok (get_run s), if_neg (by decide), if_neg hv, if_pos h, bind_ok hu]
  show Except.ok ((seenBytes s c.die key n, poisonSeen s c.die key n), u) = _
  have h1 : seenBytes s c.die key n = s.mem.readN key n := by
    unfold seenBytes; exact foldl_overlay_nil _ _ hw
  have h2 : poisonSeen s c.die key n = poisonHere s key n := by
    unfold poisonSeen poisonHere
    refine List.filter_congr fun g hg => ?_
    have hg : g / 4 = key / 128 := by
      unfold granulesOf at hg
      split at hg
      · cases hg
      · obtain ⟨i, hi, rfl⟩ := List.mem_map.mp hg
        have := List.mem_range.mp hi
        omega
    unfold seenPoison
    exact foldl_overlay_nil _ _ (by rw [hg]; exact hw)
  rw [h1, h2]
theorem SameButCaches.xwrites_eq {s t : State} (h : SameButCaches s t) : t.xwrites = s.xwrites := by
  rw [← h.1]
theorem SameButCaches.mem_eq {s t : State} (h : SameButCaches s t) : t.mem = s.mem := by rw [← h.1]
theorem SameButCaches.vc_eq {s t : State} (h : SameButCaches s t) (d : Nat) : (t.die d).vc = (s.die d).vc := by
  exact show (coldDie (t.die d)).vc = (coldDie (s.die d)).vc from congrArg DieSt.vc (h.2 d).1
/-- What the caches hold says nothing about which writes have been applied. -/
theorem SameButCaches.landsNow_eq {s t : State} (h : SameButCaches s t) (d key : Nat) (msa : Bool) :
    landsNow t d key msa = landsNow s d key msa := by
  unfold landsNow coveredApplied coveredBy
  rw [h.xwrites_eq, h.vc_eq d]
/-- A die that notes the rank of a write, and nothing else. -/
theorem SameButCaches.noteRank (s : State) (d now key : Nat) :
    SameButCaches s (s.setDie d ((s.die d).noteRank now key)) := .of_die rfl (fun _ h => h) fun _ => rfl
/-- Dies that drop their copies of a line, and nothing else. -/
theorem SameButCaches.dropShared (t : Option Tid) (d line : Nat) (s : State) :
    SameButCaches s (Machine.dropShared t d line s) := by
  unfold Machine.dropShared
  generalize otherDies s t d = l
  induction l generalizing s with
  | nil => exact .refl s
  | cons e r ih =>
    exact .trans (.of_die (x := { s.die e with copies := (s.die e).copies.filter (fun k => k.line != line) }) rfl
      (fun k hk => (List.mem_filter.mp hk).1) fun _ => rfl) (ih _)
/-- Bytes that can be applied as they are written, in the order of the cycle's writes, are memory's at once (R367, R370,
R372). -/
theorem writeLine_lands {s : State} {c : Ctx} {key : Nat} {bytes : List Byte} {bad : List Nat} {msa : Bool}
    (hr : rankOk s c.die key = true) (h : landsNow s c.die key msa = true) :
    ∃ u, writeLine c key bytes bad msa s = .ok ((), landBytes key bytes bad u) ∧ SameButCaches s u := by
  have fin : ∀ u, SameButCaches s u → ∃ v, performWrite c.die (some c.tid) key bytes bad msa u = landBytes key bytes bad v ∧
      SameButCaches s v := by
    intro u hu
    have hn := hu.trans (.noteRank u c.die u.cycle key)
    refine ⟨Machine.dropShared (some c.tid) c.die (key / 128) (u.setDie c.die ((u.die c.die).noteRank u.cycle key)), ?_,
      hn.trans (.dropShared _ _ _ _)⟩
    unfold performWrite
    dsimp only
    rw [if_pos (by rw [hn.landsNow_eq]; exact h)]
  unfold writeLine
  rw [bind_ok (get_run s), bind_ok (check_true _ s hr)]
  cases msa with
  | true =>
    obtain ⟨v, hv, hs⟩ := fin s (.refl s)
    exact ⟨v, congrArg (fun x => Except.ok ((), x)) hv, hs⟩
  | false =>
    obtain ⟨u, hu, hs⟩ := touchLine_run c (key / 128) true s
    obtain ⟨v, hv, hs⟩ := fin u hs
    refine ⟨v, ?_, hs⟩
    show (touchLine c (key / 128) true >>= fun _ => _) s = _
    rw [bind_ok hu]
    exact congrArg (fun x => Except.ok ((), x)) hv
theorem waitRefresh_run {s : State} {c : Ctx} {key : Nat} (h : isWs key = true → refreshLeft s.cycle (wsSlice key) = 0) :
    waitRefresh c key s = .ok ((), s) := by
  unfold waitRefresh
  rw [bind_ok (get_run s)]
  refine check_true _ s ?_
  by_cases h2 : isWs key = true
  · simp [h h2]
  · simp [h2]

end Sys2Proof.Claim
end

