-- ==== Sys2Proof/Laws/Keeps.lean ====
section
/-!
SUPPORT. The canonical form of memory through a piece of an instruction: a piece keeps it where each of its parts does.
The operations over memory are covered here once, so that a proof about a meaning cites them and unfolds none.
-/
namespace Sys2Proof.Machine

/-- Memory is in its canonical form. -/
def WfMem (s : State) : Prop := s.mem.wf = true
/-- Every state that an end carries has memory in its canonical form. -/
def WfExc : Exc → Prop
  | .keep s e => WfMem s ∧ WfExc e
  | _ => True
/-- A piece leaves memory in its canonical form, however it ends. -/
def Keeps {α : Type} (x : Exec α) : Prop :=
  ∀ s, WfMem s → (∀ a t, x s = .ok (a, t) → WfMem t) ∧ ∀ e, x s = .error e → WfExc e

theorem WfMem.of_mem_eq {s t : State} (h : WfMem s) (e : t.mem = s.mem) : WfMem t := by
  unfold WfMem at *; rw [e]; exact h

/-! ### Combinators -/

theorem keeps_pure {α : Type} (a : α) : Keeps (pure a : Exec α) := by
  intro s hs
  refine ⟨fun b t h => ?_, fun e h => ?_⟩
  · cases h; exact hs
  · cases h

theorem keeps_bind {α β : Type} {x : Exec α} {f : α → Exec β} (hx : Keeps x) (hf : ∀ a, Keeps (f a)) :
    Keeps (x >>= f) := by
  intro s hs
  have h0 : (x >>= f) s = (match x s with
    | .ok (a, t) => f a t
    | .error e => .error e) := by
    show (StateT.bind x f) s = _
    unfold StateT.bind
    show Except.bind (x s) _ = _
    cases x s <;> rfl
  rw [h0]
  have h1 := hx s hs
  cases h : x s with
  | error e => exact ⟨fun b t h' => by simp at h', fun e' h' => by cases h'; exact h1.2 e h⟩
  | ok p => exact hf p.1 p.2 (h1.1 p.1 p.2 h)

theorem keeps_get : Keeps (get : Exec State) := by
  intro s hs
  exact ⟨fun b t h => by cases h; exact hs, fun e h => by cases h⟩

theorem keeps_set {t : State} (h : WfMem t) : Keeps (set t : Exec PUnit) := by
  intro s hs
  exact ⟨fun b u h' => by cases h'; exact h, fun e h' => by cases h'⟩

/-- `get`, and then something that may use what was read. -/
theorem keeps_get_bind {β : Type} {f : State → Exec β} (hf : ∀ s, WfMem s → Keeps (f s)) : Keeps (get >>= f) := by
  intro s hs
  exact hf s hs s hs

theorem keeps_modify {f : State → State} (h : ∀ s, WfMem s → WfMem (f s)) : Keeps (modify f : Exec PUnit) := by
  intro s hs
  exact ⟨fun b u h' => by cases h'; exact h s hs, fun e h' => by cases h'⟩

theorem keeps_stop {α : Type} {e : Exc} (h : WfExc e) : Keeps (stop e : Exec α) := by
  intro s hs
  exact ⟨fun b u h' => (nomatch h'), fun e' h' => by cases h'; exact h⟩

theorem keeps_trapNow {α : Type} (c : Nat) (v : Word64) : Keeps (trapNow c v : Exec α) := keeps_stop trivial

theorem keeps_stopKeep {α : Type} {e : Exc} (h : WfExc e) : Keeps (stopKeep e : Exec α) := by
  intro s hs
  exact ⟨fun b u h' => (nomatch h'), fun e' h' => by cases h'; exact ⟨hs, h⟩⟩

theorem keeps_check {c : Bool} {e : Exc} (h : WfExc e) : Keeps (check c e) := by
  unfold check; split
  · exact keeps_pure _
  · exact keeps_stop h

theorem keeps_checkKeep {c : Bool} {e : Exc} (h : WfExc e) : Keeps (checkKeep c e) := by
  unfold checkKeep; split
  · exact keeps_pure _
  · exact keeps_stopKeep h

theorem keeps_whenB {c : Bool} {x : Exec Unit} (h : Keeps x) : Keeps (whenB c x) := by
  unfold whenB; split
  · exact h
  · exact keeps_pure _

theorem keeps_attempt {α : Type} {x : Exec α} (h : Keeps x) : Keeps (attempt x) := by
  intro s hs
  have h1 := h s hs
  unfold attempt
  cases h2 : x s with
  | error e => exact ⟨fun b u h' => by cases h'; exact hs, fun e' h' => by cases h'⟩
  | ok p => exact ⟨fun b u h' => by cases h'; exact h1.1 _ _ h2, fun e' h' => by cases h'⟩

theorem keeps_forEach {α : Type} {f : α → Exec Unit} (l : List α) (h : ∀ a ∈ l, Keeps (f a)) : Keeps (forEach l f) := by
  induction l with
  | nil => exact keeps_pure _
  | cons a r ih =>
    exact keeps_bind (h a List.mem_cons_self) fun _ => ih fun b hb => h b (List.mem_cons_of_mem _ hb)

theorem keeps_mapEach {α β : Type} {f : α → Exec β} (l : List α) (h : ∀ a ∈ l, Keeps (f a)) : Keeps (mapEach l f) := by
  induction l with
  | nil => exact keeps_pure _
  | cons a r ih =>
    exact keeps_bind (h a List.mem_cons_self) fun _ =>
      keeps_bind (ih fun b hb => h b (List.mem_cons_of_mem _ hb)) fun _ => keeps_pure _

theorem keeps_foldEach {α β : Type} {f : β → α → Exec β} (l : List α) (b : β) (h : ∀ b a, Keeps (f b a)) :
    Keeps (foldEach l b f) := by
  induction l generalizing b with
  | nil => exact keeps_pure _
  | cons a r ih => exact keeps_bind (h b a) fun c => ih c

theorem keeps_of_map {α β : Type} {f : α → β} {x : Exec α} (h : Keeps x) : Keeps (f <$> x) := by
  have : (f <$> x) = (x >>= fun a => pure (f a)) := rfl
  rw [this]
  exact keeps_bind h fun _ => keeps_pure _

/-! ### Accessors -/

theorem keeps_setDie (d : Nat) (x : DieSt) : Keeps (setDie d x) := keeps_modify fun _ hs => hs
theorem keeps_modDie (d : Nat) (f : DieSt → DieSt) : Keeps (modDie d f) := keeps_modify fun _ hs => hs
theorem keeps_getDie (d : Nat) : Keeps (getDie d) := keeps_bind keeps_get fun _ => keeps_pure _
theorem keeps_getCore (d c : Nat) : Keeps (getCore d c) := keeps_bind keeps_get fun _ => keeps_pure _
theorem keeps_modCore (d c : Nat) (f : CoreSt → CoreSt) : Keeps (modCore d c f) := keeps_modify fun _ hs => hs
theorem keeps_modSlotAt (d c z : Nat) (f : Slot → Slot) : Keeps (modSlotAt d c z f) := keeps_modify fun _ hs => hs
theorem keeps_modFw (f : Firmware → Firmware) : Keeps (modFw f) := keeps_modify fun _ hs => hs
theorem keeps_modCur (f : Thread → Thread) : Keeps (modCur f) := keeps_modify fun _ hs => hs
theorem keeps_drawNo : Keeps drawNo := fun _ hs => ⟨fun b u h' => by cases h'; exact hs, fun e h' => by cases h'⟩
theorem State.modThread_mem (s : State) (t : Tid) (f : Thread → Thread) : (s.modThread t f).mem = s.mem := by
  unfold State.modThread; split <;> rfl
theorem keeps_modThread (t : Tid) (f : Thread → Thread) : Keeps (modThread t f) :=
  keeps_modify fun s hs => hs.of_mem_eq (s.modThread_mem t f)
theorem keeps_modRegion (r : RegionId) (f : Region → Region) : Keeps (modRegion r f) := keeps_modify fun _ hs => hs
theorem keeps_enabled (c : Bool) : Keeps (enabled c) := by
  unfold enabled; split
  · exact keeps_pure _
  · exact keeps_stop trivial
theorem keeps_enabledSome {α : Type} (o : Option α) : Keeps (enabledSome o) := by
  cases o
  · exact keeps_stop trivial
  · exact keeps_pure _

theorem keeps_readReg (r : Reg) : Keeps (readReg r) := by
  intro s hs
  unfold readReg
  split <;> split <;>
    exact ⟨fun b u h' => by cases h' <;> exact hs, fun e h' => by cases h' <;> trivial⟩
theorem keeps_writeReg (r : Reg) (x : Word64) : Keeps (writeReg r x) := by
  intro s hs
  unfold writeReg
  split <;> split <;>
    exact ⟨fun b u h' => by cases h' <;> exact hs, fun e h' => by cases h' <;> trivial⟩
theorem keeps_readSrc (b : Src) : Keeps (readSrc b) := by
  cases b
  · exact keeps_readReg _
  · exact keeps_pure _
theorem keeps_curPc : Keeps curPc := keeps_bind keeps_get fun _ => keeps_pure _
theorem keeps_illop {α : Type} : Keeps (illop : Exec α) := keeps_bind keeps_curPc fun _ => keeps_trapNow _ _
theorem keeps_legal (c : Bool) : Keeps (legal c) := by
  unfold legal; split
  · exact keeps_pure _
  · exact keeps_illop
theorem keeps_addFlags (f : Flg) : Keeps (addFlags f) := by
  intro s hs
  unfold addFlags
  split <;> exact ⟨fun b u h' => by cases h'; exact hs, fun e h' => by cases h'⟩
theorem keeps_mergeFlags (t : Tid) (f : Word64) : Keeps (mergeFlags t f) := keeps_modThread _ _
theorem keeps_lateReg (t : Tid) (r : Reg) (v : Word64) : Keeps (lateReg t r v) := keeps_modThread _ _

/-! ### Translation -/

theorem keeps_translation (c : Ctx) (va : Nat) : Keeps (translation c va) := by
  unfold translation
  refine keeps_bind keeps_get fun s => ?_
  dsimp only
  split
  · split
    · exact keeps_pure _
    · exact keeps_bind keeps_drawNo fun n => keeps_pure _
  · split
    · exact keeps_bind (keeps_modify fun _ hs => hs) fun _ => keeps_pure _
    · exact keeps_pure _

theorem keeps_translate (c : Ctx) (acc : Acc) (va : Word64) : Keeps (translate c acc va) := by
  unfold translate
  refine keeps_bind (keeps_check trivial) fun _ => keeps_bind keeps_get fun _ => ?_
  refine keeps_bind (keeps_check trivial) fun _ => keeps_bind (keeps_check trivial) fun _ => ?_
  refine keeps_bind (keeps_translation _ _) fun r => ?_
  split
  · exact keeps_stop trivial
  · exact keeps_trapNow _ _
  · exact keeps_stop trivial
  · exact keeps_stop trivial
  · refine keeps_bind keeps_get fun s => ?_
    dsimp only
    refine keeps_bind (keeps_check trivial) fun _ => ?_
    refine keeps_bind (keeps_check trivial) fun _ => ?_
    refine keeps_bind (keeps_check trivial) fun _ => ?_
    split
    · exact keeps_trapNow _ _
    · exact keeps_bind (keeps_check trivial) fun _ => keeps_pure _
    · exact keeps_bind (keeps_check trivial) fun _ => keeps_bind (keeps_check trivial) fun _ =>
        keeps_bind (keeps_check trivial) fun _ => keeps_pure _

theorem keeps_translatePieces (c : Ctx) (acc : Acc) (va : Word64) (n : Nat) : Keeps (translatePieces c acc va n) :=
  keeps_mapEach _ fun _ _ => keeps_bind (keeps_translate _ _ _) fun _ => keeps_pure _

/-! ### Reads -/

theorem keeps_touchLine (c : Ctx) (line : Nat) (w : Bool) : Keeps (touchLine c line w) := by
  unfold touchLine
  dsimp only
  split
  · exact keeps_bind keeps_drawNo fun _ => keeps_modify fun _ hs => hs
  · exact keeps_bind (keeps_pure _) fun _ => keeps_modify fun _ hs => hs
theorem keeps_hearClock (d h : Nat) : Keeps (hearClock d h) := keeps_modify fun _ hs => hs
theorem keeps_fillCopy (c : Ctx) (line : Nat) : Keeps (fillCopy c line) :=
  keeps_bind keeps_get fun _ => keeps_bind (keeps_modDie _ _) fun _ => keeps_bind (keeps_modify fun _ hs => hs) fun _ =>
    keeps_bind (keeps_hearClock _ _) fun _ => keeps_pure _

theorem keeps_copyFor (c : Ctx) (line : Nat) : Keeps (copyFor c line) := by
  unfold copyFor
  refine keeps_bind keeps_get fun s => ?_
  split
  · exact keeps_pure _
  · exact keeps_fillCopy _ _

theorem keeps_readHome (c : Ctx) (key n : Nat) : Keeps (readHome c key n) := by
  unfold readHome
  refine keeps_bind keeps_get fun s => keeps_bind (keeps_check trivial) fun _ => keeps_bind (keeps_touchLine _ _ _) fun _ =>
    keeps_bind (keeps_whenB (keeps_modify fun _ hs => hs)) fun _ => ?_
  dsimp only
  split
  · exact keeps_bind (keeps_modDie _ _) fun _ => keeps_bind (keeps_hearClock _ _) fun _ => keeps_pure _
  · exact keeps_pure _

theorem keeps_readLine (c : Ctx) (key n : Nat) (msa : Bool) : Keeps (readLine c key n msa) := by
  unfold readLine
  refine keeps_bind keeps_get fun s => ?_
  split
  · exact keeps_pure _
  · split
    · exact keeps_readHome _ _ _
    · split
      · exact keeps_bind (keeps_touchLine _ _ _) fun _ => keeps_pure _
      · exact keeps_bind (keeps_copyFor _ _) fun _ => keeps_bind (keeps_touchLine _ _ _) fun _ => keeps_pure _

theorem keeps_remoteAsk (c : Ctx) (q : LinkReq) : Keeps (remoteAsk c q) := by
  unfold remoteAsk
  refine keeps_bind keeps_get fun s => ?_
  split
  · split
    · exact keeps_pure _
    · exact keeps_stop trivial
  · exact keeps_stop trivial
theorem keeps_remoteAll (c : Ctx) (qs : List LinkReq) : Keeps (remoteAll c qs) := by
  unfold remoteAll
  refine keeps_bind keeps_get fun s => ?_
  dsimp only
  split
  · exact keeps_stop trivial
  · refine keeps_mapEach _ fun q _ => ?_
    split
    · exact keeps_pure _
    · exact keeps_stop trivial

theorem keeps_waitRefresh (c : Ctx) (key : Nat) : Keeps (waitRefresh c key) := by
  unfold waitRefresh
  refine keeps_bind keeps_get fun _ => keeps_check ?_
  split <;> trivial
theorem keeps_waitInserts (c : Ctx) (key n : Nat) : Keeps (waitInserts c key n) :=
  keeps_bind keeps_get fun _ => keeps_check trivial

/-! ### Writes -/

theorem wf_landBytes {s : State} (key : Nat) (bytes : List Byte) (bad : List Nat) (h : WfMem s) :
    WfMem (landBytes key bytes bad s) := Memory.wf_foldl_setPoison bad (Memory.wf_writeN key bytes h)
@[simp] theorem sendWrite_mem (d : Nat) (t : Option Tid) (key : Nat) (bytes : List Byte) (bad : List Nat) (s : State) :
    (sendWrite d t key bytes bad s).mem = s.mem := rfl
theorem foldl_mem {α : Type} {f : State → α → State} (hf : ∀ s a, (f s a).mem = s.mem) (l : List α) (s : State) :
    (l.foldl f s).mem = s.mem := by
  induction l generalizing s with
  | nil => rfl
  | cons a r ih => exact (ih _).trans (hf s a)
@[simp] theorem dropShared_mem (t : Option Tid) (d line : Nat) (s : State) : (dropShared t d line s).mem = s.mem :=
  foldl_mem (f := fun (u : State) e =>
    u.setDie e { u.die e with copies := (u.die e).copies.filter (fun k => k.line != line) }) (fun _ _ => rfl) _ _
theorem wf_performWrite {s : State} (d : Nat) (t : Option Tid) (key : Nat) (bytes : List Byte) (bad : List Nat) (msa : Bool)
    (h : WfMem s) : WfMem (performWrite d t key bytes bad msa s) := by
  unfold performWrite
  dsimp only
  split
  · exact wf_landBytes _ _ _ (h.of_mem_eq (dropShared_mem _ _ _ _))
  · exact h
theorem wf_performStore {s : State} (x : HeldStore) (h : WfMem s) : WfMem (performStore x s) :=
  wf_performWrite (s := State.setDie { s with stores := s.stores.erase x } x.die _) _ _ _ _ _ _ h
theorem wf_foldl {α : Type} {f : State → α → State} (hf : ∀ s a, WfMem s → WfMem (f s a)) (l : List α) {s : State}
    (h : WfMem s) : WfMem (l.foldl f s) := by
  induction l generalizing s with
  | nil => exact h
  | cons a r ih => exact ih (hf s a h)
theorem keeps_performLoad (h : HeldLoad) : Keeps (performLoad h) := by
  unfold performLoad
  refine keeps_bind (keeps_modify fun _ hs => hs) fun _ => keeps_bind keeps_get fun s => ?_
  dsimp only
  split
  · exact keeps_pure _
  · exact keeps_bind (keeps_readLine _ _ _ _) fun _ => keeps_lateReg _ _ _
theorem keeps_performEach (l : List HeldStore) : Keeps (performEach l) :=
  keeps_forEach _ fun _ _ => keeps_bind keeps_get fun _ => keeps_bind (keeps_check trivial) fun _ =>
    keeps_modify fun _ hs => wf_performStore _ hs
theorem keeps_performStores (t : Tid) (p : Nat → Bool) : Keeps (performStores t p) :=
  keeps_bind keeps_get fun _ => keeps_performEach _
theorem keeps_performLoads (t : Tid) (p : Nat → Bool) : Keeps (performLoads t p) :=
  keeps_bind keeps_get fun _ => keeps_forEach _ fun h _ => keeps_performLoad h
theorem keeps_performHeld (t : Tid) (p : Nat → Bool) : Keeps (performHeld t p) :=
  keeps_bind (keeps_performStores _ _) fun _ => keeps_performLoads _ _
theorem keeps_performLine (c : Ctx) (key : Nat) : Keeps (performLine c key) := keeps_performHeld _ _
theorem keeps_waitShares (c : Ctx) (key n : Nat) : Keeps (waitShares c key n) :=
  keeps_bind keeps_get fun _ => keeps_check trivial

theorem keeps_writeLine (c : Ctx) (key : Nat) (bytes : List Byte) (bad : List Nat) (msa : Bool) :
    Keeps (writeLine c key bytes bad msa) :=
  keeps_bind keeps_get fun _ => keeps_bind (keeps_check trivial) fun _ =>
    keeps_bind (keeps_whenB (keeps_touchLine _ _ _)) fun _ => keeps_modify fun _ hs => wf_performWrite _ _ _ _ _ _ hs

theorem keeps_freeBytes (n : Nat) : Keeps (freeBytes n) :=
  keeps_mapEach _ fun _ _ => keeps_bind keeps_drawNo fun _ => keeps_pure _

theorem keeps_readPiece (c : Ctx) (a k : Nat) (x : Xlat) : Keeps (readPiece c a k x) := by
  unfold readPiece
  split
  · exact keeps_trapNow _ _
  · dsimp only
    refine keeps_bind (keeps_remoteAsk _ _) fun r => ?_
    split
    · exact keeps_pure _
    · exact keeps_trapNow _ _
  · refine keeps_bind (keeps_waitRefresh _ _) fun _ => keeps_bind (keeps_waitInserts _ _ _) fun _ =>
      keeps_bind (keeps_whenB (keeps_performLine _ _)) fun _ => keeps_bind (keeps_waitShares _ _ _) fun _ =>
      keeps_bind (keeps_readLine _ _ _ _) fun r => keeps_bind keeps_get fun s => ?_
    split
    · exact keeps_bind (keeps_freeBytes _) fun _ => keeps_pure _
    · exact keeps_pure _

theorem keeps_readVa (c : Ctx) (acc : Acc) (va : Word64) (n : Nat) : Keeps (readVa c acc va n) := by
  unfold readVa
  exact keeps_bind (keeps_translatePieces _ _ _ _) fun ps => keeps_foldEach _ _ fun b p =>
    keeps_bind (keeps_readPiece _ _ _ _) fun r => keeps_pure _

theorem keeps_loadVa (c : Ctx) (acc : Acc) (va : Word64) (n : Nat) : Keeps (loadVa c acc va n) :=
  keeps_bind (keeps_readVa _ _ _ _) fun _ => keeps_bind (keeps_check trivial) fun _ => keeps_pure _

theorem keeps_writePiece (c : Ctx) (a : Nat) (x : Xlat) (bytes : List Byte) (bad : List Nat) :
    Keeps (writePiece c a x bytes bad) := by
  unfold writePiece
  split
  · exact keeps_trapNow _ _
  · refine keeps_bind (keeps_remoteAsk _ _) fun r => ?_
    split
    · exact keeps_pure _
    · exact keeps_trapNow _ _
  · refine keeps_bind (keeps_waitRefresh _ _) fun _ => keeps_bind (keeps_waitInserts _ _ _) fun _ =>
      keeps_bind (keeps_waitShares _ _ _) fun _ => keeps_bind keeps_get fun s => ?_
    split
    · exact keeps_bind (keeps_performLoads _ _) fun _ => keeps_bind (keeps_whenB (keeps_touchLine _ _ _)) fun _ =>
        keeps_modify fun _ hs => hs
    · exact keeps_bind (keeps_whenB (keeps_performLine _ _)) fun _ => keeps_writeLine _ _ _ _ _

theorem keeps_storeVaBad (c : Ctx) (va : Word64) (bytes : List Byte) (bad : Nat → Bool) :
    Keeps (storeVaBad c va bytes bad) := by
  unfold storeVaBad
  exact keeps_bind (keeps_translatePieces _ _ _ _) fun ps => keeps_forEach _ fun p _ => keeps_writePiece _ _ _ _ _

theorem keeps_storeVa (c : Ctx) (va : Word64) (bytes : List Byte) : Keeps (storeVa c va bytes) :=
  keeps_storeVaBad _ _ _ _

/-! ### Atomics and writes at the line's own place -/

@[simp] theorem stampHome_mem (d h : Nat) (stamp : List Word32) (s : State) : (stampHome d h stamp s).mem = s.mem := rfl
theorem wf_beaconFrom {s : State} (d : Nat) (h : WfMem s) : WfMem (beaconFrom s d) :=
  wf_foldl (f := hearBeacon d ((s.die d).vc.getD d 0#32) (appliedVec s d)) (fun _ _ hs => hs) (List.range 8) h
theorem wf_beaconAll {s : State} (h : WfMem s) : WfMem (beaconAll s) := wf_foldl (fun _ d hs => wf_beaconFrom d hs) _ h

theorem keeps_atomClocks (d key : Nat) (msa : Bool) : Keeps (atomClocks d key msa) := by
  unfold atomClocks
  refine keeps_modify fun s hs => ?_
  split
  · exact hs
  · exact hs

theorem wf_writeHome {d : Nat} {p : State × Bool} (w : Nat × List Byte × List Nat) (h : WfMem p.1) :
    WfMem (writeHome d p w).1 := by
  have h1 : ∀ (u v : State) (st : List Word32), WfMem u → v = (if homeOf w.1 = d then u else stampHome d (homeOf w.1) st u) →
      WfMem (landBytes w.1 w.2.1 w.2.2 (v.setDie d ((v.die d).noteRank v.cycle w.1))) := by
    intro u v st hu hv
    refine wf_landBytes _ _ _ (WfMem.of_mem_eq hu ?_)
    rw [hv]; split <;> rfl
  have h2 : ∀ b : Bool, WfMem (if b then p.1 else beaconAll p.1) := by
    intro b; cases b
    · exact wf_beaconAll h
    · exact h
  exact h1 _ _ _ (h2 _) rfl
theorem keeps_writeThrough (c : Ctx) (l : List (Nat × List Byte × List Nat)) : Keeps (writeThrough c l) := by
  unfold writeThrough
  refine keeps_bind (keeps_forEach _ fun w _ => keeps_bind (keeps_waitRefresh _ _) fun _ =>
    keeps_bind (keeps_waitInserts _ _ _) fun _ => keeps_bind (keeps_whenB (keeps_performLine _ _)) fun _ =>
    keeps_waitShares _ _ _) fun _ => ?_
  refine keeps_get_bind fun s hs => keeps_bind (keeps_check trivial) fun _ => keeps_set ?_
  have h1 : ∀ (parts : List (Nat × List Byte × List Nat)) (p : State × Bool), WfMem p.1 →
      WfMem (parts.foldl (writeHome c.die) p).1 := by
    intro parts
    induction parts with
    | nil => exact fun _ h => h
    | cons w r ih => exact fun p h => ih _ (wf_writeHome w h)
  exact h1 _ (s, true) hs
theorem keeps_landAtom (t : Tid) (d key : Nat) (b : List Byte) : Keeps (landAtom t d key b) :=
  keeps_modify fun s hs => wf_landBytes _ _ _
    (WfMem.of_mem_eq (s := s.setDie d ((s.die d).noteRank s.cycle key)) hs (dropShared_mem _ _ _ _))

theorem keeps_atomicAt (c : Ctx) (a : Nat) (x : Xlat) (n : Nat) (pv : Word64) (q : LinkReq) (f : Nat → Nat × Flg) :
    Keeps (atomicAt c a x n pv q f) := by
  unfold atomicAt
  split
  · exact keeps_trapNow _ _
  · refine keeps_bind (keeps_remoteAsk _ _) fun r => ?_
    split
    · exact keeps_bind (keeps_check trivial) fun _ => keeps_pure _
    · exact keeps_trapNow _ _
  · refine keeps_bind (keeps_waitInserts _ _ _) fun _ => keeps_bind (keeps_whenB (keeps_performLine _ _)) fun _ =>
      keeps_bind (keeps_waitShares _ _ _) fun _ =>
      keeps_bind keeps_get fun s => keeps_bind (keeps_checkKeep trivial) fun _ => keeps_bind keeps_get fun s =>
      keeps_bind (keeps_check trivial) fun _ => keeps_bind (keeps_atomClocks _ _ _) fun _ =>
      keeps_bind (keeps_whenB (keeps_bind (keeps_touchLine _ _ _) fun _ => keeps_modify fun _ hs => hs)) fun _ =>
      keeps_bind keeps_get fun t => ?_
    split
    · exact keeps_bind (keeps_of_map (keeps_freeBytes _)) fun _ => keeps_bind (keeps_landAtom _ _ _ _) fun _ => keeps_pure _
    · exact keeps_bind (keeps_pure _) fun _ => keeps_bind (keeps_landAtom _ _ _ _) fun _ => keeps_pure _

/-! ### How a step ends -/

theorem wf_logError {s : State} (d cls : Nat) (k : UnitKind) (unit pa : Nat) (h : WfMem s) :
    WfMem (logError s d cls k unit pa) := by
  unfold logError
  dsimp only
  split
  · exact Memory.wf_writeN _ _ h
  · exact h
theorem wf_sendBy {s : State} (pick : List Nat → Nat) (dst : BitVec 16) (m : Nat → OutMsg) (h : WfMem s) :
    WfMem (sendBy pick s dst m) := by
  unfold sendBy
  dsimp only
  split
  · exact h
  · split
    · exact wf_logError _ _ _ _ _ h
    · exact h
theorem wf_sendHeaded {s : State} (dst src tag : BitVec 16) (m : Nat → MsgHdr → OutMsg) (h : WfMem s) :
    WfMem (sendHeaded s dst src tag m) := by
  have h1 : WfMem (sendMsg s dst (fun p => m p (outHeader s.fw dst src tag))) := wf_sendBy _ _ _ h
  unfold sendHeaded
  dsimp only
  split <;> exact h1
theorem wf_putFault {s : State} (d seq off : Nat) (b : List Byte) (h : WfMem s) : WfMem (putFault s d seq off b) := by
  unfold putFault
  split
  · exact Memory.wf_writeN _ _ h
  · exact h
theorem wf_setFaultStatus {s : State} (d seq st : Nat) (h : WfMem s) : WfMem (setFaultStatus s d seq st) :=
  wf_putFault _ _ _ _ h
theorem wf_tellFault {s : State} (d : Nat) (r : FaultRec) (h : WfMem s) : WfMem (tellFault s d r) := by
  unfold tellFault
  split
  · exact wf_sendHeaded _ _ _ _ h
  · exact h
theorem wf_newFaults {s : State} (fs : List PageFault) (h : WfMem s) : WfMem (newFaults s fs) := by
  induction fs generalizing s with
  | nil => exact h
  | cons p r ih =>
    simp only [newFaults]
    split
    · exact ih h
    · exact ih (wf_tellFault _ _ (wf_putFault _ _ _ _ (s := s.setDie p.die _) h))
theorem wf_orphanFaults {s : State} (t : Tid) (h : WfMem s) : WfMem (orphanFaults s t) := by
  unfold orphanFaults
  exact wf_foldl (fun u p hu => wf_foldl (fun a f ha => wf_setFaultStatus (s := a) p.1 f.seq 3 ha) _ hu) _ h
theorem wf_postRequest {s : State} (w : Agent) (q : LinkReq) (h : WfMem s) : WfMem (postRequest s w q) := by
  unfold postRequest
  dsimp only
  split
  · exact wf_logError 0 clsFailure .lane 0 (reqPa q) h
  · exact h
theorem wf_postRequests {s : State} (qs : List (Agent × LinkReq)) (h : WfMem s) : WfMem (postRequests s qs) :=
  wf_foldl (fun _ q hs => wf_postRequest q.1 q.2 hs) _ h
@[simp] theorem dropRemotes_mem (s : State) (w : Agent) : (dropRemotes s w).mem = s.mem := rfl
@[simp] theorem dropOwnRemotes_mem (s : State) (t : Tid) : (dropOwnRemotes s t).mem = s.mem := rfl
theorem dropWaits_mem (s : State) (t : Tid) : (dropWaits s t).mem = s.mem := by
  unfold dropWaits; split <;> rfl
@[simp] theorem dropWatch_mem (t : Tid) (s : State) : (dropWatch t s).mem = s.mem := by
  unfold dropWatch; split <;> rfl
/-- Taking a trap keeps the canonical form of memory. -/
theorem wf_takeTrap {s : State} (cause axis : Nat) (v r : Word64) (h : WfMem s) : WfMem (takeTrap s cause axis v r) := by
  have h1 : WfMem (dropWatch s.cur.tid (dropOwnRemotes (orphanFaults (dropWaits s s.cur.tid) s.cur.tid) s.cur.tid)) :=
    WfMem.of_mem_eq (wf_orphanFaults (s := dropWaits s s.cur.tid) s.cur.tid (h.of_mem_eq (dropWaits_mem _ _)))
      (dropWatch_mem _ _)
  unfold takeTrap
  dsimp only
  split <;> exact h1
theorem wf_stallOn {s : State} (fs : List PageFault) (h : WfMem s) : WfMem (stallOn s fs) := by
  unfold stallOn
  exact wf_newFaults (s := s) fs h
theorem wf_settle {e : Exc} : ∀ {s t : State}, WfMem s → WfExc e → settle s e = .next t → WfMem t := by
  induction e with
  | trap c ax v => intro s t hs _ h; cases h; exact wf_takeTrap _ _ _ _ hs
  | trapAt c ax v r => intro s t hs _ h; cases h; exact wf_takeTrap _ _ _ _ hs
  | wait => intro s t hs _ h; cases h; exact hs
  | faults fs => intro s t hs _ h; cases h; exact wf_stallOn fs hs
  | remote qs => intro s t hs _ h; cases h; exact wf_postRequests qs hs
  | refresh n => intro s t hs _ h; cases h; exact hs
  | keep u e ih => intro s t hs he h; exact ih he.1 he.2 h
  | idle => intro s t hs _ h; cases h; exact hs
theorem wf_vpStopOf {e : Exc} : ∀ {s t : State}, WfMem s → WfExc e → vpStopOf s e = .next t → WfMem t := by
  induction e with
  | keep u e ih => intro s t hs he h; exact ih he.1 he.2 h
  | _ => intro s t hs _ h; cases h; exact hs
theorem retire_mem (n : Nat) (f : Flow) (s : State) : (retire n f s).mem = s.mem := rfl
theorem endTail_mem (i : Instr) (s : State) : (endTail i s).mem = s.mem := by unfold endTail; split <;> rfl
/-- A meaning run for whoever executes it keeps the canonical form of memory where its body does. -/
theorem wf_perform {i : Instr} {body : Exec Flow} (hb : Keeps body) {s t : State} (hs : WfMem s)
    (h : perform i body s = .next t) : WfMem t := by
  have thread : runThread i body s = .next t → WfMem t := by
    intro h
    unfold runThread at h
    split at h
    · cases h
    · split at h
      · cases h; exact wf_takeTrap _ _ _ _ hs
      · split at h
        · cases h; exact wf_takeTrap _ _ _ _ hs
        · split at h
          · next f u e =>
            cases h
            exact ((hb s hs).1 _ _ e).of_mem_eq ((endTail_mem _ _).trans (retire_mem _ _ _))
          · next e he => exact wf_settle hs ((hb s hs).2 _ he) h
  have vp : ∀ edge, runVp edge i body s = .next t → WfMem t := by
    intro edge h
    unfold runVp at h
    split at h
    · cases h; exact hs
    · split at h
      · next f u e => cases h; exact WfMem.of_mem_eq ((hb s hs).1 _ _ e) rfl
      · next e he => exact wf_vpStopOf hs ((hb s hs).2 _ he) h
  unfold perform at h
  split at h
  · exact thread h
  · exact vp false h
  · exact vp true h
theorem wf_performSeq {i : Instr} {body : Exec Unit} (hb : Keeps body) {s t : State} (hs : WfMem s)
    (h : performSeq i body s = .next t) : WfMem t :=
  wf_perform (keeps_bind hb fun _ => keeps_pure _) hs h
theorem wf_changed {s u t : State} (hu : WfMem u) (h : changed s u = some t) : WfMem t := by
  unfold changed at h
  split at h
  · cases h
  · cases h; exact hu
theorem wf_deviceSettle {e : Exc} {s t : State} (hs : WfMem s) (hx : WfExc e) (h : deviceSettle s e = some t) : WfMem t := by
  unfold deviceSettle at h
  split at h
  · exact wf_changed (wf_newFaults _ hs) h
  · cases h; exact wf_postRequests _ hs
  · split at h
    · exact wf_changed (wf_newFaults _ hx.1) h
    · cases h; exact wf_postRequests _ hx.1
    · exact wf_changed hx.1 h
  · cases h
@[simp] theorem dropUnres_mem (c : Ctx) (s : State) : (dropUnres c s).mem = s.mem := by
  unfold dropUnres; split <;> rfl
/-- A step of the device keeps the canonical form of memory where its body does. -/
theorem wf_device {c : Ctx} {body : Exec Unit} (hb : Keeps body) {s t : State} (hs : WfMem s)
    (h : device c body s = some t) : WfMem t := by
  unfold device at h
  split at h
  · next u e => cases h; exact ((hb s hs).1 _ _ e).of_mem_eq (dropUnres_mem _ _)
  · next e he => exact wf_deviceSettle hs ((hb s hs).2 _ he) h
theorem wf_unitStep {c : Ctx} {body : Exec Unit} (hb : Keeps body) {s t : State} (hs : WfMem s)
    (h : unitStep c body s = some t) : WfMem t := by
  unfold unitStep at h
  split at h
  · cases h
  · exact wf_device hb hs h
theorem wf_goes {s t : State} {r : Option State} (hs : WfMem s) (hr : ∀ u, r = some u → WfMem u) (h : goes s r = .next t) :
    WfMem t := by
  unfold goes at h
  cases r with
  | none => cases h; exact hs
  | some u => cases h; exact hr _ rfl

end Sys2Proof.Machine
end

