-- ==== Sys2Proof/Laws/PerInstr.lean ====
section
/-!
SUPPORT. Facts about every instruction as syntax, one lemma for each constructor.
-/
namespace Sys2Proof.Laws.Words
open Sys2Proof Sys2Proof.Machine

/-- An instruction that words encode takes as many words as its first word says (R96); a step of the device takes
none. -/
def Statement (i : Instr) : Prop := (encode true i).length = if i.isWord then instrWords i else 0

theorem nop : Statement .nop := rfl
theorem add (x0 : IWidth) (x1 : Reg) (x2 : Reg) (x3 : Src) : Statement (.add x0 x1 x2 x3) := by cases x3 <;> rfl
theorem sub (x0 : IWidth) (x1 : Reg) (x2 : Reg) (x3 : Src) : Statement (.sub x0 x1 x2 x3) := by cases x3 <;> rfl
theorem mul (x0 : IWidth) (x1 : Reg) (x2 : Reg) (x3 : Src) : Statement (.mul x0 x1 x2 x3) := by cases x3 <;> rfl
theorem mulh (x0 : Bool) (x1 : IWidth) (x2 : Reg) (x3 : Reg) (x4 : Src) :
    Statement (.mulh x0 x1 x2 x3 x4) := by cases x4 <;> rfl
theorem div (x0 : Bool) (x1 : IWidth) (x2 : Reg) (x3 : Reg) (x4 : Src) :
    Statement (.div x0 x1 x2 x3 x4) := by cases x4 <;> rfl
theorem rem (x0 : Bool) (x1 : IWidth) (x2 : Reg) (x3 : Reg) (x4 : Src) :
    Statement (.rem x0 x1 x2 x3 x4) := by cases x4 <;> rfl
theorem and (x0 : IWidth) (x1 : Reg) (x2 : Reg) (x3 : Src) : Statement (.and x0 x1 x2 x3) := by cases x3 <;> rfl
theorem or (x0 : IWidth) (x1 : Reg) (x2 : Reg) (x3 : Src) : Statement (.or x0 x1 x2 x3) := by cases x3 <;> rfl
theorem xor (x0 : IWidth) (x1 : Reg) (x2 : Reg) (x3 : Src) : Statement (.xor x0 x1 x2 x3) := by cases x3 <;> rfl
theorem shl (x0 : IWidth) (x1 : Reg) (x2 : Reg) (x3 : Src) : Statement (.shl x0 x1 x2 x3) := by cases x3 <;> rfl
theorem shr (x0 : Bool) (x1 : IWidth) (x2 : Reg) (x3 : Reg) (x4 : Src) :
    Statement (.shr x0 x1 x2 x3 x4) := by cases x4 <;> rfl
theorem min (x0 : Bool) (x1 : IWidth) (x2 : Reg) (x3 : Reg) (x4 : Src) :
    Statement (.min x0 x1 x2 x3 x4) := by cases x4 <;> rfl
theorem max (x0 : Bool) (x1 : IWidth) (x2 : Reg) (x3 : Reg) (x4 : Src) :
    Statement (.max x0 x1 x2 x3 x4) := by cases x4 <;> rfl
theorem slt (x0 : Bool) (x1 : IWidth) (x2 : Reg) (x3 : Reg) (x4 : Src) :
    Statement (.slt x0 x1 x2 x3 x4) := by cases x4 <;> rfl
theorem cnt (x0 : CntOp) (x1 : IWidth) (x2 : Reg) (x3 : Reg) : Statement (.cnt x0 x1 x2 x3) := rfl
theorem addi (x0 : Reg) (x1 : Reg) (x2 : BitVec 11) : Statement (.addi x0 x1 x2) := rfl
theorem andi (x0 : Reg) (x1 : Reg) (x2 : BitVec 11) : Statement (.andi x0 x1 x2) := rfl
theorem ori (x0 : Reg) (x1 : Reg) (x2 : BitVec 11) : Statement (.ori x0 x1 x2) := rfl
theorem xori (x0 : Reg) (x1 : Reg) (x2 : BitVec 11) : Statement (.xori x0 x1 x2) := rfl
theorem shli (x0 : Reg) (x1 : Reg) (x2 : BitVec 6) : Statement (.shli x0 x1 x2) := rfl
theorem shri (x0 : Bool) (x1 : Reg) (x2 : Reg) (x3 : BitVec 6) : Statement (.shri x0 x1 x2 x3) := rfl
theorem slti (x0 : Reg) (x1 : Reg) (x2 : BitVec 11) : Statement (.slti x0 x1 x2) := rfl
theorem lui (x0 : Reg) (x1 : BitVec 16) : Statement (.lui x0 x1) := rfl
theorem lpc (x0 : Reg) (x1 : BitVec 16) : Statement (.lpc x0 x1) := rfl
theorem ldd (x0 : Reg) (x1 : Reg) (x2 : BitVec 11) : Statement (.ldd x0 x1 x2) := rfl
theorem ldw (x0 : Reg) (x1 : Reg) (x2 : BitVec 11) : Statement (.ldw x0 x1 x2) := rfl
theorem ldh (x0 : Reg) (x1 : Reg) (x2 : BitVec 11) : Statement (.ldh x0 x1 x2) := rfl
theorem ldb (x0 : Reg) (x1 : Reg) (x2 : BitVec 11) : Statement (.ldb x0 x1 x2) := rfl
theorem std (x0 : Reg) (x1 : Reg) (x2 : BitVec 11) : Statement (.std x0 x1 x2) := rfl
theorem stw (x0 : Reg) (x1 : Reg) (x2 : BitVec 11) : Statement (.stw x0 x1 x2) := rfl
theorem sth (x0 : Reg) (x1 : Reg) (x2 : BitVec 11) : Statement (.sth x0 x1 x2) := rfl
theorem stb (x0 : Reg) (x1 : Reg) (x2 : BitVec 11) : Statement (.stb x0 x1 x2) := rfl
theorem fadd (x0 : FWidth) (x1 : Reg) (x2 : Reg) (x3 : Src) : Statement (.fadd x0 x1 x2 x3) := by cases x3 <;> rfl
theorem fsub (x0 : FWidth) (x1 : Reg) (x2 : Reg) (x3 : Src) : Statement (.fsub x0 x1 x2 x3) := by cases x3 <;> rfl
theorem fmul (x0 : FWidth) (x1 : Reg) (x2 : Reg) (x3 : Src) : Statement (.fmul x0 x1 x2 x3) := by cases x3 <;> rfl
theorem fdiv (x0 : FWidth) (x1 : Reg) (x2 : Reg) (x3 : Src) : Statement (.fdiv x0 x1 x2 x3) := by cases x3 <;> rfl
theorem fma (x0 : FWidth) (x1 : Reg) (x2 : Reg) (x3 : Src) : Statement (.fma x0 x1 x2 x3) := by cases x3 <;> rfl
theorem fmin (x0 : FWidth) (x1 : Reg) (x2 : Reg) (x3 : Src) : Statement (.fmin x0 x1 x2 x3) := by cases x3 <;> rfl
theorem fmax (x0 : FWidth) (x1 : Reg) (x2 : Reg) (x3 : Src) : Statement (.fmax x0 x1 x2 x3) := by cases x3 <;> rfl
theorem fcmp (x0 : FCmpOp) (x1 : FWidth) (x2 : Reg) (x3 : Reg) (x4 : Src) :
    Statement (.fcmp x0 x1 x2 x3 x4) := by cases x4 <;> rfl
theorem fcvt (x0 : FCvtOp) (x1 : Reg) (x2 : Reg) : Statement (.fcvt x0 x1 x2) := rfl
theorem beq (x0 : Reg) (x1 : Reg) (x2 : BitVec 11) : Statement (.beq x0 x1 x2) := rfl
theorem bne (x0 : Reg) (x1 : Reg) (x2 : BitVec 11) : Statement (.bne x0 x1 x2) := rfl
theorem blt (x0 : Reg) (x1 : Reg) (x2 : BitVec 11) : Statement (.blt x0 x1 x2) := rfl
theorem bge (x0 : Reg) (x1 : Reg) (x2 : BitVec 11) : Statement (.bge x0 x1 x2) := rfl
theorem bltu (x0 : Reg) (x1 : Reg) (x2 : BitVec 11) : Statement (.bltu x0 x1 x2) := rfl
theorem bgeu (x0 : Reg) (x1 : Reg) (x2 : BitVec 11) : Statement (.bgeu x0 x1 x2) := rfl
theorem jal (x0 : BitVec 21) : Statement (.jal x0) := rfl
theorem jr (x0 : Reg) (x1 : Reg) : Statement (.jr x0 x1) := rfl
theorem fli (x0 : Reg) (x1 : BitVec 20) : Statement (.fli x0 x1) := rfl
theorem aadd (x0 : EwSrc) (x1 : Reg) (x2 : Reg) (x3 : BitVec 3) (x4 : BitVec 3) :
    Statement (.aadd x0 x1 x2 x3 x4) := by cases x0 <;> rfl
theorem asub (x0 : EwSrc) (x1 : Reg) (x2 : Reg) (x3 : BitVec 3) (x4 : BitVec 3) :
    Statement (.asub x0 x1 x2 x3 x4) := by cases x0 <;> rfl
theorem amul (x0 : EwSrc) (x1 : Reg) (x2 : Reg) (x3 : BitVec 3) (x4 : BitVec 3) :
    Statement (.amul x0 x1 x2 x3 x4) := by cases x0 <;> rfl
theorem afma (x0 : EwSrc) (x1 : Reg) (x2 : Reg) (x3 : BitVec 3) (x4 : BitVec 3) :
    Statement (.afma x0 x1 x2 x3 x4) := by cases x0 <;> rfl
theorem amin (x0 : EwSrc) (x1 : Reg) (x2 : Reg) (x3 : BitVec 3) (x4 : BitVec 3) :
    Statement (.amin x0 x1 x2 x3 x4) := by cases x0 <;> rfl
theorem amax (x0 : EwSrc) (x1 : Reg) (x2 : Reg) (x3 : BitVec 3) (x4 : BitVec 3) :
    Statement (.amax x0 x1 x2 x3 x4) := by cases x0 <;> rfl
theorem adiv (x0 : EwSrc) (x1 : Reg) (x2 : Reg) (x3 : BitVec 3) (x4 : BitVec 3) :
    Statement (.adiv x0 x1 x2 x3 x4) := by cases x0 <;> rfl
theorem aand (x0 : EwSrc) (x1 : Reg) (x2 : Reg) (x3 : BitVec 3) (x4 : BitVec 3) :
    Statement (.aand x0 x1 x2 x3 x4) := by cases x0 <;> rfl
theorem aor (x0 : EwSrc) (x1 : Reg) (x2 : Reg) (x3 : BitVec 3) (x4 : BitVec 3) :
    Statement (.aor x0 x1 x2 x3 x4) := by cases x0 <;> rfl
theorem axor (x0 : EwSrc) (x1 : Reg) (x2 : Reg) (x3 : BitVec 3) (x4 : BitVec 3) :
    Statement (.axor x0 x1 x2 x3 x4) := by cases x0 <;> rfl
theorem ashl (x0 : EwSrc) (x1 : Reg) (x2 : Reg) (x3 : BitVec 3) (x4 : BitVec 3) :
    Statement (.ashl x0 x1 x2 x3 x4) := by cases x0 <;> rfl
theorem ashr (x0 : EwSrc) (x1 : Reg) (x2 : Reg) (x3 : BitVec 3) (x4 : BitVec 3) :
    Statement (.ashr x0 x1 x2 x3 x4) := by cases x0 <;> rfl
theorem aceq (x0 : EwSrc) (x1 : Reg) (x2 : Reg) (x3 : BitVec 3) (x4 : BitVec 3) :
    Statement (.aceq x0 x1 x2 x3 x4) := by cases x0 <;> rfl
theorem acne (x0 : EwSrc) (x1 : Reg) (x2 : Reg) (x3 : BitVec 3) (x4 : BitVec 3) :
    Statement (.acne x0 x1 x2 x3 x4) := by cases x0 <;> rfl
theorem aclt (x0 : EwSrc) (x1 : Reg) (x2 : Reg) (x3 : BitVec 3) (x4 : BitVec 3) :
    Statement (.aclt x0 x1 x2 x3 x4) := by cases x0 <;> rfl
theorem acle (x0 : EwSrc) (x1 : Reg) (x2 : Reg) (x3 : BitVec 3) (x4 : BitVec 3) :
    Statement (.acle x0 x1 x2 x3 x4) := by cases x0 <;> rfl
theorem asel (x0 : EwSrc) (x1 : Reg) (x2 : Reg) (x3 : BitVec 3) (x4 : BitVec 3) :
    Statement (.asel x0 x1 x2 x3 x4) := by cases x0 <;> rfl
theorem aabs (x0 : Reg) (x1 : Reg) (x2 : BitVec 3) (x3 : BitVec 3) : Statement (.aabs x0 x1 x2 x3) := rfl
theorem aneg (x0 : Reg) (x1 : Reg) (x2 : BitVec 3) (x3 : BitVec 3) : Statement (.aneg x0 x1 x2 x3) := rfl
theorem anot (x0 : Reg) (x1 : Reg) (x2 : BitVec 3) (x3 : BitVec 3) : Statement (.anot x0 x1 x2 x3) := rfl
theorem asqrt (x0 : Reg) (x1 : Reg) (x2 : BitVec 3) (x3 : BitVec 3) : Statement (.asqrt x0 x1 x2 x3) := rfl
theorem arcp (x0 : Reg) (x1 : Reg) (x2 : BitVec 3) (x3 : BitVec 3) : Statement (.arcp x0 x1 x2 x3) := rfl
theorem aexp2 (x0 : Reg) (x1 : Reg) (x2 : BitVec 3) (x3 : BitVec 3) : Statement (.aexp2 x0 x1 x2 x3) := rfl
theorem alog2 (x0 : Reg) (x1 : Reg) (x2 : BitVec 3) (x3 : BitVec 3) : Statement (.alog2 x0 x1 x2 x3) := rfl
theorem acvt (x0 : EwSrc) (x1 : Reg) (x2 : Reg) (x3 : BitVec 3) (x4 : BitVec 3) :
    Statement (.acvt x0 x1 x2 x3 x4) := by cases x0 <;> rfl
theorem amov (x0 : Reg) (x1 : Reg) (x2 : BitVec 3) (x3 : BitVec 3) : Statement (.amov x0 x1 x2 x3) := rfl
theorem asplat (x0 : EwSrc) (x1 : Reg) (x2 : Reg) (x3 : BitVec 3) (x4 : BitVec 3) :
    Statement (.asplat x0 x1 x2 x3 x4) := by cases x0 <;> rfl
theorem ascl (x0 : EwSrc) (x1 : Reg) (x2 : Reg) (x3 : BitVec 3) (x4 : BitVec 3) :
    Statement (.ascl x0 x1 x2 x3 x4) := by cases x0 <;> rfl
theorem agscl (x0 : Reg) (x1 : Reg) (x2 : BitVec 3) (x3 : BitVec 3) : Statement (.agscl x0 x1 x2 x3) := rfl
theorem atype (x0 : Reg) (x1 : BitVec 4) (x2 : BitVec 2) : Statement (.atype x0 x1 x2) := rfl
theorem ashp (x0 : Reg) (x1 : Reg) (x2 : Reg) : Statement (.ashp x0 x1 x2) := rfl
theorem aiota (x0 : Reg) (x1 : CountSrc) : Statement (.aiota x0 x1) := by cases x1 <;> rfl
theorem ashape (x0 : Reg) (x1 : Reg) (x2 : Reg) : Statement (.ashape x0 x1 x2) := rfl
theorem ashapep (x0 : Reg) (x1 : Reg) (x2 : PBlock) : Statement (.ashapep x0 x1 x2) := rfl
theorem aredsum (x0 : Reg) (x1 : Reg) (x2 : BitVec 3) (x3 : BitVec 3) : Statement (.aredsum x0 x1 x2 x3) := rfl
theorem aredmax (x0 : Reg) (x1 : Reg) (x2 : BitVec 3) (x3 : BitVec 3) : Statement (.aredmax x0 x1 x2 x3) := rfl
theorem aredmin (x0 : Reg) (x1 : Reg) (x2 : BitVec 3) (x3 : BitVec 3) : Statement (.aredmin x0 x1 x2 x3) := rfl
theorem aredand (x0 : Reg) (x1 : Reg) (x2 : BitVec 3) (x3 : BitVec 3) : Statement (.aredand x0 x1 x2 x3) := rfl
theorem aredor (x0 : Reg) (x1 : Reg) (x2 : BitVec 3) (x3 : BitVec 3) : Statement (.aredor x0 x1 x2 x3) := rfl
theorem aredxor (x0 : Reg) (x1 : Reg) (x2 : BitVec 3) (x3 : BitVec 3) : Statement (.aredxor x0 x1 x2 x3) := rfl
theorem acount (x0 : Reg) (x1 : Reg) (x2 : BitVec 3) (x3 : BitVec 3) : Statement (.acount x0 x1 x2 x3) := rfl
theorem ascansum (x0 : Reg) (x1 : Reg) (x2 : BitVec 3) (x3 : BitVec 3) : Statement (.ascansum x0 x1 x2 x3) := rfl
theorem ascanmax (x0 : Reg) (x1 : Reg) (x2 : BitVec 3) (x3 : BitVec 3) : Statement (.ascanmax x0 x1 x2 x3) := rfl
theorem ascanmin (x0 : Reg) (x1 : Reg) (x2 : BitVec 3) (x3 : BitVec 3) : Statement (.ascanmin x0 x1 x2 x3) := rfl
theorem agrade (x0 : Reg) (x1 : Reg) (x2 : BitVec 3) : Statement (.agrade x0 x1 x2) := rfl
theorem agraded (x0 : Reg) (x1 : Reg) (x2 : BitVec 3) : Statement (.agraded x0 x1 x2) := rfl
theorem arot (x0 : Reg) (x1 : Reg) (x2 : CountSrc) (x3 : BitVec 3) :
    Statement (.arot x0 x1 x2 x3) := by cases x2 <;> rfl
theorem atake (x0 : Reg) (x1 : Reg) (x2 : CountSrc) (x3 : BitVec 3) :
    Statement (.atake x0 x1 x2 x3) := by cases x2 <;> rfl
theorem adrop (x0 : Reg) (x1 : Reg) (x2 : CountSrc) (x3 : BitVec 3) :
    Statement (.adrop x0 x1 x2 x3) := by cases x2 <;> rfl
theorem arev (x0 : Reg) (x1 : Reg) (x2 : BitVec 3) (x3 : BitVec 3) : Statement (.arev x0 x1 x2 x3) := rfl
theorem atrans (x0 : Reg) (x1 : Reg) (x2 : BitVec 3) (x3 : BitVec 3) : Statement (.atrans x0 x1 x2 x3) := rfl
theorem acat (x0 : Reg) (x1 : Reg) (x2 : Reg) (x3 : BitVec 3) (x4 : BitVec 3) :
    Statement (.acat x0 x1 x2 x3 x4) := rfl
theorem aoutmul (x0 : Reg) (x1 : Reg) (x2 : Reg) (x3 : BitVec 3) (x4 : BitVec 3) :
    Statement (.aoutmul x0 x1 x2 x3 x4) := rfl
theorem aoutadd (x0 : Reg) (x1 : Reg) (x2 : Reg) (x3 : BitVec 3) (x4 : BitVec 3) :
    Statement (.aoutadd x0 x1 x2 x3 x4) := rfl
theorem aouteq (x0 : Reg) (x1 : Reg) (x2 : Reg) (x3 : BitVec 3) (x4 : BitVec 3) :
    Statement (.aouteq x0 x1 x2 x3 x4) := rfl
theorem acomp (x0 : Reg) (x1 : Reg) (x2 : Reg) (x3 : BitVec 3) : Statement (.acomp x0 x1 x2 x3) := rfl
theorem aexpd (x0 : Reg) (x1 : Reg) (x2 : Reg) (x3 : BitVec 3) : Statement (.aexpd x0 x1 x2 x3) := rfl
theorem afrom (x0 : Reg) (x1 : Reg) (x2 : Reg) (x3 : BitVec 3) (x4 : BitVec 3) :
    Statement (.afrom x0 x1 x2 x3 x4) := rfl
theorem aidxof (x0 : Reg) (x1 : Reg) (x2 : Reg) (x3 : BitVec 3) (x4 : BitVec 3) :
    Statement (.aidxof x0 x1 x2 x3 x4) := rfl
theorem amembr (x0 : Reg) (x1 : Reg) (x2 : Reg) (x3 : BitVec 3) (x4 : BitVec 3) :
    Statement (.amembr x0 x1 x2 x3 x4) := rfl
theorem each (x0 : Reg) (x1 : Reg) (x2 : Reg) (x3 : BitVec 3) : Statement (.each x0 x1 x2 x3) := rfl
theorem vnext (x0 : BitVec 21) : Statement (.vnext x0) := rfl
theorem vpend : Statement .vpend := rfl
theorem vget (x0 : Reg) : Statement (.vget x0) := rfl
theorem vput (x0 : Reg) : Statement (.vput x0) := rfl
theorem xstep (x0 : XstepKind) (x1 : Reg) (x2 : Reg) (x3 : Reg) : Statement (.xstep x0 x1 x2 x3) := rfl
theorem amoviFrom (x0 : Reg) (x1 : Reg) : Statement (.amoviFrom x0 x1) := rfl
theorem amoviTo (x0 : Reg) (x1 : Reg) : Statement (.amoviTo x0 x1) := rfl
theorem mbld (x0 : Bool) (x1 : Reg) : Statement (.mbld x0 x1) := rfl
theorem mbwl (x0 : Bool) (x1 : Reg) : Statement (.mbwl x0 x1) := rfl
theorem mmul (x0 : Dataflow) (x1 : Bool) (x2 : Bool) (x3 : BitVec 2) (x4 : Reg) (x5 : Reg) :
    Statement (.mmul x0 x1 x2 x3 x4 x5) := by cases x0 <;> rfl
theorem mzero (x0 : BitVec 2) : Statement (.mzero x0) := rfl
theorem mrd (x0 : BitVec 2) (x1 : Reg) : Statement (.mrd x0 x1) := rfl
theorem mwr (x0 : BitVec 2) (x1 : Reg) : Statement (.mwr x0 x1) := rfl
theorem mwait : Statement .mwait := rfl
theorem mspa (x0 : Reg) : Statement (.mspa x0) := rfl
theorem mqry (x0 : BitVec 2) (x1 : Reg) (x2 : Reg) : Statement (.mqry x0 x1 x2) := rfl
theorem ald (x0 : Reg) (x1 : Reg) (x2 : Reg) (x3 : BitVec 3) (x4 : PBlock) : Statement (.ald x0 x1 x2 x3 x4) := rfl
theorem ast (x0 : Reg) (x1 : Reg) (x2 : Reg) (x3 : BitVec 3) (x4 : PBlock) : Statement (.ast x0 x1 x2 x3 x4) := rfl
theorem agat (x0 : Reg) (x1 : Reg) (x2 : Reg) (x3 : BitVec 3) : Statement (.agat x0 x1 x2 x3) := rfl
theorem asct (x0 : Reg) (x1 : Reg) (x2 : Reg) (x3 : BitVec 3) : Statement (.asct x0 x1 x2 x3) := rfl
theorem wsld (x0 : Reg) (x1 : Reg) (x2 : Reg) (x3 : BitVec 3) (x4 : PBlock) : Statement (.wsld x0 x1 x2 x3 x4) := rfl
theorem wsst (x0 : Reg) (x1 : Reg) (x2 : Reg) (x3 : BitVec 3) (x4 : PBlock) : Statement (.wsst x0 x1 x2 x3 x4) := rfl
theorem wsstImage (x0 : Reg) (x1 : Reg) (x2 : Reg) (x3 : BitVec 3) (x4 : PBlock) :
    Statement (.wsstImage x0 x1 x2 x3 x4) := rfl
theorem apf (x0 : Reg) (x1 : PBlock) : Statement (.apf x0 x1) := rfl
theorem cbld (x0 : Reg) (x1 : BitVec 11) : Statement (.cbld x0 x1) := rfl
theorem sgraph (x0 : Bool) (x1 : Reg) (x2 : Reg) : Statement (.sgraph x0 x1 x2) := rfl
theorem srun (x0 : Bool) (x1 : Bool) (x2 : Reg) (x3 : Reg) : Statement (.srun x0 x1 x2 x3) := rfl
theorem spub (x0 : Scope) (x1 : Reg) (x2 : Reg) : Statement (.spub x0 x1 x2) := rfl
theorem sdisc (x0 : Reg) (x1 : Reg) : Statement (.sdisc x0 x1) := rfl
theorem egraph (x0 : Reg) (x1 : Reg) : Statement (.egraph x0 x1) := rfl
theorem eprog (x0 : Reg) (x1 : Reg) (x2 : Reg) : Statement (.eprog x0 x1 x2) := rfl
theorem erun (x0 : ErunMode) (x1 : Bool) (x2 : Reg) (x3 : Reg) (x4 : Reg) : Statement (.erun x0 x1 x2 x3 x4) := rfl
theorem emode (x0 : Reg) (x1 : Reg) : Statement (.emode x0 x1) := rfl
theorem ecomb (x0 : Reg) : Statement (.ecomb x0) := rfl
theorem eact : Statement .eact := rfl
theorem topk (x0 : BitVec 2) (x1 : Reg) (x2 : Reg) (x3 : Reg) : Statement (.topk x0 x1 x2 x3) := rfl
theorem ttbld (x0 : Bool) (x1 : Reg) (x2 : Reg) : Statement (.ttbld x0 x1 x2) := rfl
theorem tseq (x0 : Bool) (x1 : Reg) (x2 : Reg) : Statement (.tseq x0 x1 x2) := rfl
theorem xslot (x0 : XslotOp) (x1 : Reg) (x2 : Reg) : Statement (.xslot x0 x1 x2) := rfl
theorem cpy (x0 : Bool) (x1 : Bool) (x2 : Reg) (x3 : Reg) (x4 : Reg) : Statement (.cpy x0 x1 x2 x3 x4) := rfl
theorem amo (x0 : AtomOp) (x1 : IWidth) (x2 : Reg) (x3 : Reg) (x4 : Src) :
    Statement (.amo x0 x1 x2 x3 x4) := by cases x4 <;> rfl
theorem amoa (x0 : AtomOp) (x1 : Reg) (x2 : Reg) (x3 : Reg) (x4 : BitVec 3) : Statement (.amoa x0 x1 x2 x3 x4) := rfl
theorem mredadd (x0 : Reg) (x1 : Reg) (x2 : BitVec 3) : Statement (.mredadd x0 x1 x2) := rfl
theorem mredmin (x0 : Reg) (x1 : Reg) (x2 : BitVec 3) : Statement (.mredmin x0 x1 x2) := rfl
theorem mredmax (x0 : Reg) (x1 : Reg) (x2 : BitVec 3) : Statement (.mredmax x0 x1 x2) := rfl
theorem mredor (x0 : Reg) (x1 : Reg) (x2 : BitVec 3) : Statement (.mredor x0 x1 x2) := rfl
theorem fence (x0 : FenceKind) (x1 : Scope) : Statement (.fence x0 x1) := rfl
theorem semtas (x0 : Reg) (x1 : BitVec 11) : Statement (.semtas x0 x1) := rfl
theorem semtry (x0 : Reg) (x1 : Reg) (x2 : BitVec 11) : Statement (.semtry x0 x1 x2) := rfl
theorem semclr (x0 : Reg) (x1 : BitVec 11) : Statement (.semclr x0 x1) := rfl
theorem crld (x0 : Reg) (x1 : Reg) (x2 : BitVec 11) : Statement (.crld x0 x1 x2) := rfl
theorem crst (x0 : Reg) (x1 : Reg) (x2 : BitVec 11) : Statement (.crst x0 x1 x2) := rfl
theorem evwait (x0 : Reg) (x1 : Reg) : Statement (.evwait x0 x1) := rfl
theorem evget (x0 : Reg) (x1 : Reg) : Statement (.evget x0 x1) := rfl
theorem evpost (x0 : Reg) (x1 : Reg) : Statement (.evpost x0 x1) := rfl
theorem pub (x0 : Scope) (x1 : Reg) : Statement (.pub x0 x1) := rfl
theorem mon (x0 : IWidth) (x1 : Reg) (x2 : Reg) (x3 : Src) : Statement (.mon x0 x1 x2 x3) := by cases x3 <;> rfl
theorem csrr (x0 : Reg) (x1 : BitVec 16) : Statement (.csrr x0 x1) := rfl
theorem csrw (x0 : Reg) (x1 : BitVec 16) : Statement (.csrw x0 x1) := rfl
theorem csrs (x0 : Reg) (x1 : BitVec 16) : Statement (.csrs x0 x1) := rfl
theorem csrc (x0 : Reg) (x1 : BitVec 16) : Statement (.csrc x0 x1) := rfl
theorem ecall : Statement .ecall := rfl
theorem ebreak : Statement .ebreak := rfl
theorem tret : Statement .tret := rfl
theorem yield : Statement .yield := rfl
theorem quota (x0 : Reg) (x1 : Reg) : Statement (.quota x0 x1) := rfl
theorem spawn (x0 : Reg) (x1 : Reg) : Statement (.spawn x0 x1) := rfl
theorem done : Statement .done := rfl
theorem asave (x0 : Reg) : Statement (.asave x0) := rfl
theorem arest (x0 : Reg) : Statement (.arest x0) := rfl
theorem dmap (x0 : Reg) : Statement (.dmap x0) := rfl
theorem tlbinv (x0 : Reg) (x1 : Reg) : Statement (.tlbinv x0 x1) := rfl
theorem fqret (x0 : Reg) : Statement (.fqret x0) := rfl
theorem wsph (x0 : Reg) : Statement (.wsph x0) := rfl
theorem seedWrite (x0 : Word64) : Statement (.seedWrite x0) := rfl
theorem convoyStart : Statement .convoyStart := rfl
theorem unknownSizeComplete (x0 : Tid) : Statement (.unknownSizeComplete x0) := rfl
theorem powerUp : Statement .powerUp := rfl
theorem reset (x0 : MsgHdr) (x1 : BitVec 16) (x2 : BitVec 16) (x3 : Word64) (x4 : Word64) (x5 : Word64) :
    Statement (.reset x0 x1 x2 x3 x4 x5) := rfl
theorem enum (x0 : MsgHdr) (x1 : Word64) : Statement (.enum x0 x1) := rfl
theorem negotiate (x0 : MsgHdr) (x1 : Word64) : Statement (.negotiate x0 x1) := rfl
theorem map (x0 : MsgHdr) (x1 : Byte) (x2 : Word64) : Statement (.map x0 x1 x2) := rfl
theorem spawnMessage (x0 : MsgHdr) (x1 : Word64) (x2 : Byte) : Statement (.spawnMessage x0 x1 x2) := rfl
theorem abort (x0 : MsgHdr) (x1 : Byte) (x2 : Word64) : Statement (.abort x0 x1 x2) := rfl
theorem health (x0 : MsgHdr) (x1 : Word64) : Statement (.health x0 x1) := rfl
theorem retireRead (x0 : MsgHdr) (x1 : Word64) : Statement (.retireRead x0 x1) := rfl
theorem attest (x0 : MsgHdr) (x1 : BitVec 256) (x2 : Word64) : Statement (.attest x0 x1 x2) := rfl
theorem wsphase (x0 : MsgHdr) (x1 : Byte) (x2 : Byte) : Statement (.wsphase x0 x1 x2) := rfl
theorem faultReply (x0 : MsgHdr) (x1 : Byte) : Statement (.faultReply x0 x1) := rfl
theorem remoteRequest (x0 : BitVec 16) (x1 : BitVec 16) (x2 : Byte) (x3 : LinkReq) :
    Statement (.remoteRequest x0 x1 x2 x3) := rfl
theorem linkRequestTimeout (x0 : Nat) : Statement (.linkRequestTimeout x0) := rfl
theorem placeRegion (x0 : Nat) : Statement (.placeRegion x0) := rfl
theorem threadDispatch (x0 : Tid) : Statement (.threadDispatch x0) := rfl
theorem yieldDeadlineExpiry (x0 : Tid) : Statement (.yieldDeadlineExpiry x0) := rfl
theorem yieldDeadlineTrap (x0 : Tid) : Statement (.yieldDeadlineTrap x0) := rfl
theorem preEmption (x0 : Tid) : Statement (.preEmption x0) := rfl
theorem thermalStop (x0 : Nat) : Statement (.thermalStop x0) := rfl
theorem thermalResume (x0 : Nat) : Statement (.thermalResume x0) := rfl
theorem refreshWindowStart (x0 : BitVec 4) : Statement (.refreshWindowStart x0) := rfl
theorem refreshWindowEnd (x0 : BitVec 4) : Statement (.refreshWindowEnd x0) := rfl
theorem copyExpiry (x0 : Nat) (x1 : Nat) : Statement (.copyExpiry x0 x1) := rfl
theorem beacon (x0 : Nat) : Statement (.beacon x0) := rfl
theorem crossDieWriteApply (x0 : Nat) (x1 : Nat) : Statement (.crossDieWriteApply x0 x1) := rfl
theorem topkInsert (x0 : Nat) : Statement (.topkInsert x0) := rfl
theorem wsphApply (x0 : Nat) : Statement (.wsphApply x0) := rfl
theorem matrixEntryStart (x0 : Nat) (x1 : Nat) (x2 : Nat) : Statement (.matrixEntryStart x0 x1 x2) := rfl
theorem matrixEntryComplete (x0 : Nat) (x1 : Nat) (x2 : Nat) : Statement (.matrixEntryComplete x0 x1 x2) := rfl
theorem sgraphConfig (x0 : Nat) : Statement (.sgraphConfig x0) := rfl
theorem srunChunkDone (x0 : Nat) (x1 : Nat) (x2 : Nat) : Statement (.srunChunkDone x0 x1 x2) := rfl
theorem srunComplete (x0 : Nat) (x1 : Nat) : Statement (.srunComplete x0 x1) := rfl
theorem spubApply (x0 : Nat) : Statement (.spubApply x0) := rfl
theorem sdiscApply (x0 : Nat) : Statement (.sdiscApply x0) := rfl
theorem cpyComplete (x0 : Nat) : Statement (.cpyComplete x0) := rfl
theorem edgeChunkDone (x0 : Nat) (x1 : Nat) : Statement (.edgeChunkDone x0 x1) := rfl
theorem edgeSuperstepEnd (x0 : Nat) (x1 : Nat) : Statement (.edgeSuperstepEnd x0 x1) := rfl
theorem ttbldComplete (x0 : Nat) : Statement (.ttbldComplete x0) := rfl
theorem tseqBufferStart (x0 : Nat) (x1 : Nat) : Statement (.tseqBufferStart x0 x1) := rfl
theorem tseqComplete (x0 : Nat) (x1 : Nat) : Statement (.tseqComplete x0 x1) := rfl
theorem henFaultService (x0 : Nat) (x1 : Nat) : Statement (.henFaultService x0 x1) := rfl
theorem faultEntryAct (x0 : Nat) (x1 : Nat) : Statement (.faultEntryAct x0 x1) := rfl
theorem correctedError (x0 : Nat) (x1 : UnitKind) (x2 : Nat) (x3 : Nat) :
    Statement (.correctedError x0 x1 x2 x3) := rfl
theorem uncorrectableError (x0 : Nat) (x1 : UnitKind) (x2 : Nat) (x3 : Nat) :
    Statement (.uncorrectableError x0 x1 x2 x3) := rfl
theorem coreFailure (x0 : Nat) (x1 : Nat) : Statement (.coreFailure x0 x1) := rfl
theorem powerLoss (x0 : Bool) : Statement (.powerLoss x0) := rfl
theorem remoteReply (x0 : Nat) (x1 : LinkReply) : Statement (.remoteReply x0 x1) := rfl
theorem linkTrainingFailure (x0 : Nat) (x1 : Nat) : Statement (.linkTrainingFailure x0 x1) := rfl

end Sys2Proof.Laws.Words
end

