-- ==== Sys2Proof/Tests/Slice0.lean ====
section
/-!
SUPPORT. The model's own tests. Ill-formed terms are refused; words written out from the encodings of the manual (R96 to
R117 and the encoding tables of each family) decode to the instructions they stand for; single instructions give results
worked out by hand from their rules; and, last, a witness for the hypotheses of each statement, `hyp_<its name>`.
-/
set_option maxRecDepth 20000

namespace Slice0Tests
open Sys2Proof Sys2Proof.Machine Sys2Proof.Claim

/-! ### Well-formedness -/

/-- The parameter block of R105's example, and one well-formed for `ashapep`. -/
def blockR105 : PBlock :=
  { rank := 2#4, ty := 5#4, bl := 0#2, boff := 0#3, pb := false, nt := false, x0 := 0xFFE5#16, x1 := 3#16, x2 := 0#16, x3 := 0#16
    pn := 3#16, pu := 0#16 }
def shapeBlock : PBlock := { blockR105 with ty := 0#4, pn := 0#16 }
/-- R104, R191, R194, R207, R229, R239: each check refuses a term that breaks it alone. -/
theorem test_wf_refuses : [Instr.acvt (.arr 1#5) 3#5 5#5 0#3 0#3, .asplat (.arr 0#5) 3#5 5#5 0#3 0#3, .atype 3#5 5#4 1#2, .ashp 3#5 5#5 8#5,
    .ashapep 3#5 5#5 { shapeBlock with ty := 5#4 }, .ashapep 3#5 5#5 { shapeBlock with pn := 1#16 }, .vget 16#5, .vput 16#5, .ecomb 16#5,
    .xstep .gather 3#5 5#5 1#5, .xstep .scatter 3#5 5#5 1#5, .mmul .ip false true 0#2 3#5 1#5, .mspa 30#5, .mqry 0#2 3#5 6#5,
    .mqry 1#2 3#5 0#5].all (fun i => !i.wf) = true := by decide
theorem test_wf_refuses_blocks : [{ blockR105 with rank := 0#4 }, { blockR105 with rank := 5#4 }, { blockR105 with bl := 1#2 },
    { blockR105 with x2 := 0xFFE0#16 }, { blockR105 with x3 := 1#16 }, { blockR105 with pu := 1#16 },
    { blockR105 with rank := 1#4, x1 := 0#16 }, { blockR105 with rank := 1#4, pn := 0#16 }].all (fun p =>
    [Instr.ald 3#5 5#5 9#5 0#3 p, .ast 3#5 5#5 9#5 0#3 p, .wsld 3#5 5#5 9#5 0#3 p, .wsst 3#5 5#5 9#5 0#3 p, .wsstImage 3#5 5#5 9#5 0#3 p,
      .apf 5#5 p].all (fun i => !i.wf)) = true := by decide
theorem test_wf_accepts : [Instr.acvt (.arr 0#5) 3#5 5#5 0#3 0#3, .asplat (.sca 5#5) 3#5 5#5 0#3 0#3, .atype 3#5 13#4 3#2, .ashp 3#5 5#5 7#5,
    .ashapep 3#5 5#5 shapeBlock, .vget 15#5, .xstep .rotate 3#5 5#5 1#5, .xstep .gather 3#5 5#5 0#5, .mmul .op false true 0#2 3#5 1#5,
    .mspa 29#5, .mqry 1#2 3#5 4#5, .ald 3#5 5#5 9#5 0#3 blockR105].all (fun i => i.wf) = true := by decide

/-! ### Decoding -/

/-- Each word decodes to the instruction beside it. -/
def readsAs (l : List (Word32 × Instr)) : Bool := l.all (fun p => decodeTableWord 32 p.1.toNat == some p.2)
theorem test_decode_integer : readsAs [
    (1#1 ++ 0x000#10 ++ 0#5 ++ 0#5 ++ 0#5 ++ 0#6, .nop),
    (1#1 ++ 0x001#10 ++ 3#5 ++ 5#5 ++ 9#5 ++ 1#2 ++ 0#1 ++ 0#3, .add .w32 3#5 5#5 (.reg 9#5)),
    (1#1 ++ 0x002#10 ++ 3#5 ++ 5#5 ++ 9#5 ++ 3#2 ++ 0#1 ++ 0#3, .sub .w8 3#5 5#5 (.reg 9#5)),
    (1#1 ++ 0x003#10 ++ 3#5 ++ 5#5 ++ 9#5 ++ 0#2 ++ 0#1 ++ 0#3, .mul .w64 3#5 5#5 (.reg 9#5)),
    (1#1 ++ 0x004#10 ++ 3#5 ++ 5#5 ++ 9#5 ++ 1#2 ++ 0#1 ++ 0#2 ++ 1#1, .mulh true .w32 3#5 5#5 (.reg 9#5)),
    (1#1 ++ 0x005#10 ++ 3#5 ++ 5#5 ++ 9#5 ++ 1#2 ++ 0#1 ++ 0#2 ++ 1#1, .div true .w32 3#5 5#5 (.reg 9#5)),
    (1#1 ++ 0x006#10 ++ 3#5 ++ 5#5 ++ 9#5 ++ 1#2 ++ 0#1 ++ 0#2 ++ 1#1, .rem true .w32 3#5 5#5 (.reg 9#5)),
    (1#1 ++ 0x007#10 ++ 3#5 ++ 5#5 ++ 9#5 ++ 1#2 ++ 0#1 ++ 0#3, .and .w32 3#5 5#5 (.reg 9#5)),
    (1#1 ++ 0x008#10 ++ 3#5 ++ 5#5 ++ 9#5 ++ 1#2 ++ 0#1 ++ 0#3, .or .w32 3#5 5#5 (.reg 9#5)),
    (1#1 ++ 0x009#10 ++ 3#5 ++ 5#5 ++ 9#5 ++ 1#2 ++ 0#1 ++ 0#3, .xor .w32 3#5 5#5 (.reg 9#5)),
    (1#1 ++ 0x00A#10 ++ 3#5 ++ 5#5 ++ 9#5 ++ 1#2 ++ 0#1 ++ 0#3, .shl .w32 3#5 5#5 (.reg 9#5)),
    (1#1 ++ 0x00B#10 ++ 3#5 ++ 5#5 ++ 9#5 ++ 1#2 ++ 0#1 ++ 0#2 ++ 1#1, .shr true .w32 3#5 5#5 (.reg 9#5)),
    (1#1 ++ 0x00C#10 ++ 3#5 ++ 5#5 ++ 9#5 ++ 1#2 ++ 0#1 ++ 0#2 ++ 1#1, .min true .w32 3#5 5#5 (.reg 9#5)),
    (1#1 ++ 0x00D#10 ++ 3#5 ++ 5#5 ++ 9#5 ++ 1#2 ++ 0#1 ++ 0#2 ++ 1#1, .max true .w32 3#5 5#5 (.reg 9#5)),
    (1#1 ++ 0x00E#10 ++ 3#5 ++ 5#5 ++ 9#5 ++ 1#2 ++ 0#1 ++ 0#2 ++ 1#1, .slt true .w32 3#5 5#5 (.reg 9#5)),
    (1#1 ++ 0x00F#10 ++ 3#5 ++ 5#5 ++ 0#5 ++ 1#2 ++ 0#2 ++ 2#2, .cnt .ctz .w32 3#5 5#5)] = true := by decide

theorem test_decode_immediate : readsAs [
    (1#1 ++ 0x010#10 ++ 3#5 ++ 5#5 ++ 341#11, .addi 3#5 5#5 341#11),
    (1#1 ++ 0x011#10 ++ 3#5 ++ 5#5 ++ 341#11, .andi 3#5 5#5 341#11),
    (1#1 ++ 0x012#10 ++ 3#5 ++ 5#5 ++ 341#11, .ori 3#5 5#5 341#11),
    (1#1 ++ 0x013#10 ++ 3#5 ++ 5#5 ++ 341#11, .xori 3#5 5#5 341#11),
    (1#1 ++ 0x014#10 ++ 3#5 ++ 5#5 ++ 0#5 ++ 37#6, .shli 3#5 5#5 37#6),
    (1#1 ++ 0x015#10 ++ 3#5 ++ 5#5 ++ 0#4 ++ 1#1 ++ 37#6, .shri true 3#5 5#5 37#6),
    (1#1 ++ 0x016#10 ++ 3#5 ++ 5#5 ++ 341#11, .slti 3#5 5#5 341#11),
    (1#1 ++ 0x017#10 ++ 3#5 ++ 32769#16, .lui 3#5 32769#16),
    (1#1 ++ 0x018#10 ++ 3#5 ++ 32769#16, .lpc 3#5 32769#16)] = true := by decide

theorem test_decode_load_store : readsAs [
    (1#1 ++ 0x019#10 ++ 3#5 ++ 5#5 ++ 341#11, .ldd 3#5 5#5 341#11),
    (1#1 ++ 0x01A#10 ++ 3#5 ++ 5#5 ++ 341#11, .ldw 3#5 5#5 341#11),
    (1#1 ++ 0x01B#10 ++ 3#5 ++ 5#5 ++ 341#11, .ldh 3#5 5#5 341#11),
    (1#1 ++ 0x01C#10 ++ 3#5 ++ 5#5 ++ 341#11, .ldb 3#5 5#5 341#11),
    (1#1 ++ 0x01D#10 ++ 3#5 ++ 5#5 ++ 341#11, .std 3#5 5#5 341#11),
    (1#1 ++ 0x01E#10 ++ 3#5 ++ 5#5 ++ 341#11, .stw 3#5 5#5 341#11),
    (1#1 ++ 0x01F#10 ++ 3#5 ++ 5#5 ++ 341#11, .sth 3#5 5#5 341#11),
    (1#1 ++ 0x020#10 ++ 3#5 ++ 5#5 ++ 341#11, .stb 3#5 5#5 341#11)] = true := by decide

theorem test_decode_floating : readsAs [
    (1#1 ++ 0x021#10 ++ 3#5 ++ 5#5 ++ 9#5 ++ 1#2 ++ 0#1 ++ 0#3, .fadd .f32 3#5 5#5 (.reg 9#5)),
    (1#1 ++ 0x022#10 ++ 3#5 ++ 5#5 ++ 9#5 ++ 1#2 ++ 0#1 ++ 0#3, .fsub .f32 3#5 5#5 (.reg 9#5)),
    (1#1 ++ 0x023#10 ++ 3#5 ++ 5#5 ++ 9#5 ++ 2#2 ++ 0#1 ++ 0#3, .fmul .bf16 3#5 5#5 (.reg 9#5)),
    (1#1 ++ 0x024#10 ++ 3#5 ++ 5#5 ++ 9#5 ++ 1#2 ++ 0#1 ++ 0#3, .fdiv .f32 3#5 5#5 (.reg 9#5)),
    (1#1 ++ 0x025#10 ++ 3#5 ++ 5#5 ++ 9#5 ++ 1#2 ++ 0#1 ++ 0#3, .fma .f32 3#5 5#5 (.reg 9#5)),
    (1#1 ++ 0x026#10 ++ 3#5 ++ 5#5 ++ 9#5 ++ 1#2 ++ 0#1 ++ 0#3, .fmin .f32 3#5 5#5 (.reg 9#5)),
    (1#1 ++ 0x027#10 ++ 3#5 ++ 5#5 ++ 9#5 ++ 1#2 ++ 0#1 ++ 0#3, .fmax .f32 3#5 5#5 (.reg 9#5)),
    (1#1 ++ 0x028#10 ++ 3#5 ++ 5#5 ++ 9#5 ++ 1#2 ++ 0#1 ++ 0#1 ++ 2#2, .fcmp .le .f32 3#5 5#5 (.reg 9#5)),
    (1#1 ++ 0x029#10 ++ 3#5 ++ 5#5 ++ 0#5 ++ 4#4 ++ 2#2, .fcvt .s2b 3#5 5#5)] = true := by decide

theorem test_decode_control : readsAs [
    (1#1 ++ 0x02A#10 ++ 5#5 ++ 9#5 ++ 682#11, .beq 5#5 9#5 682#11),
    (1#1 ++ 0x02B#10 ++ 5#5 ++ 9#5 ++ 682#11, .bne 5#5 9#5 682#11),
    (1#1 ++ 0x02C#10 ++ 5#5 ++ 9#5 ++ 682#11, .blt 5#5 9#5 682#11),
    (1#1 ++ 0x02D#10 ++ 5#5 ++ 9#5 ++ 682#11, .bge 5#5 9#5 682#11),
    (1#1 ++ 0x02E#10 ++ 5#5 ++ 9#5 ++ 682#11, .bltu 5#5 9#5 682#11),
    (1#1 ++ 0x02F#10 ++ 5#5 ++ 9#5 ++ 682#11, .bgeu 5#5 9#5 682#11),
    (1#1 ++ 0x030#10 ++ 1398101#21, .jal 1398101#21),
    (1#1 ++ 0x031#10 ++ 3#5 ++ 5#5 ++ 0#5 ++ 0#6, .jr 3#5 5#5),
    (1#1 ++ 31#5 ++ 3#5 ++ 0#1 ++ 524303#20, .fli 3#5 524303#20)] = true := by decide

theorem test_decode_arithmetic : readsAs [
    (1#1 ++ 0x020#8 ++ 1#2 ++ 3#5 ++ 5#5 ++ 9#5 ++ 6#3 ++ 2#3, .aadd (.sca 9#5) 3#5 5#5 6#3 2#3),
    (1#1 ++ 0x021#8 ++ 1#2 ++ 3#5 ++ 5#5 ++ 9#5 ++ 6#3 ++ 2#3, .asub (.sca 9#5) 3#5 5#5 6#3 2#3),
    (1#1 ++ 0x022#8 ++ 0#2 ++ 3#5 ++ 5#5 ++ 9#5 ++ 6#3 ++ 2#3, .amul (.arr 9#5) 3#5 5#5 6#3 2#3),
    (1#1 ++ 0x023#8 ++ 1#2 ++ 3#5 ++ 5#5 ++ 9#5 ++ 6#3 ++ 2#3, .afma (.sca 9#5) 3#5 5#5 6#3 2#3),
    (1#1 ++ 0x024#8 ++ 1#2 ++ 3#5 ++ 5#5 ++ 9#5 ++ 6#3 ++ 2#3, .amin (.sca 9#5) 3#5 5#5 6#3 2#3),
    (1#1 ++ 0x025#8 ++ 1#2 ++ 3#5 ++ 5#5 ++ 9#5 ++ 6#3 ++ 2#3, .amax (.sca 9#5) 3#5 5#5 6#3 2#3),
    (1#1 ++ 0x026#8 ++ 1#2 ++ 3#5 ++ 5#5 ++ 9#5 ++ 6#3 ++ 2#3, .adiv (.sca 9#5) 3#5 5#5 6#3 2#3)] = true := by decide

theorem test_decode_bitwise : readsAs [
    (1#1 ++ 0x027#8 ++ 1#2 ++ 3#5 ++ 5#5 ++ 9#5 ++ 6#3 ++ 2#3, .aand (.sca 9#5) 3#5 5#5 6#3 2#3),
    (1#1 ++ 0x028#8 ++ 1#2 ++ 3#5 ++ 5#5 ++ 9#5 ++ 6#3 ++ 2#3, .aor (.sca 9#5) 3#5 5#5 6#3 2#3),
    (1#1 ++ 0x029#8 ++ 1#2 ++ 3#5 ++ 5#5 ++ 9#5 ++ 6#3 ++ 2#3, .axor (.sca 9#5) 3#5 5#5 6#3 2#3),
    (1#1 ++ 0x02A#8 ++ 1#2 ++ 3#5 ++ 5#5 ++ 9#5 ++ 6#3 ++ 2#3, .ashl (.sca 9#5) 3#5 5#5 6#3 2#3),
    (1#1 ++ 0x02B#8 ++ 1#2 ++ 3#5 ++ 5#5 ++ 9#5 ++ 6#3 ++ 2#3, .ashr (.sca 9#5) 3#5 5#5 6#3 2#3)] = true := by decide

theorem test_decode_compare : readsAs [
    (1#1 ++ 0x02C#8 ++ 1#2 ++ 3#5 ++ 5#5 ++ 9#5 ++ 6#3 ++ 2#3, .aceq (.sca 9#5) 3#5 5#5 6#3 2#3),
    (1#1 ++ 0x02D#8 ++ 1#2 ++ 3#5 ++ 5#5 ++ 9#5 ++ 6#3 ++ 2#3, .acne (.sca 9#5) 3#5 5#5 6#3 2#3),
    (1#1 ++ 0x02E#8 ++ 1#2 ++ 3#5 ++ 5#5 ++ 9#5 ++ 6#3 ++ 2#3, .aclt (.sca 9#5) 3#5 5#5 6#3 2#3),
    (1#1 ++ 0x02F#8 ++ 1#2 ++ 3#5 ++ 5#5 ++ 9#5 ++ 6#3 ++ 2#3, .acle (.sca 9#5) 3#5 5#5 6#3 2#3),
    (1#1 ++ 0x030#8 ++ 3#2 ++ 3#5 ++ 5#5 ++ 9#5 ++ 6#3 ++ 2#3, .asel (.con 9#5) 3#5 5#5 6#3 2#3)] = true := by decide

theorem test_decode_unary : readsAs [
    (1#1 ++ 0x0C4#10 ++ 3#5 ++ 5#5 ++ 0#5 ++ 6#3 ++ 2#3, .aabs 3#5 5#5 6#3 2#3),
    (1#1 ++ 0x0C8#10 ++ 3#5 ++ 5#5 ++ 0#5 ++ 6#3 ++ 2#3, .aneg 3#5 5#5 6#3 2#3),
    (1#1 ++ 0x0CC#10 ++ 3#5 ++ 5#5 ++ 0#5 ++ 6#3 ++ 2#3, .anot 3#5 5#5 6#3 2#3),
    (1#1 ++ 0x0D0#10 ++ 3#5 ++ 5#5 ++ 0#5 ++ 6#3 ++ 2#3, .asqrt 3#5 5#5 6#3 2#3),
    (1#1 ++ 0x0D4#10 ++ 3#5 ++ 5#5 ++ 0#5 ++ 6#3 ++ 2#3, .arcp 3#5 5#5 6#3 2#3),
    (1#1 ++ 0x0D8#10 ++ 3#5 ++ 5#5 ++ 0#5 ++ 6#3 ++ 2#3, .aexp2 3#5 5#5 6#3 2#3),
    (1#1 ++ 0x0DC#10 ++ 3#5 ++ 5#5 ++ 0#5 ++ 6#3 ++ 2#3, .alog2 3#5 5#5 6#3 2#3)] = true := by decide

theorem test_decode_convert : readsAs [
    (1#1 ++ 0x038#8 ++ 3#2 ++ 3#5 ++ 5#5 ++ 9#5 ++ 6#3 ++ 2#3, .acvt (.con 9#5) 3#5 5#5 6#3 2#3),
    (1#1 ++ 0x0E4#10 ++ 3#5 ++ 5#5 ++ 0#5 ++ 6#3 ++ 2#3, .amov 3#5 5#5 6#3 2#3),
    (1#1 ++ 0x03A#8 ++ 1#2 ++ 3#5 ++ 5#5 ++ 9#5 ++ 6#3 ++ 2#3, .asplat (.sca 9#5) 3#5 5#5 6#3 2#3),
    (1#1 ++ 0x03B#8 ++ 0#2 ++ 3#5 ++ 5#5 ++ 9#5 ++ 6#3 ++ 2#3, .ascl (.arr 9#5) 3#5 5#5 6#3 2#3),
    (1#1 ++ 0x0F0#10 ++ 3#5 ++ 5#5 ++ 0#5 ++ 6#3 ++ 2#3, .agscl 3#5 5#5 6#3 2#3)] = true := by decide

theorem test_decode_shape : readsAs [
    (1#1 ++ 0x100#10 ++ 3#5 ++ 0#5 ++ 12#4 ++ 0#1 ++ 0#4 ++ 2#2, .atype 3#5 12#4 2#2),
    (1#1 ++ 0x101#10 ++ 3#5 ++ 5#5 ++ 7#5 ++ 0#6, .ashp 3#5 5#5 7#5),
    (1#1 ++ 0x102#10 ++ 3#5 ++ 0#5 ++ 9#5 ++ 1#3 ++ 7#3, .aiota 3#5 (.arr 9#5)),
    (1#1 ++ 0x103#10 ++ 3#5 ++ 5#5 ++ 9#5 ++ 7#6, .ashape 3#5 5#5 9#5)] = true := by decide

theorem test_decode_reduce : readsAs [
    (1#1 ++ 0x105#10 ++ 3#5 ++ 5#5 ++ 0#5 ++ 5#3 ++ 2#3, .aredsum 3#5 5#5 5#3 2#3),
    (1#1 ++ 0x106#10 ++ 3#5 ++ 5#5 ++ 0#5 ++ 5#3 ++ 2#3, .aredmax 3#5 5#5 5#3 2#3),
    (1#1 ++ 0x107#10 ++ 3#5 ++ 5#5 ++ 0#5 ++ 5#3 ++ 2#3, .aredmin 3#5 5#5 5#3 2#3),
    (1#1 ++ 0x108#10 ++ 3#5 ++ 5#5 ++ 0#5 ++ 5#3 ++ 2#3, .aredand 3#5 5#5 5#3 2#3),
    (1#1 ++ 0x109#10 ++ 3#5 ++ 5#5 ++ 0#5 ++ 5#3 ++ 2#3, .aredor 3#5 5#5 5#3 2#3),
    (1#1 ++ 0x10A#10 ++ 3#5 ++ 5#5 ++ 0#5 ++ 5#3 ++ 2#3, .aredxor 3#5 5#5 5#3 2#3),
    (1#1 ++ 0x10B#10 ++ 3#5 ++ 5#5 ++ 0#5 ++ 5#3 ++ 2#3, .acount 3#5 5#5 5#3 2#3),
    (1#1 ++ 0x10C#10 ++ 3#5 ++ 5#5 ++ 0#5 ++ 5#3 ++ 2#3, .ascansum 3#5 5#5 5#3 2#3),
    (1#1 ++ 0x10D#10 ++ 3#5 ++ 5#5 ++ 0#5 ++ 5#3 ++ 2#3, .ascanmax 3#5 5#5 5#3 2#3),
    (1#1 ++ 0x10E#10 ++ 3#5 ++ 5#5 ++ 0#5 ++ 5#3 ++ 2#3, .ascanmin 3#5 5#5 5#3 2#3)] = true := by decide

theorem test_decode_grade : readsAs [
    (1#1 ++ 0x10F#10 ++ 3#5 ++ 5#5 ++ 0#5 ++ 0#3 ++ 2#3, .agrade 3#5 5#5 2#3),
    (1#1 ++ 0x110#10 ++ 3#5 ++ 5#5 ++ 0#5 ++ 0#3 ++ 2#3, .agraded 3#5 5#5 2#3),
    (1#1 ++ 0x111#10 ++ 3#5 ++ 5#5 ++ 9#5 ++ 1#3 ++ 2#3, .arot 3#5 5#5 (.arr 9#5) 2#3),
    (1#1 ++ 0x112#10 ++ 3#5 ++ 5#5 ++ 9#5 ++ 1#3 ++ 2#3, .atake 3#5 5#5 (.arr 9#5) 2#3),
    (1#1 ++ 0x113#10 ++ 3#5 ++ 5#5 ++ 9#5 ++ 1#3 ++ 2#3, .adrop 3#5 5#5 (.arr 9#5) 2#3)] = true := by decide

theorem test_decode_move : readsAs [
    (1#1 ++ 0x114#10 ++ 3#5 ++ 5#5 ++ 0#5 ++ 5#3 ++ 2#3, .arev 3#5 5#5 5#3 2#3),
    (1#1 ++ 0x115#10 ++ 3#5 ++ 5#5 ++ 0#5 ++ 5#3 ++ 2#3, .atrans 3#5 5#5 5#3 2#3),
    (1#1 ++ 0x116#10 ++ 3#5 ++ 5#5 ++ 9#5 ++ 5#3 ++ 2#3, .acat 3#5 5#5 9#5 5#3 2#3)] = true := by decide

theorem test_decode_outer : readsAs [
    (1#1 ++ 0x117#10 ++ 3#5 ++ 5#5 ++ 9#5 ++ 5#3 ++ 2#3, .aoutmul 3#5 5#5 9#5 5#3 2#3),
    (1#1 ++ 0x118#10 ++ 3#5 ++ 5#5 ++ 9#5 ++ 5#3 ++ 2#3, .aoutadd 3#5 5#5 9#5 5#3 2#3),
    (1#1 ++ 0x119#10 ++ 3#5 ++ 5#5 ++ 9#5 ++ 5#3 ++ 2#3, .aouteq 3#5 5#5 9#5 5#3 2#3),
    (1#1 ++ 0x11A#10 ++ 3#5 ++ 5#5 ++ 9#5 ++ 0#3 ++ 2#3, .acomp 3#5 5#5 9#5 2#3),
    (1#1 ++ 0x11B#10 ++ 3#5 ++ 5#5 ++ 9#5 ++ 0#3 ++ 2#3, .aexpd 3#5 5#5 9#5 2#3)] = true := by decide

theorem test_decode_select : readsAs [
    (1#1 ++ 0x11C#10 ++ 3#5 ++ 5#5 ++ 9#5 ++ 5#3 ++ 2#3, .afrom 3#5 5#5 9#5 5#3 2#3),
    (1#1 ++ 0x11D#10 ++ 3#5 ++ 5#5 ++ 9#5 ++ 5#3 ++ 2#3, .aidxof 3#5 5#5 9#5 5#3 2#3),
    (1#1 ++ 0x11E#10 ++ 3#5 ++ 5#5 ++ 9#5 ++ 5#3 ++ 2#3, .amembr 3#5 5#5 9#5 5#3 2#3)] = true := by decide

theorem test_decode_block : readsAs [
    (1#1 ++ 0x11F#10 ++ 3#5 ++ 5#5 ++ 9#5 ++ 0#3 ++ 2#3, .each 3#5 5#5 9#5 2#3),
    (1#1 ++ 0x120#10 ++ 1398101#21, .vnext 1398101#21),
    (1#1 ++ 0x121#10 ++ 0#5 ++ 0#5 ++ 0#5 ++ 0#6, .vpend),
    (1#1 ++ 0x122#10 ++ 3#5 ++ 0#5 ++ 0#5 ++ 0#6, .vget 3#5),
    (1#1 ++ 0x123#10 ++ 0#5 ++ 5#5 ++ 0#5 ++ 0#6, .vput 5#5)] = true := by decide

theorem test_decode_exchange : readsAs [
    (1#1 ++ 0x124#10 ++ 3#5 ++ 5#5 ++ 9#5 ++ 0#3 ++ 0#3, .xstep .rotate 3#5 5#5 9#5),
    (1#1 ++ 0x125#10 ++ 3#5 ++ 5#5 ++ 0#5 ++ 0#6, .amoviFrom 3#5 5#5),
    (1#1 ++ 0x125#10 ++ 0#5 ++ 5#5 ++ 9#5 ++ 1#6, .amoviTo 5#5 9#5)] = true := by decide

theorem test_decode_matrix : readsAs [
    (1#1 ++ 0x180#10 ++ 1#2 ++ 0#3 ++ 5#5 ++ 0#5 ++ 0#6, .mbld true 5#5),
    (1#1 ++ 0x181#10 ++ 1#2 ++ 0#3 ++ 5#5 ++ 0#5 ++ 0#6, .mbwl true 5#5),
    (1#1 ++ 0x182#10 ++ 2#2 ++ 1#2 ++ 0#1 ++ 5#5 ++ 9#5 ++ 1#1 ++ 0#5, .mmul .op false true 2#2 5#5 9#5),
    (1#1 ++ 0x183#10 ++ 2#2 ++ 0#3 ++ 0#5 ++ 0#5 ++ 0#6, .mzero 2#2),
    (1#1 ++ 0x184#10 ++ 2#2 ++ 0#3 ++ 5#5 ++ 0#5 ++ 0#6, .mrd 2#2 5#5),
    (1#1 ++ 0x185#10 ++ 2#2 ++ 0#3 ++ 5#5 ++ 0#5 ++ 0#6, .mwr 2#2 5#5),
    (1#1 ++ 0x186#10 ++ 0#5 ++ 0#5 ++ 0#5 ++ 0#6, .mwait),
    (1#1 ++ 0x187#10 ++ 0#5 ++ 5#5 ++ 0#5 ++ 0#6, .mspa 5#5),
    (1#1 ++ 0x188#10 ++ 2#2 ++ 0#3 ++ 5#5 ++ 4#5 ++ 0#6, .mqry 2#2 5#5 4#5)] = true := by decide

theorem test_decode_gather : readsAs [
    (1#1 ++ 0x202#10 ++ 3#5 ++ 5#5 ++ 9#5 ++ 5#3 ++ 0#3, .agat 3#5 5#5 9#5 5#3),
    (1#1 ++ 0x203#10 ++ 3#5 ++ 5#5 ++ 9#5 ++ 5#3 ++ 0#3, .asct 3#5 5#5 9#5 5#3),
    (1#1 ++ 0x207#10 ++ 0#5 ++ 5#5 ++ 341#11, .cbld 5#5 341#11)] = true := by decide

theorem test_decode_fabric : readsAs [
    (1#1 ++ 0x280#10 ++ 3#5 ++ 5#5 ++ 0#5 ++ 0#4 ++ 1#1 ++ 0#1, .sgraph true 3#5 5#5),
    (1#1 ++ 0x281#10 ++ 3#5 ++ 5#5 ++ 0#5 ++ 0#4 ++ 1#1 ++ 0#1, .srun true false 3#5 5#5),
    (1#1 ++ 0x282#10 ++ 3#5 ++ 5#5 ++ 0#5 ++ 4#4 ++ 0#2, .spub .pkg 3#5 5#5),
    (1#1 ++ 0x283#10 ++ 3#5 ++ 5#5 ++ 0#5 ++ 0#6, .sdisc 3#5 5#5)] = true := by decide

theorem test_decode_edge : readsAs [
    (1#1 ++ 0x284#10 ++ 3#5 ++ 5#5 ++ 0#5 ++ 0#6, .egraph 3#5 5#5),
    (1#1 ++ 0x285#10 ++ 3#5 ++ 5#5 ++ 9#5 ++ 0#6, .eprog 3#5 5#5 9#5),
    (1#1 ++ 0x286#10 ++ 3#5 ++ 5#5 ++ 9#5 ++ 2#4 ++ 1#1 ++ 0#1, .erun .pull true 3#5 5#5 9#5),
    (1#1 ++ 0x287#10 ++ 3#5 ++ 5#5 ++ 0#5 ++ 0#6, .emode 3#5 5#5),
    (1#1 ++ 0x288#10 ++ 0#5 ++ 5#5 ++ 0#5 ++ 0#6, .ecomb 5#5),
    (1#1 ++ 0x289#10 ++ 0#5 ++ 0#5 ++ 0#5 ++ 0#6, .eact)] = true := by decide

theorem test_decode_experts : readsAs [
    (1#1 ++ 0x28A#10 ++ 3#5 ++ 5#5 ++ 9#5 ++ 0#2 ++ 2#2 ++ 0#2, .topk 2#2 3#5 5#5 9#5),
    (1#1 ++ 0x28B#10 ++ 3#5 ++ 5#5 ++ 0#5 ++ 0#4 ++ 1#1 ++ 0#1, .ttbld true 3#5 5#5),
    (1#1 ++ 0x28C#10 ++ 3#5 ++ 5#5 ++ 0#5 ++ 0#4 ++ 1#1 ++ 0#1, .tseq true 3#5 5#5),
    (1#1 ++ 0x28D#10 ++ 3#5 ++ 5#5 ++ 0#5 ++ 1#4 ++ 0#2, .xslot .rel 3#5 5#5)] = true := by decide

theorem test_decode_copy : readsAs [
    (1#1 ++ 0x28E#10 ++ 3#5 ++ 5#5 ++ 9#5 ++ 0#4 ++ 0#1 ++ 1#1, .cpy false true 3#5 5#5 9#5)] = true := by decide

theorem test_decode_atomic : readsAs [
    (1#1 ++ 0x2C0#10 ++ 3#5 ++ 5#5 ++ 9#5 ++ 2#2 ++ 0#1 ++ 7#3, .amo .cas .w16 3#5 5#5 (.reg 9#5)),
    (1#1 ++ 0x2C1#10 ++ 3#5 ++ 5#5 ++ 9#5 ++ 4#3 ++ 6#3, .amoa .xchg 3#5 5#5 9#5 4#3),
    (1#1 ++ 0x2C2#10 ++ 0#5 ++ 5#5 ++ 9#5 ++ 5#3 ++ 0#3, .mredadd 5#5 9#5 5#3),
    (1#1 ++ 0x2C3#10 ++ 0#5 ++ 5#5 ++ 9#5 ++ 5#3 ++ 0#3, .mredmin 5#5 9#5 5#3),
    (1#1 ++ 0x2C4#10 ++ 0#5 ++ 5#5 ++ 9#5 ++ 5#3 ++ 0#3, .mredmax 5#5 9#5 5#3),
    (1#1 ++ 0x2C5#10 ++ 0#5 ++ 5#5 ++ 9#5 ++ 5#3 ++ 0#3, .mredor 5#5 9#5 5#3)] = true := by decide

theorem test_decode_square : readsAs [
    (1#1 ++ 0x2C6#10 ++ 4#3 ++ 2#2 ++ 0#5 ++ 0#5 ++ 0#6, .fence .rel .pkg),
    (1#1 ++ 0x2C7#10 ++ 0#5 ++ 5#5 ++ 341#11, .semtas 5#5 341#11),
    (1#1 ++ 0x2C8#10 ++ 3#5 ++ 5#5 ++ 341#11, .semtry 3#5 5#5 341#11),
    (1#1 ++ 0x2C9#10 ++ 0#5 ++ 5#5 ++ 341#11, .semclr 5#5 341#11),
    (1#1 ++ 0x2CA#10 ++ 3#5 ++ 5#5 ++ 341#11, .crld 3#5 5#5 341#11),
    (1#1 ++ 0x2CB#10 ++ 3#5 ++ 5#5 ++ 341#11, .crst 3#5 5#5 341#11)] = true := by decide

theorem test_decode_event : readsAs [
    (1#1 ++ 0x2CC#10 ++ 3#5 ++ 5#5 ++ 0#5 ++ 0#6, .evwait 3#5 5#5),
    (1#1 ++ 0x2CD#10 ++ 3#5 ++ 5#5 ++ 0#5 ++ 0#6, .evget 3#5 5#5),
    (1#1 ++ 0x2CE#10 ++ 0#5 ++ 5#5 ++ 9#5 ++ 0#6, .evpost 5#5 9#5),
    (1#1 ++ 0x2CF#10 ++ 0#5 ++ 5#5 ++ 0#5 ++ 0#3 ++ 3#3, .pub .die 5#5),
    (1#1 ++ 0x2D0#10 ++ 3#5 ++ 5#5 ++ 9#5 ++ 0#2 ++ 0#1 ++ 0#3, .mon .w64 3#5 5#5 (.reg 9#5))] = true := by decide

theorem test_decode_special : readsAs [
    (1#1 ++ 0x300#10 ++ 3#5 ++ 19#16, .csrr 3#5 19#16),
    (1#1 ++ 0x301#10 ++ 3#5 ++ 20#16, .csrw 3#5 20#16),
    (1#1 ++ 0x302#10 ++ 3#5 ++ 97#16, .csrs 3#5 97#16),
    (1#1 ++ 0x303#10 ++ 3#5 ++ 1#16, .csrc 3#5 1#16),
    (1#1 ++ 0x304#10 ++ 0#5 ++ 0#5 ++ 0#5 ++ 0#6, .ecall),
    (1#1 ++ 0x305#10 ++ 0#5 ++ 0#5 ++ 0#5 ++ 0#6, .ebreak),
    (1#1 ++ 0x306#10 ++ 0#5 ++ 0#5 ++ 0#5 ++ 0#6, .tret),
    (1#1 ++ 0x307#10 ++ 0#5 ++ 0#5 ++ 0#5 ++ 0#6, .yield)] = true := by decide

theorem test_decode_service : readsAs [
    (1#1 ++ 0x308#10 ++ 3#5 ++ 5#5 ++ 0#5 ++ 0#6, .quota 3#5 5#5),
    (1#1 ++ 0x309#10 ++ 3#5 ++ 5#5 ++ 0#5 ++ 0#6, .spawn 3#5 5#5),
    (1#1 ++ 0x30A#10 ++ 0#5 ++ 0#5 ++ 0#5 ++ 0#6, .done),
    (1#1 ++ 0x30B#10 ++ 0#5 ++ 5#5 ++ 0#5 ++ 0#6, .asave 5#5),
    (1#1 ++ 0x30C#10 ++ 0#5 ++ 5#5 ++ 0#5 ++ 0#6, .arest 5#5),
    (1#1 ++ 0x30D#10 ++ 0#5 ++ 5#5 ++ 0#5 ++ 0#6, .dmap 5#5),
    (1#1 ++ 0x30E#10 ++ 0#5 ++ 5#5 ++ 9#5 ++ 0#6, .tlbinv 5#5 9#5),
    (1#1 ++ 0x30F#10 ++ 0#5 ++ 5#5 ++ 0#5 ++ 0#6, .fqret 5#5),
    (1#1 ++ 0x310#10 ++ 0#5 ++ 5#5 ++ 0#5 ++ 0#6, .wsph 5#5)] = true := by decide

/-- R104, R105: the words of AP instructions, their block that of R105's example; the first word is the lowest. -/
def apWords (w : Word32) : Nat := (0x00030000#32 ++ 0x00000000#32 ++ 0xFFE50003#32 ++ 0x25000000#32 ++ w).toNat
theorem test_decode_blocks : [(1#1 ++ 0x200#10 ++ 3#5 ++ 5#5 ++ 9#5 ++ 2#3 ++ 0#3, Instr.ald 3#5 5#5 9#5 2#3 blockR105),
    (1#1 ++ 0x201#10 ++ 3#5 ++ 5#5 ++ 9#5 ++ 2#3 ++ 0#3, .ast 3#5 5#5 9#5 2#3 blockR105),
    (1#1 ++ 0x204#10 ++ 3#5 ++ 5#5 ++ 9#5 ++ 2#3 ++ 0#3, .wsld 3#5 5#5 9#5 2#3 blockR105),
    (1#1 ++ 0x205#10 ++ 3#5 ++ 5#5 ++ 9#5 ++ 2#3 ++ 0#3, .wsst 3#5 5#5 9#5 2#3 blockR105),
    (1#1 ++ 0x205#10 ++ 3#5 ++ 5#5 ++ 9#5 ++ 2#3 ++ 1#3, .wsstImage 3#5 5#5 9#5 2#3 blockR105),
    (1#1 ++ 0x206#10 ++ 0#5 ++ 5#5 ++ 0#5 ++ 0#3 ++ 0#3, .apf 5#5 blockR105)].all
      (fun p => decodeTableWord 160 (apWords p.1) == some p.2) = true := by decide
theorem test_decode_ashapep : decodeTableWord 160 (0#32 ++ 0x00050007#32 ++ 0x0002FFE9#32 ++ 0x40000000#32 ++
    (1#1 ++ 0x104#10 ++ 3#5 ++ 5#5 ++ 0#5 ++ 0#3 ++ 7#3)).toNat =
    some (.ashapep 3#5 5#5 { shapeBlock with rank := 4#4, x0 := 2#16, x1 := 0xFFE9#16, x2 := 5#16, x3 := 7#16 }) := by decide
/-- R104, R105: a block with a field beyond its rank, a reserved bit or RANK 5 is no instruction. -/
theorem test_decode_blocks_illegal : [0x00030001#32 ++ 0#32 ++ 0xFFE50003#32 ++ 0x25000000#32, 0x00030000#32 ++ 0#32 ++ 0xFFE50003#32 ++ 0x25040000#32,
    0x00030000#32 ++ 0#32 ++ 0xFFE50003#32 ++ 0x55000000#32, 0x00030000#32 ++ 0#32 ++ 0xFFE50003#32 ++ 0x25400000#32].all (fun (p : BitVec 128) =>
    decodeTableWord 160 (p ++ (1#1 ++ 0x200#10 ++ 3#5 ++ 5#5 ++ 9#5 ++ 2#3 ++ 0#3)).toNat == none) = true := by decide
/-- R96, R102: a literal is the word after the first. -/
theorem test_decode_literals : [(1#1 ++ 0x002#10 ++ 3#5 ++ 5#5 ++ 0#5 ++ 0#2 ++ 1#1 ++ 0#3, Instr.sub .w64 3#5 5#5 (.lit 0xFFFFFFFE#32)),
    (1#1 ++ 0x020#8 ++ 2#2 ++ 3#5 ++ 5#5 ++ 0#5 ++ 0#3 ++ 7#3, .aadd (.lit 0xFFFFFFFE#32) 3#5 5#5 0#3 7#3)].all
      (fun p => decodeTableWord 64 (0xFFFFFFFE#32 ++ p.1).toNat == some p.2) = true := by decide
/-- Words the manual gives as examples (R300, R322, R324, R351, R366). -/
theorem test_decode_examples : readsAs [(0xD08C5000#32, .egraph 12#5 10#5), (0xD0AD5B80#32, .eprog 13#5 11#5 14#5),
    (0xD0CD4242#32, .erun .auto true 13#5 8#5 9#5), (0xD0CD424A#32, .erun .pull true 13#5 8#5 9#5), (0xD0EF8000#32, .emode 15#5 16#5),
    (0xD8D50000#32, .fence .acq .sys), (0xB0700000#32, .mzero 2#2), (0xD00C5800#32, .sgraph false 12#5 11#5),
    (0xD04F6810#32, .spub .pkg 15#5 13#5), (0xD02D5003#32, .srun true true 13#5 10#5), (0xD1B08800#32, .xslot .acq 16#5 17#5),
    (0xD1B08804#32, .xslot .rel 16#5 17#5)] = true := by decide

/-! ### States -/
/-- The placed page table with one block entry more: virtual 512 MiB up is the weight store of die 0 (R257, R265). -/
def pages (m : Memory) : Memory :=
  (m.writeN 0x10000 (bytesOfNat 8 0x20003)).writeN 0x20000 (bytesOfNat 16 (0x1D + 2 ^ 64 * (2 ^ 40 + 0x1D)))
/-- A thread of a non-secure region on core 0 of die 0, in cycle 3000, outside slice 0's refresh window, with the
non-secure slots open. -/
def s0 : State :=
  let s := State.reset.withFetchWord 32 0x80000000
  ({ s with cycle := 3000, mem := pages s.mem } : State).setDie 0 { s.die 0 with openNs := true }
/-- The key of an address under `pages`. -/
def k0 (a : Nat) : Nat := if a < 2 ^ 29 then a else a - 2 ^ 29 + 2 ^ 40
theorem s0_runs : Runs s0 := by constructor <;> decide

/-- The translation tables of `pages`, the firmware's part in them, and no write of them on its way. -/
structure Tables (s : State) : Prop where
  base : s.fw.tableNs = some 0x10000
  node : s.fw.m = some 0
  ret : curTable s.fw = some RetTable.reset
  level1 : s.mem.readN 0x10000 8 = bytesOfNat 8 0x20003
  dram : s.mem.readN 0x20000 8 = bytesOfNat 8 0x1D
  ws : s.mem.readN 0x20008 8 = bytesOfNat 8 (2 ^ 40 + 0x1D)
  xwrites : s.xwrites = []
/-- What the reach of an address rests on: the tables, no entry with MSA anywhere in memory, no translation cached, and
nothing under way. -/
structure Mild (s : State) : Prop extends Tables s where
  part : s.fw.part = Partition.reset
  remotes : s.fw.remotes = []
  cells : ∀ x ∈ s.mem.cells, x.1 % 8 = 0 → x.2.getLsbD 5 = false
  dies : ∀ x ∈ s.dies, x.2.tlb = [] ∧ (∀ k ∈ x.2.shadows, k.publishing = false) ∧ ∀ k ∈ x.2.cores, k.2.tlb = []
  stores : s.stores = []
  topks : s.topks = []
  loads : s.loads = []
  unres : s.unres = []
  ranks : ∀ x ∈ s.dies, x.2.rank = (0, 0) ∧ x.2.faults = []
  cycle : s.cycle = 3000
  isOpen : (s.die 0).openNs = true
  queue : (s.die 0).wsQueue = []
/-- As `Mild`, in a turn that holds no access back. -/
structure Paged (s : State) : Prop extends Mild s where
  holding : s.holding = false
theorem paged_of {s : State} (h : (s.fw.tableNs = some 0x10000 ∧ s.fw.m = some 0 ∧ curTable s.fw = some RetTable.reset ∧
    s.mem.readN 0x10000 8 = bytesOfNat 8 0x20003 ∧ s.mem.readN 0x20000 8 = bytesOfNat 8 0x1D ∧
    s.mem.readN 0x20008 8 = bytesOfNat 8 (2 ^ 40 + 0x1D) ∧ s.xwrites = []) ∧ s.fw.part = Partition.reset ∧ s.fw.remotes = [] ∧
    (∀ x ∈ s.mem.cells, x.1 % 8 = 0 → x.2.getLsbD 5 = false) ∧
    (∀ x ∈ s.dies, x.2.tlb = [] ∧ (∀ k ∈ x.2.shadows, k.publishing = false) ∧ ∀ k ∈ x.2.cores, k.2.tlb = []) ∧
    s.stores = [] ∧ s.holding = false ∧ s.topks = [] ∧ s.loads = [] ∧ s.unres = [] ∧
    (∀ x ∈ s.dies, x.2.rank = (0, 0) ∧ x.2.faults = []) ∧ s.cycle = 3000 ∧ (s.die 0).openNs = true ∧ (s.die 0).wsQueue = []) :
    Paged s :=
  let ⟨⟨a, b, c, d, e, f, g⟩, i, j, k, l, m, n, o, t, v, u, p, q, r⟩ := h
  ⟨⟨⟨a, b, c, d, e, f, g⟩, i, j, k, l, m, o, t, v, u, p, q, r⟩, n⟩

theorem retiredOf_reset {f : Firmware} (h : curTable f = some RetTable.reset) (k : UnitKind) (d : Nat) :
    retiredOf f k d = [] := by unfold retiredOf; rw [h]; rfl
theorem locate_k0 {s : State} (h : Tables s) {a : Nat} (ha : a < 2 ^ 29) : locate s.fw a = .here a := by
  unfold locate dramBytes
  have h1 : a / 2 ^ 40 = 0 := by omega
  have h2 : a % 2 ^ 40 = a := by omega
  have h3 : a % 2 ^ 37 = a := by omega
  simp only [h.node, retiredOf_reset h.ret, h1, h2, h3]
  rw [if_pos trivial, if_pos (Nat.lt_of_lt_of_le ha (by decide))]
theorem locate_ws {s : State} (h : Tables s) {a : Nat} (ha : a < 2 ^ 29) : locate s.fw (2 ^ 40 + a) = .here (2 ^ 40 + a) := by
  unfold locate
  have h1 : (2 ^ 40 + a) / 2 ^ 40 = 1 := by omega
  have h2 : (2 ^ 40 + a) % 2 ^ 40 = a := by omega
  have h3 : a / 2 ^ 30 = 0 := by omega
  have h4 : a % 2 ^ 30 = a := by omega
  simp only [h.node, retiredOf_reset h.ret, h1, h2, h3, h4]
  rw [if_neg (by decide), if_pos trivial, if_pos ⟨by decide, ha, rfl⟩]
  rfl
theorem seen_plain {s : State} (h : s.xwrites = []) (d key n : Nat) : seenBytes s d key n = s.mem.readN key n := by
  unfold seenBytes ownWrites; rw [h]; rfl
theorem tableEntry_at {s : State} (h : Tables s) (w : Agent) {b i : Nat} (hb : b + 8 * i < 2 ^ 29) :
    tableEntry s w b i = .ok (BitVec.ofNat 64 (natOfBytes (s.mem.readN (b + 8 * i) 8))) := by
  unfold tableEntry
  dsimp only
  rw [locate_k0 h hb]
  have hn : isWs (b + 8 * i) = false := by unfold isWs wsBase; rw [decide_eq_false_iff_not]; omega
  dsimp only
  rw [hn, Bool.false_and, if_neg Bool.false_ne_true]
  unfold entryAt
  rw [seen_plain h.xwrites]
theorem level_at {s : State} (h : Tables s) (w : Agent) (l : Nat) {b i : Nat} (hb : b + 8 * i < 2 ^ 29) {e : Word64}
    (he : BitVec.ofNat 64 (natOfBytes (s.mem.readN (b + 8 * i) 8)) = e) (hv : ∀ f : Firmware, entryOk f l e = true) :
    levelEntry s w l b i = .ok e := by
  unfold levelEntry
  rw [tableEntry_at h w hb, he]
  show (if entryOk s.fw l e = true then Except.ok e else Except.error (WalkStop.invalid l)) = _
  rw [if_pos (hv _)]
theorem walk_paged {s : State} (h : Tables s) (w : Agent) {a : Nat} (ha : a < 2 ^ 30) :
    walk s w false a = .ok (if a < 2 ^ 29 then 0x1D#64 else 0x1000000001D#64, 29) := by
  have e1 : a / 2 ^ 42 % 8192 = 0 := by omega
  have t1 : levelEntry s w 1 0x10000 0 = .ok 0x20003#64 := level_at h w 1 (by omega) (by rw [h.level1]; rfl) fun _ => rfl
  have t2 : levelEntry s w 2 0x20000 0 = .ok 0x1D#64 := level_at h w 2 (by omega) (by rw [h.dram]; rfl) fun _ => rfl
  have t3 : levelEntry s w 2 0x20000 1 = .ok 0x1000000001D#64 := level_at h w 2 (by omega) (by rw [h.ws]; rfl) fun _ => rfl
  unfold walk
  simp only [Bool.false_eq_true, if_false, h.base, e1]
  rw [t1]
  by_cases hl : a < 2 ^ 29
  · have e2 : a / 2 ^ 29 % 8192 = 0 := by omega
    rw [e2, if_pos hl]
    show (levelEntry s w 2 0x20000 0 >>= _) = _
    rw [t2]; rfl
  · have e2 : a / 2 ^ 29 % 8192 = 1 := by omega
    rw [e2, if_neg hl]
    show (levelEntry s w 2 0x20000 1 >>= _) = _
    rw [t3]; rfl

/-- No entry of any table has MSA set. -/
theorem read_plain {l : List Host.Cell} (h : ∀ x ∈ l, x.1 % 8 = 0 → x.2.getLsbD 5 = false) {a : Nat} (ha : a % 8 = 0) :
    (cellGet l a).getLsbD 5 = false := by
  induction l with
  | nil => simp [cellGet, unlisted]
  | cons p r ih =>
    obtain ⟨j, v⟩ := p
    unfold cellGet
    split
    · next hj => subst hj; exact h (j, v) List.mem_cons_self ha
    · split
      · rfl
      · exact ih fun x hx => h x (List.mem_cons_of_mem _ hx)
theorem low_byte (b : Byte) (n : Nat) : (BitVec.ofNat 64 (b.toNat + 256 * n)).getLsbD 5 = b.getLsbD 5 := by
  have h1 : (b.toNat + 256 * n).testBit 5 = ((b.toNat + 256 * n) % 2 ^ 8).testBit 5 := by rw [Nat.testBit_mod_two_pow]; simp
  have h2 : (b.toNat + 256 * n) % 2 ^ 8 = b.toNat := by have := b.isLt; omega
  rw [BitVec.getLsbD_ofNat, h1, h2]
  simp [BitVec.testBit_toNat]
theorem entryAt_plain {s : State} (h : Mild s) {k : Nat} (hk : k % 8 = 0) : (entryAt s k).getLsbD 5 = false := by
  unfold entryAt
  rw [seen_plain h.xwrites]
  show (BitVec.ofNat 64 ((s.mem.read k).toNat + 256 * natOfBytes (s.mem.readN (k + 1) 7))).getLsbD 5 = false
  rw [low_byte]
  exact read_plain h.cells hk
theorem entry_plain {s : State} (h : Mild s) {w : Agent} {l b i : Nat} (hb : b % 8 = 0) {e : Word64}
    (he : levelEntry s w l b i = .ok e) : e.getLsbD 5 = false := by
  have key : ∀ k, locate s.fw (b + 8 * i) = .here k → k % 8 = 0 := by
    intro k hk
    unfold locate at hk
    rw [h.node] at hk
    dsimp only at hk
    split at hk
    · split at hk
      · cases hk; omega
      · cases hk
    · split at hk
      · split at hk
        · cases hk; unfold wsBase; omega
        · cases hk
      · cases hk
  have te : ∀ x, tableEntry s w b i = .ok x → x.getLsbD 5 = false := by
    intro x hx
    unfold tableEntry at hx
    dsimp only at hx
    split at hx
    · next k hk =>
      split at hx
      · cases hx
      · cases hx; exact entryAt_plain h (key k hk)
    · cases hx; rfl
    · rw [h.remotes] at hx; cases hx
  unfold levelEntry at he
  cases ht : tableEntry s w b i with
  | error x => rw [ht] at he; cases he
  | ok x =>
    rw [ht] at he
    change (if entryOk s.fw l x = true then Except.ok x else Except.error (WalkStop.invalid l)) = _ at he
    split at he
    · cases he; exact te _ ht
    · cases he
theorem walk_plain {s : State} (h : Mild s) {w : Agent} {a : Nat} {e : Word64} {b : Nat}
    (hw : walk s w false a = .ok (e, b)) : e.getLsbD 5 = false := by
  have pa : ∀ x, entryPa x % 8 = 0 := fun x => by unfold entryPa; omega
  unfold walk at hw
  simp only [Bool.false_eq_true, if_false, h.base] at hw
  cases h1 : levelEntry s w 1 0x10000 (a / 2 ^ 42 % 8192) with
  | error x => rw [h1] at hw; cases hw
  | ok x =>
    rw [h1] at hw
    change (levelEntry s w 2 (entryPa x) (a / 2 ^ 29 % 8192) >>= _) = _ at hw
    cases h2 : levelEntry s w 2 (entryPa x) (a / 2 ^ 29 % 8192) with
    | error y => rw [h2] at hw; cases hw
    | ok y =>
      rw [h2] at hw
      change (if (!y.getLsbD 1) = true then Except.ok (y, 29) else _) = _ at hw
      split at hw
      · cases hw; exact entry_plain h (pa x) h2
      · cases h3 : levelEntry s w 3 (entryPa y) (a / 2 ^ 16 % 8192) with
        | error z => rw [h3] at hw; cases hw
        | ok z => rw [h3] at hw; cases hw; exact entry_plain h (pa y) h3
theorem spGet_of {α : Type} {P : α → Prop} {d : α} (hd : P d) {l : Sparse α} (h : ∀ x ∈ l, P x.2) (k : Nat) : P (spGet d l k) := by
  induction l with
  | nil => exact hd
  | cons p r ih =>
    obtain ⟨j, v⟩ := p
    unfold spGet
    split
    · exact h (j, v) List.mem_cons_self
    · split
      · exact hd
      · exact ih fun x hx => h x (List.mem_cons_of_mem _ hx)
theorem cached_none {s : State} (h : Mild s) (c : Ctx) : cachedFor s c = [] := by
  have hd := spGet_of (P := fun (x : DieSt) => x.tlb = [] ∧ (∀ k ∈ x.shadows, k.publishing = false) ∧ ∀ k ∈ x.cores, k.2.tlb = [])
    (d := DieSt.reset) ⟨rfl, (fun k hk => nomatch hk), (fun k hk => nomatch hk)⟩ h.dies c.die
  have hk := spGet_of (P := fun (x : CoreSt) => x.tlb = []) (d := CoreSt.reset) rfl hd.2.2 c.core
  unfold cachedFor
  rw [show (s.die c.die).tlb = [] from hd.1, show (s.core c.die c.core).tlb = [] from hk]
  split <;> rfl
/-- No translation in force has MSA. -/
theorem mappings_plain {s : State} (h : Mild s) : ∀ p ∈ allMappings s, p.1.getLsbD 5 = false := by
  have ent : ∀ l b, ∀ e ∈ tableEntries s l b, e.getLsbD 5 = false := by
    intro l b e he
    obtain ⟨k, hk, rfl⟩ := List.mem_map.mp (List.mem_filter.mp he).1
    refine entryAt_plain h ?_
    unfold tableKeys at hk
    split at hk
    · have := (List.mem_filter.mp hk).2
      simp only [Bool.and_eq_true, beq_iff_eq] at this
      exact this.2
    · cases hk
  intro p hp
  unfold allMappings at hp
  rcases List.mem_append.mp hp with hp | hp
  · obtain ⟨base, _, hp⟩ := List.mem_flatMap.mp hp
    obtain ⟨e1, _, hp⟩ := List.mem_flatMap.mp hp
    obtain ⟨e2, he2, hp⟩ := List.mem_flatMap.mp hp
    split at hp
    · obtain ⟨e3, he3, rfl⟩ := List.mem_map.mp hp
      exact ent _ _ _ he3
    · rw [List.mem_singleton.mp hp]; exact ent _ _ _ he2
  · obtain ⟨⟨d, x⟩, hx, hp⟩ := List.mem_flatMap.mp hp
    have hd := h.dies _ hx
    obtain ⟨t, ht, rfl⟩ := List.mem_map.mp hp
    rcases List.mem_append.mp ht with ht | ht
    · rw [hd.1] at ht; cases ht
    · obtain ⟨k, hk, ht⟩ := List.mem_flatMap.mp ht
      obtain ⟨i, y⟩ := k
      have ht : t ∈ y.tlb := ht
      rw [show y.tlb = [] from hd.2.2 _ hk] at ht; cases ht
theorem unmixed_of {s : State} (h : Mild s) (pa : Nat) : mixedPage s pa false = false := by
  unfold mixedPage
  rw [Bool.eq_false_iff]
  intro hb
  obtain ⟨p, hp, hb⟩ := List.any_eq_true.mp hb
  have hm := mappings_plain h p hp
  obtain ⟨e, b⟩ := p
  dsimp only at hb hm
  rw [hm] at hb
  simp at hb
theorem covered_of {s : State} (h : s.xwrites = []) (d : Nat) : coveredApplied s d = true := by
  unfold coveredApplied; rw [h]; rfl
theorem none_to_come {s : State} (h : Mild s) (c : Ctx) (key : Nat) : NoneToCome s c key := by
  refine ⟨?_, ?_, ?_⟩
  · rw [h.xwrites]; intro w hw; cases hw
  · rw [h.stores]; intro w hw; cases hw
  · rw [h.loads]; intro w hw; cases hw
/-- No die has written anything in this cycle. -/
theorem rank_of {s : State} (h : Mild s) (d key : Nat) : rankOk s d key = true := by
  have hd := spGet_of (P := fun (x : DieSt) => x.rank = (0, 0) ∧ x.faults = []) (d := DieSt.reset) ⟨rfl, rfl⟩ h.ranks d
  have hd : (s.die d).rank = (0, 0) := hd.1
  unfold rankOk
  rw [hd, h.cycle]
  rfl
/-- Every address below 1 GiB is mapped: readable, writable, executable. -/
theorem mapped {s : State} (h : Mild s) {c : Ctx} (hc : c.sec = false) (_hd : c.die = 0) (acc : Machine.Acc) {a : Nat}
    (ha : a < 2 ^ 29 ∨ (a < 2 ^ 30 ∧ acc ≠ .atomic)) : Mapped s c acc a (k0 a) false := by
  have hw := walk_paged h.toTables c.who (a := a) (by omega)
  refine ⟨by omega, _, 29, ⟨hc ▸ hw, ?_⟩, .inr ?_, ?_, ?_, ?_, .inr ?_, ?_, ?_, ?_, ?_, fun _ => ⟨?_, ?_⟩, ?_, ?_, ?_⟩
  · rw [cached_none h c]; intro t ht; cases ht
  · split <;> rfl
  · split <;> cases acc <;> rfl
  · unfold beingPublished
    rw [Bool.eq_false_iff]
    intro hb
    obtain ⟨x, hx, hb⟩ := List.any_eq_true.mp hb
    obtain ⟨k, hk, hb⟩ := List.any_eq_true.mp hb
    rw [(h.dies x hx).2.1 k hk] at hb
    cases hb
  · unfold k0
    split
    · next hl =>
      have e : entryPa 0x1D#64 + a % 2 ^ 29 = a := by
        rw [show entryPa 0x1D#64 = 0 from rfl]; omega
      rw [e]; exact locate_k0 h.toTables hl
    · next hl =>
      have e : entryPa 0x1000000001D#64 + a % 2 ^ 29 = 2 ^ 40 + (a - 2 ^ 29) := by
        rw [show entryPa 0x1000000001D#64 = 2 ^ 40 from rfl]; omega
      rw [e, locate_ws h.toTables (by omega), Nat.add_comm]
  · unfold secureKey
    rw [h.part]
    have e1 : ∀ n, (Partition.reset.wslc.getD n 0#16) = 0#16 := by
      intro n
      simp only [Partition.reset, List.getD_eq_getElem?_getD, List.getElem?_replicate]
      split <;> rfl
    have e2 : Partition.reset.preg = 0#64 := rfl
    rw [e1, e2]
    split <;> simp
  · intro _; split <;> rfl
  · intro hat
    rcases ha with ha | ha
    · unfold isWs wsBase k0; rw [if_pos ha, decide_eq_false_iff_not]; omega
    · exact absurd hat ha.2
  · intro _
    unfold refreshLeft phaseOf
    rw [h.cycle]
    dsimp only
    split
    · next h2 => have := h2.1; have := h2.2; omega
    · rfl
  · intro _ hws
    have hb : wsBase ≤ k0 a := of_decide_eq_true hws
    have hk : k0 a < 2 ^ 40 + 2 ^ 29 := by unfold k0; split <;> omega
    have hh : homeOf (k0 a) = 0 := by
      unfold homeOf; rw [if_pos hws]; unfold wsBase; omega
    have hs : secureKey s.fw (k0 a) = false := by
      unfold secureKey
      rw [if_pos hws, h.part, hh]
      simp [Partition.reset]
    unfold wsOpen
    rw [hh, hs]
    simp [h.isOpen, h.queue]
  · unfold unresolvable; rw [h.unres]; rfl
  · unfold entryOut
    rw [Bool.eq_false_iff]
    intro hb
    obtain ⟨x, hx, hb⟩ := List.any_eq_true.mp hb
    obtain ⟨f, hf, hb⟩ := List.any_eq_true.mp hb
    rw [(h.ranks x hx).2] at hf
    cases hf
  · split <;> rfl
  · exact unmixed_of h _
  · intro a e b hwk _
    rw [hc] at hwk
    exact walk_plain h hwk

theorem homeOf_k0 {a : Nat} (h : a < 2 ^ 30) : homeOf (k0 a) = 0 := by
  unfold homeOf isWs wsBase k0; split <;> split <;> simp_all <;> omega
theorem reaches {s : State} (h : Paged s) {c : Ctx} (hc : c.sec = false) (hd : c.die = 0) (acc : Machine.Acc) {a : Nat}
    (ha : a < 2 ^ 29 ∨ (a < 2 ^ 30 ∧ acc ≠ .atomic)) : Reaches s c acc a (k0 a) :=
  ⟨none_to_come h.toMild c _, fun _ => h.holding, fun _ => rank_of h.toMild _ _, false, mapped h.toMild hc hd acc ha, by
    unfold direct; rw [homeOf_k0 (by omega), hd]; rfl, fun _ => .inr (covered_of h.xwrites _)⟩
theorem reachesHome {s : State} (h : Paged s) {c : Ctx} (hc : c.sec = false) (hd : c.die = 0) (acc : Machine.Acc) {a : Nat}
    (ha : a < 2 ^ 29 ∨ (a < 2 ^ 30 ∧ acc ≠ .atomic)) : ReachesHome s c acc a (k0 a) :=
  ⟨⟨false, mapped h.toMild hc hd acc ha⟩, none_to_come h.toMild c _, fun _ => ⟨rank_of h.toMild _ _, .inl ⟨by rw [homeOf_k0 (by omega), hd], covered_of h.xwrites _⟩⟩⟩
theorem noInsert {s : State} (h : Paged s) {P : TopkIns → Prop} : ∀ k ∈ s.topks, P k := by
  rw [h.topks]; intro k hk; cases hk
theorem touches {s : State} (h : Paged s) {c : Ctx} (hc : c.sec = false) (hd : c.die = 0) (acc : Machine.Acc) {a n : Nat}
    (ha : a + n ≤ 2 ^ 29) : Touches s c acc false k0 a n := fun i hi =>
  ⟨by simpa using reaches h hc hd acc (.inl (by omega)), fun k hk => noInsert h (P := fun k => k.tid = c.tid → _) k hk⟩

/-! ### States for the witnesses -/

/-- An I32 array register of rank 1 with up to 8 elements. -/
def vec (l : List Nat) : ArrReg :=
  { ArrReg.reset with ty := 5#4, ext := [l.length], isEmpty := false
                      gran := [{ data := BitVec.ofNat 256 (packCodes 32 l), scale := 0x7F#8, poison := false }] }
/-- An empty I32 array register. -/
def none32 : ArrReg := { ArrReg.reset with ty := 5#4 }
/-- A state with array register `r` of the current thread replaced. -/
def withArr (r : Nat) (x : ArrReg) (s : State) : State :=
  s.setMySlot { s.mySlot with arr := { s.mySlot.arr with regs := listSet s.mySlot.arr.regs r x } }
/-- `s0` with a grant of 4096 granules, s5 = 3, a5 and a9 full, a3 empty. -/
def s1 : State :=
  let s := s0.setMySlot { s0.mySlot with grant := 4096 }
  put 5#5 3#64 (withArr 9 (vec [2, 7, 1, 8]) (withArr 5 (vec [3, 1, 4, 1]) (withArr 3 none32 s)))

theorem free_of {s : State} (h : s.cur.pendRegs = []) (r : Reg) : Free s r := by
  unfold Free; rw [h]; exact List.not_mem_nil
theorem clean_of {s : State} (h : s.mem.poison = []) (n : Nat) (key : Nat → Nat) : Clean s n key := by
  intro i _; unfold Memory.poisoned; rw [h]; rfl
theorem whole_of {s : State} (h : s.mem.poison = []) (key : Nat → Nat) (a n : Nat) : Whole s key a n := by
  intro i _; unfold Memory.poisoned; rw [h]; rfl
theorem span_of {s : State} (h : Paged s) {c : Ctx} (hc : c.sec = false) (hd : c.die = 0) (acc : Machine.Acc) {a n : Nat}
    (ha : a + n ≤ 2 ^ 29) : Span s c acc a n (fun i => k0 (a + i)) := fun i hi =>
  ⟨reaches h hc hd acc (.inl (by omega)), fun k hk => noInsert h (P := fun k => k.tid = c.tid → _) k hk⟩
theorem word_of {s : State} (h : Paged s) (hp : s.mem.poison = []) {c : Ctx} (hc : c.sec = false) (hd : c.die = 0)
    {a : Word64} {w : Word32} (ha : a.toNat + 4 ≤ 2 ^ 29)
    (hw : w = BitVec.ofNat 32 (numberAt s.mem 4 (fun i => k0 (a.toNat + i)))) : Word s c a w :=
  ⟨_, span_of h hc hd .fetch ha, clean_of hp _ _, hw⟩

theorem s1_runs : Runs s1 := by constructor <;> decide
theorem s1_free (r : Reg) : Free s1 r := free_of (by decide) r
theorem s1_paged : Paged s1 := paged_of (by decide)
theorem s1_poison : s1.mem.poison = [] := by decide
theorem s1_quiet : Quiet s1 := by
  refine ⟨by decide, by decide, ?_⟩
  rw [show s1.topks = [] from by decide]; intro k hk; cases hk

theorem hyp_IntegerResults : Runs s1 ∧ Free s1 5 ∧ Free s1 3 ∧ SrcFree s1 (.reg 9#5) ∧ SrcFree s1 (.lit 0#32) :=
  ⟨s1_runs, s1_free _, s1_free _, s1_free _, trivial⟩
theorem hyp_ImmediateResults : Runs s1 ∧ Free s1 5 ∧ Free s1 3 ∧ opField 0x028007C0#32 = 0x014 ∧
    (0x028007C0#32 : Word32).extractLsb' 6 5 ≠ 0#5 ∧ opField 0x02A00780#32 = 0x015 ∧
    (0x02A00780#32 : Word32).extractLsb' 7 4 ≠ 0#4 :=
  ⟨s1_runs, s1_free _, s1_free _, by decide, by decide, by decide, by decide⟩
theorem hyp_FloatResults : (Runs s1 ∧ Free s1 5 ∧ Free s1 3 ∧ SrcFree s1 (.reg 9#5) ∧ RmLegal s1) ∧
    Runs (withCsr { s1.cur.csr with mode := 5#64 } s1) ∧ ¬ RmLegal (withCsr { s1.cur.csr with mode := 5#64 } s1) :=
  ⟨⟨s1_runs, s1_free _, s1_free _, s1_free _, by unfold RmLegal; decide⟩, by constructor <;> decide, by unfold RmLegal; decide⟩
/-- Eight bytes that cross a line. -/
theorem hyp_LoadResults : Span s1 s1.ctx .read 0x7C 8 (fun i => k0 (0x7C + i)) ∧ Clean s1 8 (fun i => k0 (0x7C + i)) ∧
    (s1.cur.reg 0#5 + (0x7C#11 : BitVec 11).signExtend 64).toNat = 0x7C :=
  ⟨span_of s1_paged (by decide) (by decide) _ (by omega), clean_of s1_poison _ _, by decide⟩
theorem hyp_LoadResults_high : Runs (put 5#5 (BitVec.ofNat 64 (2 ^ 55)) s1) ∧ Free (put 5#5 (BitVec.ofNat 64 (2 ^ 55)) s1) 5#5 ∧
    2 ^ 55 ≤ ((put 5#5 (BitVec.ofNat 64 (2 ^ 55)) s1).cur.reg 5#5 + (0#11 : BitVec 11).signExtend 64).toNat :=
  ⟨by constructor <;> decide, free_of (by decide) _, by decide⟩
theorem hyp_LoadResults_poison : let s := { s1 with mem := s1.mem.setPoison 3 }
    Span s s.ctx .read 0x60 1 (fun i => k0 (0x60 + i)) ∧ s.mem.poisoned (k0 (0x60 + 0)) = true :=
  ⟨span_of (paged_of (by decide)) (by decide) (by decide) _ (by omega), by decide⟩
/-- A read reaches its byte in a turn that holds accesses back too. -/
theorem readReaches {s : State} (h : Mild s) {c : Ctx} (hc : c.sec = false) (hd : c.die = 0) {a : Nat} (ha : a < 2 ^ 29) :
    Reaches s c .read a (k0 a) :=
  ⟨none_to_come h c _, (fun h => nomatch h), fun _ => rank_of h _ _, false, mapped h hc hd _ (.inl ha),
    (by unfold direct; rw [homeOf_k0 (by omega), hd]; rfl), fun _ => .inr (covered_of h.xwrites _)⟩
/-- `s1` in a turn that holds accesses back. -/
def sh : State := { s1 with holding := true }
theorem sh_mild : Mild sh :=
  ⟨⟨by decide, by decide, by decide, by decide, by decide, by decide, by decide⟩, by decide, by decide, by decide, by decide, by decide,
   by decide, by decide, by decide, by decide, by decide, by decide, by decide⟩
theorem hyp_LoadResults_holds : Runs sh ∧ Free sh 5 ∧ sh.holding = true ∧ Span sh sh.ctx .read 0x60 8 (fun i => k0 (0x60 + i)) ∧
    Clean sh 8 (fun i => k0 (0x60 + i)) ∧ isWs (k0 (0x60 + 0)) = false :=
  ⟨by constructor <;> decide, free_of (by decide) _, rfl, fun i hi =>
    ⟨readReaches sh_mild (by decide) (by decide) (by omega), fun k hk => (by rw [sh_mild.topks] at hk; cases hk)⟩,
   clean_of (by decide) _ _, by decide⟩
def load1 : HeldLoad := { tid := s1.cur.tid, reg := 7#5, key := 0x60, n := 8, msa := false, was := 0 }
theorem hyp_LoadResults_performs : let s := { s1 with loads := [load1] }
    load1 ∈ s.loads ∧ load1.tid = s.cur.tid ∧ s.cur.status = .bound ∧ s.xwrites = [] ∧ homeOf load1.key = s.cur.place.die ∧
      ∀ i, i < load1.n → s.mem.poisoned (load1.key + i) = false :=
  ⟨by decide, by decide, by decide, by decide, by decide, clean_of (by decide) _ _⟩
/-- `s1` with level-2 entries more: 1 GiB up permits neither loads nor stores, and 512 MiB above that is nowhere. -/
def pg1 : State := put 5#5 (BitVec.ofNat 64 (2 ^ 30)) { s1 with mem := s1.mem.writeN 0x20010 (bytesOfNat 16 (0x11 + 2 ^ 64 * (2 ^ 40 + 2 ^ 33 + 0x1D))) }
theorem no_cached {s : State} (h : (s.die 0).tlb = [] ∧ (s.core 0 0).tlb = []) (hc : s.ctx.die = 0 ∧ s.ctx.core = 0) :
    cachedFor s s.ctx = [] := by
  unfold cachedFor; rw [hc.1, hc.2, h.1, h.2]; split <;> rfl
theorem hyp_LoadResults_page : Runs pg1 ∧ Free pg1 5 ∧ Unmapped pg1 pg1.ctx (2 ^ 31) 2 ∧
    (Walked pg1 pg1.ctx (2 ^ 30) 0x11#64 29 ∧ pg1.cur.tid.region.sec = false ∧
      ¬ ((0x11#64 : Word64).getLsbD 6 = true ∨ ∃ k, locate pg1.fw (entryPa 0x11#64 + 2 ^ 30 % 2 ^ 29) = .here k ∧ secureKey pg1.fw k = true) ∧
      (0x11#64 : Word64).getLsbD 2 = false ∧ (0x11#64 : Word64).getLsbD 3 = false) ∧
    (Walked pg1 pg1.ctx (2 ^ 30 + 2 ^ 29) 0x1020000001D#64 29 ∧
      locate pg1.fw (entryPa 0x1020000001D#64 + (2 ^ 30 + 2 ^ 29) % 2 ^ 29) = .nowhere ∧ (0x1020000001D#64 : Word64).getLsbD 2 = true ∧
      (0x1020000001D#64 : Word64).getLsbD 3 = true ∧ beingPublished pg1 pg1.cur.tid.region.sec ((2 ^ 30 + 2 ^ 29) / 65536) = false) := by
  have hc : cachedFor pg1 pg1.ctx = [] := no_cached (by decide) (by decide)
  have none : ∀ (P : TlbEnt → Prop), ∀ t ∈ cachedFor pg1 pg1.ctx, P t := by rw [hc]; intro P t ht; cases ht
  refine ⟨by constructor <;> decide, free_of (by decide) _, ⟨rfl, none _⟩, ⟨⟨rfl, none _⟩, by decide, ?_, by decide, by decide⟩,
    ⟨rfl, none _⟩, by decide, by decide, by decide, by decide⟩
  rintro (h | ⟨k, h1, h2⟩)
  · exact absurd h (by decide)
  · have e : locate pg1.fw (entryPa 0x11#64 + 2 ^ 30 % 2 ^ 29) = .here 0 := by decide
    rw [e] at h1; cases h1; exact absurd h2 (by decide)
/-- `s1` with its first region of memory secure, and with its weight store sealed. -/
def pg2 : State := { s1 with fw := { s1.fw with part := { Partition.reset with preg := 1#64 } } }
def pg3 : State := s1.setDie 0 { s1.die 0 with openNs := false }
theorem hyp_LoadResults_world : (Runs pg2 ∧ Walked pg2 pg2.ctx 0x60 0x1D#64 29 ∧ pg2.cur.tid.region.sec = false ∧
      locate pg2.fw (entryPa 0x1D#64 + 0x60 % 2 ^ 29) = .here 0x60 ∧ secureKey pg2.fw 0x60 = true) ∧
    (Runs pg3 ∧ Walked pg3 pg3.ctx (2 ^ 29) 0x1000000001D#64 29 ∧ (0x1000000001D#64 : Word64).getLsbD 6 = false ∧
      locate pg3.fw (entryPa 0x1000000001D#64 + 2 ^ 29 % 2 ^ 29) = .here (2 ^ 40) ∧ secureKey pg3.fw (2 ^ 40) = false ∧
      isWs (2 ^ 40) = true ∧ wsOpen pg3 (2 ^ 40) = false ∧ beingPublished pg3 pg3.cur.tid.region.sec (2 ^ 29 / 65536) = false) := by
  have h2 : cachedFor pg2 pg2.ctx = [] := no_cached (by decide) (by decide)
  have h3 : cachedFor pg3 pg3.ctx = [] := no_cached (by decide) (by decide)
  refine ⟨⟨by constructor <;> decide, ⟨rfl, by rw [h2]; intro t ht; cases ht⟩, by decide, by decide, by decide⟩,
    by constructor <;> decide, ⟨rfl, by rw [h3]; intro t ht; cases ht⟩, by decide, by decide, by decide, by decide, by decide, by decide⟩
theorem hyp_StoreResults_holds : Runs sh ∧ sh.holding = true ∧ Mapped sh sh.ctx .write 0x60 (k0 0x60) false ∧
    NoneToCome sh sh.ctx (k0 0x60) ∧ isWs (k0 0x60) = false ∧ sh.topks = [] :=
  ⟨by constructor <;> decide, rfl, mapped sh_mild (by decide) (by decide) _ (.inl (by decide)), none_to_come sh_mild _ _, by decide,
   by decide⟩
theorem hyp_StoreResults : Runs s1 ∧ Span s1 s1.ctx .write 0x7C 8 (fun i => k0 (0x7C + i)) :=
  ⟨s1_runs, span_of s1_paged (by decide) (by decide) _ (by omega)⟩
theorem hyp_BranchResults : Runs s1 ∧
    (∃ w, Word s1 s1.ctx (s1.cur.pc + ((1#11 : BitVec 11).signExtend 64 <<< 2)) w ∧ w.getLsbD 31 = true) ∧
    ∃ w, Word s1 s1.ctx (s1.cur.pc + ((2#11 : BitVec 11).signExtend 64 <<< 2)) w ∧ w.getLsbD 31 = false :=
  ⟨s1_runs, ⟨0x80000000#32, word_of s1_paged s1_poison (by decide) (by decide) (by decide) (by decide), by decide⟩,
    ⟨0#32, word_of s1_paged s1_poison (by decide) (by decide) (by decide) (by decide), by decide⟩⟩
theorem hyp_CsrReads : Runs s1 ∧ Free s1 3 ∧ Quiet s1 ∧ (0x07#16 : BitVec 16).toNat ∉ csrNumbers :=
  ⟨s1_runs, s1_free _, s1_quiet, by decide⟩
/-- A thread whose slot nothing owns. -/
def s2 : State := s1.setMySlot { s1.mySlot with owner := none }
theorem hyp_CsrWrites : Runs s1 ∧ Free s1 3 ∧ Quiet s1 ∧ s1.arrAbsent = false ∧ Runs s2 ∧ s2.arrAbsent = true :=
  ⟨s1_runs, s1_free _, s1_quiet, by decide, by constructor <;> decide, by decide⟩
theorem idle_of {s : State} (hr : s.fw.remotes = []) (hd : s.dies.all (fun x => x.2.squares.isEmpty && x.2.faults.isEmpty) = true)
    (hw : s.watches = []) : Idle s := by
  refine ⟨fun x hx => ?_, (by rw [hr]; intro r h; cases h), (by rw [hw]; intro w h; cases h)⟩
  have := List.all_eq_true.mp hd x hx
  simp only [Bool.and_eq_true, List.isEmpty_iff] at this
  refine ⟨?_, ?_⟩
  · rw [this.1]; intro q h; cases h
  · rw [this.2]; intro q h; cases h
/-- `s1` with a handler, and in it. -/
def s3 : State := withCsr { s1.cur.csr with tvec := 0x40000#64 } s1
def s4 : State := withCsr { s1.cur.csr with tvec := 0x40000#64, tcause := 0x1000C#64, tpc := 0x40004#64 } s1
theorem s1_idle : Idle s1 := idle_of (by decide) (by decide) (by decide)
theorem hyp_TrapEntry : (Idle s3 ∧ s3.cur.csr.tvec ≠ 0#64 ∧ ¬ InHandler s3) ∧ (Idle s4 ∧ s4.cur.csr.tvec ≠ 0#64 ∧ InHandler s4) ∧
    Idle s1 ∧ s1.cur.csr.tvec = 0#64 :=
  ⟨⟨idle_of (by decide) (by decide) (by decide), by decide, by unfold InHandler; decide⟩,
   ⟨idle_of (by decide) (by decide) (by decide), by decide, by unfold InHandler; decide⟩, s1_idle, by decide⟩
theorem hyp_CallsAndReturn : Runs s3 ∧ ¬ InHandler s3 ∧ Runs s4 ∧ InHandler s4 ∧ Runs s1 ∧ s1.cur.csr.tvec = 0#64 :=
  ⟨by constructor <;> decide, by unfold InHandler; decide, by constructor <;> decide, by unfold InHandler; decide, s1_runs,
   by decide⟩
theorem hyp_DecodeMapResults : s1.cur.reg 0#5 = 0#64 ∧ (s1.cur.reg 5#5 ≠ 0#64 ∧ (s1.cur.reg 5#5).setWidth 12 ≠ 0#12) ∧
    let s := put 5#5 0x1000#64 s1
    s.cur.reg 5#5 ≠ 0#64 ∧ (s.cur.reg 5#5).setWidth 12 = 0#12 ∧ Span s s.ctx .read 0x1000 4096 (fun i => k0 (0x1000 + i)) ∧
      Clean s 4096 (fun i => k0 (0x1000 + i)) :=
  ⟨by decide, ⟨by decide, by decide⟩, by decide, by decide,
   span_of (paged_of (by decide)) (by decide) (by decide) _ (by omega), clean_of (by decide) _ _⟩

/-! ### Virtual processors -/

/-- VP 0 of group 0 of an `each` with one cell of one element. -/
def v0 : State := { s1 with runner := .vp 0 0, cur := { s1.cur with each := some placedEach } }
/-- The same, v3 = 1. -/
def v1 : State := { v0 with vp := v0.vp.setReg 3#5 1#64 }
/-- The same as `v0`, its element poisoned. -/
def v2 : State :=
  let j : EachJob := { placedEach with src := { placedEach.src with gran := [{ Granule.zero with poison := true }] } }
  { v0 with cur := { v0.cur with each := some j } }
theorem v0_paged : Paged v0 := paged_of (by decide)
theorem hyp_VpScalarResults : VpRuns v0 0 0 ∧ (15#5 : Reg).toNat < 16 ∧ vsrc v0 (.reg 15#5) = some 0#64 ∧
    vsrc v0 (.lit 0xFFFFFFFF#32) = some 0xFFFFFFFFFFFFFFFF#64 := ⟨rfl, by decide, by decide, by decide⟩
theorem hyp_BlockWords : VpRuns v0 0 0 ∧ v0.cur.each = some placedEach ∧ (3#5 : Reg).toNat < 16 ∧
    (vreg v0 3#5).toNat % 2 ^ 32 < placedEach.cell ∧ (placedEach.src.elem 0).poison = false ∧
    (v1.cur.each = some placedEach ∧ placedEach.cell ≤ (vreg v1 3#5).toNat % 2 ^ 32) ∧
    (∃ j, v2.cur.each = some j ∧ (vreg v2 3#5).toNat % 2 ^ 32 < j.cell ∧ (j.src.elem 0).poison = true) :=
  ⟨rfl, by decide, by decide, by decide, by decide, ⟨by decide, by decide⟩, ⟨_, rfl, by decide, by decide⟩⟩
theorem hyp_BlockWords_next :
    (∃ w, Word v0 (v0.vpCtx 0 0) 0x40000#64 w ∧ w.getLsbD 31 = true ∧ v0.vp.pc + ((0x10000#21 : BitVec 21).signExtend 64 <<< 2) = 0x40000#64) ∧
    (∃ w, Word v0 (v0.vpCtx 0 0) 0#64 w ∧ w.getLsbD 31 = false ∧ v0.vp.pc + ((0#21 : BitVec 21).signExtend 64 <<< 2) = 0#64) ∧ Runs s1 :=
  ⟨⟨0x80000000#32, word_of v0_paged (by decide) (by decide) (by decide) (by decide) (by decide), by decide, by decide⟩,
   ⟨0#32, word_of v0_paged (by decide) (by decide) (by decide) (by decide) (by decide), by decide, by decide⟩, s1_runs⟩

/-! ### Arrays -/

theorem arrRuns_of {s : State} (h : (s.runner = .thread ∧ s.cur.status = .bound) ∧ s.arrAbsent = false ∧
    (s.cur.place.die, s.cur.place.core, s.cur.place.slot) ∈ s.cur.place.shares ∧ (s.cur.place.shares.map (·.1)).Nodup ∧
    ∀ x ∈ s.cur.place.shares, (s.slotAt x.1 x.2.1 x.2.2).arr.regs.length = 32 ∧
      (s.slotAt x.1 x.2.1 x.2.2).arr.masks.length = 7 ∧ (s.slotAt x.1 x.2.1 x.2.2).arr.lfsr.length = 17) : ArrRuns s := h
theorem full_of {s : State} {r : Nat} (h : (areg s r).pending = false ∧ (areg s r).isEmpty = false ∧
    ∀ g ∈ (areg s r).gran, g.poison = false) : Full s r := h
theorem ready_of {s : State} {r : Nat} (h : (areg s r).pending = false) : Ready s r := h
theorem fits_of {s : State} {t : Tag} {ext : List Nat} {srcs : List ArrReg} {more : Nat}
    (h : ext.length ≤ 8 ∧ needOn s.cur.place.dies t ext (resultRepl s.cur.place.dies ext srcs) ≤ 57344 ∧
      s.held + needOn s.cur.place.dies t ext (resultRepl s.cur.place.dies ext srcs) + more ≤ s.mySlot.grant) :
    Fits s t ext srcs more := h
theorem unspread_of {s : State} {k : Nat} {rs : List ArrReg} (h : ∀ r ∈ rs, cellSpread s.cur.place.dies r k = false) :
    Unspread s k rs := .inr h
theorem s1_arr : ArrRuns s1 := arrRuns_of (by decide)
theorem s1_rm : RmLegal s1 := by unfold RmLegal; decide
theorem s1_full5 : Full s1 5 := full_of (by decide)
theorem s1_full9 : Full s1 9 := full_of (by decide)
theorem s1_ready3 : Ready s1 3 := ready_of (by decide)
theorem s1_a5 : areg s1 5 = vec [3, 1, 4, 1] := by decide
theorem s1_a9 : areg s1 9 = vec [2, 7, 1, 8] := by decide
theorem s1_agree : agree (areg s1 5).ext (areg s1 9).ext (rkVal 7#3) = .ok ([], [4]) := by
  rw [s1_a5, s1_a9]; rfl

theorem hyp_ArithmeticResults : ArrRuns s1 ∧ RmLegal s1 ∧ Full s1 5 ∧ Ready s1 3 ∧ EwFull s1 (.arr 9#5) ∧
    Unspread s1 (rkVal 7#3) [areg s1 5, areg s1 9] ∧ agree (areg s1 5).ext (areg s1 9).ext (rkVal 7#3) = .ok ([], [4]) ∧
    Fits s1 (areg s1 3).tag ([] ++ [4]) [areg s1 5, areg s1 9] (exmRoom s1 (extProd ([] ++ [4]))) :=
  ⟨s1_arr, s1_rm, s1_full5, s1_ready3, s1_full9, unspread_of (by decide), s1_agree, fits_of (by decide)⟩
theorem hyp_ArithmeticResults_afma : Full s1 9 ∧ EwFull s1 (.arr 9#5) ∧
    Unspread s1 (rkVal 7#3) [areg s1 5, areg s1 9, areg s1 9] ∧
    agree (areg s1 5).ext (areg s1 9).ext (rkVal 7#3) = .ok ([], [4]) ∧
    agree ([] ++ [4]) (areg s1 9).ext (rkVal 7#3) = .ok ([], [4]) ∧
    Fits s1 (areg s1 9).tag ([] ++ [4]) [areg s1 5, areg s1 9, areg s1 9] (exmRoom s1 (extProd ([] ++ [4]))) :=
  ⟨s1_full9, s1_full9, unspread_of (by decide), s1_agree, by rw [s1_a9]; rfl, fits_of (by decide)⟩
theorem hyp_ArithmeticResults_unary : Unspread s1 (rkVal 0#3) [areg s1 5] ∧
    Fits s1 (areg s1 3).tag (areg s1 5).ext [areg s1 5] (exmRoom s1 (extProd (areg s1 5).ext)) ∧ NoDraw s1 :=
  ⟨unspread_of (by decide), fits_of (by decide), by unfold NoDraw; decide⟩
/-- `s1` with an FP32 a5. -/
def s5 : State := withArr 5 { vec [0, 0x3F800000] with ty := 15#4 } s1
theorem hyp_BitResults : ((areg s1 5).tag.isInt = true ∧ (ewReg s1 false (.arr 9#5)).tag.isInt = true) ∧
    ArrRuns s5 ∧ Full s5 5 ∧ (areg s5 5).tag.isInt = false ∧
    (∀ x ∈ [areg s1 5, areg s1 9], x.tag.isInt = true) ∧ (areg s1 5).tag = (areg s1 3).tag :=
  ⟨⟨by decide, by decide⟩, arrRuns_of (by decide), full_of (by decide), by decide, by decide, by decide⟩
theorem hyp_CompareAndSelect :
    Fits s1 (areg s1 3).tag ([] ++ [4]) [areg s1 5, areg s1 9] (ceilDiv (extProd ([] ++ [4])) 256 + exmRoom s1 (extProd ([] ++ [4]))) ∧
    ((areg s1 5).tag = (areg s1 3).tag ∧ (areg s1 9).tag = (areg s1 3).tag ∧ (areg s1 3).bl = 0#2) :=
  ⟨fits_of (by decide), by decide, by decide, by decide⟩
/-- `s1` with a5 a scaled register of four E4M3 codes in one block, and a3 empty with that tag. -/
def s6 : State := withArr 3 { none32 with ty := 12#4, bl := 1#2 } (withArr 5 { vec [0x38] with ty := 12#4, bl := 1#2, ext := [4] } s1)
theorem hyp_ConversionResults : Fits s1 (areg s1 3).tag (areg s1 5).ext [areg s1 5] (exmRoom s1 (extProd (areg s1 5).ext)) ∧
    Fits s1 (areg s1 3).tag (areg s1 5).ext [] (exmRoom s1 (extProd (areg s1 5).ext)) ∧
    (ArrRuns s6 ∧ Full s6 5 ∧ Ready s6 3 ∧ Free s6 9 ∧ (areg s6 5).bl ≠ 0#2 ∧ (areg s6 5).tag = (areg s6 3).tag ∧
      (areg s6 5).gran.length = granulesNeeded (areg s6 5).tag (areg s6 5).ext ∧ Unspread s6 (rkVal 7#3) [areg s6 5] ∧
      Fits s6 (areg s6 3).tag (areg s6 5).ext [areg s6 5] 0) ∧
    Fits s1 (areg s1 3).tag (blockShape (areg s1 5)) [areg s1 5] (exmRoom s1 (extProd (blockShape (areg s1 5)))) :=
  ⟨fits_of (by decide), fits_of (by decide), ⟨arrRuns_of (by decide), full_of (by decide), ready_of (by decide),
    free_of (by decide) _, by decide, by decide, by decide, unspread_of (by decide), fits_of (by decide)⟩, fits_of (by decide)⟩
/-- `s1` with a9 an I32 scalar, 4. -/
def s7 : State := withArr 9 { vec [4] with ext := [] } s1
theorem s7_a9 : areg s7 9 = { vec [4] with ext := [] } := by decide
theorem hyp_TagsAndExtents : ArrRuns s1 ∧ Ready s1 3 ∧ blOk 12#4 1#2 = true ∧ blOk 15#4 1#2 = false ∧ (7#5 : Reg).toNat < 8 ∧
    (areg s1 5).isEmpty = false ∧ (areg s1 3).isEmpty = true ∧ ¬ Ready (withArr 5 { vec [1] with pending := true } s1) 5 ∧
    8 ≤ (8#5 : Reg).toNat :=
  ⟨s1_arr, s1_ready3, by decide, by decide, by decide, by decide, by decide, by unfold Ready; decide, by decide⟩
theorem hyp_TagsAndExtents_iota : (CountFull s1 (.sca 5#5) ∧ (countOf s1 (.sca 5#5)).natAbs < 2 ^ 31 ∧
      Fits s1 (areg s1 3).tag [(countOf s1 (.sca 5#5)).natAbs] [] 0) ∧
    ArrRuns s7 ∧ CountFull s7 (.arr 9#5) ∧ (countOf s7 (.arr 9#5)).natAbs < 2 ^ 31 ∧
      Fits s7 (areg s7 3).tag [(countOf s7 (.arr 9#5)).natAbs] [] 0 ∧ Settled s7 :=
  ⟨⟨s1_free _, by decide, fits_of (by decide)⟩, arrRuns_of (by decide), ⟨full_of (by decide), by decide, by decide⟩, by decide,
   fits_of (by decide), ⟨by decide, by decide⟩⟩
/-- `s1` with a9 the shape 2 × 2. -/
def s8 : State := withArr 9 (vec [2, 2]) s1
def pb22 : PBlock :=
  { rank := 2#4, ty := 0#4, bl := 0#2, boff := 0#3, pb := false, nt := false, x0 := 2#16, x1 := 2#16, x2 := 0#16, x3 := 0#16
    pn := 0#16, pu := 0#16 }
theorem hyp_ReshapeResults : ArrRuns s8 ∧ Full s8 5 ∧ Ready s8 3 ∧ (∀ n ∈ [2, 2], n < 2 ^ 31) ∧
    Fits s8 (areg s8 3).tag [2, 2] [areg s8 5] 0 ∧ Full s8 9 ∧ (areg s8 9).tag.isInt = true ∧ (areg s8 9).ext = [[2, 2].length] ∧
    (∀ i, i < [2, 2].length → (decodeVal (areg s8 9).ty ((areg s8 9).elem i).code).toInt = (([2, 2] : List Nat).getD i 0 : Nat)) ∧
    pb22.rank.toNat = [2, 2].length ∧
    (∀ i, i < [2, 2].length → ([pb22.x0, pb22.x1, pb22.x2, pb22.x3].getD i 0).toNat = ([2, 2] : List Nat).getD i 0 ∧
      ([2, 2] : List Nat).getD i 0 < 0xFFE0) :=
  ⟨arrRuns_of (by decide), full_of (by decide), ready_of (by decide), by decide, fits_of (by decide), full_of (by decide),
   by decide, by decide, by decide, by decide, by decide⟩
theorem hyp_ReductionResults : ArrRuns s1 ∧ RmLegal s1 ∧ Full s1 5 ∧ Ready s1 3 ∧ (areg s1 5).count ≤ 65536 ∧
    Fits s1 (areg s1 3).tag (frameOf (areg s1 5) 7#3 ++ itemOf (cellOf (areg s1 5) 7#3)) [areg s1 5]
      (exmRoom s1 (extProd (frameOf (areg s1 5) 7#3 ++ itemOf (cellOf (areg s1 5) 7#3)))) ∧
    (areg s1 5).tag.isInt = true ∧ ((areg s1 5).tag = { ty := 5#4, bl := 0#2 } ∧ (areg s1 3).tag = { ty := 5#4, bl := 0#2 } ∧
      s1.cur.csr.mode.getLsbD 3 = false ∧ s1.cur.place.dies = 1) ∧
    Fits s1 (areg s1 3).tag (areg s1 5).ext [areg s1 5] (exmRoom s1 (areg s1 5).count) ∧
    (areg s1 5).ext = [leadN (cellOf (areg s1 5) 7#3)] ∧ rkVal 7#3 ≠ 0 :=
  ⟨s1_arr, s1_rm, s1_full5, s1_ready3, by decide, fits_of (by decide), by decide, by decide, fits_of (by decide), by decide,
   by decide⟩
theorem hyp_GradeResults : cellSpread s1.cur.place.dies (areg s1 5) (rkVal 7#3) = false ∧
    leadN (cellOf (areg s1 5) 7#3) ≤ 4096 ∧
    Fits s1 (areg s1 3).tag (frameOf (areg s1 5) 7#3 ++ [leadN (cellOf (areg s1 5) 7#3)]) [areg s1 5] 0 :=
  ⟨by decide, by decide, fits_of (by decide)⟩
/-- `s1` with a5 of 2 × 2 elements. -/
def s9 : State := withArr 5 { vec [3, 1, 4, 1] with ext := [2, 2], gran := [{ Granule.zero with data := 0x100000003#256 }, { Granule.zero with data := 0x100000004#256 }] } s1
theorem hyp_MoveResults : Free s1 5 ∧ Fits s1 (areg s1 3).tag (areg s1 5).ext [areg s1 5] 0 ∧
    (ArrRuns s9 ∧ Full s9 5 ∧ (areg s9 5).ext = [2, 2] ∧
      Fits s9 (areg s9 3).tag (frameOf (areg s9 5) 7#3 ++ transShape (cellOf (areg s9 5) 7#3)) [areg s9 5] 0) ∧
    Fits s1 (areg s1 3).tag (frameOf (areg s1 5) 7#3 ++
      (leadN (cellOf (areg s1 5) 7#3) - (s1.cur.reg 5#5).toInt.natAbs) :: itemOf (cellOf (areg s1 5) 7#3)) [areg s1 5] 0 ∧
    ((s1.cur.reg 5#5).toInt.natAbs < 2 ^ 31 ∧ Fits s1 (areg s1 3).tag (frameOf (areg s1 5) 7#3 ++
      (s1.cur.reg 5#5).toInt.natAbs :: itemOf (cellOf (areg s1 5) 7#3)) [areg s1 5] 0) ∧
    s1.cur.place.dies = 1 ∧ (areg s1 5).ext = 4 :: [] ∧ (areg s1 9).ext = 4 :: [] ∧
    Fits s1 (areg s1 3).tag ((4 + 4) :: []) [areg s1 5, areg s1 9] 0 :=
  ⟨s1_free _, fits_of (by decide), ⟨arrRuns_of (by decide), full_of (by decide), by decide, fits_of (by decide)⟩,
   fits_of (by decide), ⟨by decide, fits_of (by decide)⟩, by decide, by decide, by decide, fits_of (by decide)⟩
theorem hyp_OuterResults : Full s1 5 ∧ Full s1 9 ∧ agreeFrames (frameOf (areg s1 5) 7#3) (frameOf (areg s1 9) 7#3) = .ok [] ∧
    Fits s1 (areg s1 3).tag ([] ++ cellOf (areg s1 5) 7#3 ++ cellOf (areg s1 9) 7#3) [areg s1 5, areg s1 9]
      (exmRoom s1 (extProd ([] ++ cellOf (areg s1 5) 7#3 ++ cellOf (areg s1 9) 7#3))) :=
  ⟨s1_full5, s1_full9, by rw [s1_a5, s1_a9]; rfl, fits_of (by decide)⟩
/-- `s1` with the bits 1, 0, 1, 1 in a9; and with four ones among five in a8. -/
def s10 : State :=
  let bits := fun (l : List Nat) => { vec l with ty := 0#4, gran := [{ Granule.zero with data := BitVec.ofNat 256 (packCodes 1 l) }] }
  withArr 8 (bits [1, 1, 0, 1, 1]) (withArr 9 (bits [1, 0, 1, 1]) s1)
theorem hyp_UnknownSizeResults : ArrRuns s10 ∧ Full s10 5 ∧ Full s10 9 ∧ Ready s10 3 ∧
    cellSpread s10.cur.place.dies (areg s10 5) (rkVal 7#3) = false ∧ (areg s10 9).tag = { ty := 0#4, bl := 0#2 } ∧
    (areg s10 9).ext.length = 1 ∧ (areg s10 9).count = leadN (cellOf (areg s10 5) 7#3) ∧
    Fits s10 (areg s10 3).tag (frameOf (areg s10 5) 7#3 ++ leadN (cellOf (areg s10 5) 7#3) :: itemOf (cellOf (areg s10 5) 7#3))
      [areg s10 5] 0 ∧ Full s10 8 ∧ (areg s10 8).tag = { ty := 0#4, bl := 0#2 } ∧
    ((List.range (areg s10 8).count).filter (fun i => codeAt s10 8 i != 0)).length = leadN (cellOf (areg s10 5) 7#3) ∧
    Fits s10 (areg s10 3).tag (frameOf (areg s10 5) 7#3 ++ (areg s10 8).count :: itemOf (cellOf (areg s10 5) 7#3)) [areg s10 5] 0 :=
  ⟨arrRuns_of (by decide), full_of (by decide), full_of (by decide), ready_of (by decide), by decide, by decide, by decide, by decide,
   fits_of (by decide), full_of (by decide), by decide, by decide, fits_of (by decide)⟩
/-- `s1` with a result of unknown size in flight for a3. -/
def s11 : State :=
  s1.setMySlot { s1.mySlot with
    arr := { s1.mySlot.arr with regs := listSet s1.mySlot.arr.regs 3 { none32 with pending := true } }
    flight := [{ reg := 3, reserve := 1, base := 0#16, kind := .unknown (vec [7]) 0x20#64 }] }
theorem hyp_UnknownSizeResults_take : (areg s7 9).ext = [] ∧ (areg s7 9).tag.isInt = true ∧ Full s7 5 ∧ Full s7 9 ∧ Settled s7 ∧
    (countOf s7 (.arr 9#5)).natAbs < 2 ^ 31 ∧
    Fits s7 (areg s7 3).tag (frameOf (areg s7 5) 7#3 ++ (countOf s7 (.arr 9#5)).natAbs :: itemOf (cellOf (areg s7 5) 7#3))
      [areg s7 5] 0 ∧
    (s11.cur.status = .bound ∧ s11.mySlot.owner = some s11.cur.tid ∧ ArrRuns s11 ∧ WellSpread s11 (vec [7]) ∧
      ∃ f rest fl, s11.mySlot.flight = f :: rest ∧ f.reg < 32 ∧ f.kind = .unknown (vec [7]) fl) :=
  ⟨by decide, by decide, full_of (by decide), full_of (by decide), ⟨by decide, by decide⟩, by decide, fits_of (by decide),
   by decide, by decide, arrRuns_of (by decide), .inl (by decide), _, [], _, rfl, by decide, rfl⟩
theorem hyp_SelectionResults : ((areg s1 5).tag.isInt = true ∧ (areg s1 9).ext = [4] ∧
      Fits s1 (areg s1 3).tag (areg s1 5).ext [areg s1 5, areg s1 9] 0) ∧
    ((areg s1 5).ext = [4] ∧ Fits s1 (areg s1 3).tag (areg s1 9).ext [areg s1 5, areg s1 9] 0) ∧
    (Full s1 ((s1.cur.reg 5#5).toNat % 32) ∨ Ready s1 ((s1.cur.reg 5#5).toNat % 32)) ∧
    Full s1 9 ∧ WellSpread s1 (areg s1 9) ∧ s1.held + (areg s1 9).held s1.cur.place.dies ≤ s1.mySlot.grant ∧
    Fits s1 (areg s1 9).tag (areg s1 9).ext [] 0 :=
  ⟨⟨by decide, by decide, fits_of (by decide)⟩, ⟨by decide, fits_of (by decide)⟩, .inr (ready_of (by decide)), s1_full9,
   .inl (by decide), by decide, fits_of (by decide)⟩
/-- `s1` with s5 = 5, the number of a full register. -/
def s12 : State := put 5#5 5#64 s1
theorem hyp_SelectionResults_from : ArrRuns s12 ∧ Full s12 ((s12.cur.reg 5#5).toNat % 32) ∧
    WellSpread s12 (areg s12 ((s12.cur.reg 5#5).toNat % 32)) ∧
    s12.held + (areg s12 ((s12.cur.reg 5#5).toNat % 32)).held s12.cur.place.dies ≤ s12.mySlot.grant :=
  ⟨arrRuns_of (by decide), full_of (by decide), .inl (by decide), by decide⟩
/-- `s1` with s7 the address of a block. -/
def s13 : State := put 7#5 0x40000#64 s1
theorem hyp_EachResults : s13.cur.each = none ∧ Free s13 7 ∧ Ready s13 5 ∧ (areg s13 5).isEmpty = false ∧
    (s13.cur.reg 7#5).setWidth 2 = 0#2 ∧ (s13.cur.reg 7#5).toNat < 2 ^ 55 ∧
    cellSpread s13.cur.place.dies (areg s13 5) (rkVal 0#3) = false ∧
    (∃ w, Word s13 s13.ctx (s13.cur.reg 7#5) w ∧ w.getLsbD 31 = true) ∧ s13.cur.csr.astart = 0#64 ∧
    Fits s13 (areg s13 3).tag (frameOf (areg s13 5) 0#3) [areg s13 5] 0 ∧ 0 < extProd (frameOf (areg s13 5) 0#3) :=
  ⟨by decide, free_of (by decide) _, ready_of (by decide), by decide, by decide, by decide, by decide,
   ⟨0x80000000#32, word_of (paged_of (by decide)) (by decide) (by decide) (by decide) (by decide) (by decide), by decide⟩,
   by decide, fits_of (by decide), by decide⟩
/-- `s1` with an `each` of which every group has finished. -/
def s14 : State := { s1 with cur := { s1.cur with each := some { placedEach with d := 3, groups := [] } } }
theorem hyp_EachResults_done : ArrRuns s14 ∧ ∃ j, s14.cur.each = some j ∧ j.groups = [] ∧
    ceilDiv (extProd j.frame) 8 ≤ j.nextGroup ∧ j.d = (3#5 : Reg).toNat :=
  ⟨arrRuns_of (by decide), _, rfl, rfl, by decide, rfl⟩

/-! ### The matrix engine -/

/-- The state after an instruction, where it answers one. -/
def did (i : Instr) (s : State) : State := (nextOf (exec i s)).getD s
/-- An I8 register of shape 2 × 2. -/
def sq8 : ArrReg :=
  { ArrReg.reset with ty := 3#4, ext := [2, 2], isEmpty := false
                      gran := [{ Granule.zero with data := 0x0201#256 }, { Granule.zero with data := 0x0403#256 }] }
/-- `s1` with square operands in a5, a9 and FP32 in a8, a triple in a10 to a12, and a weight-store word in s7. -/
def m1 : State :=
  let f : ArrReg := { ArrReg.reset with ty := 15#4, ext := [1, 2], isEmpty := false
                                        gran := [{ Granule.zero with data := 0x3F80000040000000#256 }] }
  put 7#5 0x100#64 (withArr 12 { vec [0x0201] with ty := 3#4, ext := [2] } (withArr 11 (vec [0, 1]) (withArr 10 (vec [0, 1, 2])
    (withArr 8 f (withArr 9 sq8 (withArr 5 sq8 s1))))))
theorem canPost_of {s : State} (h : (s.runner = .thread ∧ s.cur.status = .bound) ∧ s.arrAbsent = false ∧
    modeRm s.cur.csr.mode < 5 ∧ pausedOf s = none ∧ (myCore s).queue.length < 64 ∧
    ∀ c ∈ (s.die s.cur.place.die).expQueue, c.tid ≠ s.cur.tid) : CanPost s := h
theorem hyp_MatrixPosts : CanPost m1 ∧ Square128 m1 5 ∧ macroTy (areg m1 5).ty = true ∧ Free m1 7 ∧
    mbwlOk (m1.cur.reg 7#5) = true ∧
    secureSlot m1.fw m1.cur.place.die ((m1.cur.reg 7#5).extractLsb' 0 7).toNat = false ∧
    ((m1.cur.reg 7#5).extractLsb' 0 7).toNat / 8 ∉ retiredOf m1.fw .wslice m1.cur.place.die :=
  ⟨canPost_of (by decide), ⟨ready_of (by decide), by decide, by decide, by decide⟩, by decide, free_of (by decide) _, by decide,
   by decide, by decide⟩
theorem m1_triple : Triple m1 10 :=
  ⟨by decide, fun i hi => by
    have : i = 0 ∨ i = 1 ∨ i = 2 := by omega
    rcases this with rfl | rfl | rfl <;> exact ⟨ready_of (by decide), by decide, by decide⟩,
   by decide, by decide, by decide, by decide, by decide⟩
theorem hyp_MatrixPosts_mmul : (Ready m1 5 ∧ Ready m1 9 ∧ (areg m1 5).isEmpty = false ∧ (areg m1 9).isEmpty = false ∧
      matrixTy (areg m1 5).ty = true ∧ matrixTy (areg m1 9).ty = true ∧ 2 ≤ (areg m1 5).ext.length ∧
      2 ≤ (areg m1 9).ext.length ∧ (lastTwo (areg m1 5).ext).1 ≤ 128 ∧ (lastTwo (areg m1 5).ext).2 ≤ 128 ∧
      (lastTwo (areg m1 9).ext).2 ≤ 128 ∧ (lastTwo (areg m1 5).ext).2 = (lastTwo (areg m1 9).ext).1) ∧
    agreeAxes 0 ((areg m1 5).ext.take ((areg m1 5).ext.length - 2)) ((areg m1 9).ext.take ((areg m1 9).ext.length - 2)) = .ok () :=
  ⟨⟨ready_of (by decide), ready_of (by decide), by decide, by decide, by decide, by decide, by decide, by decide, by decide,
    by decide, by decide, by decide⟩, by
    rw [show areg m1 5 = sq8 from by decide, show areg m1 9 = sq8 from by decide]; rfl⟩
theorem hyp_MatrixPosts_rw : Triple m1 10 ∧ Ready m1 9 ∧ (areg m1 9).isEmpty = false ∧ matrixTy (areg m1 9).ty = true ∧
    (areg m1 9).ext.length = 2 ∧ (areg m1 9).ext.getD 1 0 ≤ 128 ∧ (areg m1 10).count ≤ 129 ∧ Settled m1 ∧
    (Ready m1 3 ∧ m1.held + needOn m1.cur.place.dies (areg m1 3).tag [128, 128] false ≤ m1.mySlot.grant ∧ ArrRuns m1) :=
  ⟨m1_triple, ready_of (by decide), by decide, by decide, by decide, by decide, by decide, ⟨by decide, by decide⟩,
   ready_of (by decide), by decide, arrRuns_of (by decide)⟩
/-- `m1` with index registers a13 and a14 for a sparse result, and a15 for its values. -/
def m2 : State := withArr 15 { none32 with ty := 15#4 } (withArr 14 none32 (withArr 13 none32 m1))
theorem hyp_MatrixPosts_mspa : CanPost m2 ∧ (13#5 : Reg).toNat ≤ 29 ∧ (∀ i, i < 3 → Ready m2 (13 + i)) ∧
    indexTag (areg m2 13) = true ∧ indexTag (areg m2 14) = true ∧ Settled m2 :=
  ⟨canPost_of (by decide), by decide, fun i hi => by
    have : i = 0 ∨ i = 1 ∨ i = 2 := by omega
    rcases this with rfl | rfl | rfl <;> exact ready_of (by decide), by decide, by decide, by decide, by decide⟩
theorem hyp_MatrixPosts_wait : (Runs m1 ∧ pausedOf m1 = none ∧ matrixBusy m1 m1.cur.tid = false ∧ tseqBusy m1 m1.cur.tid = false) ∧
    pausedOf (did (.mzero 0#2) m1) = none ∧ matrixBusy (did (.mzero 0#2) m1) (did (.mzero 0#2) m1).cur.tid = true :=
  ⟨⟨by constructor <;> decide, by decide, by decide, by decide⟩, by decide, by decide⟩

theorem entry_of {s : State} {d c n : Nat} {p : List MEntry → MEntry → Bool} (hs : (s.die d).stopped = false)
    (h : (entryOf (s.core d c) n).any (fun x => p x.1 x.2 && (s.thread? x.2.tid).isSome) = true) :
    ∃ before e th, Entry s d c n before e th ∧ p before e = true := by
  cases he : entryOf (s.core d c) n with
  | none => rw [he] at h; cases h
  | some x =>
    rw [he] at h
    simp only [Option.any_some, Bool.and_eq_true] at h
    obtain ⟨th, hth⟩ := Option.isSome_iff_exists.mp h.2
    exact ⟨x.1, x.2, th, ⟨hs, he, hth⟩, h.1⟩
/-- Entry 0 of the state after a post may start, and does `op`. -/
theorem hyp_MatrixEntriesStart :
    (∃ b e th, Entry (did (.mzero 3#2) m1) 0 0 0 b e th ∧ (mayStart ((did (.mzero 3#2) m1).core 0 0) b e && decide (e.op = .mzero 3)) = true) ∧
    (∃ b e th, Entry (did (.mbld true 5#5) m1) 0 0 0 b e th ∧ (mayStart ((did (.mbld true 5#5) m1).core 0 0) b e &&
      decide (e.op = .mbld 1) && decide ((lastTwo (e.srcs.getD 0 ArrReg.reset).ext).2 ≤ 128)) = true) ∧
    (∃ b e th, Entry (did (.mmul .ip false true 0#2 5#5 0#5) m1) 0 0 0 b e th ∧
      (mayStart ((did (.mmul .ip false true 0#2 5#5 0#5) m1).core 0 0) b e && decide (e.op = .mmul .ip false true 0 false)) = true) ∧
    (∃ b e th, Entry (did (.mmul .op true false 1#2 5#5 9#5) m1) 0 0 0 b e th ∧
      (mayStart ((did (.mmul .op true false 1#2 5#5 9#5) m1).core 0 0) b e && decide (e.op = .mmul .op true false 1 false)) = true) ∧
    (∃ b e th, Entry (did (.mmul .rw false true 2#2 10#5 9#5) m1) 0 0 0 b e th ∧
      (mayStart ((did (.mmul .rw false true 2#2 10#5 9#5) m1).core 0 0) b e && decide (e.op = .mmul .rw false true 2 false)) = true) :=
  ⟨entry_of (p := fun b e => mayStart _ b e && decide (e.op = .mzero 3)) (by decide) (by decide),
   entry_of (p := fun b e => mayStart _ b e && decide (e.op = .mbld 1) &&
     decide ((lastTwo (e.srcs.getD 0 ArrReg.reset).ext).2 ≤ 128)) (by decide) (by decide),
   entry_of (p := fun b e => mayStart _ b e && decide (e.op = .mmul .ip false true 0 false)) (by decide) (by decide),
   entry_of (p := fun b e => mayStart _ b e && decide (e.op = .mmul .op true false 1 false)) (by decide) (by decide),
   entry_of (p := fun b e => mayStart _ b e && decide (e.op = .mmul .rw false true 2 false)) (by decide) (by decide)⟩
theorem hyp_MatrixEntriesStart_more :
    (∃ b e th, Entry (did (.mqry 2#2 3#5 4#5) m1) 0 0 0 b e th ∧ (mayStart ((did (.mqry 2#2 3#5 4#5) m1).core 0 0) b e &&
      decide (e.op = .mqry 4 2 3#5)) = true) ∧
    (∃ b e th, Entry (did (.mwr 1#2 8#5) m1) 0 0 0 b e th ∧ (mayStart ((did (.mwr 1#2 8#5) m1).core 0 0) b e &&
      decide (e.op = .mwr 1) && decide ((e.srcs.getD 0 ArrReg.reset).tag = { ty := 15#4, bl := 0#2 }) &&
      (e.srcs.getD 0 ArrReg.reset).gran.all (fun g => !g.poison) &&
      (List.range (e.srcs.getD 0 ArrReg.reset).count).all (fun i =>
        (decodeF 15#4 ((e.srcs.getD 0 ArrReg.reset).elem i).code).isFin)) = true) :=
  ⟨entry_of (p := fun b e => mayStart _ b e && decide (e.op = .mqry 4 2 3#5)) (by decide) (by decide),
   entry_of (p := fun b e => mayStart _ b e && decide (e.op = .mwr 1) &&
     decide ((e.srcs.getD 0 ArrReg.reset).tag = { ty := 15#4, bl := 0#2 }) &&
     (e.srcs.getD 0 ArrReg.reset).gran.all (fun g => !g.poison) &&
     (List.range (e.srcs.getD 0 ArrReg.reset).count).all (fun i =>
       (decodeF 15#4 ((e.srcs.getD 0 ArrReg.reset).elem i).code).isFin)) (by decide) (by decide)⟩
theorem ended_of {s : State} {d c n : Nat} {p : MEntry → Bool} (hs : (s.die d).stopped = false)
    (h : (entryOf (s.core d c) n).any (fun x => p x.2 && decide (x.2.tid = s.cur.tid) && decide (x.2.stat = .done)) = true) :
    ∃ before e, Entry s d c n before e s.cur ∧ e.tid = s.cur.tid ∧ e.stat = .done ∧ p e = true := by
  cases he : entryOf (s.core d c) n with
  | none => rw [he] at h; cases h
  | some x =>
    rw [he] at h
    simp only [Option.any_some, Bool.and_eq_true, decide_eq_true_eq] at h
    exact ⟨x.1, x.2, ⟨hs, he, by unfold State.thread?; rw [if_pos h.1.2.symm]⟩, h.1.2, h.2, h.1.1⟩
/-- The state in which the only entry, posted by `i`, has run. -/
def ran (i : Instr) (s : State) : State := did (.matrixEntryStart 0 0 0) (did i s)
theorem hyp_MatrixEntriesComplete :
    (ran (.mzero 0#2) m1).cur.status = .bound ∧
    (∃ b e, Entry (ran (.mzero 0#2) m1) 0 0 0 b e (ran (.mzero 0#2) m1).cur ∧ e.tid = (ran (.mzero 0#2) m1).cur.tid ∧
      e.stat = .done ∧ decide (e.op = .mzero 0) = true) ∧
    (∃ b e, Entry (ran (.mqry 1#2 3#5 4#5) m1) 0 0 0 b e (ran (.mqry 1#2 3#5 4#5) m1).cur ∧
      e.tid = (ran (.mqry 1#2 3#5 4#5) m1).cur.tid ∧ e.stat = .done ∧ decide (e.op = .mqry 4 1 3#5) = true) ∧
    (∃ b e, Entry (ran (.mrd 0#2 3#5) m1) 0 0 0 b e (ran (.mrd 0#2 3#5) m1).cur ∧ e.tid = (ran (.mrd 0#2 3#5) m1).cur.tid ∧
      e.stat = .done ∧ (decide (e.op = .mrd 0 3) && decide (e.results.length = 1) && decide ((e.results.headD ArrReg.reset).parts ≤ 1)) = true) ∧
    ArrRuns (ran (.mrd 0#2 3#5) m1) :=
  ⟨by decide, ended_of (by decide) (by decide), ended_of (by decide) (by decide),
   ended_of (p := fun e => decide (e.op = .mrd 0 3) && decide (e.results.length = 1) && decide ((e.results.headD ArrReg.reset).parts ≤ 1))
     (by decide) (by decide), arrRuns_of (by decide)⟩

/-! ### Arrays in memory, atomics -/

theorem touchesWs {s : State} (h : Paged s) {c : Ctx} (hc : c.sec = false) (hd : c.die = 0) {acc : Machine.Acc} (hacc : acc ≠ .atomic)
    {a n : Nat} (ha : 2 ^ 29 ≤ a) (hb : a + n ≤ 2 ^ 30) : Touches s c acc true k0 a n := fun i hi =>
  ⟨by
    simp only [if_true]
    refine ⟨reachesHome h hc hd acc (.inr ⟨by omega, hacc⟩), ?_⟩
    unfold isWs wsBase k0
    rw [if_neg (by omega), decide_eq_true_eq]; omega, fun k hk => noInsert h (P := fun k => k.tid = c.tid → _) k hk⟩
theorem field_of {s : State} (h : Paged s) {c : Ctx} (hc : c.sec = false) (hd : c.die = 0) (acc : Machine.Acc) {bit w : Nat}
    (ha : bit / 8 + ((bit + w - 1) / 8 - bit / 8 + 1) ≤ 2 ^ 29) : FieldTouched s c acc false k0 bit w := touches h hc hd acc ha
theorem fieldWs_of {s : State} (h : Paged s) {c : Ctx} (hc : c.sec = false) (hd : c.die = 0) {acc : Machine.Acc} (hacc : acc ≠ .atomic)
    {bit w : Nat} (hb : 2 ^ 29 ≤ bit / 8) (ha : bit / 8 + ((bit + w - 1) / 8 - bit / 8 + 1) ≤ 2 ^ 30) :
    FieldTouched s c acc true k0 bit w := touchesWs h hc hd hacc hb ha
/-- A block of four I32 elements. -/
def pb4 : PBlock := { pb22 with rank := 1#4, ty := 5#4, x0 := 4#16, x1 := 0#16 }
def mb4 : MBlock := { tag := { ty := 5#4, bl := 0#2 }, boff := 0, pb := false, nt := false, ext := [4], pn := 0, pu := 0 }
/-- `s1` with s5 an address in memory and s6 one in the weight store. -/
def a1 : State := put 6#5 (BitVec.ofNat 64 (2 ^ 29 + 128)) (put 5#5 0x1004#64 s1)
theorem a1_paged : Paged a1 := paged_of (by decide)
theorem a1_block : Block a1 pb4 mb4 := rfl
/-- The contexts of the elements of a block that is loaded, and of one that is stored. -/
def loadAt (s : State) (ws : Bool) (m : MBlock) : Nat → Ctx :=
  s.shareCtx (s.arrCtx ws m.nt) (partsOf s.cur.place.dies m.ext (resultRepl s.cur.place.dies m.ext [])) m.ext
def storeAt (s : State) (ws : Bool) (r : ArrReg) (m : MBlock) : Nat → Ctx := s.shareCtx (s.arrCtx ws m.nt) r.parts m.ext
/-- On one die every element is accessed by that die. -/
theorem load_ctx {s : State} {ws : Bool} {m : MBlock} (h : s.ctx.sec = false ∧ s.ctx.die = 0)
    (hp : partsOf s.cur.place.dies m.ext (resultRepl s.cur.place.dies m.ext []) ≤ 1) (i : Nat) :
    (loadAt s ws m i).sec = false ∧ (loadAt s ws m i).die = 0 := by unfold loadAt State.shareCtx State.onShare; rw [if_pos hp]; exact h
theorem store_ctx {s : State} {ws : Bool} {r : ArrReg} {m : MBlock} (h : s.ctx.sec = false ∧ s.ctx.die = 0) (hp : r.parts ≤ 1) (i : Nat) :
    (storeAt s ws r m i).sec = false ∧ (storeAt s ws r m i).die = 0 := by unfold storeAt State.shareCtx State.onShare; rw [if_pos hp]; exact h
theorem block_of {s : State} (h : Paged s) {at_ : Nat → Ctx} (hc : ∀ i, (at_ i).sec = false ∧ (at_ i).die = 0) (acc : Machine.Acc)
    {va sva : Nat} {sc : Bool} {m : MBlock}
    (ha : ∀ i, i < extProd m.ext → elemBit va m i / 8 +
      ((elemBit va m i + tyWidth m.tag.ty - 1) / 8 - elemBit va m i / 8 + 1) ≤ 2 ^ 29)
    (hb : sc = true → ∀ i, i < extProd m.ext → sva + blockIdx m.tag m.ext i + 1 ≤ 2 ^ 29) : BlockTouched s at_ acc false k0 va sva sc m :=
  ⟨fun i hi => field_of h (hc i).1 (hc i).2 acc (ha i hi), fun hs i hi => touches h (hc i).1 (hc i).2 acc (hb hs i hi)⟩
theorem blockWs_of {s : State} (h : Paged s) {at_ : Nat → Ctx} (hc : ∀ i, (at_ i).sec = false ∧ (at_ i).die = 0) {acc : Machine.Acc}
    (hacc : acc ≠ .atomic) {va sva : Nat} {m : MBlock} (hl : ∀ i, i < extProd m.ext → 2 ^ 29 ≤ elemBit va m i / 8)
    (ha : ∀ i, i < extProd m.ext → elemBit va m i / 8 +
      ((elemBit va m i + tyWidth m.tag.ty - 1) / 8 - elemBit va m i / 8 + 1) ≤ 2 ^ 30) : BlockTouched s at_ acc true k0 va sva false m :=
  ⟨fun i hi => fieldWs_of h (hc i).1 (hc i).2 hacc (hl i hi) (ha i hi), fun h => nomatch h⟩
theorem hyp_ArrayLoads : ArrRuns a1 ∧ RmLegal a1 ∧ Ready a1 3 ∧ Free a1 5 ∧ Free a1 0 ∧ Block a1 pb4 mb4 ∧
    a1.cur.csr.astart = 0#64 ∧
    BlockTouched a1 (loadAt a1 false mb4) .read false k0 (a1.cur.reg 5#5).toNat (a1.cur.reg 0#5).toNat ((0#5 : Reg) != 0#5) mb4 ∧
    (∀ j, j < extProd mb4.ext → FieldWhole a1 k0 (elemBit (a1.cur.reg 5#5).toNat mb4 j) (tyWidth mb4.tag.ty)) ∧
    Fits a1 (areg a1 3).tag mb4.ext [] 0 ∧
    BlockTouched a1 (loadAt a1 true mb4) .read true k0 (a1.cur.reg 6#5).toNat (a1.cur.reg 0#5).toNat ((0#5 : Reg) != 0#5) mb4 :=
  ⟨arrRuns_of (by decide), by unfold RmLegal; decide, ready_of (by decide), free_of (by decide) _, free_of (by decide) _, a1_block,
   by decide,
   block_of a1_paged (load_ctx (by decide) (by decide)) _ (by decide) (by decide),
   fun j _ => whole_of (by decide) _ _ _, fits_of (by decide),
   blockWs_of a1_paged (load_ctx (by decide) (by decide)) (by decide) (by decide) (by decide)⟩
/-- A block of four E4M3 codes in one scale block, with its scale byte. -/
def pbs : PBlock := { pb4 with ty := 12#4, bl := 1#2 }
def mbs : MBlock := { mb4 with tag := { ty := 12#4, bl := 1#2 } }
theorem hyp_ArrayLoads_scaled : Block a1 pbs mbs ∧ mbs.tag.bl ≠ 0#2 ∧
    BlockTouched a1 (loadAt a1 false mbs) .read false k0 (a1.cur.reg 5#5).toNat (a1.cur.reg 5#5).toNat ((5#5 : Reg) != 0#5) mbs :=
  ⟨rfl, by decide, block_of a1_paged (load_ctx (by decide) (by decide)) _ (by decide) (by decide)⟩
theorem hyp_ArrayLoads_cbld : ((a1.cur.reg 0#5 + (8#11 : BitVec 11).signExtend 64).setWidth 3 = 0#3 ∧
      (a1.cur.reg 0#5 + (8#11 : BitVec 11).signExtend 64).toNat < 2 ^ 55 ∧
      Touches a1 a1.ctx .read false k0 (a1.cur.reg 0#5 + (8#11 : BitVec 11).signExtend 64).toNat 2048 ∧
      Whole a1 k0 (a1.cur.reg 0#5 + (8#11 : BitVec 11).signExtend 64).toNat 2048) ∧
    (a1.cur.reg 0#5 + (4#11 : BitVec 11).signExtend 64).setWidth 3 ≠ 0#3 :=
  ⟨⟨by decide, by decide, touches a1_paged (by decide) (by decide) _ (by decide), whole_of (by decide) _ _ _⟩, by decide⟩
theorem hyp_ArrayStores : ArrRuns a1 ∧ Full a1 9 ∧ Free a1 5 ∧ Block a1 pb4 mb4 ∧ (areg a1 9).ext = mb4.ext ∧
    (mb4.tag.bl = 0#2 ↔ (0#5 : Reg) = 0#5) ∧ misalignedRow (a1.cur.reg 5#5).toNat mb4 = none ∧
    BlockTouched a1 (storeAt a1 false (areg a1 9) mb4) .write false k0 (a1.cur.reg 5#5).toNat 0 false mb4 ∧ misalignedRow (a1.cur.reg 6#5).toNat mb4 = none ∧
    BlockTouched a1 (storeAt a1 true (areg a1 9) mb4) .write true k0 (a1.cur.reg 6#5).toNat 0 false mb4 :=
  ⟨arrRuns_of (by decide), full_of (by decide), free_of (by decide) _, a1_block, by decide, by decide, by decide,
   block_of a1_paged (store_ctx (by decide) (by decide)) _ (by decide) (by decide), by decide,
   blockWs_of a1_paged (store_ctx (by decide) (by decide)) (by decide) (by decide) (by decide)⟩
theorem k0_inj {x y : Nat} (hx : x < 2 ^ 30) (hy : y < 2 ^ 30) (h : k0 x = k0 y) : x = y := by
  unfold k0 at h; split at h <;> split at h <;> omega
/-- `a1` with a9 a 2 × 2 register of I8 codes. -/
def a2 : State := withArr 9 sq8 a1
def pbi : PBlock := { pb22 with ty := 3#4 }
def mbi : MBlock := { mb4 with tag := { ty := 3#4, bl := 0#2 }, ext := [2, 2] }
theorem a2_paged : Paged a2 := paged_of (by decide)
theorem hyp_ArrayStores_image : ArrRuns a2 ∧ Full a2 9 ∧ Free a2 6 ∧ Block a2 pbi mbi ∧ (a2.cur.reg 6#5).toNat % 128 = 0 ∧
    (areg a2 9).ext = mbi.ext ∧ mbi.tag = (areg a2 9).tag ∧ pbi.rank = 2#4 ∧ macroTy (areg a2 9).ty = true ∧
    mbi.ext.length = 2 ∧ (∀ n ∈ mbi.ext, 1 ≤ n ∧ n ≤ 128) ∧ (∀ i, i < 16960 → Touches a2 (a2.onShare (a2.arrCtx true false) (areg a2 9).parts
      (imageShare (areg a2 9).parts (areg a2 9).ext 0 i)) .write true k0 ((a2.cur.reg 6#5).toNat + i) 1) ∧
    (a2.cur.place.shares.findIdx? (fun p => p.1 == a2.cur.place.die)).getD 0 = 0 ∧
    ∀ x y, (a2.cur.reg 6#5).toNat ≤ x → (a2.cur.reg 6#5).toNat ≤ y → x < (a2.cur.reg 6#5).toNat + 16960 →
      y < (a2.cur.reg 6#5).toNat + 16960 → k0 x = k0 y → x = y :=
  ⟨arrRuns_of (by decide), full_of (by decide), free_of (by decide) _, rfl, by decide, by decide, by decide, by decide, by decide,
   by decide, by decide, fun i hi => by
     have e : (a2.cur.reg 6#5).toNat = 2 ^ 29 + 128 := by decide
     unfold State.onShare
     rw [if_pos (by decide), e]
     exact touchesWs a2_paged (by decide) (by decide) (by decide) (by omega) (by omega), by decide, by
    have e : (a2.cur.reg 6#5).toNat = 2 ^ 29 + 128 := by decide
    rw [e]; intro x y _ _ h1 h2 h; exact k0_inj (by omega) (by omega) h⟩
theorem fresh_of {s : State} (h : s.cur.park = none ∧ s.cur.leaving = false ∧ s.cur.csr.astart = 0#64) (hr : s.fw.remotes = []) :
    Fresh s := ⟨h.1, h.2.1, h.2.2, by rw [hr]; intro r h; cases h⟩
theorem hyp_GatherScatter : ArrRuns a1 ∧ Free a1 5 ∧ Full a1 9 ∧ Fresh a1 ∧ a1.cur.place.dies = 1 ∧ (areg a1 9).tag.isInt = true ∧
    (areg a1 3).bl = 0#2 ∧ ceilDiv (areg a1 9).count (tyPer (areg a1 3).ty) ≤ 32 ∧
    (∀ i, i < (areg a1 9).count → 0 ≤ 8 * (((a1.cur.reg 5#5).toNat : Nat) : Int) + (valOf a1 (areg a1 9) i).toInt * tyWidth (areg a1 3).ty) ∧
    Fits a1 (areg a1 3).tag (areg a1 9).ext [areg a1 9] 0 ∧
    (∀ i, i < (areg a1 9).count → FieldTouched a1 (winCtx a1) .read false k0
      (8 * (((a1.cur.reg 5#5).toNat : Nat) : Int) + (valOf a1 (areg a1 9) i).toInt * tyWidth (areg a1 3).ty).toNat (tyWidth (areg a1 3).ty) ∧
      FieldWhole a1 k0 (8 * (((a1.cur.reg 5#5).toNat : Nat) : Int) + (valOf a1 (areg a1 9) i).toInt * tyWidth (areg a1 3).ty).toNat
        (tyWidth (areg a1 3).ty)) ∧
    (Full a1 5 ∧ 8 ≤ tyWidth (areg a1 5).ty ∧ (areg a1 5).ext = (areg a1 9).ext ∧ (areg a1 9).ext.length ≤ 8 ∧
      (∀ i j p q, i < (areg a1 9).count → j < (areg a1 9).count → p < tyWidth (areg a1 5).ty / 8 → q < tyWidth (areg a1 5).ty / 8 →
        let bit := fun i => (8 * (((a1.cur.reg 5#5).toNat : Nat) : Int) + (valOf a1 (areg a1 9) i).toInt * tyWidth (areg a1 5).ty).toNat
        k0 (bit i / 8 + p) = k0 (bit j / 8 + q) → bit i / 8 + p = bit j / 8 + q) ∧
      ∀ i, i < (areg a1 9).count → FieldTouched a1 (winCtx a1) .write false k0
        (8 * (((a1.cur.reg 5#5).toNat : Nat) : Int) + (valOf a1 (areg a1 9) i).toInt * tyWidth (areg a1 5).ty).toNat (tyWidth (areg a1 5).ty)) :=
  ⟨arrRuns_of (by decide), free_of (by decide) _, full_of (by decide), fresh_of (by decide) (by decide), by decide, by decide, by decide,
   by decide, by decide, fits_of (by decide),
   fun i hi => ⟨field_of a1_paged (by decide) (by decide) _ (by revert i; decide), whole_of (by decide) _ _ _⟩,
   full_of (by decide), by decide, by decide, by decide, fun i j p q hi hj hp hq h => by
     have b : ∀ i, i < (areg a1 9).count →
       (8 * (((a1.cur.reg 5#5).toNat : Nat) : Int) + (valOf a1 (areg a1 9) i).toInt * tyWidth (areg a1 5).ty).toNat / 8 < 2 ^ 29 := by decide
     have w : tyWidth (areg a1 5).ty / 8 = 4 := by decide
     dsimp only at h ⊢
     rw [w] at hp hq
     have := b i hi
     have := b j hj
     exact k0_inj (by omega) (by omega) h,
   fun i hi => field_of a1_paged (by decide) (by decide) _ (by revert i; decide)⟩
theorem hyp_ScalarAtomics : Runs a1 ∧ Free a1 5 ∧ Free a1 3 ∧ SrcFree a1 (.lit 1#32) ∧
    (a1.cur.reg 5#5).toNat % (bits .w32 / 8) = 0 ∧ Touches a1 a1.ctx .atomic false k0 (a1.cur.reg 5#5).toNat (bits .w32 / 8) ∧
    Whole a1 k0 (a1.cur.reg 5#5).toNat (bits .w32 / 8) ∧ (a1.cur.reg 5#5).toNat % (bits .w64 / 8) ≠ 0 ∧
    AtHome a1 a1.ctx .read k0 (a1.cur.reg 5#5).toNat (bits .w32 / 8) ∧
    (∀ i, i < bits .w32 / 8 → isWs (k0 ((a1.cur.reg 5#5).toNat + i)) = false) ∧
    (∀ i, i < bits .w32 / 8 → k0 ((a1.cur.reg 5#5).toNat + i) = k0 (a1.cur.reg 5#5).toNat + i) ∧ (∀ x ∈ a1.watches, x.tid ≠ a1.cur.tid) ∧
    Whole a1 k0 (a1.cur.reg 5#5).toNat (bits .w32 / 8) ∧
    (BitVec.ofNat (bits .w32) (wordAt a1.mem k0 (a1.cur.reg 5#5).toNat (bits .w32 / 8)) ≠ (srcVal a1 (.lit 1#32)).setWidth (bits .w32)) ∧
    BitVec.ofNat (bits .w32) (wordAt a1.mem k0 (a1.cur.reg 5#5).toNat (bits .w32 / 8)) = (srcVal a1 (.lit 0#32)).setWidth (bits .w32) :=
  ⟨by constructor <;> decide, free_of (by decide) _, free_of (by decide) _, trivial, by decide,
   touches a1_paged (by decide) (by decide) _ (by decide), whole_of (by decide) _ _ _, by decide,
   fun i hi => ⟨reachesHome a1_paged (by decide) (by decide) _ (.inl (by revert i; decide)),
     fun k hk => noInsert a1_paged (P := fun k => k.tid = a1.ctx.tid → _) k hk⟩, by decide, by decide, by decide, whole_of (by decide) _ _ _, by decide, by decide⟩
/-- The wait of the current thread at s5 = `a`, which has seen the word be `now`. -/
def waitAt (s : State) (now : Option Nat) : Watch :=
  { tid := s.cur.tid, key := k0 (s.cur.reg 5#5).toNat, n := bits .w32 / 8, was := 0, now := now }
/-- `a1` whose `mon` waits for 0 at s5 to change, and has seen it be 2; and with s5 in the weight store. -/
def a4 : State := { a1 with watches := [waitAt a1 (some 2)] }
def a5 : State := put 5#5 (BitVec.ofNat 64 (2 ^ 29)) a1
theorem hyp_ScalarAtomics_seen : Runs a4 ∧ waitAt a4 (some 2) ∈ a4.watches ∧
    (∀ x ∈ a4.watches, x.tid = a4.cur.tid → x = waitAt a4 (some 2)) ∧
    2 ≠ ((srcVal a4 (.lit 0#32)).setWidth (bits .w32)).toNat ∧ AtHome a4 a4.ctx .read k0 (a4.cur.reg 5#5).toNat (bits .w32 / 8) ∧
    (Runs a5 ∧ AtHome a5 a5.ctx .read k0 (a5.cur.reg 5#5).toNat (bits .w32 / 8) ∧ isWs (k0 (a5.cur.reg 5#5).toNat) = true) :=
  have h4 : Paged a4 := paged_of (by decide)
  have h5 : Paged a5 := paged_of (by decide)
  ⟨by constructor <;> decide, by decide, by decide, by decide,
   fun i hi => ⟨reachesHome h4 (by decide) (by decide) _ (.inl (by revert i; decide)),
     fun k hk => noInsert h4 (P := fun k => k.tid = a4.ctx.tid → _) k hk⟩, by constructor <;> decide,
   fun i hi => ⟨reachesHome h5 (by decide) (by decide) _ (.inr (by revert i; decide)),
     fun k hk => noInsert h5 (P := fun k => k.tid = a5.ctx.tid → _) k hk⟩, by decide⟩
/-- `a1` with rising indices in a9, and operands for `cas` in a5 and a6. -/
def a6 : State := withArr 6 (vec [1, 2, 3, 4]) (withArr 9 (vec [1, 2, 4, 8]) a1)
theorem a6_paged : Paged a6 := paged_of (by decide)
/-- Places of the elements below the tables. -/
theorem onePlace_of {s : State} {a n : Nat} (hn : a % n = 0) (ha : a + n ≤ 0x10000) (ht : ∀ b ∈ tablePlaces s, 0x10000 ≤ b) :
    OnePlace s k0 a n := by
  have e : ∀ i, i ≤ n → k0 (a + i) = a + i := fun i hi => by unfold k0; rw [if_pos (by omega)]
  refine ⟨by rw [show k0 a = a from e 0 (Nat.zero_le n)]; exact hn, fun i hi => ⟨?_, fun b hb => .inl ?_⟩⟩
  · rw [e i (by omega), show k0 a = a from e 0 (Nat.zero_le n)]
  · have := ht b hb; rw [e i (by omega)]; omega
/-- What the statement on array atomics asks of the places of the elements of a9. -/
theorem reached_of {s : State} (h : Paged s) (hp : s.mem.poison = []) (hc : (winCtx s).sec = false ∧ (winCtx s).die = 0)
    (ht : ∀ b ∈ tablePlaces s, 0x10000 ≤ b) {k : Nat} (at_ : Nat → Nat) (ha : ∀ i, i < k → at_ i % 4 = 0 ∧ at_ i + 4 ≤ 0x10000)
    (hr : ∀ j, j < k → ∀ i, i < j → at_ i ≤ at_ j) :
    (∀ i, i < k → Touches s (winCtx s) .atomic false k0 (at_ i) 4 ∧ Whole s k0 (at_ i) 4 ∧ OnePlace s k0 (at_ i) 4) ∧
    ∀ i j, i < j → j < k → k0 (at_ i) ≤ k0 (at_ j) := by
  refine ⟨fun i hi => ⟨touches h hc.1 hc.2 _ (Nat.le_trans (ha i hi).2 (by decide)), whole_of hp _ _ _, onePlace_of (ha i hi).1 (ha i hi).2 ht⟩,
    fun i j hi hj => ?_⟩
  have e : ∀ x, x < k → k0 (at_ x) = at_ x := fun x hx => by have := (ha x hx).2; unfold k0; rw [if_pos (by omega)]
  rw [e i (by omega), e j hj]; exact hr j hj i hi
theorem hyp_ArrayAtomics : ArrRuns a6 ∧ Fresh a6 ∧ Full a6 9 ∧ Full a6 5 ∧ atomTag (areg a6 5) .add = true ∧
    (areg a6 9).tag.isInt = true ∧ (areg a6 5).ext = (areg a6 9).ext ∧ ceilDiv (areg a6 9).count (tyPer (areg a6 5).ty) ≤ 32 ∧
    (a6.cur.reg 5#5).toNat % 4 = 0 ∧ tyWidth (areg a6 5).ty / 8 = 4 ∧
    (∀ i, i < (areg a6 9).count → 0 ≤ (((a6.cur.reg 5#5).toNat : Nat) : Int) + (valOf a6 (areg a6 9) i).toInt * 4) ∧
    (let at_ := fun i => ((((a6.cur.reg 5#5).toNat : Nat) : Int) + (valOf a6 (areg a6 9) i).toInt * 4).toNat
     (∀ i, i < (areg a6 9).count → Touches a6 (winCtx a6) .atomic false k0 (at_ i) 4 ∧ Whole a6 k0 (at_ i) 4 ∧ OnePlace a6 k0 (at_ i) 4) ∧
     ∀ i j, i < j → j < (areg a6 9).count → k0 (at_ i) ≤ k0 (at_ j)) ∧
    Fits a6 (areg a6 5).tag (areg a6 9).ext [areg a6 9] 0 :=
  ⟨arrRuns_of (by decide), fresh_of (by decide) (by decide), full_of (by decide), full_of (by decide), by decide,
   by decide, by decide, by decide, by decide, by decide, by decide,
   reached_of a6_paged (by decide) (by decide) (by decide) _ (by decide) (by decide), fits_of (by decide)⟩
theorem hyp_ArrayAtomics_cas : atomTag (areg a6 5) .cas = true ∧ (5#5 : Reg).toNat ≤ 30 ∧ Full a6 (5 + 1) ∧
    (areg a6 (5 + 1)).tag = (areg a6 5).tag ∧ (areg a6 (5 + 1)).ext = (areg a6 9).ext :=
  ⟨by decide, by decide, full_of (by decide), by decide, by decide⟩
theorem hyp_ArrayAtomics_mred : atomTag (areg a6 9) .or = true ∧ ceilDiv (areg a6 9).count (tyPer (areg a6 9).ty) ≤ 32 ∧
    (let at_ := fun i => (a6.cur.reg 5#5).toNat + i * 4
     (∀ i, i < (areg a6 9).count → Touches a6 (winCtx a6) .atomic false k0 (at_ i) 4 ∧ Whole a6 k0 (at_ i) 4 ∧ OnePlace a6 k0 (at_ i) 4) ∧
     ∀ i j, i < j → j < (areg a6 9).count → k0 (at_ i) ≤ k0 (at_ j)) :=
  ⟨by decide, by decide, reached_of a6_paged (by decide) (by decide) (by decide) _ (by decide) (by decide)⟩
/-- A write of die 1 to a line of die 0, the first that die 1 has sent. -/
def write1 : XWrite :=
  { src := 1, home := 0, stamp := [0, 1, 0, 0, 0, 0, 0, 0], tid := none, pa := 0x2000, bytes := [7#8, 9#8], poison := [0x100] }
/-- `a1` with a cross-die write of its thread that has not been applied, and with a store of it that its die has held back. -/
def a3 : State := { a1 with xwrites := [{ write1 with src := 0, home := 1, stamp := List.replicate 8 0#32, tid := some a1.cur.tid, pa := 2 ^ 37 }] }
def held1 : HeldStore := { tid := a1.cur.tid, die := 0, core := 0, key := 0x2000, msa := false, bytes := [7#8], poison := [] }
def a7 : State := { a1 with stores := [held1] }
/-- `a1` with a write of die 1 on its way that its die has heard of; that its thread has heard of; and with an insert of it. -/
def a8 : State := (({ a1 with xwrites := [write1] } : State).setDie 0 { a1.die 0 with vc := [0, 1, 0, 0, 0, 0, 0, 0] })
def a9 : State := withCur (fun t => heard [0, 1, 0, 0, 0, 0, 0, 0] t) { a1 with xwrites := [write1] }
def a10 : State :=
  { a1 with topks := [{ tid := a1.cur.tid, die := 0, core := 0, key := 0x2000, msa := false, score := 0x3F80#16, id := 7#16, k := 2 }] }
/-- Nothing of the current thread is held back. -/
theorem noneHeld_of {s : State} (h : s.stores = [] ∧ s.loads = []) : NoneHeld s :=
  ⟨fun x hx => (by rw [h.1] at hx; cases hx), fun x hx => (by rw [h.2] at hx; cases hx)⟩
theorem hyp_FenceResults : Runs a1 ∧ (¬ ∃ x ∈ a1.topks, x.tid = a1.cur.tid) ∧ writesApplied a1 a1.cur.tid = true ∧
    clkApplied a1 a1.cur.acq = true ∧ AllCovered a1 ∧ FenceKind.rel ≠ .acq :=
  ⟨by constructor <;> decide, by decide, by decide, by decide, by unfold AllCovered; decide, by decide⟩
theorem hyp_FenceResults_held : Runs a7 ∧ (¬ ∃ x ∈ a7.topks, x.tid = a7.cur.tid) ∧ NoLoadHeld a7 ∧
    a7.stores.filter (fun h => h.tid == a7.cur.tid) = [held1] ∧ rankOk a7 held1.die held1.key = true ∧
    held1.key % 128 + held1.bytes.length ≤ 128 ∧ homeOf held1.key = held1.die ∧ coveredApplied a7 held1.die = true :=
  ⟨by constructor <;> decide, by decide, by unfold NoLoadHeld; decide, by decide, by decide, by decide, by decide, by decide⟩
theorem hyp_FenceResults_waits : (Runs a3 ∧ NoLoadHeld a3 ∧ (∃ w ∈ a3.xwrites, w.tid = some a3.cur.tid) ∧ NoneHeld a3) ∧
    (Runs a10 ∧ NoneHeld a10 ∧ ∃ x ∈ a10.topks, x.tid = a10.cur.tid) ∧ (Runs a9 ∧ NoneHeld a9 ∧ clkApplied a9 a9.cur.acq = false) ∧
    Runs a8 ∧ NoneHeld a8 ∧ ¬ AllCovered a8 :=
  ⟨⟨by constructor <;> decide, by unfold NoLoadHeld; decide, by decide, noneHeld_of (by decide)⟩,
   ⟨by constructor <;> decide, noneHeld_of (by decide), by decide⟩, ⟨by constructor <;> decide, noneHeld_of (by decide), by decide⟩,
   by constructor <;> decide, noneHeld_of (by decide), by unfold AllCovered; decide⟩
/-- `a1` with bit 63 of its square set, one waiter for it, and an operation of slot 1 on bit 5 and register 5 in this cycle. -/
def q1 : State :=
  let t : Tid := { a1.cur.tid with idx := 1 }
  a1.setDie 0 ((a1.die 0).setSquare 0 { sems := 0x8000000000000000#64, data := List.replicate 64 0#64, waiters := [(t, 63)]
                                        last := [(5, (a1.cycle, 1)), (69, (a1.cycle, 1))] })
/-- A bit or register of the square is free for the thread's slot in this cycle. -/
def turnAt (s : State) (k : Nat) : Prop :=
  (spGet (0, 0) s.mySquare.last k).1 ≠ s.cycle ∨ (spGet (0, 0) s.mySquare.last k).2 ≤ s.cur.slotNo
theorem hyp_SquareResults : Runs q1 ∧ Free q1 5 ∧ q1.cur.semTaken = false ∧
    q1.mySquare.sems.getLsbD ((q1.cur.reg 0#5 + (0#11 : BitVec 11).signExtend 64).toNat % 64) = false ∧
    q1.mySquare.sems.getLsbD ((q1.cur.reg 0#5 + (63#11 : BitVec 11).signExtend 64).toNat % 64) = true ∧
    (∀ w ∈ q1.mySquare.waiters, w.2 ≠ (q1.cur.reg 0#5 + (0#11 : BitVec 11).signExtend 64).toNat % 64) ∧
    (∃ w rest, q1.mySquare.waiters = w :: rest ∧ w.2 = (q1.cur.reg 0#5 + (63#11 : BitVec 11).signExtend 64).toNat % 64 ∧
      w.1 ≠ q1.cur.tid) ∧ q1.mySquare.data.length = 64 ∧ (¬ ∃ m, (q1.cur.tid, m) ∈ q1.mySquare.waiters) ∧
    (turnAt q1 0 ∧ turnAt q1 63 ∧ turnAt q1 (64 + 0) ∧ ¬ turnAt q1 5 ∧ ¬ turnAt q1 (64 + 5)) :=
  ⟨by constructor <;> decide, free_of (by decide) _, by decide, by decide, by decide, by decide, ⟨_, [], rfl, by decide, by decide⟩,
   by decide, by
    rintro ⟨m, hm⟩
    have h : q1.mySquare.waiters.all (fun w => w.1 != q1.cur.tid) = true := by decide
    have := List.all_eq_true.mp h _ hm
    simp at this, by unfold turnAt; decide⟩
/-- `q1` whose thread waits already. -/
def q2 : State := a1.setDie 0 ((a1.die 0).setSquare 0 { Square.reset with waiters := [(a1.cur.tid, 7)] })
theorem hyp_SquareResults_waits : Runs q2 ∧ q2.cur.semTaken = false ∧ (q2.cur.tid, 7) ∈ q2.mySquare.waiters :=
  ⟨by constructor <;> decide, by decide, by decide⟩

/-! ### Event queues -/

theorem home_of {s : State} (h : Paged s) {c : Ctx} (hc : c.sec = false) (hd : c.die = 0) (acc : Machine.Acc) {a n : Nat}
    (ha : a + n ≤ 2 ^ 29) : AtHome s c acc k0 a n := fun i hi =>
  ⟨reachesHome h hc hd acc (.inl (by omega)), fun k hk => noInsert h (P := fun k => k.tid = c.tid → _) k hk⟩
theorem distinct_of {a n : Nat} (ha : a + n ≤ 2 ^ 30) : Distinct k0 a n := fun x y _ hx _ hy h =>
  k0_inj (by omega) (by omega) h
theorem apart_of {a n b m : Nat} (ha : a + n ≤ b ∨ b + m ≤ a) (hx : a + n ≤ 2 ^ 30) (hy : b + m ≤ 2 ^ 30) : Apart k0 a n b m := by
  intro i j hi hj h
  have := k0_inj (by omega) (by omega) h
  omega
theorem keepsWalk_of {s : State} (h : Paged s) {c : Ctx} (hc : c.sec = false) {t : Nat → Prop} {a : Nat} (ha : a < 2 ^ 30)
    (ht : ∀ x, (0x10000 ≤ x ∧ x < 0x10008) ∨ (0x20000 ≤ x ∧ x < 0x20010) → ¬ t x) : KeepsWalk s c t a := by
  intro m hm
  have rd : ∀ b, (∀ i, i < 8 → m.read (b + i) = s.mem.read (b + i)) → m.readN b 8 = s.mem.readN b 8 := by
    intro b hb
    apply List.ext_getElem
    · simp
    · intro i h1 h2
      have e1 := Memory.readN_getD m b (n := 8) (i := i) (by simpa using h1)
      have e2 := Memory.readN_getD s.mem b (n := 8) (i := i) (by simpa using h1)
      have e3 := hb i (by simpa using h1)
      simp only [List.getD_eq_getElem?_getD, List.getElem?_eq_getElem h1, List.getElem?_eq_getElem h2, Option.getD_some] at e1 e2
      rw [e1, e2, e3]
  have hp : Tables { s with mem := m } :=
    { h.toTables with
      level1 := (rd _ fun i hi => hm _ (ht _ (.inl (by omega)))).trans h.level1
      dram := (rd _ fun i hi => hm _ (ht _ (.inr (by omega)))).trans h.dram
      ws := (rd _ fun i hi => hm _ (ht _ (.inr (by omega)))).trans h.ws }
  rw [hc, walk_paged h.toTables c.who ha, walk_paged hp c.who ha]
/-- `s1` whose region has an event queue of 16 records at 0x2000 with one record in it, at HEAD = 15; s5 = 0x3000. -/
def e1 : State :=
  let m := ((s1.mem.writeN 0x2000 (bytesOfNat 8 16)).writeN 0x2008 (bytesOfNat 8 15 ++ bytesOfNat 8 16)).writeN (0x2040 + 480)
    (bytesOfNat 8 (2 + 2 ^ 16 + 2 ^ 32 * 0x77))
  put 6#5 0x77#64 (put 5#5 0x3000#64 { s1 with mem := m, regions := [{ placedRegion with rcb := { placedRegion.rcb with evq := 0x2000#64 } }] })
theorem e1_paged : Paged e1 := paged_of (by decide)
theorem queue_of {s : State} (h : Paged s) (hp : s.mem.poison = []) {c : Ctx} (hc : c.sec = false) (hd : c.die = 0)
    {cap head tail : Nat} (hr : (s.rcb? c.tid.region).any (fun r => r.evq == 0x2000#64) = true) (hcap : cap ≤ 65536)
    (hq : capOk cap = true ∧ wordAt s.mem k0 0x2000 4 = cap ∧ wordAt s.mem k0 (0x2000 + 8) 8 = head ∧
      wordAt s.mem k0 (0x2000 + 16) 8 = tail) : Queue s c k0 0x2000 cap head tail := by
  refine ⟨?_, by omega, by omega, hq.1, home_of h hc hd _ (by omega), home_of h hc hd _ (by omega),
    (by rw [h.remotes]; intro r hr; cases hr), distinct_of (by omega),
    whole_of hp _ _ _, hq.2⟩
  obtain ⟨r, h1, h2⟩ := (Option.any_eq_true _ _).mp hr
  exact ⟨r, h1, by simpa using h2⟩
theorem hyp_EventQueues : Runs e1 ∧ Free e1 5 ∧ NoLoadHeld e1 ∧ Queue e1 e1.ctx k0 0x2000 16 15 16 ∧
    (∃ i, 15 ≤ i ∧ i < 16 ∧ wordAt e1.mem k0 (0x2000 + 64 + 32 * (i % 16) + 4) 4 = ((e1.cur.reg 6#5).setWidth 32).toNat ∧
      ∀ j, 15 ≤ j → j < i → wordAt e1.mem k0 (0x2000 + 64 + 32 * (j % 16) + 4) 4 ≠ ((e1.cur.reg 6#5).setWidth 32).toNat) ∧
    AllCovered e1 ∧
    (∀ j, 15 ≤ j → j < 16 → wordAt e1.mem k0 (0x2000 + 64 + 32 * (j % 16) + 4) 4 ≠ ((e1.cur.reg 5#5).setWidth 32).toNat) :=
  ⟨by constructor <;> decide, free_of (by decide) _, by unfold NoLoadHeld; decide,
   queue_of e1_paged (by decide) (by decide) (by decide) (by decide) (by decide) (by decide),
   ⟨15, by decide, by decide, by decide, fun j h1 h2 => by omega⟩, by unfold AllCovered; decide, fun j h1 h2 => by
    have : j = 15 := by omega
    subst this; decide⟩
theorem hyp_EventQueues_get : 15 ≠ 16 ∧ (e1.cur.reg 5#5).toNat % 8 = 0 ∧ Touches e1 e1.ctx .write false k0 (e1.cur.reg 5#5).toNat 32 ∧
    Distinct k0 (e1.cur.reg 5#5).toNat 32 ∧ Apart k0 (e1.cur.reg 5#5).toNat 32 0x2000 (64 + 32 * 16) ∧
    (∀ i, i < 8 → KeepsWalk e1 e1.ctx (fun x => ∃ k, k < 32 ∧ x = k0 ((e1.cur.reg 5#5).toNat + k)) (0x2000 + 8 + i)) ∧
    (released e1 e1.cur.tid .pkg = true ∧ 16 < 15 + 16) ∧
    (∀ i, i < 8 → KeepsWalk e1 e1.ctx (fun x => ∃ k, k < 32 ∧ x = k0 (0x2000 + 64 + 32 * (16 % 16) + k)) (0x2000 + 16 + i)) := by
  have e : (e1.cur.reg 5#5).toNat = 0x3000 := by decide
  rw [e]
  refine ⟨by decide, by decide, touches e1_paged (by decide) (by decide) _ (by decide), distinct_of (by decide),
    apart_of (by decide) (by decide) (by decide), fun i hi => keepsWalk_of e1_paged (by decide) (by omega) ?_, ⟨by decide, by decide⟩,
    fun i hi => keepsWalk_of e1_paged (by decide) (by omega) ?_⟩ <;>
  · rintro x hx ⟨k, hk, rfl⟩
    unfold k0 at hx
    rw [if_pos (by omega)] at hx
    omega
/-- `e1` with an empty queue, and with a full one. -/
def e2 : State := { e1 with mem := e1.mem.writeN 0x2008 (bytesOfNat 8 16) }
def e3 : State := { e1 with mem := e1.mem.writeN 0x2010 (bytesOfNat 8 31) }
theorem hyp_EventQueues_ends : Queue e2 e2.ctx k0 0x2000 16 16 16 ∧ Queue e3 e3.ctx k0 0x2000 16 15 31 ∧ 15 + 16 ≤ 31 ∧
    released s1 s1.cur.tid .pkg = true ∧ Silent s1 true s1.cur.tid :=
  ⟨queue_of (paged_of (by decide)) (by decide) (by decide) (by decide) (by decide) (by decide) (by decide),
   queue_of (paged_of (by decide)) (by decide) (by decide) (by decide) (by decide) (by decide) (by decide), by decide, by decide,
   .inr fun r hr => by
    have h : (s1.rcb? s1.cur.tid.region).all (fun r => r.evq == 0#64) = true := by decide
    rw [hr] at h; simpa using h⟩

/-! ### Posting to the engines -/

theorem holds_of {s : State} (h : Paged s) (hp : s.mem.poison = []) {a n : Nat} {b : List Byte} (hc : s.ctx.sec = false ∧ s.ctx.die = 0)
    (ha : a + n ≤ 2 ^ 29) (hb : bytesAt s.mem k0 a n = b) : Holds s k0 a n b :=
  ⟨touches h hc.1 hc.2 _ ha, whole_of hp _ _ _, hb⟩
theorem mayPost_of {s : State} (h : (s.runner = .thread ∧ s.cur.status = .bound) ∧ released s s.cur.tid .pkg = true) : MayPost s := h
/-- Bytes as cells, zeros not listed; and memory with them placed below the page tables. -/
def listed (a : Nat) (l : List Byte) : List Host.Cell :=
  (((List.range l.length).map (fun i => a + i)).zip l).filter (fun p => p.2 != 0#8)
def withBytes (c : List Host.Cell) (s : State) : State := { s with mem := { s.mem with cells := c ++ s.mem.cells } }
/-- A graph of one UNPK node of 4-bit fields, and a block of 8 elements in two chunks. -/
def graphBytes : List Byte :=
  [1#8, 1#8, 1#8, 1#8] ++ List.replicate 12 0#8 ++ [1#8, 0#8, 0x80#8, 0x80#8, 4#8] ++ List.replicate 11 0#8
def blockBytes : List Byte :=
  bytesOfNat 16 (0x4000 + 2 ^ 64 * 64) ++ List.replicate 48 0#8 ++ bytesOfNat 16 (0x5000 + 2 ^ 64 * 256) ++ List.replicate 48 0#8 ++
  bytesOfNat 16 (8 + 2 ^ 64 * 4) ++ List.replicate 48 0#8
/-- `s1` with the graph at s5 = 0x2000, the block at s6 = 0x3000 and nothing at s7 = 0x6000. -/
def f1 : State :=
  put 7#5 0x6000#64 (put 6#5 0x3000#64 (put 5#5 0x2000#64 (withBytes (listed 0x2000 graphBytes ++ listed 0x3000 blockBytes) s1)))
theorem f1_paged : Paged f1 := paged_of (by decide)
theorem f1_may : MayPost f1 := mayPost_of (by decide)
/-- The graph, and `f1` with it as its region's. -/
def graph1 : Graph := (graphOf graphBytes).getD { inputs := 0, outputs := 0, nodes := [] }
def f2 : State := f1.setDie 0 { f1.die 0 with configs := [(f1.cur.tid.region, graph1)] }
theorem f2_paged : Paged f2 := paged_of (by decide)
theorem hyp_FabricPosts : MayPost f1 ∧ Free f1 5 ∧ (myDie f1).fabQueue.length < 64 ∧ (f1.cur.reg 5#5).toNat % 16 = 0 ∧
    Holds f1 k0 (f1.cur.reg 5#5).toNat (16 + 16 * min (graphBytes.getD 1 0#8).toNat 16) graphBytes ∧ (graphOf graphBytes).isSome = true ∧
    Holds f1 k0 (f1.cur.reg 7#5).toNat 16 (List.replicate 16 0#8) ∧ graphOf (List.replicate 16 0#8) = none ∧
    (f1.cur.reg 3#5).toNat < 2 ^ 40 ∧ (myDie f1).cpyQueue.length < 64 :=
  ⟨f1_may, free_of (by decide) _, by decide, by decide, holds_of f1_paged (by decide) (by decide) (by decide) (by decide), by decide,
   holds_of f1_paged (by decide) (by decide) (by decide) (by decide), by decide, by decide, by decide⟩
theorem hyp_FabricPosts_run : MayPost f2 ∧ (f2.cur.reg 6#5).toNat % 64 = 0 ∧ Holds f2 k0 (f2.cur.reg 6#5).toNat 192 blockBytes ∧
    (runBlockOf blockBytes).any (fun b => decide (b.chunks ≤ 32)) = true ∧
    (graphFor (myDie f2) f2.cur.tid.region).any (fun g => !g.usesRm && g.nodes.all (fun n => n.opr != 7)) = true :=
  ⟨mayPost_of (by decide), by decide, holds_of f2_paged (by decide) (by decide) (by decide) (by decide), by decide, by decide⟩

/-- A graph descriptor of 4 vertices, and an edge program of one word, `vpend`. -/
def edgeBytes : List Byte :=
  bytesOfNat 8 4 ++ bytesOfNat 8 0x5000 ++ bytesOfNat 8 0x5100 ++ bytesOfNat 8 0x5200 ++ bytesOfNat 8 0x5300 ++ bytesOfNat 8 0 ++
  bytesOfNat 8 0x5400 ++ bytesOfNat 8 0x5480
def edgeWord : Word32 := 0xA4200000#32
/-- `s1` with the descriptor at s5, the program at s6, its configuration in s7, and the range of an `erun` in s8 and s9. -/
def g1 : State :=
  put 9#5 0x10001#64 (put 8#5 0x400000000#64 (put 7#5 0x150#64 (put 6#5 0x3000#64 (put 5#5 0x2000#64
    (withBytes (listed 0x2000 edgeBytes ++ listed 0x3000 (bytesOfNat 4 edgeWord.toNat)) s1)))))
theorem g1_paged : Paged g1 := paged_of (by decide)
theorem hyp_EdgePosts : MayPost g1 ∧ Free g1 5 ∧ g1.cur.place.gang = [] ∧ (myCore g1).edgeLoad < 16 ∧
    (g1.cur.reg 5#5).toNat % 64 = 0 ∧ Holds g1 k0 (g1.cur.reg 5#5).toNat 64 edgeBytes ∧ (edgeGraphOf edgeBytes).isSome = true ∧
    Holds g1 k0 (g1.cur.reg 0#5).toNat 64 (List.replicate 64 0#8) ∧ edgeGraphOf (List.replicate 64 0#8) = none :=
  ⟨mayPost_of (by decide), free_of (by decide) _, by decide, by decide, by decide,
   holds_of g1_paged (by decide) (by decide) (by decide) (by decide), by decide,
   holds_of g1_paged (by decide) (by decide) (by decide) (by decide), by decide⟩
def edgeProg : EdgeProg := { dmap := [], base := 0x3000#64, words := [edgeWord], vt := 5#4, cmb := 0 }
theorem hyp_EdgePosts_prog : (g1.cur.reg 6#5).toNat % 4 = 0 ∧ edgeCfg (g1.cur.reg 7#5) = some (1, 5#4, 0) ∧
    Holds g1 k0 (g1.cur.reg 6#5).toNat 4 (bytesOfNat 4 edgeWord.toNat) ∧
    edgeProg.words = (List.range 1).map (fun i => BitVec.ofNat 32 (natOfBytes (((bytesOfNat 4 edgeWord.toNat).drop (4 * i)).take 4))) ∧
    (edgeProg.words.headD 0#32).getLsbD 31 = true ∧ checkProg edgeProg 65 0 g1 = .ok ((), g1) :=
  ⟨by decide, by decide, holds_of g1_paged (by decide) (by decide) (by decide) (by decide), by decide, by decide, rfl⟩
/-- `g1` after `egraph`. -/
def g2 : State := did (.egraph 3#5 5#5) g1
theorem hyp_EdgePosts_run : MayPost g2 ∧ (g2.cur.reg 9#5).extractLsb' 24 40 = 0#40 ∧ 1 ≤ ((g2.cur.reg 9#5).extractLsb' 0 16).toNat ∧
    ((g2.cur.reg 9#5).extractLsb' 16 8).toNat = 1 ∧ RmLegal g2 ∧
    g2.mySlot.graph.any (fun g => decide (((g2.cur.reg 8#5).extractLsb' 0 32).toNat + ((g2.cur.reg 8#5).extractLsb' 32 32).toNat ≤ g.v)) = true ∧
    (g1.cur.reg 0#5).toNat < 3 ∧ 3 ≤ (s1.cur.reg 5#5).toNat :=
  ⟨mayPost_of (by decide), by decide, by decide, by decide, by unfold RmLegal; decide, by decide, by decide, by decide⟩
theorem hyp_EdgePosts_block : ({ s1 with runner := .edgeVp 0 0 0 0 } : State).runner = .edgeVp 0 0 0 0 ∧ (15#5 : Reg).toNat < 16 :=
  ⟨rfl, by decide⟩

/-- A build block of one token and one expert, and a job block. -/
def ttBytes : List Byte :=
  bytesOfNat 8 (1 + 2 ^ 32 + 2 ^ 48) ++ bytesOfNat 8 0x3000 ++ bytesOfNat 8 0 ++ bytesOfNat 8 0 ++ bytesOfNat 8 0x4000 ++ bytesOfNat 8 4096 ++
  List.replicate 16 0#8
def seqBytes : List Byte :=
  bytesOfNat 8 0x4000 ++ bytesOfNat 8 0x5000 ++ bytesOfNat 8 (256 + 2 ^ 32 * 3 + 2 ^ 40 + 2 ^ 48) ++ bytesOfNat 8 0x6000 ++ bytesOfNat 8 0x7000 ++
  bytesOfNat 8 256 ++ List.replicate 80 0#8
/-- `s1` with the build block at s5, the job block at s6, and the operand of a `topk` in s7. -/
def x1 : State :=
  put 7#5 0x3F800007#64 (put 6#5 0x3000#64 (put 5#5 0x2000#64 (withBytes (listed 0x2000 ttBytes ++ listed 0x3000 seqBytes)
    { s1 with regions := [placedRegion] })))
theorem x1_paged : Paged x1 := paged_of (by decide)
theorem hyp_ExpertPosts : Runs x1 ∧ Free x1 5 ∧ (x1.cur.reg 7#5).extractLsb' 32 32 = 0#32 ∧ (x1.cur.reg 7#5).setWidth 16 ≠ 0xFFFF#16 ∧
    (x1.cur.reg 5#5).toNat % 16 = 0 ∧ Mapped x1 x1.ctx .atomic (x1.cur.reg 5#5).toNat (k0 (x1.cur.reg 5#5).toNat) false ∧ x1.stores = [] ∧ x1.loads = [] ∧ x1.topks = [] ∧
    (MayPost x1 ∧ (myDie x1).expQueue.length < 64 ∧ (x1.cur.reg 5#5).toNat % 64 = 0 ∧
      Holds x1 k0 (x1.cur.reg 5#5).toNat 64 ttBytes ∧ (ttJobOf ttBytes).isSome = true) ∧
    (x1.arrAbsent = false ∧ (x1.cur.reg 6#5).toNat % 64 = 0 ∧ Holds x1 k0 (x1.cur.reg 6#5).toNat 128 seqBytes ∧
      (seqJobOf seqBytes x1.cur.csr.mode (x1.window 31) x1.cur.csr.mswap).isSome = true) :=
  ⟨by constructor <;> decide, free_of (by decide) _, by decide, by decide, by decide,
   mapped x1_paged.toMild (by decide) (by decide) _ (.inl (by decide)), by decide, by decide, by decide,
   ⟨mayPost_of (by decide), by decide, by decide, holds_of x1_paged (by decide) (by decide) (by decide) (by decide), by decide⟩,
   by decide, by decide, holds_of x1_paged (by decide) (by decide) (by decide) (by decide), by decide⟩
/-- `x1` after it acquired the slot of key s5. -/
def x2 : State := did (.xslot .acq 3#5 5#5) x1
theorem hyp_ExpertPosts_slot :
    ((slotsOfWorld x1.fw 0 false).find? (fun i => ((myDie x1).xslot i).key == some (x1.cur.reg 5#5)) = none ∧
      (x1.rcb? x1.cur.tid.region).any (fun c => decide (heldSlots x1 x1.cur.tid.region < c.maxslot)) = true ∧
      (myDie x1).hand < 128 ∧ (myDie x1).hand ∈ slotsOfWorld x1.fw 0 false ∧ ((myDie x1).xslot (myDie x1).hand).ref = 0#16 ∧
      ((myDie x1).xslot (myDie x1).hand).use = false) ∧
    ((slotsOfWorld x2.fw 0 false).find? (fun i => ((myDie x2).xslot i).key == some (x2.cur.reg 5#5)) = some 0 ∧
      (slotsOfWorld x2.fw 0 false).find? (fun i => ((myDie x2).xslot i).key == some (x2.cur.reg 5#5) &&
        ((myDie x2).xslot i).refs.contains x2.cur.tid.region) = some 0) ∧
    (slotsOfWorld x1.fw 0 false).find? (fun i => ((myDie x1).xslot i).key == some (x1.cur.reg 5#5) &&
      ((myDie x1).xslot i).refs.contains x1.cur.tid.region) = none :=
  ⟨by decide, by decide, by decide⟩

/-! ### The engines at work -/

/-- A run of the graph over the block, its chunks `l` done. -/
def runWith (l : List Nat) : FabRun :=
  { token := 1#32, tid := placedTid, slot := 0, ev := false, shadow := false
    blk := { ins := [(0x4000#64, 64), (0#64, 0), (0#64, 0), (0#64, 0)], outs := [(0x5000#64, 256), (0#64, 0), (0#64, 0), (0#64, 0)]
             n := 8, c := 4, lut := 0#64, scaleAt := 0#64 }
    graph := graph1, mode := 0#64, q31 := 0#64, seed := 0#64, started := true, cannot := false, doneChunks := l, failed := []
    bmc := [], flags := 0#64, poison := false, overrun := [], sealed := false, good := 0, stallCycles := 0, stalls := [], aborted := false
    owed := [] }
/-- A completed shadow of one byte. -/
def shadow1 : Shadow :=
  { token := 1#32, region := placedTid.region, die := 0, pages := [0], bytes := [(0x4000, 5#8)], poison := [], complete := true
    publishing := false }
def copy1 : CpyCmd :=
  { token := 2#32, tid := placedTid, slot := 0, ev := false, shadow := false, src := 0x4000#64, dst := 0x6000#64, count := 40
    started := false, cannot := false, chunk := 0, failed := [], poison := false, sealed := false, good := 0, stallCycles := 0
    stallTo := 0, aborted := false, owed := [] }
def inDie (f : DieSt → DieSt) (s : State) : State := s.setDie 0 (f (s.die 0))
def w1 : State := inDie (fun x => { x with runs := [runWith []], fabQueue := [.sgraph 1#32 placedTid 0 graph1 false] }) s1
def w2 : State := inDie (fun x => { x with runs := [runWith [0, 1]], fabQueue := [.spub placedTid 0 1#32 .pkg 3#5], cpyQueue := [copy1] }) s1
def w3 : State := inDie (fun x => { x with shadows := [shadow1], fabQueue := [.spub placedTid 0 1#32 .pkg 3#5] }) s1
def w4 : State := inDie (fun x => { x with shadows := [shadow1], fabQueue := [.sdisc placedTid 0 1#32 3#5] }) s1
theorem w1_paged : Paged w1 := paged_of (by decide)
theorem w2_paged : Paged w2 := paged_of (by decide)
theorem hyp_FabricSteps : (w1.die 0).stopped = false ∧ w1.cur.status = .bound ∧
    (∃ rest, (w1.die 0).fabQueue = .sgraph 1#32 placedTid 0 graph1 false :: rest) ∧ Silent w1 false placedTid ∧
    (w1.die 0).configs.length < 8 ∧
    ((w1.die 0).runs[0]? = some (runWith []) ∧ (runWith []).started = true ∧ 1 < (runWith []).blk.chunks ∧
      (runWith []).overrun = [] ∧ 1 ∉ (runWith []).doneChunks ∧ chunkReady (w1.die 0) 0 (runWith []) 1 = true) ∧
    (∃ nd, graph1.nodes = [nd] ∧ nd.opr = 1 ∧ nd.src0 = 0#8 ∧ nd.out = 0x80#8 ∧ 1 ≤ nd.b 4 ∧ nd.b 4 ≤ 16 ∧ nd.b 5 = 0 ∧
      nd.w8 + min ((1 + 1) * 4) 8 * nd.b 4 ≤ 8 * 64 ∧ 4 * min ((1 + 1) * 4) 8 ≤ 256) ∧
    (Touches w1 ((runWith []).ctx 0 1) .read false k0 0x4000 64 ∧ Whole w1 k0 0x4000 64 ∧
      Touches w1 ((runWith []).ctx 0 1) .write false k0 0x5000 256 ∧ Distinct k0 0x5000 256) :=
  ⟨by decide, by decide, ⟨[], rfl⟩, .inl rfl, by decide, ⟨by decide, by decide, by decide, by decide, by decide, by decide⟩,
   ⟨_, rfl, by decide, by decide, by decide, by decide, by decide, by decide, by decide, by decide⟩,
   touches w1_paged (by decide) (by decide) _ (by decide), whole_of (by decide) _ _ _,
   touches w1_paged (by decide) (by decide) _ (by decide), distinct_of (by decide)⟩
theorem w3_publishable : Publishable w3 0 shadow1 :=
  ⟨by decide, fun p hp => ⟨0x4000, by
    have : p = (0x4000, 5#8) := by simpa [shadow1] using hp
    subst this; exact locate_k0 (paged_of (s := w3) (by decide)).toTables (by decide),
    fun w hw => absurd (show w ∈ ([] : List XWrite) from (show w3.xwrites = [] from by decide) ▸ hw) (by simp), by decide,
    by decide, .inl ⟨by decide, by decide⟩⟩⟩
theorem hyp_FabricSteps_ends :
    ((w2.die 0).runs[0]? = some (runWith [0, 1]) ∧ (runWith [0, 1]).graph.hasBmc = false ∧
      (∀ k, k < (runWith [0, 1]).blk.chunks → k ∈ (runWith [0, 1]).doneChunks) ∧ NoRecord w2 false placedTid [] ∧ placedTid = w2.cur.tid) ∧
    ((∃ rest, (w2.die 0).fabQueue = .spub w2.cur.tid 0 1#32 .pkg 3#5 :: rest) ∧ shadowBusy w2 w2.cur.tid.region 1#32 = false ∧
      shadowReady w2 w2.cur.tid.region 1#32 = none) ∧
    ((∃ rest, (w3.die 0).fabQueue = .spub w3.cur.tid 0 1#32 .pkg 3#5 :: rest) ∧ shadowReady w3 w3.cur.tid.region 1#32 = some shadow1 ∧
      shadowBusy w3 w3.cur.tid.region 1#32 = false ∧ Publishable w3 0 shadow1) ∧
    ((∃ rest, (w4.die 0).fabQueue = .sdisc w4.cur.tid 0 1#32 3#5 :: rest) ∧ shadowBusy w4 w4.cur.tid.region 1#32 = false ∧
      shadowReady w4 w4.cur.tid.region 1#32 = some shadow1) :=
  ⟨⟨by decide, by decide, by decide, ⟨.inl rfl, rfl⟩, by decide⟩, ⟨⟨[], rfl⟩, by decide, by decide⟩,
   ⟨⟨[], rfl⟩, by decide, by decide, w3_publishable⟩, ⟨[], rfl⟩, by decide, by decide⟩
theorem hyp_FabricSteps_copy : (∃ rest, (w2.die 0).cpyQueue = copy1 :: rest ∧ ∀ r ∈ rest, r.cannot = false) ∧ copy1.chunk = 0 ∧ NoRecord w2 copy1.ev copy1.tid copy1.owed ∧
    copy1.count ≤ 2 ^ 20 ∧ copy1.src.toNat + copy1.count ≤ copy1.dst.toNat ∧
    Touches w2 (unitCtx 0 3 copy1.token.toNat copy1.tid copy1.slot) .read false k0 copy1.src.toNat copy1.count ∧
    Whole w2 k0 copy1.src.toNat copy1.count ∧
    Touches w2 (unitCtx 0 3 copy1.token.toNat copy1.tid copy1.slot) .write false k0 copy1.dst.toNat copy1.count ∧
    Distinct k0 copy1.dst.toNat copy1.count :=
  ⟨⟨[], rfl, fun r hr => by cases hr⟩, by decide, ⟨.inl rfl, rfl⟩, by decide, by decide, touches w2_paged (by decide) (by decide) _ (by decide),
   whole_of (by decide) _ _ _, touches w2_paged (by decide) (by decide) _ (by decide), distinct_of (by decide)⟩
theorem hyp_PublishResults : (Runs w3 ∧ Free w3 0 ∧ released w3 w3.cur.tid .pkg = true ∧ shadowBusy w3 w3.cur.tid.region 1#32 = false ∧ shadowReady w3 w3.cur.tid.region 1#32 = some shadow1 ∧
      w3.stores = [] ∧ w3.topks = [] ∧ Publishable w3 w3.cur.place.die shadow1) ∧
    shadowReady s1 s1.cur.tid.region 1#32 = none ∧
    shadowBusy (inDie (fun x => { x with shadows := [{ shadow1 with complete := false }] }) s1) s1.cur.tid.region 1#32 = true :=
  ⟨⟨by constructor <;> decide, free_of (by decide) _, by decide, by decide, by decide, by decide, by decide, w3_publishable⟩,
   by decide, by decide⟩
/-- A push superstep whose only chunk has no edge left, as it stands in `phase` once it has ended. -/
def superAt (ended : Bool) (phase : Nat) : SuperStep :=
  { ss := 0, dir := 1, startDir := 1, nv := 1, chunk := 0, rowAt := 0, inRow := 0, nextRow := 1, nextIn := 0, reached := 0
    loaded := !ended, last := true, combining := false, ended := ended, cannot := false, items := [], group := none, groupItems := []
    groupNo := 0, props := [], acts := [], eacts := [], row := none, fail := none, switches := 0, examined := 0, added := 0
    failed := [], flags := 0#64, vpFlags := 0#64, poison := false, sealed := false, phase := phase }
def edgeState (q : SuperStep) : State :=
  let r : ERun := { placedRun [edgeWord] with cur := some q }
  s1.setCore 0 0 { s1.core 0 0 with edge := [r] }
def edgeRun (q : SuperStep) : ERun := { placedRun [edgeWord] with cur := some q }
/-- What the statement on supersteps asks of a state. -/
def EdgeAt (q : SuperStep) : Prop :=
  let s := edgeState q
  let r := edgeRun q
  (s.die 0).stopped = false ∧ (s.core 0 0).edge = [r] ∧ r.graph.isSome = true ∧ r.prog.isSome = true ∧
  r.aborted = false ∧ rowEnded r q = false ∧ writesApplied s r.tid = true ∧ NoRecord s r.ev r.tid r.owed ∧ r.tid = s.cur.tid ∧
  ∀ g, r.graph = some g → Touches s (r.ctx 0) .write false k0 g.frt.toNat 4 ∧ Distinct k0 g.frt.toNat 4 ∧
    Touches s (r.ctx 0) .read false k0 g.frt.toNat 32 ∧ Whole s k0 g.frt.toNat 32
theorem edgeAt_of {q : SuperStep} (hp : Paged (edgeState q)) (hm : (edgeState q).mem.poison = []) (h : (edgeState q).cur.tid = placedTid)
    (hs : ((edgeState q).die 0).stopped = false) (he : ((edgeState q).core 0 0).edge = [edgeRun q])
    (hr : rowEnded (edgeRun q) q = false) (hw : writesApplied (edgeState q) placedTid = true) : EdgeAt q := by
  refine ⟨hs, he, rfl, rfl, rfl, hr, hw, ⟨.inl rfl, rfl⟩, h.symm, ?_⟩
  intro g hg
  have h1 : g.frt = 0#64 ∨ g.frt.toNat + 32 ≤ 2 ^ 29 := .inr (by cases hg; decide)
  have h2 : g.frt.toNat + 32 ≤ 2 ^ 29 := by rcases h1 with h1 | h1 <;> simp_all
  exact ⟨touches hp rfl rfl _ (by omega), distinct_of (by omega), touches hp rfl rfl _ h2, whole_of hm _ _ _⟩
theorem hyp_EdgeSteps : EdgeAt (superAt false 0) :=
  edgeAt_of (paged_of (by decide)) (by decide) (by decide) (by decide) (by decide) (by decide) (by decide)
theorem hyp_EdgeSteps_vote : EdgeAt (superAt true 1) :=
  edgeAt_of (paged_of (by decide)) (by decide) (by decide) (by decide) (by decide) (by decide) (by decide)
theorem hyp_EdgeSteps_end : EdgeAt (superAt true 2) :=
  edgeAt_of (paged_of (by decide)) (by decide) (by decide) (by decide) (by decide) (by decide) (by decide)

/-! ### Experts, leaving slots, thread services -/

/-- The line at `l`: its bytes are reached at home. -/
theorem atHome_of {s : State} (h : Paged s) {c : Ctx} (hc : c.sec = false) (hd : c.die = 0) (acc : Machine.Acc) {a n : Nat}
    (ha : a + n ≤ 2 ^ 29) : AtHome s c acc k0 a n := fun i hi =>
  ⟨reachesHome h hc hd acc (.inl (by omega)), fun k hk => noInsert h (P := fun k => k.tid = c.tid → _) k hk⟩
/-- Two inserts into an empty record at 0x2000: a NaN, and 1.0. -/
def insertOf (x : BitVec 16) : TopkIns :=
  { tid := placedTid, die := 0, core := 0, key := 0x2000, msa := false, score := x, id := 7#16, k := 2 }
def x3 : State :=
  withBytes (listed 0x2000 (entryBytes (List.replicate 4 emptyEntry))) { s1 with topks := [insertOf 0x7FC0#16, insertOf 0x3F80#16] }
theorem hyp_ExpertSteps : x3.cur.status = .bound ∧
    (x3.topks[0]? = some (insertOf 0x7FC0#16) ∧ scoreNan (insertOf 0x7FC0#16).score = true ∧
      (insertOf 0x7FC0#16).tid = x3.cur.tid) ∧
    (x3.topks[1]? = some (insertOf 0x3F80#16) ∧ scoreNan (insertOf 0x3F80#16).score = false ∧
      atomReady x3 (insertOf 0x3F80#16).die (insertOf 0x3F80#16).key (insertOf 0x3F80#16).msa = true ∧
      recordOk (recordEntries (x3.mem.readN (insertOf 0x3F80#16).key 16)) = true ∧
      x3.mem.poisoned (insertOf 0x3F80#16).key = false) :=
  ⟨by decide, ⟨by decide, by decide, by decide⟩, by decide, by decide, by decide, by decide, by decide⟩
/-- A build of one token for one expert, and a sequencer whose one row is staged, as they stand in the queue. -/
def buildCmd : ExpCmd :=
  { id := 1, token := 1#32, tid := placedTid, core := 0, slot := 0, nth := 0, ev := false, aborted := false, owed := []
    work := .ttbld { t := 1, x := 1, k := 1, recs := 0x3000#64, rmap := 0#64, nid := 0, tbl := 0x4000#64, cap := 4096 } }
def oneSet : MacroSet := { MacroSet.reset with k := 1, n := 1, codes := [(0, 3#8)] }
def oneRow : StageRow := { token := 0, weight := 0x3F800000#32, bytes := [(2#8, false)], block := 0 }
def seqJob : SeqJob :=
  { tbl := 0x4000#64, act := 0x5000#64, apitch := 256, aty := 3#4, km := 1, nm := 1, tile := 1, smap := 0x6000#64, out := 0x7000#64
    opitch := 256, mode := 0#64, q31 := 0#64, mswap := 32 }
def seqCmd (bufs : List StageBuf) (combs : List SeqComb) : ExpCmd :=
  { id := 2, token := 2#32, tid := placedTid, core := 0, slot := 0, nth := 0, ev := false, aborted := false, owed := []
    work := .tseq { job := seqJob, hdr := some (1, 1, 0x4080), cannot := false, block := 1, row := 0, bufs := bufs, outs := combs.map (fun c => { id := c.buf, blocks := [0], page := true })
                    combs := combs, nextComb := 0
                    held := some (0#64, oneSet), waitFrom := none, failed := [], flags := 4#64, poison := false, rows := 0
                    waits := 0 } }
def oneBuf : StageBuf := { p := 0, rows := [oneRow], closed := true, short := false, bad := none }
/-- A combine of 1.0 into 0x7000. -/
def oneComb : SeqComb := { id := 0, buf := 0, block := 0, va := 0x7000, pa := 0x7000, msa := false, v := 0x3F800000 }
def x4 : State := inDie (fun x => { x with expQueue := [buildCmd] }) s1
def x5 : State :=
  let s := inDie (fun x => { x with expQueue := [seqCmd [oneBuf] []], staged := 1 }) s1
  s.setCore 0 0 { s.core 0 0 with sets := [(1, oneSet)] }
def x6 : State := inDie (fun x => { x with expQueue := [seqCmd [] []] }) s1
theorem hyp_MatrixPosts_sequencer : Runs x6 ∧ pausedOf x6 = none ∧ matrixBusy x6 x6.cur.tid = false ∧ tseqBusy x6 x6.cur.tid = true :=
  ⟨by constructor <;> decide, by decide, by decide, by decide⟩
theorem x4_paged : Paged x4 := paged_of (by decide)
theorem x5_paged : Paged x5 := paged_of (by decide)
theorem hyp_ExpertSteps_build : (x4.die 0).stopped = false ∧ (x4.die 0).expQueue = buildCmd :: [] ∧
    expReady x4 0 buildCmd = true ∧ Silent x4 buildCmd.ev buildCmd.tid ∧
    Touches x4 (buildCmd.ctx 0 0) .read false k0 0x3000 16 ∧ Whole x4 k0 0x3000 16 ∧
    Touches x4 (buildCmd.ctx 0 0) .write false k0 0x4000 4096 ∧ Distinct k0 0x4000 4096 :=
  ⟨by decide, by decide, by decide, .inl rfl, touches x4_paged (by decide) (by decide) _ (by decide), whole_of (by decide) _ _ _,
   touches x4_paged (by decide) (by decide) _ (by decide), distinct_of (by decide)⟩
theorem hyp_ExpertSteps_buffer :
    (∃ z, seqOf (x5.die 0) 2 = some (seqCmd [oneBuf] [], z) ∧ z.job = seqJob ∧ z.cannot = false ∧ z.hdr = some (1, 1, 0x4080) ∧
      z.bufs = [oneBuf] ∧ z.held = some (0#64, oneSet)) ∧ (seqCmd [oneBuf] []).aborted = false ∧ oneBuf.closed = true ∧
    oneBuf.bad = none ∧ oneSet.k = seqJob.km ∧ oneSet.n = seqJob.nm ∧
    expReady x5 0 (seqCmd [oneBuf] []) = true ∧ (x5.core 0 0).mset (seqJob.tile % 2) = oneSet ∧
    BitVec.ofNat 64 (wordAt x5.mem k0 0x6000 2) = 0#64 ∧ smapOk x5.fw 0 false 0#64 = true ∧
    unitsFree (x5.core 0 0).queue [seqJob.tile, 4 + seqJob.tile % 2] = true ∧
    Touches x5 ((seqCmd [oneBuf] []).ctx 0 0) .read false k0 0x6000 2 ∧ Whole x5 k0 0x6000 2 ∧
    ∀ r ∈ oneBuf.rows, ∀ n, n < seqJob.nm →
      (seqJob.out.toNat + r.token * seqJob.opitch + 4 * n) % 4 = 0 ∧
      ∃ k m, Mapped x5 ((seqCmd [oneBuf] []).ctx 0 0) .atomic (seqJob.out.toNat + r.token * seqJob.opitch + 4 * n) k m := by
  refine ⟨⟨_, rfl, rfl, rfl, rfl, rfl, rfl⟩, rfl, rfl, rfl, rfl, rfl, by decide, by decide, by decide, by decide, by decide,
    touches x5_paged (by decide) (by decide) _ (by decide), whole_of (by decide) _ _ _, fun r hr n hn => ?_⟩
  have h1 : r = oneRow := by simpa [oneBuf] using hr
  have h2 : n = 0 := Nat.lt_one_iff.mp hn
  subst h1 h2
  exact ⟨by decide, _, _, mapped x5_paged.toMild (by decide) (by decide) _ (.inl (by decide))⟩
def x7 : State := inDie (fun x => { x with expQueue := [seqCmd [] [oneComb]] }) s1
theorem hyp_ExpertSteps_combine : (x7.die 0).stopped = false ∧
    (∃ z, seqOf (x7.die 0) 2 = some (seqCmd [] [oneComb], z) ∧ z.combs[0]? = some oneComb) ∧
    locate x7.fw oneComb.pa = .here 0x7000 ∧ atomReady x7 0 0x7000 oneComb.msa = true ∧
    (∀ i, i < 4 → x7.mem.poisoned (0x7000 + i) = false) ∧ mixedPage x7 oneComb.pa oneComb.msa = false :=
  ⟨by decide, ⟨_, rfl, rfl⟩, locate_k0 (paged_of (s := x7) (by decide)).toTables (by decide), by decide, clean_of (by decide) _ _,
   unmixed_of (paged_of (s := x7) (by decide)).toMild _⟩
theorem hyp_ExpertSteps_ends : ∃ z, seqOf (x6.die 0) 2 = some (seqCmd [] [], z) ∧ z.cannot = false ∧ z.hdr = some (1, 1, 0x4080) ∧
    1 ≤ z.block ∧ z.bufs = [] ∧ z.combs = [] ∧ NoRecord x6 false placedTid [] ∧ placedTid = x6.cur.tid :=
  ⟨_, rfl, rfl, rfl, by decide, rfl, rfl, ⟨.inl rfl, rfl⟩, rfl⟩

/-- `s1` in its region with a second thread of that region in slot 1, and with its save area at 0x1000. -/
def l1 : State :=
  { s1 with regions := [{ placedRegion with livect := 2, rcb := { placedRegion.rcb with nct := 2 } }]
            others := [{ s1.cur with tid := { placedTid with idx := 1 }, place := { Place.reset with slot := 1 } }] }
def l2 : State := { l1 with cur := { l1.cur with leaving := true } }
theorem l1_paged : Paged l1 := paged_of (by decide)
theorem stays_of {s : State} {r : Region} {x : Thread} (h : s.region? s.cur.tid.region = some r ∧ r.code = .bound ∧ r.aborting = false)
    (hx : s.others = [x] ∧ x.tid.region = s.cur.tid.region ∧ x.tid ≠ s.cur.tid ∧ x.status = .bound) : RegionStays s :=
  ⟨⟨r, h⟩, x, by rw [hx.1]; exact List.mem_singleton.mpr rfl, hx.2⟩
theorem saveReached_of {s : State} (h : Paged s) (ha : saveArea s s.cur.tid = 0x1000)
    (hc : s.cur.deviceCtx.sec = false ∧ s.cur.deviceCtx.die = 0) (hs : s.stores = [] ∧ s.loads = []) : SaveReached s k0 := by
  unfold SaveReached
  rw [ha]
  refine ⟨noneHeld_of hs, rfl, atHome_of h hc.1 hc.2 _ (by decide), distinct_of (by decide), fun i hi => ?_⟩
  refine keepsWalk_of h hc.1 (by omega) ?_
  rintro x hx ⟨j, hj, rfl⟩
  unfold k0 at hx
  split at hx <;> omega
theorem hyp_LeavingSlots : Runs l1 ∧ Idle l1 ∧ pausedOf l1 = none ∧ l1.unknownBusy = false ∧ matrixBusy l1 l1.cur.tid = false ∧
    RegionStays l1 ∧ SaveReached l1 k0 :=
  ⟨by constructor <;> decide, idle_of (by decide) (by decide) (by decide), by decide, by decide, by decide,
   stays_of (r := { placedRegion with livect := 2, rcb := { placedRegion.rcb with nct := 2 } })
     (x := { s1.cur with tid := { placedTid with idx := 1 }, place := { Place.reset with slot := 1 } }) (by decide) (by decide),
   saveReached_of l1_paged (by decide) (by decide) (by decide)⟩
theorem hyp_LeavingSlots_preempt : l2.cur.preemptDue = true ∧ Idle l2 ∧ l2.cur.each = none ∧ l2.cur.park = none ∧ l2.cur.tail = [] ∧
    l2.cur.semTaken = false ∧ l2.cur.wsPending = false ∧ l2.unknownBusy = false ∧ RegionStays l2 ∧ SaveReached l2 k0 :=
  ⟨by decide, idle_of (by decide) (by decide) (by decide), by decide, by decide, by decide, by decide, by decide, by decide,
   stays_of (r := { placedRegion with livect := 2, rcb := { placedRegion.rcb with nct := 2 } })
     (x := { s1.cur with tid := { placedTid with idx := 1 }, place := { Place.reset with slot := 1 } }) (by decide) (by decide),
   saveReached_of (paged_of (by decide)) (by decide) (by decide) (by decide)⟩
theorem hyp_LeavingSlots_done : ∃ r, Runs l1 ∧ pausedOf l1 = none ∧ l1.unknownBusy = false ∧ threadDrained l1 l1.cur.tid = true ∧ NoneHeld l1 ∧
    l1.region? l1.cur.tid.region = some r ∧ 2 ≤ r.livect ∧ WordReached l1 k0 r :=
  ⟨{ placedRegion with livect := 2, rcb := { placedRegion.rcb with nct := 2 } }, by constructor <;> decide, by decide, by decide, by decide,
   noneHeld_of (by decide), by decide, by decide, atHome_of l1_paged (by decide) (by decide) _ (by decide), distinct_of (by decide)⟩

/-- `s1` in the secure world with a pending fault entry of SEQ 3; and `s1` whose phase request waits, and is done. -/
def fault3 : FaultRec :=
  { seq := 3, tid := placedTid, slot := 0, va := 0x5000#64, tval := 0x5000#64, kind := 0, level := 1, status := 0, what := .engine 1 1 0 }
def t1 : State :=
  let s := inDie (fun x => { x with faults := [fault3] }) s1
  { s with cur := { s.cur with tid := { region := { sec := true, rcb := 0x100#64 }, idx := 0 } } }
theorem hyp_ThreadServices : ArrRuns s1 ∧ Free s1 3 ∧ Free s1 5 ∧ s1.unknownBusy = false ∧ s1.xwrites = [] ∧ s1.stores = [] ∧ s1.loads = [] ∧
    s1.topks = [] ∧ (s1.cur.reg 0#5).toNat < 8 ∧ (s1.cur.reg 0#5).toNat % 4 ≠ 3 ∧ translatedOut s1 s1.cur.tid [0] = false ∧
    (Runs x7 ∧ x7.xwrites = [] ∧ x7.stores = [] ∧ x7.loads = [] ∧ x7.topks = [] ∧ translatedOut x7 x7.cur.tid [0] = true) :=
  ⟨s1_arr, s1_free _, s1_free _, by decide, by decide, by decide, by decide, by decide, by decide, by decide, by decide,
   by constructor <;> decide, by decide, by decide, by decide, by decide, by decide⟩
theorem hyp_ThreadServices_fqret : (Runs s1 ∧ (s1.cur.reg 5#5).toNat < 2 ^ 13 ∧ s1.cur.tid.region.sec = false) ∧
    (Runs t1 ∧ (t1.cur.reg 5#5).toNat < 2 ^ 13 ∧ t1.cur.tid.region.sec = true ∧ released t1 t1.cur.tid .pkg = true ∧
      (myDie t1).faults.find? (fun f => f.seq % 4096 == (t1.cur.reg 5#5).toNat % 4096 && f.status == 0) = some fault3 ∧
      (myDie t1).faults.find? (fun f => f.seq % 4096 == (t1.cur.reg 0#5).toNat % 4096 && f.status == 0) = none) :=
  ⟨⟨s1_runs, by decide, by decide⟩, ⟨by constructor <;> decide, by decide, by decide, by decide, by decide, by decide⟩⟩
theorem hyp_ThreadServices_wsph : (s1.cur.reg 0#5).toNat < 2 ∧ (s1.cur.wsDone = false ∧ s1.cur.wsPending = false ∧ s1.unknownBusy = false) ∧
    (let s := withCur (fun y => { y with wsPending := true }) s1; Runs s ∧ s.cur.wsDone = false ∧ s.cur.wsPending = true) ∧
    (let s := withCur (fun y => { y with wsPending := true, wsDone := true }) s1; Runs s ∧ s.cur.wsDone = true) ∧
    (NoneHeld s1 ∧ s1.topks = []) ∧
    (Runs a10 ∧ (a10.cur.reg 0#5) = 0#64 ∧ a10.cur.wsDone = false ∧ a10.cur.wsPending = false ∧ a10.unknownBusy = false ∧ NoneHeld a10 ∧
      ∃ k ∈ a10.topks, k.tid = a10.cur.tid) :=
  ⟨by decide, by decide, ⟨by constructor <;> decide, by decide⟩, ⟨by constructor <;> decide, by decide⟩, ⟨noneHeld_of (by decide), by decide⟩,
   by constructor <;> decide, by decide, by decide, by decide, by decide, noneHeld_of (by decide), by decide⟩

/-- `s1` with a control block of zeros at s5 = 0x800, so that the child inherits every field, one with a reserved field at
s6 = 0x900, and s7 misaligned. -/
def p1 : State :=
  put 7#5 0x808#64 (put 6#5 0x900#64 (put 5#5 0x800#64 (withBytes [(0x962, 1#8)] { s1 with regions := [placedRegion] })))
theorem p1_paged : Paged p1 := paged_of (by decide)
theorem p1_offered : Offered p1 p1.ctx (some placedRegion) false 0x800#64 0x800 placedRegion.rcb :=
  ⟨by decide, ⟨false, mapped p1_paged.toMild (by decide) (by decide) _ (.inl (by decide))⟩,
   ⟨false, mapped p1_paged.toMild (by decide) (by decide) _ (.inl (by decide))⟩, by
    intro i _; unfold Memory.poisoned; rw [show p1.mem.poison = [] from by decide]; rfl, by decide, by decide,
   fun r hr => by cases hr; decide, by decide, by decide, by decide, by decide, by decide, by decide⟩
theorem hyp_SpawnResults : MayPost p1 ∧ Free p1 3 ∧ Free p1 5 ∧ p1.region? p1.cur.tid.region = some placedRegion ∧
    Offered p1 p1.ctx (some placedRegion) false (p1.cur.reg 5#5) 0x800 placedRegion.rcb ∧ placedRegion.aborting = false ∧
    (let c := deviceCtx p1.cur.place.die (regionTid { sec := placedRegion.rcb.sec, rcb := 0x800#64 })
     AtHome p1 c .write (fun a => 0x800 + (a - 0x800)) 0x800 128 ∧
     ∀ i, i < 128 → KeepsWalk p1 c (fun y => (∃ i, i < 128 ∧ y = 0x800 + i) ∨ ∃ i, i < 128 ∧ y = k0 (0x100 + i)) (0x800 + i)) ∧
    (let c := deviceCtx placedRegion.home (regionTid placedRegion.id)
     AtHome p1 c .write k0 0x100 128 ∧ Distinct k0 0x100 128 ∧
     ∀ i, i < 128 → KeepsWalk p1 c (fun y => (∃ i, i < 128 ∧ y = 0x800 + i) ∨ ∃ i, i < 128 ∧ y = k0 (0x100 + i)) (0x100 + i)) ∧
    (∀ i j, i < 128 → j < 128 → 0x800 + i ≠ k0 (0x100 + j)) := by
  refine ⟨mayPost_of (by decide), free_of (by decide) _, free_of (by decide) _, by decide, p1_offered, by decide,
    ⟨fun i hi => ?_, fun i hi => keepsWalk_of p1_paged (by decide) (by omega) ?_⟩,
    ⟨atHome_of p1_paged (by decide) (by decide) _ (by decide), distinct_of (by decide), fun i hi =>
      keepsWalk_of p1_paged (by decide) (by omega) ?_⟩, ?_⟩
  · have e : 0x800 + (0x800 + i - 0x800) = k0 (0x800 + i) := by unfold k0; rw [if_pos (by omega)]; omega
    simp only [e]
    exact atHome_of p1_paged (by decide) (by decide) _ (n := 128) (by decide) i hi
  · rintro x hx (⟨j, hj, rfl⟩ | ⟨j, hj, rfl⟩)
    · omega
    · unfold k0 at hx
      split at hx <;> omega
  · rintro x hx (⟨j, hj, rfl⟩ | ⟨j, hj, rfl⟩)
    · omega
    · unfold k0 at hx
      split at hx <;> omega
  · intro i j hi hj
    unfold k0
    split <;> omega
theorem offer_error {c : Ctx} {p : Option Region} {b : Bool} {va : Word64} {s : State}
    (h : (match checkOffer c p b va s with
      | .ok (.error _, _) => true
      | _ => false) = true) : ∃ e v, checkOffer c p b va s = .ok (.error e, v) := by
  split at h
  · next e v he => exact ⟨e, v, he⟩
  · cases h
theorem hyp_SpawnResults_refused : (p1.cur.reg 7#5).toNat % 256 ≠ 0 ∧
    ∃ e v, checkOffer p1.ctx (some placedRegion) false (p1.cur.reg 6#5) p1 = .ok (.error e, v) :=
  ⟨by decide, offer_error (by decide)⟩

/-- `s1` with s5 = 0x8000, and with no array state in its slot: never held, and lost. -/
def y3 : State := put 5#5 0x8000#64 s1
def y4 : State := y3.setMySlot { y3.mySlot with owner := none }
def y5 : State := withBytes [(0x13F7, 0x20#8)] y4
theorem y3_paged : Paged y3 := paged_of (by decide)
theorem y4_paged : Paged y4 := paged_of (by decide)
theorem y5_paged : Paged y5 := paged_of (by decide)
theorem y3_image : (imageOf y3 placedTid 0 0 0).length ≤ 0x8000 := by decide
theorem hyp_SavedStates : Runs y3 ∧ Free y3 5 ∧ y3.mySlot.owner = some placedTid ∧ ownedSlots y3 placedTid = [(0, 0, 0)] ∧
    stateInUse y3 placedTid = false ∧ (y3.cur.reg 5#5).toNat = 0x8000 ∧ saveArea y3 placedTid + 0x3F0 = 0x13F0 ∧
    (let n := (imageOf y3 placedTid 0 0 0).length
     AtHome y3 y3.ctx .write k0 0x8000 n ∧ Distinct k0 0x8000 n ∧ AtHome y3 y3.ctx .write k0 0x13F0 8 ∧ Distinct k0 0x13F0 8 ∧
     Apart k0 0x8000 n 0x13F0 8 ∧
     ∀ i, i < 8 → KeepsWalk y3 y3.ctx (fun x => ∃ j, j < n ∧ x = k0 (0x8000 + j)) (0x13F0 + i)) := by
  have hn := y3_image
  refine ⟨by constructor <;> decide, free_of (by decide) _, by decide, by decide, by decide, by decide, by decide, ?_⟩
  refine ⟨atHome_of y3_paged (by decide) (by decide) _ (by omega), distinct_of (by omega), atHome_of y3_paged (by decide) (by decide) _ (by decide),
    distinct_of (by decide), apart_of (.inr (by omega)) (by omega) (by omega), fun i hi => keepsWalk_of y3_paged (by decide) (by omega) ?_⟩
  rintro x hx ⟨j, hj, rfl⟩
  unfold k0 at hx
  split at hx <;> omega
theorem hyp_SavedStates_empty : Runs y4 ∧ y4.mySlot.owner = none ∧ (y4.cur.reg 0#5).toNat = 0 ∧ y4.cur.place.gang = [] ∧
    ownedSlots y4 y4.cur.tid = [] ∧ stateInUse y4 y4.cur.tid = false ∧ AtHome y4 y4.ctx .read k0 0x13F0 16 ∧ Whole y4 k0 0x13F0 16 ∧
    wordAt y4.mem k0 0x13F0 8 / 2 ^ 61 % 4 = 0 ∧ AtHome y4 y4.ctx .write k0 0x13F0 8 ∧ Distinct k0 0x13F0 8 ∧ y4.arrAbsent = true ∧ y4.cur.lost = false :=
  ⟨by constructor <;> decide, by decide, by decide, by decide, by decide, by decide, atHome_of y4_paged (by decide) (by decide) _ (by decide),
   whole_of (by decide) _ _ _, by decide, atHome_of y4_paged (by decide) (by decide) _ (by decide), distinct_of (by decide), by decide, by decide⟩
theorem hyp_SavedStates_lost : Runs y5 ∧ y5.mySlot.owner = none ∧ y5.cur.place.gang = [] ∧ ownedSlots y5 y5.cur.tid = [] ∧
    stateInUse y5 y5.cur.tid = false ∧ AtHome y5 y5.ctx .read k0 0x13F0 16 ∧ Whole y5 k0 0x13F0 16 ∧
    wordAt y5.mem k0 0x13F0 8 / 2 ^ 61 % 2 = 1 :=
  ⟨by constructor <;> decide, by decide, by decide, by decide, by decide, atHome_of y5_paged (by decide) (by decide) _ (by decide),
   whole_of (by decide) _ _ _, by decide⟩

/-! ### The package's own steps -/

def c1 : State :=
  inDie (fun x => { x with clockMoved := true, copies := [{ line := 2 ^ 30, bytes := [], poison := [], filled := 0 }] })
    { s1 with xwrites := [write1], cycle := 68000 }
theorem hyp_CoherenceSteps : (c1.die 0).clockMoved = true ∧
    (∀ j, j < 8 → (c1.die j).beacons.length = 8 ∧ (c1.die j).known.length = 8) ∧
    pendingTo c1 1 0 = write1 :: [] ∧ canApply c1 write1 = true ∧
    (∃ k ∈ (c1.die 0).copies, k.line = 2 ^ 30 ∧ k.filled + 65536 ≤ c1.cycle) :=
  ⟨by decide, by decide, by decide, by decide, by decide⟩

/-- A message of host 5 to this package. -/
def hdr5 (tag : BitVec 16) : MsgHdr := { dst := 0#16, src := 5#16, tag := tag, world := 0#8, wcnt := 0#32, rsv := false }
/-- `s1` with one fault entry, its host being host 5, with and without the host's fault service in force. -/
def fq1 (f : FaultRec) (host : Bool) : State :=
  let s := inDie (fun x => { x with faults := [f] }) s1
  { s with fw := { s.fw with faultHost := 5#16, inForce := if host then 0x1D#64 else 0x1C#64 } }
theorem hyp_FaultSteps : (fq1 fault3 true).fw.m.isSome = true ∧ forUs (fq1 fault3 true).fw (hdr5 3#16) = true ∧
    (fq1 fault3 true).fw.inForce.getLsbD 0 = true ∧ hdrOk (hdr5 3#16) = true ∧
    hostNode (hdr5 3#16).src = hostNode (fq1 fault3 true).fw.faultHost ∧ 0 = (hdr5 3#16).tag.toNat / 4096 % 8 ∧
    ((fq1 fault3 true).die 0).faults.find? (fun g => g.seq % 4096 == (hdr5 3#16).tag.toNat % 4096 && g.status == 0) = some fault3 ∧
    (fq1 fault3 false).fw.inForce.getLsbD 0 = false ∧
    ((fq1 fault3 false).die 0).faults.find? (fun f => f.seq == 3 && f.status == 0) = some fault3 :=
  ⟨by decide, by decide, by decide, by decide, by decide, by decide, by decide, by decide, by decide⟩
theorem hyp_FaultSteps_act (what : FaultFor) (st : Nat) (h : (what = .stall ∨ what = .engine 1 1 0) ∧ (st = 1 ∨ st = 2)) :
    let f := { fault3 with what := what, status := st }
    ((fq1 f false).die 0).faults.find? (fun f => f.seq == 3 && f.status != 0) = some f ∧
    (∀ g ∈ ((fq1 f false).die 0).faults, g.tid = f.tid → 3 ≤ g.seq) ∧ f.tid = (fq1 f false).cur.tid ∧ (fq1 f false).cur.each = none := by
  obtain ⟨h1 | h1, h2 | h2⟩ := h <;> subst h1 <;> subst h2 <;> decide
theorem hyp_FaultSteps_hen : (FaultFor.engine 1 1 0).isEngine = true ∧
    ∃ p, walk (fq1 fault3 false) (.engine (fq1 fault3 false).cur.tid 9 3) fault3.tid.region.sec fault3.va.toNat = .ok p :=
  ⟨rfl, _, walk_paged (s := fq1 fault3 false)
    ⟨by decide, by decide, by decide, by decide, by decide, by decide, by decide⟩ _ (by decide)⟩
/-- A request of the current thread at the head of die 0's phase queue: to seal slots that a write is on its way to, and
that none is. -/
def seal1 : WsReq := { tid := some placedTid, hdr := none, sec := false, toOpen := false, taken := false, entries := [], chunks := [] }
def fq2 (ws : List XWrite) : State := inDie (fun x => { x with wsQueue := [seal1] }) { s1 with xwrites := ws }
theorem hyp_FaultSteps_seal : ((fq2 []).die 0).wsQueue = seal1 :: [] ∧ seal1.tid = some (fq2 []).cur.tid ∧
    wsWritePending (fq2 []) 0 false = false ∧ ((fq2 []).die 0).openNs = true ∧
    (let s := fq2 [{ write1 with pa := 2 ^ 40 }]
     (s.die 0).wsQueue = seal1 :: [] ∧ seal1.tid = some s.cur.tid ∧ (s.die 0).openNs = true ∧ wsWritePending s 0 false = true) :=
  ⟨by decide, by decide, by decide, by decide, by decide, by decide, by decide, by decide⟩

/-- A read of another node that was sent at cycle 0. -/
def remote1 : Remote := { tag := 0, who := .firmware, req := .read (2 ^ 50) 8, sent := 0, port := 3, reply := none }
/-- `s1` with port 3 leading to node 5. -/
def r1 : State := { s1 with fw := { s1.fw with routes := [(5, 8#32)] } }
def k1 : State := { s1 with cycle := 2 ^ 24, fw := { s1.fw with nextTag := 1, remotes := [remote1] } }
theorem hyp_LinkSteps : portsOf r1.fw 5 = [3] ∧ r1.fw.commands = [] ∧ locate r1.fw 0x2000 = .here 0x2000 ∧ secureKey r1.fw 0x2000 = false ∧
    isWs 0x2000 = false ∧ (∀ i, i < 8 → r1.mem.poisoned (0x2000 + i) = false) ∧
    (locate r1.fw (2 ^ 40) = .here (2 ^ 40) ∧ secureKey r1.fw (2 ^ 40) = false ∧ refreshLeft r1.cycle (wsSlice (2 ^ 40)) = 0 ∧
      isWs (2 ^ 40) = true ∧ wsOpen r1 (2 ^ 40) = true) ∧
    (let s := inDie (fun x => { x with openNs := false }) r1
     portsOf s.fw 5 = [3] ∧ locate s.fw (2 ^ 40) = .here (2 ^ 40) ∧ secureKey s.fw (2 ^ 40) = false ∧ wsOpen s (2 ^ 40) = false) :=
  ⟨by decide, by decide, by decide, by decide, by decide, by decide, ⟨by decide, by decide, by decide, by decide, by decide⟩,
   by decide, by decide, by decide, by decide⟩
theorem hyp_LinkSteps_secure :
    let s : State := { r1 with fw := { r1.fw with part := { Partition.reset with preg := 1#64 } } }
    portsOf s.fw 5 = [3] ∧ s.fw.commands = [] ∧ locate s.fw 0x2000 = .here 0x2000 ∧ secureKey s.fw 0x2000 = true ∧
      (0#8 : Byte).getLsbD 0 = false := by decide
theorem hyp_LinkSteps_replies : 0 < k1.fw.nextTag ∧
    (k1.fw.remotes.find? (fun r => r.tag == 0 && r.reply.isNone) = some remote1 ∧ remote1.sent + 2 ^ 24 ≤ k1.cycle) ∧
    (∀ x ∈ retEntries s1.fw, ¬ (x.kind = .lane ∧ x.die = 0 ∧ x.unit = 3)) ∧ (retEntries s1.fw).length < 512 ∧
    (∀ t, curTable s1.fw = some t → t.gen.toNat < 2 ^ 64 - 1) :=
  ⟨by decide, ⟨by decide, by decide⟩, by decide, by decide, fun t ht => by cases ht; decide⟩

/-- The convoy at the placed thread's pc is one `nop`. -/
theorem s1_convoy : Convoy s1 [.nop] := by
  refine ⟨⟨by decide, fun n hn => ⟨fun i hi => ?_, fun h => absurd h (by simp)⟩⟩, ⟨0x80000000#32, [], ?_⟩, fun h => absurd h (by decide)⟩
  · have : n = 0 := by simp at hn; exact hn
    subst this
    cases hi
    decide
  · exact ⟨{ c := true, instr := .nop, len := 1 }, word_of s1_paged (by decide) (by decide) (by decide) (by decide) (by decide), .inl rfl,
      fun n hn => absurd hn (Nat.not_lt_zero n), by decide, rfl, by decide, by decide,
      0x80000000#32, word_of s1_paged (by decide) (by decide) (by decide) (by decide) (by decide), by decide⟩
/-- A pending region of one thread that is offered to die 0, and the state in which its thread is placed. -/
def g3 : State :=
  let s := inDie (fun x => { x with arrivals := [placedTid.region], cores := [] }) s1
  { s with
    regions := [{ placedRegion with code := .pending, squares := [] }], cur := Thread.reset
    others := [{ Thread.reset with tid := placedTid }] }
def g4 : State :=
  let s := did (.placeRegion 0) g3
  inDie (fun x => { x with tlb := [] }) { s with cur := s.others.headD s.cur, others := [] }
theorem g3_paged : Paged g3 := paged_of (by decide)
theorem g4_paged : Paged g4 := paged_of (by decide)
theorem hyp_RegionSteps : s1.cur.status = .bound ∧ s1.cur.convoy = [] ∧ s1.unknownBusy = false ∧ NoLoadHeld s1 ∧ Convoy s1 [.nop] ∧
    (let s := withCsr { s1.cur.csr with count := some 0 } s1
     s.cur.status = .bound ∧ s.cur.csr.count = some 0 ∧ s.cur.csr.yreq = false ∧ s.cur.yielding = false) ∧
    (let s := withCsr { s1.cur.csr with tvec := 0x40000#64 } (withCur (fun y => { y with yieldTrap := true }) s1)
     s.cur.trapDue s = true ∧ s.cur.tail = []) :=
  ⟨by decide, by decide, by decide, by unfold NoLoadHeld; decide, s1_convoy, by decide, by decide⟩
theorem hyp_RegionSteps_place : ∃ r cs, ((g3.die 0).stopped = false ∧ (g3.die 0).arrivals = [r.id] ∧ g3.region? r.id = some r ∧ r.home = 0 ∧
    r.code = .pending ∧ (∀ q ∈ g3.regions, q.squares = []) ∧ (∀ q ∈ g3.regions, q.code ≠ .bound) ∧
    (∀ q ∈ g3.regions, q.home = 0 → q.owed = [] ∧ (q.livect ≠ 0 ∨ q.children ≠ [])) ∧ r.rcb.gang = 1 ∧
    r.rcb.linksh ≤ 256 ∧ r.rcb.prio < 16 ∧ 0 < r.rcb.maxcore ∧ r.rcb.perCore ≤ 4 ∧ (∀ t ∈ livingOf g3 r.id, t.tid.idx < r.rcb.nct) ∧
    livingOf g3 r.id ≠ [] ∧ coresOn g3 r.rcb.sec 0 r.rcb.cores (fun _ => true) = some cs ∧
    (∀ c ∈ (g3.die 0).cores, ∀ z ∈ c.2.slots, z.2.owner = none)) ∧ WordReached g3 k0 r :=
  ⟨{ placedRegion with code := .pending, squares := [] }, [0, 1, 2, 3], by decide, atHome_of g3_paged (by decide) (by decide) _ (by decide), distinct_of (by decide)⟩
/-- `g4` with its die's clock as the region's last thread left it. -/
def g5 : State := g4.setDie 0 ((g4.die 0).setClock (clkMerge (g4.die 0).vc placedRegion.clk) g4.cycle)
theorem g5_paged : Paged g5 := paged_of (by decide)
theorem hyp_RegionSteps_dispatch : ∃ r, (g4.cur.status = .unbound ∧ g4.cur.started = false ∧ recordsValid g4 g4.cur = true ∧
    g4.cur.place.gang = [] ∧ g4.region? g4.cur.tid.region = some r ∧ r.rcb.dmap = 0#64 ∧ r.rcb.cbank = 0#64 ∧ r.clk = placedRegion.clk ∧
    g4.cur.lateRegs = [] ∧ g4.cur.lateFlags = 0#64 ∧ g4.cur.everHeld = false ∧ g4.cur.lost = false ∧ g4.mySlot.owner = none ∧
    g4.cur.place.die = 0 ∧ coveredApplied g5 0 = true ∧ saveArea g4 g4.cur.tid + 0x3F0 = 0x13F0) ∧
    AtHome g5 g4.cur.deviceCtx .write k0 0x13F0 8 ∧ Distinct k0 0x13F0 8 :=
  ⟨{ placedRegion with squares := [(0, 0)], code := .bound, boundAt := 3000 }, by decide, atHome_of g5_paged (by decide) (by decide) _ (by decide), distinct_of (by decide)⟩

/-! ### Errors, host commands, steps -/

/-- `s1` whose next instruction reads a5, 8 I64 elements in granules 0 and 1, under a mask that leaves out those of granule 1. -/
def m0 : State :=
  let s := s1.setMySlot { s1.mySlot with arr := { s1.mySlot.arr with
    masks := listSet s1.mySlot.arr.masks 0 { MaskReg.reset with bits := [true, true, true, true, false, false, false, false] } } }
  withCur (fun t => { t with convoy := [.aabs 3#5 5#5 1#3 7#3] })
    (withArr 5 { ArrReg.reset with ty := 6#4, ext := [8], isEmpty := false, gran := [Granule.zero, Granule.zero] } s)
theorem hyp_ErrorSteps_units : errorAt s1.fw 0 .l2 (sliceOf s1.fw 0 0x2000) 0x2000 = true ∧
    errorAt s1.fw 0 .channel (channelOf s1.fw 0 (0x2000 / 128)) 0x2000 = true ∧ errorAt s1.fw 0 .bank 0 0 = true ∧
    errorAt s1.fw 0 .core 31 0 = true ∧ maskedIn s1 0 0 0 = none ∧
    errorAt m0.fw 0 .bank 0 1 = true ∧ maskedIn m0 0 0 0 = none ∧ maskedIn m0 0 0 1 = some m0.cur.tid := by decide
theorem hyp_ErrorSteps : locate s1.fw 0x2000 = .here 0x2000 ∧
    (let r := ((s1.core 0 0).slot 0).arr.regs.getD 5 ArrReg.reset; r.sbase.toNat ≤ 1024 * (0 % 64) + 0 ∧ 1024 * (0 % 64) + 0 - r.sbase.toNat < r.gran.length) ∧
    (31 ∈ workingCores s1 0 ∧ threadsOnCore s1 0 31 = [] ∧ spSorted s1.dies = true) ∧
    ((s1.die 0).stopped = false ∧ s1.cur.status = .bound ∧ s1.cur.place.die = 0) ∧
    ((inDie (fun x => { x with stopped := true }) s1).die 0).stopped = true ∧ ({ s1 with powered := false } : State).powered = false :=
  ⟨by decide, by decide, by decide, by decide, by decide, by decide⟩
theorem h1_heard : Heard s1 (hdr5 0#16) := ⟨by decide, by decide, by decide, by decide, by decide, fun h => absurd h (by decide)⟩
/-- `s1` with no region. -/
def n1 : State := { s1 with regions := [] }
theorem n1_paged : Paged n1 := paged_of (by decide)
theorem hyp_HostCommands_ports : Heard r1 (hdr5 0#16) ∧ portsOf r1.fw ((hdr5 0#16).src.toNat % 4096) ≠ [] ∧ r1.stores = [] :=
  ⟨⟨by decide, by decide, by decide, by decide, by decide, fun h => absurd h (by decide)⟩, by decide, by decide⟩
/-- `r1` with a record of the partition at 0x2000 and an empty list of patches at 0x4000; and with host 5 the secure host, and
a region of the secure world in fault domain 7. -/
def r2 : State := withBytes (listed 0x2000 (List.replicate 64 1#8) ++ listed 0x4000 (bytesOfNat 16 (2 ^ 32))) r1
def r3 : State :=
  { r1 with
    fw := { r1.fw with inForce := 2#64, secHost := 5#16 }
    regions := [{ placedRegion with id := { sec := true, rcb := 0x100#64 }, rcb := { placedRegion.rcb with fdom := 7 } }] }
def r4 : State := { r3 with fw := { r3.fw with secHost := 0xFFF#16 } }
theorem hyp_HostCommands_more : (Heard r2 (hdr5 0#16) ∧ locate r2.fw 0x2000 = .here 0x2000 ∧ (∀ i, i < 64 → r2.mem.poisoned (0x2000 + i) = false) ∧
      r2.fw.accepted.getLsbD 2 = true ∧ (0x4000#64 : Word64).toNat % 64 = 0 ∧ readPatches 0x4000 r2 = .ok (some [], r2)) ∧
    (Heard r3 (hdr5 0#16) ∧ fromSecure r3.fw (hdr5 0#16) = true) ∧
    (Heard r4 (hdr5 0#16) ∧ fromSecure r4.fw (hdr5 0#16) = false ∧
      ∃ r ∈ r4.regions, r.rcb.fdom = (7#64 : Word64).toNat ∧ r.id.sec = true) :=
  ⟨⟨⟨by decide, by decide, by decide, by decide, by decide, fun h => absurd h (by decide)⟩, by decide, clean_of (by decide) _ _, by decide,
    by decide, rfl⟩, ⟨⟨by decide, by decide, by decide, by decide, by decide, fun h => absurd h (by decide)⟩, by decide⟩,
   ⟨by decide, by decide, by decide, by decide, by decide, fun h => absurd h (by decide)⟩, by decide, by decide⟩
theorem hyp_HostCommands : Heard s1 (hdr5 0#16) ∧ locate s1.fw (0x2000#64 : Word64).toNat = .here 0x2000 ∧
    (∀ i, i < 16384 → s1.mem.poisoned (0x2000 + i) = false) ∧ s1.xwrites = [] ∧ losesDram s1.fw = false ∧
    (0#16 : BitVec 16).toNat ≤ 2046 ∧ (0xFFF#16 : BitVec 16).toNat < 4096 ∧
    (∀ t, curTable s1.fw = some t → t.gen.toNat < 2 ^ 64 - 1) ∧ curTable s1.fw = some RetTable.reset ∧ (0x2000#64 : Word64).toNat % 128 = 0 ∧
    (0x10000#64 : Word64).toNat % 65536 = 0 ∧ (0x10000#64 : Word64).toNat < 2 ^ 52 ∧
    s1.regions = [placedRegion] ∧ placedRegion.parent = none ∧ placedRegion.id = { sec := hdrSec (hdr5 0#16), rcb := 0x100#64 } ∧
    (Heard n1 (hdr5 0#16) ∧ n1.regions = []) :=
  ⟨h1_heard, by decide, clean_of (by decide) _ _, by decide, by decide, by decide, by decide, fun t ht => by cases ht; decide, by decide,
   by decide, by decide, by decide, by decide, by decide, by decide,
   ⟨by decide, by decide, by decide, by decide, by decide, fun h => absurd h (by decide)⟩, by decide⟩
/-- A root's control block at 0x800: `n1` with one thread, one core, one die, entry and save area. -/
def n2 : State := withBytes (listed 0x800 (List.replicate 0x18 0#8 ++ bytesOfNat 8 0x40000 ++ List.replicate 40 0#8 ++ bytesOfNat 8 0x1000 ++
  bytesOfNat 8 (1 + 2 ^ 32 + 2 ^ 48))) n1
theorem n2_paged : Paged n2 := paged_of (by decide)
theorem hyp_HostCommands_spawn : Heard n2 (hdr5 0#16) ∧
    (let c : Ctx := { deviceCtx 0 (regionTid { sec := hdrSec (hdr5 0#16), rcb := 0x800#64 }) with who := .firmware }
     Offered n2 c none (hdrSec (hdr5 0#16)) 0x800#64 0x800 (rcbFields (n2.mem.readN 0x800 128))) := by
  refine ⟨⟨by decide, by decide, by decide, by decide, by decide, fun h => absurd h (by decide)⟩, by decide,
    ⟨false, mapped n2_paged.toMild rfl rfl _ (.inl (by decide))⟩, ⟨false, mapped n2_paged.toMild rfl rfl _ (.inl (by decide))⟩,
    clean_of (by decide) _ _, by decide, by decide, (fun r hr => nomatch hr), by decide, by decide, by decide, by decide, by decide, rfl⟩
theorem hyp_HostCommands_own : let own := deviceCtx 0 (regionTid { sec := false, rcb := 0x800#64 })
    AtHome n2 own .write (fun a => 0x800 + (a - 0x800)) 0x800 128 ∧
    ∀ i, i < 128 → KeepsWalk n2 own (fun y => ∃ j, j < 128 ∧ y = 0x800 + j) (0x800 + i) := by
  refine ⟨fun i hi => ?_, fun i hi => keepsWalk_of n2_paged rfl (by omega) ?_⟩
  · have e : 0x800 + (0x800 + i - 0x800) = k0 (0x800 + i) := by unfold k0; rw [if_pos (by omega)]; omega
    simp only [e]
    exact atHome_of n2_paged rfl rfl _ (n := 128) (by decide) i hi
  · rintro x hx ⟨j, hj, rfl⟩
    omega
theorem hyp_DecodeWords : 0x3E0 ≤ opField 0xFC200007#32 ∧ (0xFC200007#32 : Word32).getLsbD 20 = false ∧
    (decode 0xFC200007#32 []).toOption = some { c := true, instr := .fli 1#5 7#20, len := 1 } := by decide
theorem hyp_DecodeEncode : Instr.nop.isWord = true ∧ Instr.nop.wf = true ∧
    (Instr.add .w64 3#5 5#5 (.lit 7#32)).isWord = true ∧ (Instr.add .w64 3#5 5#5 (.lit 7#32)).wf = true := by decide
theorem hyp_StepRunsDecoded : (∃ rest hold, s1.agenda = { dt := 0, who := .thread s1.cur.tid, hold := hold } :: rest) ∧ s1.powered = true ∧
    s1.cur.status = .bound ∧ s1.cur.leaving = false ∧ s1.cur.preemptDue = false ∧ s1.cur.stall = none ∧ s1.cur.trapDue s1 = false ∧ s1.cur.each = none ∧
    s1.cur.convoy = [] ∧ s1.unknownBusy = false ∧ NoLoadHeld s1 ∧ Convoy s1 [.nop] ∧
    ({ s1 with cur := { s1.cur with convoy := [.nop] } } : State).cur.convoy = .nop :: [] :=
  ⟨⟨[], false, by decide⟩, by decide, by decide, by decide, by decide, by decide, by decide, by decide, by decide, by decide, by unfold NoLoadHeld; decide, s1_convoy, rfl⟩
theorem hyp_StepKeepsMemory : Safe s1 ∧ (nextOf (step s1)).isSome = true := by unfold Safe; decide

/-! ### Single instructions, by hand from their rules -/

/-- The codes of an array register. -/
def elems (s : State) (r : Nat) : List Nat := (List.range (extProd (areg s r).ext)).map (codeAt s r)
/-- Register `d` after an instruction that finds `x` in s5 and `y` in s6. -/
def resultOf (i : Instr) (x y : Word64) : Word64 := (did i (put 6#5 y (put 5#5 x s1))).cur.reg 7#5
/-- R140: results wrap at the width and are sign-extended; shift counts are taken modulo the width. -/
theorem test_integer : resultOf (.add .w8 7#5 5#5 (.reg 6#5)) 0x7F#64 1#64 = 0xFFFFFFFFFFFFFF80#64 ∧
    resultOf (.sub .w64 7#5 5#5 (.lit 0xFFFFFFFE#32)) 1#64 0#64 = 3#64 ∧ resultOf (.mulh false .w64 7#5 5#5 (.reg 6#5)) (-1#64) (-1#64) = 0#64 ∧
    resultOf (.mulh true .w8 7#5 5#5 (.reg 6#5)) 0xFF#64 0xFF#64 = 0xFFFFFFFFFFFFFFFE#64 ∧
    resultOf (.shl .w16 7#5 5#5 (.reg 6#5)) 3#64 30#64 = 0xFFFFFFFFFFFFC000#64 ∧ resultOf (.shr true .w32 7#5 5#5 (.reg 6#5)) 0x80000000#64 4#64 = 0xFFFFFFFFF8000000#64 ∧
    resultOf (.min true .w64 7#5 5#5 (.reg 6#5)) (-1#64) 1#64 = 1#64 ∧ resultOf (.max false .w64 7#5 5#5 (.reg 6#5)) (-1#64) 1#64 = 1#64 ∧
    resultOf (.cnt .clz .w16 7#5 5#5) 1#64 0#64 = 15#64 ∧ resultOf (.cnt .ctz .w32 7#5 5#5) 0#64 0#64 = 32#64 := by decide
/-- R141: the most negative number over −1 wraps; a zero divisor gives 0, the remainder the dividend, and DZ. -/
theorem test_division : resultOf (.div false .w32 7#5 5#5 (.reg 6#5)) 0x80000000#64 (-1#64) = 0xFFFFFFFF80000000#64 ∧
    resultOf (.rem false .w64 7#5 5#5 (.reg 6#5)) (-7#64) 2#64 = -1#64 ∧ resultOf (.div true .w64 7#5 5#5 (.reg 6#5)) 9#64 0#64 = 0#64 ∧
    resultOf (.rem true .w64 7#5 5#5 (.reg 6#5)) 9#64 0#64 = 9#64 ∧
    (did (.div true .w64 7#5 5#5 (.reg 6#5)) (put 6#5 0#64 s1)).cur.csr.flags = 16#64 := by decide
/-- R142, R147, R139: immediates; s0 discards. -/
theorem test_immediates : resultOf (.addi 7#5 5#5 0x7FF#11) 5#64 0#64 = 4#64 ∧ resultOf (.lui 7#5 0x8000#16) 0#64 0#64 = 0xFFFFFFFF80000000#64 ∧
    resultOf (.fli 7#5 0x3F800#20) 0#64 0#64 = 0x3F800000#64 ∧ (did (.addi 0#5 5#5 1#11) s1).cur.reg 0#5 = 0#64 := by decide
/-- R145: 1 + 2 = 3, 1/0 is infinity with DZ, and 0 · ∞ is the canonical NaN with NV. -/
theorem test_floating : resultOf (.fadd .f32 7#5 5#5 (.reg 6#5)) 0x3F800000#64 0x40000000#64 = 0x40400000#64 ∧
    resultOf (.fdiv .f32 7#5 5#5 (.reg 6#5)) 0x3F800000#64 0#64 = 0x7F800000#64 ∧
    resultOf (.fmul .f32 7#5 5#5 (.reg 6#5)) 0#64 0x7F800000#64 = 0x7FC00000#64 ∧
    resultOf (.fcmp .lt .bf16 7#5 5#5 (.reg 6#5)) 0xBF80#64 0#64 = 1#64 ∧ resultOf (.fcvt .s2b 7#5 5#5) 0x3F808000#64 0#64 = 0x3F80#64 := by decide
/-- R5, R143: the lowest byte lies at the lowest address; loads extend the sign. -/
theorem test_memory : let s := did (.stw 6#5 5#5 0#11) (put 6#5 0x11223384#64 (put 5#5 0x7FFE#64 s1))
    (s.mem.readN 0x7FFE 4 = [0x84#8, 0x33#8, 0x22#8, 0x11#8] ∧ (did (.ldb 7#5 5#5 0#11) s).cur.reg 7#5 = 0xFFFFFFFFFFFFFF84#64 ∧
      (did (.ldh 7#5 5#5 1#11) s).cur.reg 7#5 = 0x2233#64) := by decide
/-- R148: offsets count words from the branch. -/
theorem test_branch : (did (.beq 0#5 0#5 1#11) s1).cur.pc = 0x40004#64 ∧ (did (.bne 0#5 0#5 0x7FF#11) s1).cur.pc = 0x40004#64 ∧
    (did (.jal 0#21) s1).cur.reg 31#5 = 0x40004#64 ∧ (did (.jal 0#21) s1).cur.pc = 0x40000#64 := by decide
/-- R151: MODE keeps 7 bits; `csrs` sets those that are 1. -/
theorem test_csr : (did (.csrw 5#5 0#16) (put 5#5 0xFFFF#64 s1)).cur.csr.mode = 0x7F#64 ∧
    (did (.csrs 5#5 1#16) (withCsr { s1.cur.csr with flags := 4#64 } s1)).cur.csr.flags = 7#64 := by decide
/-- R153, R155: `ecall` goes to TVEC, TPC the word after it, TCAUSE INH and 0x0C; `tret` comes back. -/
theorem test_traps : let s := did .ecall s3
    (s.cur.pc = 0x40000#64 ∧ s.cur.csr.tpc = 0x40004#64 ∧ s.cur.csr.tcause = 0x1000C#64 ∧ (did .tret s).cur.pc = 0x40004#64 ∧
      (did .tret s).cur.csr.tcause = 0xC#64) := by decide
/-- R117, R122, R194: a convoy of an `ashapep` and its block starts, and the instruction runs. -/
def shapeCode : State :=
  let w := (0x80000000#32 ++ 0#32 ++ 0#32 ++ 0x00030002#32 ++ 0x20000000#32 ++ (1#1 ++ 0x104#10 ++ 3#5 ++ 5#5 ++ 0#5 ++ 0#3 ++ 7#3)).toNat
  { s1 with mem := s1.mem.writeN s1.cur.pc.toNat (bytesOfNat 24 w) }
theorem test_ashapep : let s := did .convoyStart shapeCode
    let i := Instr.ashapep 3#5 5#5 { shapeBlock with rank := 2#4, x0 := 3#16, x1 := 2#16 }
    (s.cur.convoy = [i] ∧ elems (did i s) 3 = [3, 1, 4, 1, 3, 1]) := by decide
/-- R169: element-wise on [3, 1, 4, 1] and [2, 7, 1, 8]; a scalar pairs with every element. -/
theorem test_elementwise : elems (did (.aadd (.arr 9#5) 3#5 5#5 0#3 7#3) s1) 3 = [5, 8, 5, 9] ∧
    elems (did (.asub (.arr 9#5) 3#5 5#5 0#3 7#3) s1) 3 = [1, 0xFFFFFFFA, 3, 0xFFFFFFF9] ∧
    elems (did (.amax (.arr 9#5) 3#5 5#5 0#3 7#3) s1) 3 = [3, 7, 4, 8] ∧ elems (did (.amul (.sca 5#5) 3#5 5#5 0#3 7#3) s1) 3 = [9, 3, 12, 3] ∧
    elems (did (.aclt (.arr 9#5) 3#5 5#5 0#3 7#3) s1) 3 = [0, 1, 0, 1] ∧ elems (did (.ashl (.lit 4#32) 3#5 5#5 0#3 7#3) s1) 3 = [48, 16, 64, 16] := by decide
/-- R195 to R199: folds and moves of [3, 1, 4, 1]; s5 = 3. -/
theorem test_structural : elems (did (.aredsum 3#5 5#5 0#3 7#3) s1) 3 = [9] ∧ elems (did (.ascansum 3#5 5#5 0#3 7#3) s1) 3 = [3, 4, 8, 9] ∧
    elems (did (.agrade 3#5 5#5 7#3) s1) 3 = [1, 3, 0, 2] ∧ elems (did (.arev 3#5 5#5 0#3 7#3) s1) 3 = [1, 4, 1, 3] ∧
    elems (did (.atake 3#5 5#5 (.sca 5#5) 7#3) s1) 3 = [3, 1, 4] ∧ elems (did (.adrop 3#5 5#5 (.sca 5#5) 7#3) s1) 3 = [1] ∧
    elems (did (.acat 3#5 5#5 9#5 0#3 7#3) s1) 3 = [3, 1, 4, 1, 2, 7, 1, 8] ∧ elems (did (.aiota 3#5 (.sca 5#5)) s1) 3 = [0, 1, 2] ∧
    elems (did (.amembr 3#5 5#5 9#5 0#3 7#3) s1) 3 = [0, 1, 0, 1] ∧ elems (did (.unknownSizeComplete placedTid) (did (.aidxof 3#5 5#5 9#5 0#3 7#3) s1)) 3 = [4, 4, 1, 4] := by decide
/-- R353: an atomic add gives the old value and stores the sum; an exchange stores its operand. -/
theorem test_atomics : let s := put 7#5 0x100#64 (put 6#5 5#64 (put 5#5 0x8000#64 (withBytes [(0x8000, 0xFE#8)] s1)))
    ((did (.amo .add .w32 7#5 5#5 (.reg 6#5)) s).mem.readN 0x8000 4 = [3#8, 1#8, 0#8, 0#8] ∧
      (did (.amo .add .w32 7#5 5#5 (.reg 6#5)) s).cur.reg 7#5 = 0xFE#64 ∧
      (did (.amo .xchg .w32 7#5 5#5 (.reg 6#5)) s).mem.readN 0x8000 1 = [5#8]) := by decide

end Slice0Tests
end

section
/-!
PROOFS. Errors, failed cores, thermal stops and power (R22, R23, R398, R402, R404, R405). First an invariant through a piece that
answers, and through every access by which the device posts a record; then one lemma for each step.
-/
namespace Sys2Proof.Machine
open Sys2Proof.Claim

/-! ### Invariants through a piece that answers -/

/-- A piece that answers leaves `P` true where it was. -/
def Carries (P : State → Prop) {α : Type} (x : Exec α) : Prop := ∀ s, P s → ∀ a t, x s = .ok (a, t) → P t

section
variable {P : State → Prop} {α β : Type}

theorem carries_pure (a : α) : Carries P (pure a : Exec α) := by
  rintro s hs b t ⟨⟩
  exact hs
theorem carries_bind {x : Exec α} {f : α → Exec β} (hx : Carries P x) (hf : ∀ a, Carries P (f a)) :
    Carries P (x >>= f) := by
  intro s hs b u h
  obtain ⟨a, t, h1, h2⟩ := bind_inv h
  exact hf a t (hx s hs a t h1) b u h2
/-- `get`, and then something that may use what was read. -/
theorem carries_get_bind {f : State → Exec β} (hf : ∀ s, P s → Carries P (f s)) : Carries P (get >>= f) :=
  fun s hs => hf s hs s hs
theorem carries_get : Carries P (get : Exec State) := by
  rintro s hs b t ⟨⟩
  exact hs
theorem carries_set {u : State} (h : P u) : Carries P (set u : Exec PUnit) := by
  rintro s - b t ⟨⟩
  exact h
theorem carries_modify {f : State → State} (h : ∀ s, P s → P (f s)) : Carries P (modify f : Exec PUnit) := by
  rintro s hs b t ⟨⟩
  exact h s hs
theorem carries_stop (e : Exc) : Carries P (stop e : Exec α) := fun _ _ _ _ h => nomatch h
theorem carries_trapNow (c : Nat) (v : Word64) : Carries P (trapNow c v : Exec α) := carries_stop _
theorem carries_stopKeep_bind (e : Exc) (f : α → Exec β) : Carries P (stopKeep e >>= f) := fun _ _ _ _ h => nomatch h
theorem carries_check (c : Bool) (e : Exc) : Carries P (check c e) := by
  unfold check; split
  · exact carries_pure _
  · exact carries_stop _
theorem carries_whenB {c : Bool} {x : Exec Unit} (h : c = true → Carries P x) : Carries P (whenB c x) := by
  unfold whenB; split
  · next hc => exact h hc
  · exact carries_pure _
theorem carries_ite {p : Prop} [Decidable p] {x y : Exec α} (hx : Carries P x) (hy : Carries P y) :
    Carries P (if p then x else y) := by
  split
  · exact hx
  · exact hy
theorem carries_attempt {x : Exec α} (h : Carries P x) : Carries P (attempt x) := by
  intro s hs a t ht
  unfold attempt at ht
  split at ht
  · next b u hx => cases ht; exact h s hs b _ hx
  · cases ht; exact hs
theorem carries_forEach {f : α → Exec Unit} (l : List α) (h : ∀ a, Carries P (f a)) : Carries P (forEach l f) := by
  induction l with
  | nil => exact carries_pure _
  | cons a r ih => exact carries_bind (h a) fun _ => ih
theorem carries_mapEach {f : α → Exec β} (l : List α) (h : ∀ a, Carries P (f a)) : Carries P (mapEach l f) := by
  induction l with
  | nil => exact carries_pure _
  | cons a r ih => exact carries_bind (h a) fun _ => carries_bind ih fun _ => carries_pure _
theorem carries_foldEach {f : β → α → Exec β} (l : List α) (b : β) (h : ∀ b a, Carries P (f b a)) :
    Carries P (foldEach l b f) := by
  induction l generalizing b with
  | nil => exact carries_pure _
  | cons a r ih => exact carries_bind (h b a) fun c => ih c

/-- `attempt` always answers. -/
theorem attempt_answers (x : Exec α) (s : State) : ∃ a t, attempt x s = .ok (a, t) := by
  unfold attempt
  cases x s <;> exact ⟨_, _, rfl⟩
/-- A loop of which every round answers and keeps `P` answers with `P`. -/
theorem forEach_answers {f : α → Exec Unit} (l : List α) {s : State} (hs : P s)
    (h : ∀ a ∈ l, ∀ s, P s → ∃ t, f a s = .ok ((), t) ∧ P t) : ∃ t, forEach l f s = .ok ((), t) ∧ P t := by
  induction l generalizing s with
  | nil => exact ⟨s, rfl, hs⟩
  | cons a r ih =>
    obtain ⟨t, ht, hp⟩ := h a List.mem_cons_self s hs
    obtain ⟨u, hu, hq⟩ := ih hp fun b hb => h b (List.mem_cons_of_mem _ hb)
    exact ⟨u, (bind_ok ht).trans hu, hq⟩
/-- Two pieces in a row that answer, the second from wherever the first may lead. -/
theorem bind_answers {x : Exec Unit} {f : Unit → Exec Unit} {s : State} {Q : State → Prop}
    (hx : ∃ t, x s = .ok ((), t) ∧ P t) (hf : ∀ t, P t → ∃ v, f () t = .ok ((), v) ∧ Q v) :
    ∃ v, (x >>= f) s = .ok ((), v) ∧ Q v := by
  obtain ⟨t, ht, hp⟩ := hx
  rw [bind_ok ht]
  exact hf t hp
theorem modify_answers {f : State → State} {s : State} (h : P (f s)) :
    ∃ t, (modify f : Exec Unit) s = .ok ((), t) ∧ P t := ⟨f s, rfl, h⟩
end

/-! ### Tables -/

/-- What each listed value has to its image under a map, the value read at a key has, if the default has it to itself. -/
theorem spGet_map {α : Type} {R : α → α → Prop} {d : α} {l m : Sparse α} {f : Nat × α → Nat × α} (hm : m = l.map f)
    (hd : R d d) (hf : ∀ p, (f p).1 = p.1 ∧ R p.2 (f p).2) (k : Nat) : R (spGet d l k) (spGet d m k) := by
  subst hm
  induction l with
  | nil => exact hd
  | cons p r ih =>
    obtain ⟨hk, hv⟩ := hf p
    have image : f p = (p.1, (f p).2) := by rw [← hk]
    rw [List.map_cons, image]
    simp only [spGet]
    split
    · exact hv
    · split
      · exact hd
      · exact ih
/-- A field of a die that a map over the dies leaves to each. -/
theorem State.die_map_field {α : Type} (field : DieSt → α) {s t : State} {f : Nat × DieSt → Nat × DieSt}
    (ht : t.dies = s.dies.map f) (hf : ∀ p, (f p).1 = p.1 ∧ field (f p).2 = field p.2) (d : Nat) :
    field (t.die d) = field (s.die d) :=
  spGet_map (R := fun x y => field y = field x) (d := DieSt.reset) ht rfl hf d
theorem listSet_getD_same {α : Type} (l : List α) {i : Nat} (v e : α) (h : i < l.length) : (listSet l i v).getD i e = v := by
  induction l generalizing i with
  | nil => cases h
  | cons x r ih =>
    cases i with
    | zero => rfl
    | succ i => simpa [listSet] using ih (Nat.lt_of_succ_lt_succ h)

/-! ### A thread that stands, beside a core that has failed -/

/-- The current thread is `c`, and core `u` of die `d` has failed. -/
def Stands (c : Thread) (d u : Nat) (s : State) : Prop := s.cur = c ∧ u ∈ (s.die d).deadCores

section
variable {c : Thread} {d u : Nat} {s t : State}

theorem Stands.of_dies (h : Stands c d u s) (hc : t.cur = s.cur) (hd : t.dies = s.dies) : Stands c d u t :=
  ⟨hc.trans h.1, by have h2 := h.2; unfold State.die at *; rwa [hd]⟩
theorem Stands.of_deadCores (h : Stands c d u s) (hc : t.cur = s.cur)
    (hd : (t.die d).deadCores = (s.die d).deadCores) : Stands c d u t :=
  ⟨hc.trans h.1, hd ▸ h.2⟩
theorem Stands.setDie (h : Stands c d u s) {e : Nat} {x : DieSt} (hx : x.deadCores = (s.die e).deadCores) :
    Stands c d u (s.setDie e x) := by
  refine h.of_deadCores rfl ?_
  by_cases he : d = e
  · subst he; rw [State.die_setDie_same, hx]
  · rw [State.die_setDie_other _ _ he]
theorem Stands.caches (h : Stands c d u s) (hs : SameButCaches s t) : Stands c d u t := by
  have hd : (coldDie (t.die d)).deadCores = (coldDie (s.die d)).deadCores := congrArg DieSt.deadCores (hs.2 d).1
  refine h.of_deadCores ?_ hd
  rw [← hs.1]
theorem Stands.foldl {α : Type} {f : State → α → State} (hf : ∀ s a, Stands c d u s → Stands c d u (f s a))
    (l : List α) (h : Stands c d u s) : Stands c d u (l.foldl f s) := by
  induction l generalizing s with
  | nil => exact h
  | cons a r ih => exact ih (hf s a h)

@[simp] theorem DieSt.owe_deadCores (x : DieSt) (n : Nat) : (x.owe n).deadCores = x.deadCores := by
  unfold DieSt.owe; split <;> rfl
@[simp] theorem DieSt.setClock_deadCores (x : DieSt) (vc : List Word32) (n : Nat) :
    (x.setClock vc n).deadCores = x.deadCores := by
  unfold DieSt.setClock; split
  · rfl
  · rw [DieSt.owe_deadCores]

/-! ### What an access of the device leaves -/

theorem carries_drawNo : Carries (Stands c d u) drawNo := by
  rintro s hs b t ⟨⟩
  exact hs
theorem carries_translation (x : Ctx) (va : Nat) : Carries (Stands c d u) (translation x va) := by
  unfold translation
  refine carries_bind carries_get fun s => ?_
  dsimp only
  split
  · split
    · exact carries_pure _
    · exact carries_bind carries_drawNo fun _ => carries_pure _
  · split
    · exact carries_bind (carries_modify fun s hs => hs.caches (.tlbFill _ _ s)) fun _ => carries_pure _
    · exact carries_pure _
theorem carries_translate (x : Ctx) (acc : Acc) (va : Word64) : Carries (Stands c d u) (translate x acc va) := by
  unfold translate
  refine carries_bind (carries_check _ _) fun _ => carries_bind carries_get fun _ => carries_bind (carries_check _ _) fun _ =>
    carries_bind (carries_check _ _) fun _ => carries_bind (carries_translation _ _) fun r => ?_
  split
  · exact carries_stop _
  · exact carries_trapNow _ _
  · exact carries_stop _
  · exact carries_stop _
  · refine carries_bind carries_get fun s => ?_
    dsimp only
    refine carries_bind (carries_check _ _) fun _ => carries_bind (carries_check _ _) fun _ =>
      carries_bind (carries_check _ _) fun _ => ?_
    split
    · exact carries_trapNow _ _
    · exact carries_bind (carries_check _ _) fun _ => carries_pure _
    · exact carries_bind (carries_check _ _) fun _ => carries_bind (carries_check _ _) fun _ =>
        carries_bind (carries_check _ _) fun _ => carries_pure _
theorem carries_touchLine (x : Ctx) (line : Nat) (w : Bool) : Carries (Stands c d u) (touchLine x line w) := by
  intro s hs a t ht
  obtain ⟨v, hv, hc⟩ := touchLine_run x line w s
  rw [hv] at ht
  cases ht
  exact hs.caches hc
theorem stands_homeTouched (x : Ctx) (line : Nat) (s : State) (hs : Stands c d u s) :
    Stands c d u (homeTouched x line s) := hs.setDie rfl
theorem carries_hearClock (e h : Nat) : Carries (Stands c d u) (hearClock e h) :=
  carries_modify fun _ hs => hs.setDie (DieSt.setClock_deadCores _ _ _)
theorem carries_copyFor (x : Ctx) (line : Nat) : Carries (Stands c d u) (copyFor x line) := by
  unfold copyFor
  refine carries_bind carries_get fun s => ?_
  split
  · exact carries_pure _
  · exact carries_bind carries_get fun _ => carries_bind (carries_modify fun s hs => hs.setDie rfl) fun _ =>
      carries_bind (carries_modify (stands_homeTouched _ _)) fun _ => carries_bind (carries_hearClock _ _) fun _ =>
      carries_pure _
theorem carries_readHome (x : Ctx) (key n : Nat) : Carries (Stands c d u) (readHome x key n) := by
  unfold readHome
  refine carries_bind carries_get fun s => carries_bind (carries_check _ _) fun _ =>
    carries_bind (carries_touchLine _ _ _) fun _ =>
    carries_bind (carries_whenB fun _ => carries_modify (stands_homeTouched _ _)) fun _ => ?_
  dsimp only
  split
  · exact carries_bind (carries_modify fun s hs => hs.setDie rfl) fun _ => carries_bind (carries_hearClock _ _) fun _ =>
      carries_pure _
  · exact carries_pure _
theorem carries_readLine (x : Ctx) (key n : Nat) (msa : Bool) : Carries (Stands c d u) (readLine x key n msa) := by
  unfold readLine
  refine carries_bind carries_get fun s => ?_
  split
  · exact carries_pure _
  · split
    · exact carries_readHome _ _ _
    · split
      · exact carries_bind (carries_touchLine _ _ _) fun _ => carries_pure _
      · exact carries_bind (carries_copyFor _ _) fun _ => carries_bind (carries_touchLine _ _ _) fun _ => carries_pure _
theorem carries_remoteAsk (x : Ctx) (q : LinkReq) : Carries (Stands c d u) (remoteAsk x q) := by
  unfold remoteAsk
  refine carries_bind carries_get fun s => ?_
  split
  · split
    · exact carries_pure _
    · exact carries_stop _
  · exact carries_stop _
theorem carries_waitRefresh (x : Ctx) (key : Nat) : Carries (Stands c d u) (waitRefresh x key) :=
  carries_bind carries_get fun _ => carries_check _ _
theorem carries_waitInserts (x : Ctx) (key n : Nat) : Carries (Stands c d u) (waitInserts x key n) :=
  carries_bind carries_get fun _ => carries_check _ _
theorem carries_waitShares (x : Ctx) (key n : Nat) : Carries (Stands c d u) (waitShares x key n) :=
  carries_bind carries_get fun _ => carries_check _ _
theorem carries_freeBytes (n : Nat) : Carries (Stands c d u) (freeBytes n) :=
  carries_mapEach _ fun _ => carries_bind carries_drawNo fun _ => carries_pure _
theorem carries_needPages (x : Ctx) (acc : Acc) (ws : Bool) (f va n : Nat) (pm : PageMap) :
    Carries (Stands c d u) (needPages x acc ws f va n pm) := by
  induction f generalizing va n pm with
  | zero => exact carries_pure _
  | succ f ih =>
    unfold needPages
    split
    · exact carries_pure _
    · split
      · exact carries_trapNow _ _
      · dsimp only
        split
        · exact carries_bind (carries_pure _) fun _ => ih _ _ _
        · exact carries_bind (carries_translate _ _ _) fun _ => carries_bind (carries_check _ _) fun _ =>
            carries_bind (carries_pure _) fun _ => ih _ _ _

theorem stands_landBytes (key : Nat) (b : List Byte) (bad : List Nat) (hs : Stands c d u s) :
    Stands c d u (landBytes key b bad s) := hs.of_dies rfl rfl
theorem stands_hearBeacon (e : Nat) (own : Word32) (applied : List Word32) (s : State) (j : Nat) (hs : Stands c d u s) :
    Stands c d u (hearBeacon e own applied s j) := hs.setDie (by split <;> simp)
theorem stands_beaconFrom (s : State) (e : Nat) (hs : Stands c d u s) : Stands c d u (beaconFrom s e) :=
  Stands.setDie (hs.foldl (stands_hearBeacon _ _ _) _) rfl
theorem stands_beaconAll (hs : Stands c d u s) : Stands c d u (beaconAll s) := hs.foldl stands_beaconFrom _
theorem stands_stampHome (e h : Nat) (stamp : List Word32) (hs : Stands c d u s) :
    Stands c d u (stampHome e h stamp s) :=
  (hs.setDie (by simp)).setDie (by simp)
theorem stands_writeHome (e : Nat) (p : State × Bool) (w : Nat × List Byte × List Nat) (hs : Stands c d u p.1) :
    Stands c d u (writeHome e p w).1 := by
  refine stands_landBytes _ _ _ (Stands.setDie ?_ rfl)
  have told : Stands c d u (if atomReady p.1 e w.1 false then p.1 else beaconAll p.1) := by
    split
    · exact hs
    · exact stands_beaconAll hs
  split
  · exact told
  · exact stands_stampHome _ _ _ told
theorem stands_writeHomes (e : Nat) (l : List (Nat × List Byte × List Nat)) (p : State × Bool) (hs : Stands c d u p.1) :
    Stands c d u (l.foldl (writeHome e) p).1 := by
  induction l generalizing p with
  | nil => exact hs
  | cons w r ih => exact ih _ (stands_writeHome _ _ _ hs)
theorem stands_dropLines (p : Nat → Bool) (hs : Stands c d u s) : Stands c d u (s.dropLines p) :=
  hs.of_deadCores rfl
    (State.die_map_field DieSt.deadCores (s := s) (t := s.dropLines p) rfl (fun _ => ⟨rfl, rfl⟩) d)
theorem stands_performWrite (e : Nat) (t : Option Tid) (key : Nat) (b : List Byte) (bad : List Nat) (msa : Bool)
    (hs : Stands c d u s) : Stands c d u (performWrite e t key b bad msa s) := by
  have noted := hs.caches (.noteRank s e s.cycle key)
  unfold performWrite
  dsimp only
  split
  · exact stands_landBytes _ _ _ (noted.caches (.dropShared _ _ _ _))
  · exact (noted.setDie (by split <;> simp)).of_dies rfl rfl
theorem carries_writeLine (x : Ctx) (key : Nat) (b : List Byte) (bad : List Nat) (msa : Bool) :
    Carries (Stands c d u) (writeLine x key b bad msa) :=
  carries_bind carries_get fun _ => carries_bind (carries_check _ _) fun _ =>
    carries_bind (carries_whenB fun _ => carries_touchLine _ _ _) fun _ =>
    carries_modify fun _ hs => stands_performWrite _ _ _ _ _ _ hs

/-- An access that goes to the place of its line is not held back. -/
theorem holdsWrite_home {x : Ctx} (hv : x.via = .home) (s : State) (key : Nat) : holdsWrite s x key = false := by
  simp [holdsWrite, hv]

/-! ### What an access that is not of a thread's own instruction leaves -/

variable {x : Ctx} (own : x.own = false)
include own

theorem carries_readPiece (a k : Nat) (y : Xlat) : Carries (Stands c d u) (readPiece x a k y) := by
  unfold readPiece
  split
  · exact carries_trapNow _ _
  · dsimp only
    refine carries_bind (carries_remoteAsk _ _) fun r => ?_
    split
    · exact carries_pure _
    · exact carries_trapNow _ _
  · refine carries_bind (carries_waitRefresh _ _) fun _ => carries_bind (carries_waitInserts _ _ _) fun _ =>
      carries_bind (carries_whenB fun h => by simp [own] at h) fun _ => carries_bind (carries_waitShares _ _ _) fun _ =>
      carries_bind (carries_readLine _ _ _ _) fun r => carries_bind carries_get fun s => ?_
    split
    · exact carries_bind (carries_freeBytes _) fun _ => carries_pure _
    · exact carries_pure _
theorem carries_readBytes (pm : PageMap) (va n : Nat) : Carries (Stands c d u) (readBytes x pm va n) :=
  carries_foldEach _ _ fun _ _ => carries_bind carries_get fun _ => carries_bind (carries_readPiece own _ _ _) fun _ =>
    carries_pure _
theorem carries_writeThrough (l : List (Nat × List Byte × List Nat)) : Carries (Stands c d u) (writeThrough x l) := by
  unfold writeThrough
  refine carries_bind (carries_forEach _ fun w => carries_bind (carries_waitRefresh _ _) fun _ =>
    carries_bind (carries_waitInserts _ _ _) fun _ => carries_bind (carries_whenB fun h => by simp [own] at h) fun _ =>
    carries_waitShares _ _ _) fun _ => carries_get_bind fun s hs => carries_bind (carries_check _ _) fun _ =>
    carries_set (stands_dropLines _ (stands_writeHomes _ _ _ hs))
theorem carries_writePiece (hv : x.via = .home) (a : Nat) (y : Xlat) (b : List Byte) (bad : List Nat) :
    Carries (Stands c d u) (writePiece x a y b bad) := by
  unfold writePiece
  split
  · exact carries_trapNow _ _
  · refine carries_bind (carries_remoteAsk _ _) fun r => ?_
    split
    · exact carries_pure _
    · exact carries_trapNow _ _
  · refine carries_bind (carries_waitRefresh _ _) fun _ => carries_bind (carries_waitInserts _ _ _) fun _ =>
      carries_bind (carries_waitShares _ _ _) fun _ => carries_bind carries_get fun s => ?_
    rw [holdsWrite_home hv, if_neg (by decide)]
    exact carries_bind (carries_whenB fun h => by simp [own] at h) fun _ => carries_writeLine _ _ _ _ _
theorem carries_writeFar (hv : x.via = .home) (l : List Run) : Carries (Stands c d u) (writeFar x l) := by
  unfold writeFar
  split
  · exact carries_pure _
  · exact carries_writePiece own hv _ _ _ _
  · refine carries_bind (carries_remoteAsk _ _) fun r => ?_
    split
    · exact carries_pure _
    · exact carries_trapNow _ _
theorem carries_writeTable (hv : x.via = .home) (pm : PageMap) (t : Sparse ByteBits) :
    Carries (Stands c d u) (writeTable x pm t) := by
  unfold writeTable
  refine carries_bind (carries_mapEach _ fun r => carries_bind carries_get fun _ => ?_) fun runs => ?_
  · dsimp only
    split
    · exact carries_bind (carries_readPiece own _ _ _) fun _ => carries_bind (carries_pure _) fun _ => carries_pure _
    · exact carries_bind (carries_pure _) fun _ => carries_pure _
  · refine carries_bind (carries_forEach _ (carries_writeFar own hv)) fun _ => ?_
    rw [if_pos hv]
    exact carries_writeThrough own _

/-! ### A record posted by the device (R362, R363) -/

theorem carries_readHeader (evq : Nat) : Carries (Stands c d u) (readHeader x evq) := by
  have home : x.atHome.own = false := own
  unfold readHeader
  refine carries_bind (carries_needPages _ _ _ _ _ _ _) fun pm => carries_bind carries_get fun s =>
    carries_bind (carries_check _ _) fun _ => carries_bind (carries_readBytes home _ _ _) fun r => ?_
  dsimp only
  split
  · exact carries_bind (carries_trapNow _ _) fun _ => carries_ite (carries_pure _) (carries_pure _)
  · exact carries_bind (carries_pure _) fun _ => carries_ite (carries_pure _) (carries_pure _)
theorem carries_pushRecord (evq : Nat) (rec : List Byte) : Carries (Stands c d u) (pushRecord x evq rec) := by
  have write : ∀ pm t, Carries (Stands c d u) (writeTable x.atHome pm t) :=
    carries_writeTable (x := x.atHome) own rfl
  unfold pushRecord
  refine carries_bind (carries_readHeader own _) fun r => ?_
  split
  · exact carries_pure _
  · refine carries_bind (carries_needPages _ _ _ _ _ _ _) fun _ => carries_bind (carries_needPages _ _ _ _ _ _ _) fun pm => ?_
    exact carries_ite (carries_bind (carries_modify fun _ hs => hs.of_dies rfl rfl) fun _ => carries_stopKeep_bind _ _)
      (carries_bind carries_get fun _ => carries_ite (write _ _) (carries_bind (write _ _) fun _ => write _ _))
theorem carries_postRecord (rec : List Byte) : Carries (Stands c d u) (postRecord x rec) := by
  unfold postRecord
  refine carries_bind carries_get fun s => ?_
  split
  · exact carries_pure _
  · split
    · exact carries_pure _
    · refine carries_bind (carries_check _ _) fun _ =>
        carries_bind (carries_attempt (carries_pushRecord own _ _)) fun r => ?_
      split
      · exact carries_pure _
      · exact carries_pure _
      · exact carries_stop _
end

/-! ### The error log and the marks of the retirement table (R402, R403, R405) -/

section
variable (s : State) (d cls : Nat) (k : UnitKind) (u pa : Nat)

@[simp] theorem logError_cur : (logError s d cls k u pa).cur = s.cur := by
  unfold logError; dsimp only; split <;> rfl
/-- Of its die, an error logged changes the log and the counts alone. -/
theorem logError_die : ∃ log old, (logError s d cls k u pa).die d = { s.die d with
    errSeq := (s.die d).errSeq + 1, errLog := log
    errs := { cls := cls, kind := k, unit := u, count := min (errCount (s.die d) cls k u + 1) 0xFFFFFFFF } :: old } := by
  unfold logError
  dsimp only
  split <;> exact ⟨_, _, State.die_setDie_same _ _ _⟩
@[simp] theorem markUnit_cur : (markUnit s d cls k u).cur = s.cur := by unfold markUnit; dsimp only; split <;> rfl
@[simp] theorem markUnit_mem : (markUnit s d cls k u).mem = s.mem := by unfold markUnit; dsimp only; split <;> rfl
@[simp] theorem markUnit_dies : (markUnit s d cls k u).dies = s.dies := by unfold markUnit; dsimp only; split <;> rfl
@[simp] theorem markUnit_die (e : Nat) : (markUnit s d cls k u).die e = s.die e := by
  unfold State.die; rw [markUnit_dies]

/-- Between two states one more error of a class is logged on a die, and counted of a unit. -/
def Counted (s t : State) (d cls : Nat) (k : UnitKind) (u : Nat) : Prop :=
  (t.die d).errSeq = (s.die d).errSeq + 1 ∧
    errCount (t.die d) cls k u = min (errCount (s.die d) cls k u + 1) 0xFFFFFFFF
theorem counted_logError : Counted s (logError s d cls k u pa) d cls k u := by
  obtain ⟨log, old, h⟩ := logError_die s d cls k u pa
  rw [Counted, h]
  simp [errCount]
variable {s d cls k u} in
theorem Counted.of_die {t v : State} (h : Counted s t d cls k u) (hq : (v.die d).errSeq = (t.die d).errSeq)
    (he : (v.die d).errs = (t.die d).errs) : Counted s v d cls k u := by
  unfold Counted errCount at *
  rwa [hq, he]
end

/-! ### Corrected errors (R402, R403) -/

/-- A corrected error is logged and counted, and may mark a unit. -/
theorem execCorrectedError_eq {s : State} {d u pa : Nat} {k : UnitKind} (h : errorAt s.fw d k u pa = true) :
    ∃ t, exec (.correctedError d k u pa) s = .next t ∧
      (t = logError s d clsCorrected k u (errorPa k pa) ∨
        ∃ l v, t = markUnit (logError s d clsCorrected k u (errorPa k pa)) d clsCorrected l v) := by
  show ∃ t, execCorrectedError d k u pa s = .next t ∧ _
  unfold execCorrectedError
  simp only [h, Bool.not_true, Bool.false_eq_true, if_false]
  refine ⟨_, rfl, ?_⟩
  split
  · exact .inl rfl
  · split
    · exact .inr ⟨_, _, rfl⟩
    · exact .inl rfl
  · split
    · exact .inr ⟨_, _, rfl⟩
    · exact .inl rfl
theorem correctedError_counts {s : State} {d u pa : Nat} {k : UnitKind} (h : errorAt s.fw d k u pa = true) :
    ∃ t, exec (.correctedError d k u pa) s = .next t ∧ t.cur = s.cur ∧ (t.die d).cores = (s.die d).cores ∧
      Counted s t d clsCorrected k u := by
  have logged := counted_logError s d clsCorrected k u (errorPa k pa)
  obtain ⟨log, old, hd⟩ := logError_die s d clsCorrected k u (errorPa k pa)
  obtain ⟨t, ht, rfl | ⟨l, v, rfl⟩⟩ := execCorrectedError_eq h
  · exact ⟨_, ht, logError_cur .., by rw [hd], logged⟩
  · exact ⟨_, ht, by simp, by rw [markUnit_die, hd], logged.of_die (by rw [markUnit_die]) (by rw [markUnit_die])⟩

/-! ### Uncorrected errors in memory (R398, R403) -/

theorem Memory.poisoned_setPoison (m : Memory) (a : Nat) : (m.setPoison (a / 32)).poisoned a = true := by
  simp [Memory.poisoned, Memory.setPoison, mem_setAdd]
/-- An uncorrected error in memory is logged and its granule poisoned, and it may mark the unit. -/
theorem execUncorrectableError_memory {s : State} {d u pa key : Nat} {k : UnitKind} (h : errorAt s.fw d k u pa = true)
    (hk : k = .channel ∨ k = .l2 ∨ k = .wslice) (hl : locate s.fw pa = .here key) :
    let logged := logError s d clsPoisoned k u (errorPa k pa)
    let v := { logged with mem := logged.mem.setPoison (key / 32) }
    exec (.uncorrectableError d k u pa) s = .next v ∨
      exec (.uncorrectableError d k u pa) s = .next (markUnit v d clsPoisoned k u) := by
  intro logged v
  have marks : exec (.uncorrectableError d k u pa) s =
      .next (if 4 ≤ errCount (v.die d) clsPoisoned k u then markUnit v d clsPoisoned k u else v) := by
    show execUncorrectableError d k u pa s = _
    unfold execUncorrectableError
    simp only [h, hl, Bool.not_true, Bool.false_eq_true, if_false]
    obtain rfl | rfl | rfl := hk <;> rfl
  rw [marks]
  split
  · exact .inr rfl
  · exact .inl rfl
theorem uncorrectableError_poisons {s : State} {d u pa key : Nat} {k : UnitKind} (h : errorAt s.fw d k u pa = true)
    (hk : k = .channel ∨ k = .l2 ∨ k = .wslice) (hl : locate s.fw pa = .here key) :
    ∃ t, exec (.uncorrectableError d k u pa) s = .next t ∧ t.cur = s.cur ∧ Counted s t d clsPoisoned k u ∧
      t.mem.poisoned key = true := by
  have logged := counted_logError s d clsPoisoned k u (errorPa k pa)
  rcases execUncorrectableError_memory h hk hl with hv | hv
  · exact ⟨_, hv, logError_cur .., logged, Memory.poisoned_setPoison _ _⟩
  · refine ⟨_, hv, (markUnit_cur ..).trans (logError_cur ..), logged.of_die ?_ ?_, ?_⟩
    · rw [markUnit_die]; rfl
    · rw [markUnit_die]; rfl
    · rw [markUnit_mem]; exact Memory.poisoned_setPoison _ _

/-! ### Uncorrected errors in array storage (R398) -/

theorem ArrReg.strike_poisons {r : ArrReg} {g : Nat} (h1 : r.sbase.toNat ≤ g) (h2 : g - r.sbase.toNat < r.gran.length) :
    ((r.strike g).gran.getD (g - r.sbase.toNat) Granule.zero).poison = true := by
  unfold ArrReg.strike
  rw [if_pos ⟨h1, h2⟩, listSet_getD_same _ _ _ h2]
/-- A register that holds no storage is not struck. -/
@[simp] theorem ArrReg.reset_strike (g : Nat) : ArrReg.reset.strike g = ArrReg.reset := by
  simp [ArrReg.strike, ArrReg.reset]
/-- Register `n` of slot `z` of a core that was struck is the register struck. -/
theorem CoreSt.strike_reg (k : CoreSt) (g z n : Nat) :
    ((k.strike g).slot z).arr.regs.getD n ArrReg.reset = ((k.slot z).arr.regs.getD n ArrReg.reset).strike g := by
  have all : ∀ l : List ArrReg, (l.map (ArrReg.strike · g)).getD n ArrReg.reset = (l.getD n ArrReg.reset).strike g := by
    intro l
    simp only [List.getD_eq_getElem?_getD, List.getElem?_map]
    cases l[n]? <;> simp
  have none : Slot.reset.arr.regs.getD n ArrReg.reset = ArrReg.reset := by
    simp only [Slot.reset, ArrState.reset, List.getD_eq_getElem?_getD, List.getElem?_replicate]
    split <;> rfl
  exact spGet_map (R := fun x y : Slot => y.arr.regs.getD n ArrReg.reset = (x.arr.regs.getD n ArrReg.reset).strike g)
    (d := Slot.reset) (m := (k.strike g).slots) rfl (by rw [none, ArrReg.reset_strike]) (fun _ => ⟨rfl, all _⟩) z
@[simp] theorem State.core_setCore_same (s : State) (d c : Nat) (k : CoreSt) : (s.setCore d c k).core d c = k := by
  simp [State.core, State.setCore]

/-- Array register `n` of slot `z` of a core. -/
def slotReg (s : State) (d c z n : Nat) : ArrReg := ((s.core d c).slot z).arr.regs.getD n ArrReg.reset
/-- Between two states each register of a core whose storage holds granule `g` has it poisoned. -/
def Struck (s t : State) (d c g : Nat) : Prop :=
  ∀ z n, (slotReg s d c z n).sbase.toNat ≤ g → g - (slotReg s d c z n).sbase.toNat < (slotReg s d c z n).gran.length →
    ((slotReg t d c z n).gran.getD (g - (slotReg s d c z n).sbase.toNat) Granule.zero).poison = true

section
variable (s : State) (d cls u g : Nat)

/-- An error logged of a bank, and its granule struck. -/
def bankStruck : State :=
  let t := logError s d cls .bank u 0
  t.setCore d (u / 64) ((t.core d (u / 64)).strike g)
@[simp] theorem bankStruck_cur : (bankStruck s d cls u g).cur = s.cur := logError_cur ..
theorem counted_bankStruck : Counted s (bankStruck s d cls u g) d cls .bank u :=
  (counted_logError s d cls .bank u 0).of_die (by simp [bankStruck, State.setCore])
    (by simp [bankStruck, State.setCore])
theorem struck_bankStruck : Struck s (bankStruck s d cls u g) d (u / 64) g := by
  have same : (logError s d cls .bank u 0).core d (u / 64) = s.core d (u / 64) := by
    obtain ⟨log, old, h⟩ := logError_die s d cls .bank u 0
    unfold State.core
    rw [h]
    rfl
  intro z n h1 h2
  have struck : slotReg (bankStruck s d cls u g) d (u / 64) z n = (slotReg s d (u / 64) z n).strike g := by
    rw [slotReg, bankStruck, State.core_setCore_same, CoreSt.strike_reg, same, slotReg]
  rw [struck]
  exact ArrReg.strike_poisons h1 h2
end

theorem strikeBank_none {s : State} {d u g : Nat} (h : maskedIn s d (u / 64) g = none) :
    strikeBank d u g s = bankStruck s d clsPoisoned u g := by
  unfold strikeBank
  dsimp only
  rw [h]
  rfl
theorem strikeBank_own {s : State} {d u g : Nat} (h : maskedIn s d (u / 64) g = some s.cur.tid) :
    strikeBank d u g s = { bankStruck s d clsLatent u g with cur := s.cur.orFlags flgPZ } := by
  have hc : (bankStruck s d clsLatent u g).cur = s.cur := bankStruck_cur ..
  unfold strikeBank
  dsimp only
  rw [h]
  show (bankStruck s d clsLatent u g).modThread s.cur.tid _ = _
  unfold State.modThread
  rw [hc, if_pos rfl]
theorem execUncorrectableError_bank {s : State} {d u pa : Nat} (h : errorAt s.fw d .bank u pa = true) :
    exec (.uncorrectableError d .bank u pa) s = .next (strikeBank d u (1024 * (u % 64) + pa) s) := by
  show execUncorrectableError d .bank u pa s = _
  unfold execUncorrectableError
  rw [h]
  rfl

theorem bankError_strikes {s : State} {d u pa : Nat} (h : errorAt s.fw d .bank u pa = true)
    (hm : maskedIn s d (u / 64) (1024 * (u % 64) + pa) = none) :
    ∃ t, exec (.uncorrectableError d .bank u pa) s = .next t ∧ t.cur = s.cur ∧ Counted s t d clsPoisoned .bank u ∧
      Struck s t d (u / 64) (1024 * (u % 64) + pa) :=
  ⟨_, (execUncorrectableError_bank h).trans (congrArg _ (strikeBank_none hm)), bankStruck_cur .., counted_bankStruck ..,
    struck_bankStruck _ _ _ _ _⟩
theorem bankError_latent {s : State} {d u pa : Nat} (h : errorAt s.fw d .bank u pa = true)
    (hm : maskedIn s d (u / 64) (1024 * (u % 64) + pa) = some s.cur.tid) :
    ∃ t, exec (.uncorrectableError d .bank u pa) s = .next t ∧ t.cur = merged (flgPZ.setWidth 64) s ∧
      Counted s t d clsLatent .bank u ∧ Struck s t d (u / 64) (1024 * (u % 64) + pa) :=
  ⟨_, (execUncorrectableError_bank h).trans (congrArg _ (strikeBank_own hm)), rfl, counted_bankStruck ..,
    struck_bankStruck _ _ _ _ _⟩

/-! ### Threads that are stopped (R23, R404) -/

section
variable (s : State) (mine : Thread → Bool)

theorem clearRecords_die {α : Type} (field : DieSt → α) (h : ∀ e x p, field (DieSt.clearRecords x e p) = field x)
    (p : Tid → Bool) (d : Nat) : field ((s.clearRecords p).die d) = field (s.die d) :=
  State.die_map_field field (s := s) (t := s.clearRecords p) rfl (fun _ => ⟨rfl, h _ _ _⟩) d
theorem stopThreads_die {α : Type} (field : DieSt → α) (h : ∀ e x p, field (DieSt.clearRecords x e p) = field x) (d : Nat) :
    field ((stopThreads s mine).die d) = field (s.die d) := by
  unfold stopThreads
  dsimp only
  split
  · rfl
  · exact clearRecords_die s field h _ d
@[simp] theorem stopThreads_mem : (stopThreads s mine).mem = s.mem := by
  unfold stopThreads; dsimp only; split <;> rfl
/-- A bound thread that is stopped is to leave at once (R94). -/
theorem stopThreads_cur : (stopThreads s mine).cur = if mine s.cur && s.cur.status == .bound then
    { s.cur with leaving := true, csr := { s.cur.csr with yreq := true, count := some 0 } } else s.cur := by
  unfold stopThreads; dsimp only; split <;> rfl
end

/-! ### A core that fails (R404) -/

/-- Threads listed once each after those of a list leave no list empty but the empty one. -/
theorem eq_nil_of_listed_nil (ts : List Tid) {l : List Tid}
    (h : ts.foldl (fun l t => if l.contains t then l else l ++ [t]) l = []) : l = [] := by
  induction ts generalizing l with
  | nil => exact h
  | cons t r ih =>
    have first : (if l.contains t then l else l ++ [t]) = [] := ih h
    split at first
    · exact first
    · simp at first
/-- On a core on which there are no threads the current thread is not bound. -/
theorem notOn_of_threadsOnCore_nil {s : State} {d c : Nat} (h : threadsOnCore s d c = []) :
    (s.cur.status == .bound && s.cur.onCore d c) = false := by
  have none := List.filter_eq_nil_iff.mp (List.map_eq_nil_iff.mp (eq_nil_of_listed_nil _ h)) s.cur List.mem_cons_self
  exact Bool.eq_false_iff.mpr none

/-- The state in which a core's failure is logged and marked and the core counted among those that have failed, what it was
doing still in place. -/
def coreDown (s : State) (d c : Nat) : State :=
  let u := markUnit (logError s d clsFailure .core c 0) d clsFailure .core c
  let v := u.setDie d { u.die d with deadCores := setAdd (u.die d).deadCores c }
  { v with fw := { v.fw with replace := v.fw.replace || limitReached v } }
/-- Its die is that of the logged error, with the core among the failed ones. -/
theorem coreDown_die (s : State) (d c : Nat) : ∃ x : DieSt, x.fabQueue = (s.die d).fabQueue ∧ x.cores = (s.die d).cores ∧
      (coreDown s d c).die d = { x with deadCores := setAdd (s.die d).deadCores c } := by
  obtain ⟨log, old, h⟩ := logError_die s d clsFailure .core c 0
  refine ⟨(logError s d clsFailure .core c 0).die d, by rw [h], by rw [h], (State.die_setDie_same _ _ _).trans ?_⟩
  rw [markUnit_die, h]
@[simp] theorem coreDown_cur (s : State) (d c : Nat) : (coreDown s d c).cur = s.cur := by simp [coreDown]
theorem dropCommands_deadCores (x : DieSt) (c : Nat) : (x.dropCommands c).1.deadCores = x.deadCores := rfl
/-- Where a die has no fabric command and its core no matrix entry, no register waits for what the core is to do. -/
theorem dropCommands_regs {x : DieSt} {c : Nat} (hf : x.fabQueue = []) (hq : (x.core c).queue = []) :
    (x.dropCommands c).2.regs = [] := by
  simp [DieSt.dropCommands, hf, hq]
theorem modThread_dies (s : State) (t : Tid) (f : Thread → Thread) : (s.modThread t f).dies = s.dies := by
  unfold State.modThread; split <;> rfl

/-- Core `c` of die `d` has failed since `s`, and the current thread is as it was if no register waited for what the die's
fabric and the core's matrix engine were to do. -/
def CoreLost (s : State) (d c : Nat) (v : State) : Prop :=
  c ∈ (v.die d).deadCores ∧ ((s.die d).fabQueue = [] → (s.core d c).queue = [] → v.cur = s.cur)

section
variable {s v w : State} {d c : Nat}

theorem CoreLost.of_die (h : CoreLost s d c v) (hc : w.cur = v.cur) (hd : (w.die d).deadCores = (v.die d).deadCores) :
    CoreLost s d c w :=
  ⟨hd ▸ h.1, fun hf hq => hc.trans (h.2 hf hq)⟩
theorem coreLost_coreDown : CoreLost s d c (coreDown s d c) := by
  obtain ⟨x, -, -, hx⟩ := coreDown_die s d c
  refine ⟨?_, fun _ _ => coreDown_cur ..⟩
  rw [hx]
  exact (mem_setAdd _ _ _).mpr (.inl rfl)
theorem CoreLost.of_stands (h : CoreLost s d c v) (hw : Stands v.cur d c w) : CoreLost s d c w :=
  ⟨hw.2, fun hf hq => hw.1.trans (h.2 hf hq)⟩
theorem coreDown_regs (hf : (s.die d).fabQueue = []) (hq : (s.core d c).queue = []) :
    (((coreDown s d c).die d).dropCommands c).2.regs = [] := by
  obtain ⟨x, hx1, hx2, hx⟩ := coreDown_die s d c
  refine dropCommands_regs (by rw [hx]; exact hx1.trans hf) ?_
  rw [hx, DieSt.core, hx2]
  exact hq
/-- No thread of the core is bound, so none is stopped or cut off. -/
theorem CoreLost.stopThreads (h : CoreLost s d c v) (hn : (s.cur.status == .bound && s.cur.onCore d c) = false) :
    CoreLost s d c (stopThreads v fun t => t.onCore d c) := by
  refine ⟨(stopThreads_die v _ DieSt.deadCores (fun _ _ _ => rfl) d).symm ▸ h.1, fun hf hq => ?_⟩
  rw [stopThreads_cur, h.2 hf hq, Bool.and_comm, hn]
  rfl
theorem CoreLost.cutOff (h : CoreLost s d c v) (hn : (s.cur.status == .bound && s.cur.onCore d c) = false)
    (hc : w.cur = if v.cur.status == .bound && v.cur.onCore d c then v.cur.cutOff else v.cur) (hd : w.dies = v.dies) :
    CoreLost s d c w := by
  refine ⟨by unfold State.die; rw [hd]; exact h.1, fun hf hq => ?_⟩
  rw [hc, h.2 hf hq, hn]
  rfl
/-- A core on which there are no threads fails. -/
theorem failCore_answers (ht : threadsOnCore s d c = []) :
    ∃ t, failCore d c s = .ok ((), t) ∧ CoreLost s d c t := by
  have free := notOn_of_threadsOnCore_nil ht
  unfold failCore
  rw [bind_ok (get_run s)]
  dsimp only
  rw [ht]
  -- The failure is logged and marked, the core counted as failed, the limits looked at.
  refine bind_answers (P := (· = _)) ⟨_, rfl, rfl⟩ ?_
  rintro _ rfl
  refine bind_answers (P := (· = _)) ⟨_, rfl, rfl⟩ ?_
  rintro _ rfl
  refine bind_answers (P := (· = coreDown s d c)) ⟨_, rfl, rfl⟩ ?_
  rintro _ rfl
  -- The core's commands are dropped, and the registers that waited for them wait no more.
  rw [bind_ok (get_run _)]
  have dropped : CoreLost s d c ((coreDown s d c).setDie d (((coreDown s d c).die d).dropCommands c).1) :=
    coreLost_coreDown.of_die rfl (by rw [State.die_setDie_same, dropCommands_deadCores])
  refine bind_answers (P := CoreLost s d c) (modify_answers dropped) fun v hv => ?_
  refine bind_answers (P := CoreLost s d c) (forEach_answers _ hv ?_) fun v hv => ?_
  · intro p hp v hv
    refine modify_answers ⟨by unfold State.die; rw [modThread_dies]; exact hv.1, fun hf hq => ?_⟩
    rw [coreDown_regs hf hq] at hp
    cases hp
  -- No thread of the core is stopped, and none has lost its array state.
  refine bind_answers (P := CoreLost s d c) (modify_answers ((hv.stopThreads free).cutOff free rfl rfl)) fun v hv => ?_
  refine bind_answers (P := CoreLost s d c) ⟨v, rfl, hv⟩ fun v hv => ?_
  refine bind_answers (P := CoreLost s d c) ⟨v, rfl, hv⟩ fun v hv => ?_
  -- The records of the dropped commands are posted, or owed.
  refine forEach_answers _ hv fun p _ v hv => ?_
  obtain ⟨r, t, ht⟩ := attempt_answers (postRecord (deviceCtx d p.1) p.2) v
  have posted : CoreLost s d c t :=
    hv.of_stands (carries_attempt (carries_postRecord (x := deviceCtx d p.1) rfl p.2) v ⟨rfl, hv.1⟩ r t ht)
  rw [bind_ok ht]
  cases r with
  | ok _ => exact ⟨t, rfl, posted⟩
  | error _ => exact ⟨_, rfl, posted.of_die rfl rfl⟩
end
theorem not_mem_workingCores {s : State} {d c : Nat} (h : c ∈ (s.die d).deadCores) : c ∉ workingCores s d := by
  intro hw
  simp [workingCores, h] at hw
theorem coreFailure_fails {s : State} {d c : Nat} (hd : d < 8) (hc : c < 32) (hw : c ∈ workingCores s d)
    (ht : threadsOnCore s d c = []) : ∃ t, exec (.coreFailure d c) s = .next t ∧ c ∉ workingCores t d ∧
      ((s.die d).fabQueue = [] → (s.core d c).queue = [] → t.cur = s.cur) := by
  obtain ⟨v, hv, lost⟩ := failCore_answers (s := s) (d := d) ht
  have ready : enabled (decide (d < 8) && decide (c < 32) && (workingCores s d).contains c) s = .ok ((), s) := by
    simp [enabled, hd, hc, hw]; rfl
  have kept : CoreLost s d c (dropUnres (deviceCtx d s.cur.tid) (dropRemotes v (deviceCtx d s.cur.tid).who)) := by
    unfold dropUnres
    split <;> exact lost.of_die rfl rfl
  refine ⟨_, congrArg (Machine.goes s) (device_ok ((bind_ok ready).trans hv)), not_mem_workingCores kept.1, kept.2⟩

/-! ### Thermal stops (R22, R23) -/

theorem execThermalStop_eq {s : State} {d : Nat} (h : (s.die d).stopped = false) : exec (.thermalStop d) s =
    .next (stopThreads (s.setDie d { s.die d with stopped := true }) fun x => x.place.all.any fun p => p.1 == d) := by
  show execThermalStop d s = _
  unfold execThermalStop
  rw [h]
  rfl
theorem thermalStop_stops {s : State} {d : Nat} (h : (s.die d).stopped = false) :
    ∃ t, exec (.thermalStop d) s = .next t ∧ t.mem = s.mem ∧ (t.die d).stopped = true ∧
      (s.cur.status = .bound → (∃ p ∈ s.cur.place.all, p.1 = d) → t.cur.preemptDue = true) := by
  refine ⟨_, execThermalStop_eq h, stopThreads_mem _ _, ?_, fun hb hp => ?_⟩
  · rw [stopThreads_die _ _ DieSt.stopped fun _ _ _ => rfl, State.die_setDie_same]
  · have on : (s.cur.place.all.any fun p => p.1 == d) = true := by simpa using hp
    rw [stopThreads_cur, State.setDie_cur, on, hb]
    simp [Thread.preemptDue, hb]
theorem thermalResume_resumes {s : State} {d : Nat} (h : (s.die d).stopped = true) :
    exec (.thermalResume d) s = .next (s.setDie d { s.die d with stopped := false }) := by
  show execThermalResume d s = _
  unfold execThermalResume
  rw [if_pos h]

/-! ### Power (R405) -/

/-- A copy of the retirement table that was not being written is kept (R405, R419). -/
theorem coldState_whole (s : State) : (coldState s false).fw.tabA = s.fw.tabA ∧ (coldState s false).fw.tabB = s.fw.tabB ∧
    (coldState s false).fw.resetCount = s.fw.resetCount := ⟨rfl, rfl, rfl⟩
theorem retEntries_of_tables {f g : Firmware} (ha : f.tabA = g.tabA) (hb : f.tabB = g.tabB) :
    retEntries f = retEntries g := by
  unfold retEntries curTable
  rw [ha, hb]
theorem powerLoss_keeps (s : State) : ∃ t, exec (.powerLoss false) s = .next t ∧ t.powered = false ∧ t.regions = [] ∧
    t.mem = Memory.reset ∧ t.fw.tabA = s.fw.tabA ∧ t.fw.tabB = s.fw.tabB ∧ t.fw.resetCount = s.fw.resetCount :=
  ⟨_, rfl, rfl, rfl, rfl, coldState_whole s⟩
theorem powerUp_keeps {s : State} (h : s.powered = false) : ∃ t, exec .powerUp s = .next t ∧ t.powered = true ∧
    t.regions = [] ∧ t.fw.m = none ∧ t.fw.accepted = 0x1C#64 ∧ retEntries t.fw = retEntries s.fw := by
  obtain ⟨ha, hb, -⟩ := coldState_whole s
  refine ⟨{ coldState s false with powered := true }, ?_, rfl, rfl, rfl, rfl, retEntries_of_tables ha hb⟩
  show execPowerUp s = _
  unfold execPowerUp
  rw [if_neg (by simp [h])]

/-! ### The statement -/

/-- Settles O53, each clause by the lemma about its step. -/
theorem errorSteps : Obligations.ErrorSteps := by
  intro s d u pa k goes counted
  refine ⟨correctedError_counts, fun key h hk hl => uncorrectableError_poisons h hk hl, ?_,
    fun hd hu hw ht _ => coreFailure_fails hd hu hw ht, thermalStop_stops, thermalResume_resumes, powerLoss_keeps s,
    powerUp_keeps⟩
  rintro rfl h
  exact ⟨bankError_strikes h, bankError_latent h⟩

end Sys2Proof.Machine
end
